-- ==== Sys2Proof/Word.lean ====
section
/-! DEFINITION. The word types of the machine: bytes, 16-bit words and 24-bit addresses
(00_scope.md R8, R9). -/

namespace Sys2Proof

/-- A byte: the unit of memory and of the instruction stream. -/
abbrev Byte := BitVec 8

/-- A 16-bit register value, offset or data word. -/
abbrev Word := BitVec 16

/-- A 24-bit address: an 8-bit bank above a 16-bit offset. -/
abbrev Addr := BitVec 24

end Sys2Proof
end

