-- ==== Sys2Proof/Config.lean ====
section
/-! DEFINITION. What the spec leaves open and no state holds: the bytes that devices outside the core
put on the bus. The parameters of a session (00_scope.md R8) are plain data and stand in
`Sys2Proof.Machine.Params`. -/

namespace Sys2Proof

/-- FREE VALUE (notes/assumptions/2.md). `FACADE_READ` of 00_scope.md R8: the byte the n-th read from
a device answers when that read is of a peripheral façade (20_memory.md R97). It has no body, so
every statement holds whatever these bytes are. -/
opaque Config.facadeRead : Nat → Byte

/-- FREE VALUE (notes/assumptions/2.md). `INTREG_IN` of 00_scope.md R8: the byte the n-th read from a
device answers when that read is of a read-only internal CPU register (20_memory.md R94, R95). -/
opaque Config.intRegIn : Nat → Byte

/-- `WRAM_SIZE` of 00_scope.md R8: 128 KiB. -/
def Config.wramSize : Nat := 0x20000

end Sys2Proof
end

