-- ==== Sys2Proof/Syntax.lean ====
section
/-! DEFINITION. The whole instruction set as syntax: one constructor of `Instr` per row of
spec/opcode_table.json (30_encoding.md R126), the formats of R122 and the mnemonics of R127.
An instruction carries its operand fields and nothing else. -/

namespace Sys2Proof

/-- The operand of the formats IMM_M and IMM_X: one byte or two, by the flag `M` or `X` at the
moment of decoding (30_encoding.md R123). -/
inductive Imm where
  | byte (v : Byte)
  | word (v : Word)
  deriving DecidableEq, Repr

/-- The 28 formats (addressing modes) of 30_encoding.md R122, each with its operand field. -/
inductive Form where
  | imp
  | stk
  | acc
  | immM (v : Imm)
  | immX (v : Imm)
  | imm8 (v : Byte)
  | imm16 (v : Word)
  | abs (a : Word)
  | absX (a : Word)
  | absY (a : Word)
  | absInd (a : Word)
  | absIndX (a : Word)
  | absIndLong (a : Word)
  | long (a : Addr)
  | longX (a : Addr)
  | dp (d : Byte)
  | dpX (d : Byte)
  | dpY (d : Byte)
  | dpInd (d : Byte)
  | dpIndX (d : Byte)
  | dpIndY (d : Byte)
  | dpIndLong (d : Byte)
  | dpIndLongY (d : Byte)
  | sr (d : Byte)
  | srIndY (d : Byte)
  | rel8 (r : Byte)
  | rel16 (r : Word)
  | blk (dd ss : Byte)
  deriving DecidableEq, Repr

/-- The 92 mnemonics of the opcode listing (30_encoding.md R127). -/
inductive Mnemonic where
  | lda | ldx | ldy
  | sta | stx | sty | stz
  | adc | sbc | cmp | cpx | cpy
  | inc | dec
  | and | ora | eor | bit | tsb | trb
  | asl | lsr | rol | ror
  | bpl | bmi | bvc | bvs | bcc | bcs | bne | beq | bra | brl
  | jmp | jml | jsr | jsl | rts | rtl
  | pea | pei | per
  | rep | sep | wdm
  | brk | cop | rti
  | mvn | mvp
  | tax | tay | txa | tya | tsx | txs | tdc | tcd | tsc | tcs | xba | txy | tyx
  | inx | iny | dex | dey
  | pha | phx | phy | phb | phd | phk | php
  | pla | plx | ply | plb | pld | plp
  | clc | cld | cli | clv | sec | sed | sei
  | nop | xce | wai | stp
  deriving DecidableEq, Repr

/-- One constructor per row of the opcode listing (30_encoding.md R126), by the spec's families,
those without operand field last (Lean's runtime gives no field to a constructor past the 244th). The
name is the mnemonic followed by the format where the mnemonic has several. -/
inductive Instr where
  -- Loads (41_load_store_transfer.md section 2)
  | ldaDpIndX (d : Byte)
  | ldaSr (d : Byte)
  | ldaDp (d : Byte)
  | ldaDpIndLong (d : Byte)
  | ldaImm (v : Imm)
  | ldaAbs (a : Word)
  | ldaLong (a : Addr)
  | ldaDpIndY (d : Byte)
  | ldaDpInd (d : Byte)
  | ldaSrIndY (d : Byte)
  | ldaDpX (d : Byte)
  | ldaDpIndLongY (d : Byte)
  | ldaAbsY (a : Word)
  | ldaAbsX (a : Word)
  | ldaLongX (a : Addr)
  | ldxImm (v : Imm)
  | ldxDp (d : Byte)
  | ldxAbs (a : Word)
  | ldxDpY (d : Byte)
  | ldxAbsY (a : Word)
  | ldyImm (v : Imm)
  | ldyDp (d : Byte)
  | ldyAbs (a : Word)
  | ldyDpX (d : Byte)
  | ldyAbsX (a : Word)
  -- Stores (41_load_store_transfer.md section 3)
  | staDpIndX (d : Byte)
  | staSr (d : Byte)
  | staDp (d : Byte)
  | staDpIndLong (d : Byte)
  | staAbs (a : Word)
  | staLong (a : Addr)
  | staDpIndY (d : Byte)
  | staDpInd (d : Byte)
  | staSrIndY (d : Byte)
  | staDpX (d : Byte)
  | staDpIndLongY (d : Byte)
  | staAbsY (a : Word)
  | staAbsX (a : Word)
  | staLongX (a : Addr)
  | stxDp (d : Byte)
  | stxAbs (a : Word)
  | stxDpY (d : Byte)
  | styDp (d : Byte)
  | styAbs (a : Word)
  | styDpX (d : Byte)
  | stzDp (d : Byte)
  | stzDpX (d : Byte)
  | stzAbs (a : Word)
  | stzAbsX (a : Word)
  -- Add, subtract and compare (42_arith_logic_shift.md section 2)
  | adcDpIndX (d : Byte)
  | adcSr (d : Byte)
  | adcDp (d : Byte)
  | adcDpIndLong (d : Byte)
  | adcImm (v : Imm)
  | adcAbs (a : Word)
  | adcLong (a : Addr)
  | adcDpIndY (d : Byte)
  | adcDpInd (d : Byte)
  | adcSrIndY (d : Byte)
  | adcDpX (d : Byte)
  | adcDpIndLongY (d : Byte)
  | adcAbsY (a : Word)
  | adcAbsX (a : Word)
  | adcLongX (a : Addr)
  | sbcDpIndX (d : Byte)
  | sbcSr (d : Byte)
  | sbcDp (d : Byte)
  | sbcDpIndLong (d : Byte)
  | sbcImm (v : Imm)
  | sbcAbs (a : Word)
  | sbcLong (a : Addr)
  | sbcDpIndY (d : Byte)
  | sbcDpInd (d : Byte)
  | sbcSrIndY (d : Byte)
  | sbcDpX (d : Byte)
  | sbcDpIndLongY (d : Byte)
  | sbcAbsY (a : Word)
  | sbcAbsX (a : Word)
  | sbcLongX (a : Addr)
  | cmpDpIndX (d : Byte)
  | cmpSr (d : Byte)
  | cmpDp (d : Byte)
  | cmpDpIndLong (d : Byte)
  | cmpImm (v : Imm)
  | cmpAbs (a : Word)
  | cmpLong (a : Addr)
  | cmpDpIndY (d : Byte)
  | cmpDpInd (d : Byte)
  | cmpSrIndY (d : Byte)
  | cmpDpX (d : Byte)
  | cmpDpIndLongY (d : Byte)
  | cmpAbsY (a : Word)
  | cmpAbsX (a : Word)
  | cmpLongX (a : Addr)
  | cpxImm (v : Imm)
  | cpxDp (d : Byte)
  | cpxAbs (a : Word)
  | cpyImm (v : Imm)
  | cpyDp (d : Byte)
  | cpyAbs (a : Word)
  -- Increment and decrement (42_arith_logic_shift.md section 3)
  | incAcc
  | incDp (d : Byte)
  | incAbs (a : Word)
  | incDpX (d : Byte)
  | incAbsX (a : Word)
  | decAcc
  | decDp (d : Byte)
  | decAbs (a : Word)
  | decDpX (d : Byte)
  | decAbsX (a : Word)
  -- Logic and bit tests (42_arith_logic_shift.md section 4)
  | andDpIndX (d : Byte)
  | andSr (d : Byte)
  | andDp (d : Byte)
  | andDpIndLong (d : Byte)
  | andImm (v : Imm)
  | andAbs (a : Word)
  | andLong (a : Addr)
  | andDpIndY (d : Byte)
  | andDpInd (d : Byte)
  | andSrIndY (d : Byte)
  | andDpX (d : Byte)
  | andDpIndLongY (d : Byte)
  | andAbsY (a : Word)
  | andAbsX (a : Word)
  | andLongX (a : Addr)
  | oraDpIndX (d : Byte)
  | oraSr (d : Byte)
  | oraDp (d : Byte)
  | oraDpIndLong (d : Byte)
  | oraImm (v : Imm)
  | oraAbs (a : Word)
  | oraLong (a : Addr)
  | oraDpIndY (d : Byte)
  | oraDpInd (d : Byte)
  | oraSrIndY (d : Byte)
  | oraDpX (d : Byte)
  | oraDpIndLongY (d : Byte)
  | oraAbsY (a : Word)
  | oraAbsX (a : Word)
  | oraLongX (a : Addr)
  | eorDpIndX (d : Byte)
  | eorSr (d : Byte)
  | eorDp (d : Byte)
  | eorDpIndLong (d : Byte)
  | eorImm (v : Imm)
  | eorAbs (a : Word)
  | eorLong (a : Addr)
  | eorDpIndY (d : Byte)
  | eorDpInd (d : Byte)
  | eorSrIndY (d : Byte)
  | eorDpX (d : Byte)
  | eorDpIndLongY (d : Byte)
  | eorAbsY (a : Word)
  | eorAbsX (a : Word)
  | eorLongX (a : Addr)
  | bitDp (d : Byte)
  | bitAbs (a : Word)
  | bitDpX (d : Byte)
  | bitAbsX (a : Word)
  | bitImm (v : Imm)
  | tsbDp (d : Byte)
  | tsbAbs (a : Word)
  | trbDp (d : Byte)
  | trbAbs (a : Word)
  -- Shifts and rotates (42_arith_logic_shift.md section 5)
  | aslDp (d : Byte)
  | aslAcc
  | aslAbs (a : Word)
  | aslDpX (d : Byte)
  | aslAbsX (a : Word)
  | lsrDp (d : Byte)
  | lsrAcc
  | lsrAbs (a : Word)
  | lsrDpX (d : Byte)
  | lsrAbsX (a : Word)
  | rolDp (d : Byte)
  | rolAcc
  | rolAbs (a : Word)
  | rolDpX (d : Byte)
  | rolAbsX (a : Word)
  | rorDp (d : Byte)
  | rorAcc
  | rorAbs (a : Word)
  | rorDpX (d : Byte)
  | rorAbsX (a : Word)
  -- Branches (43_control_transfer.md section 1)
  | bpl (r : Byte)
  | bmi (r : Byte)
  | bvc (r : Byte)
  | bvs (r : Byte)
  | bcc (r : Byte)
  | bcs (r : Byte)
  | bne (r : Byte)
  | beq (r : Byte)
  | bra (r : Byte)
  | brl (r : Word)
  -- Jumps, calls and returns (43_control_transfer.md sections 2 and 3)
  | jmpAbs (a : Word)
  | jmpAbsInd (a : Word)
  | jmpAbsIndX (a : Word)
  | jmlLong (a : Addr)
  | jmlAbsIndLong (a : Word)
  | jsrAbs (a : Word)
  | jsrAbsIndX (a : Word)
  | jsl (a : Addr)
  | rts
  | rtl
  -- Push effective address (44_stack.md section 4)
  | pea (v : Word)
  | pei (d : Byte)
  | per (r : Word)
  -- Status bits and the reserved opcode (45_flags_mode_system.md sections 2 and 3)
  | rep (v : Byte)
  | sep (v : Byte)
  | wdm (v : Byte)
  -- Software interrupts and return (45_flags_mode_system.md section 4)
  | brk (v : Byte)
  | cop (v : Byte)
  | rti
  -- Block moves (45_flags_mode_system.md section 6)
  | mvn (dd : Byte) (ss : Byte)
  | mvp (dd : Byte) (ss : Byte)
  -- Register transfers (41_load_store_transfer.md section 4)
  | tax
  | tay
  | txa
  | tya
  | tsx
  | txs
  | tdc
  | tcd
  | tsc
  | tcs
  | xba
  | txy
  | tyx
  -- Index increments and decrements (42_arith_logic_shift.md section 3)
  | inx
  | iny
  | dex
  | dey
  -- Pushes (44_stack.md section 2)
  | pha
  | phx
  | phy
  | phb
  | phd
  | phk
  | php
  -- Pulls (44_stack.md section 3)
  | pla
  | plx
  | ply
  | plb
  | pld
  | plp
  -- Single-flag instructions (45_flags_mode_system.md section 1)
  | clc
  | cld
  | cli
  | clv
  | sec
  | sed
  | sei
  -- No operation, mode switch, wait and stop (45_flags_mode_system.md sections 3 and 5)
  | nop
  | xce
  | wai
  | stp
  deriving DecidableEq, Repr

/-- The format of an instruction with its operand field (the format column of 30_encoding.md R126). -/
def Instr.form : Instr → Form
  | .ldaDpIndX d => .dpIndX d
  | .ldaSr d => .sr d
  | .ldaDp d => .dp d
  | .ldaDpIndLong d => .dpIndLong d
  | .ldaImm v => .immM v
  | .ldaAbs a => .abs a
  | .ldaLong a => .long a
  | .ldaDpIndY d => .dpIndY d
  | .ldaDpInd d => .dpInd d
  | .ldaSrIndY d => .srIndY d
  | .ldaDpX d => .dpX d
  | .ldaDpIndLongY d => .dpIndLongY d
  | .ldaAbsY a => .absY a
  | .ldaAbsX a => .absX a
  | .ldaLongX a => .longX a
  | .ldxImm v => .immX v
  | .ldxDp d => .dp d
  | .ldxAbs a => .abs a
  | .ldxDpY d => .dpY d
  | .ldxAbsY a => .absY a
  | .ldyImm v => .immX v
  | .ldyDp d => .dp d
  | .ldyAbs a => .abs a
  | .ldyDpX d => .dpX d
  | .ldyAbsX a => .absX a
  | .staDpIndX d => .dpIndX d
  | .staSr d => .sr d
  | .staDp d => .dp d
  | .staDpIndLong d => .dpIndLong d
  | .staAbs a => .abs a
  | .staLong a => .long a
  | .staDpIndY d => .dpIndY d
  | .staDpInd d => .dpInd d
  | .staSrIndY d => .srIndY d
  | .staDpX d => .dpX d
  | .staDpIndLongY d => .dpIndLongY d
  | .staAbsY a => .absY a
  | .staAbsX a => .absX a
  | .staLongX a => .longX a
  | .stxDp d => .dp d
  | .stxAbs a => .abs a
  | .stxDpY d => .dpY d
  | .styDp d => .dp d
  | .styAbs a => .abs a
  | .styDpX d => .dpX d
  | .stzDp d => .dp d
  | .stzDpX d => .dpX d
  | .stzAbs a => .abs a
  | .stzAbsX a => .absX a
  | .adcDpIndX d => .dpIndX d
  | .adcSr d => .sr d
  | .adcDp d => .dp d
  | .adcDpIndLong d => .dpIndLong d
  | .adcImm v => .immM v
  | .adcAbs a => .abs a
  | .adcLong a => .long a
  | .adcDpIndY d => .dpIndY d
  | .adcDpInd d => .dpInd d
  | .adcSrIndY d => .srIndY d
  | .adcDpX d => .dpX d
  | .adcDpIndLongY d => .dpIndLongY d
  | .adcAbsY a => .absY a
  | .adcAbsX a => .absX a
  | .adcLongX a => .longX a
  | .sbcDpIndX d => .dpIndX d
  | .sbcSr d => .sr d
  | .sbcDp d => .dp d
  | .sbcDpIndLong d => .dpIndLong d
  | .sbcImm v => .immM v
  | .sbcAbs a => .abs a
  | .sbcLong a => .long a
  | .sbcDpIndY d => .dpIndY d
  | .sbcDpInd d => .dpInd d
  | .sbcSrIndY d => .srIndY d
  | .sbcDpX d => .dpX d
  | .sbcDpIndLongY d => .dpIndLongY d
  | .sbcAbsY a => .absY a
  | .sbcAbsX a => .absX a
  | .sbcLongX a => .longX a
  | .cmpDpIndX d => .dpIndX d
  | .cmpSr d => .sr d
  | .cmpDp d => .dp d
  | .cmpDpIndLong d => .dpIndLong d
  | .cmpImm v => .immM v
  | .cmpAbs a => .abs a
  | .cmpLong a => .long a
  | .cmpDpIndY d => .dpIndY d
  | .cmpDpInd d => .dpInd d
  | .cmpSrIndY d => .srIndY d
  | .cmpDpX d => .dpX d
  | .cmpDpIndLongY d => .dpIndLongY d
  | .cmpAbsY a => .absY a
  | .cmpAbsX a => .absX a
  | .cmpLongX a => .longX a
  | .cpxImm v => .immX v
  | .cpxDp d => .dp d
  | .cpxAbs a => .abs a
  | .cpyImm v => .immX v
  | .cpyDp d => .dp d
  | .cpyAbs a => .abs a
  | .incAcc => .acc
  | .incDp d => .dp d
  | .incAbs a => .abs a
  | .incDpX d => .dpX d
  | .incAbsX a => .absX a
  | .decAcc => .acc
  | .decDp d => .dp d
  | .decAbs a => .abs a
  | .decDpX d => .dpX d
  | .decAbsX a => .absX a
  | .andDpIndX d => .dpIndX d
  | .andSr d => .sr d
  | .andDp d => .dp d
  | .andDpIndLong d => .dpIndLong d
  | .andImm v => .immM v
  | .andAbs a => .abs a
  | .andLong a => .long a
  | .andDpIndY d => .dpIndY d
  | .andDpInd d => .dpInd d
  | .andSrIndY d => .srIndY d
  | .andDpX d => .dpX d
  | .andDpIndLongY d => .dpIndLongY d
  | .andAbsY a => .absY a
  | .andAbsX a => .absX a
  | .andLongX a => .longX a
  | .oraDpIndX d => .dpIndX d
  | .oraSr d => .sr d
  | .oraDp d => .dp d
  | .oraDpIndLong d => .dpIndLong d
  | .oraImm v => .immM v
  | .oraAbs a => .abs a
  | .oraLong a => .long a
  | .oraDpIndY d => .dpIndY d
  | .oraDpInd d => .dpInd d
  | .oraSrIndY d => .srIndY d
  | .oraDpX d => .dpX d
  | .oraDpIndLongY d => .dpIndLongY d
  | .oraAbsY a => .absY a
  | .oraAbsX a => .absX a
  | .oraLongX a => .longX a
  | .eorDpIndX d => .dpIndX d
  | .eorSr d => .sr d
  | .eorDp d => .dp d
  | .eorDpIndLong d => .dpIndLong d
  | .eorImm v => .immM v
  | .eorAbs a => .abs a
  | .eorLong a => .long a
  | .eorDpIndY d => .dpIndY d
  | .eorDpInd d => .dpInd d
  | .eorSrIndY d => .srIndY d
  | .eorDpX d => .dpX d
  | .eorDpIndLongY d => .dpIndLongY d
  | .eorAbsY a => .absY a
  | .eorAbsX a => .absX a
  | .eorLongX a => .longX a
  | .bitDp d => .dp d
  | .bitAbs a => .abs a
  | .bitDpX d => .dpX d
  | .bitAbsX a => .absX a
  | .bitImm v => .immM v
  | .tsbDp d => .dp d
  | .tsbAbs a => .abs a
  | .trbDp d => .dp d
  | .trbAbs a => .abs a
  | .aslDp d => .dp d
  | .aslAcc => .acc
  | .aslAbs a => .abs a
  | .aslDpX d => .dpX d
  | .aslAbsX a => .absX a
  | .lsrDp d => .dp d
  | .lsrAcc => .acc
  | .lsrAbs a => .abs a
  | .lsrDpX d => .dpX d
  | .lsrAbsX a => .absX a
  | .rolDp d => .dp d
  | .rolAcc => .acc
  | .rolAbs a => .abs a
  | .rolDpX d => .dpX d
  | .rolAbsX a => .absX a
  | .rorDp d => .dp d
  | .rorAcc => .acc
  | .rorAbs a => .abs a
  | .rorDpX d => .dpX d
  | .rorAbsX a => .absX a
  | .bpl r => .rel8 r
  | .bmi r => .rel8 r
  | .bvc r => .rel8 r
  | .bvs r => .rel8 r
  | .bcc r => .rel8 r
  | .bcs r => .rel8 r
  | .bne r => .rel8 r
  | .beq r => .rel8 r
  | .bra r => .rel8 r
  | .brl r => .rel16 r
  | .jmpAbs a => .abs a
  | .jmpAbsInd a => .absInd a
  | .jmpAbsIndX a => .absIndX a
  | .jmlLong a => .long a
  | .jmlAbsIndLong a => .absIndLong a
  | .jsrAbs a => .abs a
  | .jsrAbsIndX a => .absIndX a
  | .jsl a => .long a
  | .rts => .stk
  | .rtl => .stk
  | .pea v => .imm16 v
  | .pei d => .dpInd d
  | .per r => .rel16 r
  | .rep v => .imm8 v
  | .sep v => .imm8 v
  | .wdm v => .imm8 v
  | .brk v => .imm8 v
  | .cop v => .imm8 v
  | .rti => .stk
  | .mvn dd ss => .blk dd ss
  | .mvp dd ss => .blk dd ss
  | .tax => .imp
  | .tay => .imp
  | .txa => .imp
  | .tya => .imp
  | .tsx => .imp
  | .txs => .imp
  | .tdc => .imp
  | .tcd => .imp
  | .tsc => .imp
  | .tcs => .imp
  | .xba => .imp
  | .txy => .imp
  | .tyx => .imp
  | .inx => .imp
  | .iny => .imp
  | .dex => .imp
  | .dey => .imp
  | .pha => .stk
  | .phx => .stk
  | .phy => .stk
  | .phb => .stk
  | .phd => .stk
  | .phk => .stk
  | .php => .stk
  | .pla => .stk
  | .plx => .stk
  | .ply => .stk
  | .plb => .stk
  | .pld => .stk
  | .plp => .stk
  | .clc => .imp
  | .cld => .imp
  | .cli => .imp
  | .clv => .imp
  | .sec => .imp
  | .sed => .imp
  | .sei => .imp
  | .nop => .imp
  | .xce => .imp
  | .wai => .imp
  | .stp => .imp

/-- The mnemonic of an instruction (the mnemonic column of 30_encoding.md R126). -/
def Instr.mnemonic : Instr → Mnemonic
  | .ldaDpIndX _ => .lda
  | .ldaSr _ => .lda
  | .ldaDp _ => .lda
  | .ldaDpIndLong _ => .lda
  | .ldaImm _ => .lda
  | .ldaAbs _ => .lda
  | .ldaLong _ => .lda
  | .ldaDpIndY _ => .lda
  | .ldaDpInd _ => .lda
  | .ldaSrIndY _ => .lda
  | .ldaDpX _ => .lda
  | .ldaDpIndLongY _ => .lda
  | .ldaAbsY _ => .lda
  | .ldaAbsX _ => .lda
  | .ldaLongX _ => .lda
  | .ldxImm _ => .ldx
  | .ldxDp _ => .ldx
  | .ldxAbs _ => .ldx
  | .ldxDpY _ => .ldx
  | .ldxAbsY _ => .ldx
  | .ldyImm _ => .ldy
  | .ldyDp _ => .ldy
  | .ldyAbs _ => .ldy
  | .ldyDpX _ => .ldy
  | .ldyAbsX _ => .ldy
  | .staDpIndX _ => .sta
  | .staSr _ => .sta
  | .staDp _ => .sta
  | .staDpIndLong _ => .sta
  | .staAbs _ => .sta
  | .staLong _ => .sta
  | .staDpIndY _ => .sta
  | .staDpInd _ => .sta
  | .staSrIndY _ => .sta
  | .staDpX _ => .sta
  | .staDpIndLongY _ => .sta
  | .staAbsY _ => .sta
  | .staAbsX _ => .sta
  | .staLongX _ => .sta
  | .stxDp _ => .stx
  | .stxAbs _ => .stx
  | .stxDpY _ => .stx
  | .styDp _ => .sty
  | .styAbs _ => .sty
  | .styDpX _ => .sty
  | .stzDp _ => .stz
  | .stzDpX _ => .stz
  | .stzAbs _ => .stz
  | .stzAbsX _ => .stz
  | .adcDpIndX _ => .adc
  | .adcSr _ => .adc
  | .adcDp _ => .adc
  | .adcDpIndLong _ => .adc
  | .adcImm _ => .adc
  | .adcAbs _ => .adc
  | .adcLong _ => .adc
  | .adcDpIndY _ => .adc
  | .adcDpInd _ => .adc
  | .adcSrIndY _ => .adc
  | .adcDpX _ => .adc
  | .adcDpIndLongY _ => .adc
  | .adcAbsY _ => .adc
  | .adcAbsX _ => .adc
  | .adcLongX _ => .adc
  | .sbcDpIndX _ => .sbc
  | .sbcSr _ => .sbc
  | .sbcDp _ => .sbc
  | .sbcDpIndLong _ => .sbc
  | .sbcImm _ => .sbc
  | .sbcAbs _ => .sbc
  | .sbcLong _ => .sbc
  | .sbcDpIndY _ => .sbc
  | .sbcDpInd _ => .sbc
  | .sbcSrIndY _ => .sbc
  | .sbcDpX _ => .sbc
  | .sbcDpIndLongY _ => .sbc
  | .sbcAbsY _ => .sbc
  | .sbcAbsX _ => .sbc
  | .sbcLongX _ => .sbc
  | .cmpDpIndX _ => .cmp
  | .cmpSr _ => .cmp
  | .cmpDp _ => .cmp
  | .cmpDpIndLong _ => .cmp
  | .cmpImm _ => .cmp
  | .cmpAbs _ => .cmp
  | .cmpLong _ => .cmp
  | .cmpDpIndY _ => .cmp
  | .cmpDpInd _ => .cmp
  | .cmpSrIndY _ => .cmp
  | .cmpDpX _ => .cmp
  | .cmpDpIndLongY _ => .cmp
  | .cmpAbsY _ => .cmp
  | .cmpAbsX _ => .cmp
  | .cmpLongX _ => .cmp
  | .cpxImm _ => .cpx
  | .cpxDp _ => .cpx
  | .cpxAbs _ => .cpx
  | .cpyImm _ => .cpy
  | .cpyDp _ => .cpy
  | .cpyAbs _ => .cpy
  | .incAcc => .inc
  | .incDp _ => .inc
  | .incAbs _ => .inc
  | .incDpX _ => .inc
  | .incAbsX _ => .inc
  | .decAcc => .dec
  | .decDp _ => .dec
  | .decAbs _ => .dec
  | .decDpX _ => .dec
  | .decAbsX _ => .dec
  | .andDpIndX _ => .and
  | .andSr _ => .and
  | .andDp _ => .and
  | .andDpIndLong _ => .and
  | .andImm _ => .and
  | .andAbs _ => .and
  | .andLong _ => .and
  | .andDpIndY _ => .and
  | .andDpInd _ => .and
  | .andSrIndY _ => .and
  | .andDpX _ => .and
  | .andDpIndLongY _ => .and
  | .andAbsY _ => .and
  | .andAbsX _ => .and
  | .andLongX _ => .and
  | .oraDpIndX _ => .ora
  | .oraSr _ => .ora
  | .oraDp _ => .ora
  | .oraDpIndLong _ => .ora
  | .oraImm _ => .ora
  | .oraAbs _ => .ora
  | .oraLong _ => .ora
  | .oraDpIndY _ => .ora
  | .oraDpInd _ => .ora
  | .oraSrIndY _ => .ora
  | .oraDpX _ => .ora
  | .oraDpIndLongY _ => .ora
  | .oraAbsY _ => .ora
  | .oraAbsX _ => .ora
  | .oraLongX _ => .ora
  | .eorDpIndX _ => .eor
  | .eorSr _ => .eor
  | .eorDp _ => .eor
  | .eorDpIndLong _ => .eor
  | .eorImm _ => .eor
  | .eorAbs _ => .eor
  | .eorLong _ => .eor
  | .eorDpIndY _ => .eor
  | .eorDpInd _ => .eor
  | .eorSrIndY _ => .eor
  | .eorDpX _ => .eor
  | .eorDpIndLongY _ => .eor
  | .eorAbsY _ => .eor
  | .eorAbsX _ => .eor
  | .eorLongX _ => .eor
  | .bitDp _ => .bit
  | .bitAbs _ => .bit
  | .bitDpX _ => .bit
  | .bitAbsX _ => .bit
  | .bitImm _ => .bit
  | .tsbDp _ => .tsb
  | .tsbAbs _ => .tsb
  | .trbDp _ => .trb
  | .trbAbs _ => .trb
  | .aslDp _ => .asl
  | .aslAcc => .asl
  | .aslAbs _ => .asl
  | .aslDpX _ => .asl
  | .aslAbsX _ => .asl
  | .lsrDp _ => .lsr
  | .lsrAcc => .lsr
  | .lsrAbs _ => .lsr
  | .lsrDpX _ => .lsr
  | .lsrAbsX _ => .lsr
  | .rolDp _ => .rol
  | .rolAcc => .rol
  | .rolAbs _ => .rol
  | .rolDpX _ => .rol
  | .rolAbsX _ => .rol
  | .rorDp _ => .ror
  | .rorAcc => .ror
  | .rorAbs _ => .ror
  | .rorDpX _ => .ror
  | .rorAbsX _ => .ror
  | .bpl _ => .bpl
  | .bmi _ => .bmi
  | .bvc _ => .bvc
  | .bvs _ => .bvs
  | .bcc _ => .bcc
  | .bcs _ => .bcs
  | .bne _ => .bne
  | .beq _ => .beq
  | .bra _ => .bra
  | .brl _ => .brl
  | .jmpAbs _ => .jmp
  | .jmpAbsInd _ => .jmp
  | .jmpAbsIndX _ => .jmp
  | .jmlLong _ => .jml
  | .jmlAbsIndLong _ => .jml
  | .jsrAbs _ => .jsr
  | .jsrAbsIndX _ => .jsr
  | .jsl _ => .jsl
  | .rts => .rts
  | .rtl => .rtl
  | .pea _ => .pea
  | .pei _ => .pei
  | .per _ => .per
  | .rep _ => .rep
  | .sep _ => .sep
  | .wdm _ => .wdm
  | .brk _ => .brk
  | .cop _ => .cop
  | .rti => .rti
  | .mvn _ _ => .mvn
  | .mvp _ _ => .mvp
  | .tax => .tax
  | .tay => .tay
  | .txa => .txa
  | .tya => .tya
  | .tsx => .tsx
  | .txs => .txs
  | .tdc => .tdc
  | .tcd => .tcd
  | .tsc => .tsc
  | .tcs => .tcs
  | .xba => .xba
  | .txy => .txy
  | .tyx => .tyx
  | .inx => .inx
  | .iny => .iny
  | .dex => .dex
  | .dey => .dey
  | .pha => .pha
  | .phx => .phx
  | .phy => .phy
  | .phb => .phb
  | .phd => .phd
  | .phk => .phk
  | .php => .php
  | .pla => .pla
  | .plx => .plx
  | .ply => .ply
  | .plb => .plb
  | .pld => .pld
  | .plp => .plp
  | .clc => .clc
  | .cld => .cld
  | .cli => .cli
  | .clv => .clv
  | .sec => .sec
  | .sed => .sed
  | .sei => .sei
  | .nop => .nop
  | .xce => .xce
  | .wai => .wai
  | .stp => .stp

end Sys2Proof
end

