-- ==== Sys2Proof/WellFormed.lean ====
section
/-! DEFINITION. Which instructions a decoder can produce when the width flags are `m` and `x`: the one
thing syntax leaves free is the size of an IMM_M or IMM_X immediate (30_encoding.md R123, R125). -/

namespace Sys2Proof

/-- An immediate is one byte where the width flag is 1 and two bytes where it is 0. -/
def Imm.fits (narrow : Bool) : Imm → Bool
  | .byte _ => narrow
  | .word _ => !narrow

/-- The check of one format: only the two flag-sized immediates are constrained. -/
def Form.wellFormed (m x : Bool) : Form → Bool
  | .immM v => v.fits m
  | .immX v => v.fits x
  | .imp | .stk | .acc | .imm8 _ | .imm16 _ => true
  | .abs _ | .absX _ | .absY _ | .absInd _ | .absIndX _ | .absIndLong _ => true
  | .long _ | .longX _ => true
  | .dp _ | .dpX _ | .dpY _ | .dpInd _ | .dpIndX _ | .dpIndY _ | .dpIndLong _ | .dpIndLongY _ => true
  | .sr _ | .srIndY _ | .rel8 _ | .rel16 _ | .blk _ _ => true

/-- An instruction is well formed under the flags `P.M = m` and `P.X = x`. -/
def Instr.wellFormed (m x : Bool) (i : Instr) : Bool :=
  i.form.wellFormed m x

end Sys2Proof
end

