-- ==== Sys2Proof/Decode.lean ====
section
/-! DEFINITION. The decoder, total on any bytes, and the encoder, both written from the opcode listing
of 30_encoding.md R126 and the operand fields of R121 to R124; and the byte-order helpers they use. -/

namespace Sys2Proof

/-- `lo(v)` of 00_scope.md R10. -/
def loByte (v : Word) : Byte := v.setWidth 8

/-- `hi(v)` of 00_scope.md R10. -/
def hiByte (v : Word) : Byte := (v >>> 8).setWidth 8

/-- Two bytes as a word, low byte first (30_encoding.md R121, 20_memory.md R99). -/
def mkWord (lo hi : Byte) : Word := hi ++ lo

/-- The 24-bit address `b:o` (00_scope.md R9). -/
def mkAddr (bank : Byte) (offset : Word) : Addr := bank ++ offset

/-- The bank byte, bits 23 to 16, of an address. -/
def bankOf (a : Addr) : Byte := (a >>> 16).setWidth 8

/-- The offset, bits 15 to 0, of an address. -/
def offsetOf (a : Addr) : Word := a.setWidth 16

/-- How a row of the opcode table reads the bytes after the opcode: the operand field of the row's
format (30_encoding.md R122) and the instruction it makes of it. -/
inductive Shape where
  | fixed (i : Instr)
  | byte (mk : Byte → Instr)
  | word (mk : Word → Instr)
  | long (mk : Addr → Instr)
  | immM (mk : Imm → Instr)
  | immX (mk : Imm → Instr)
  | blk (mk : Byte → Byte → Instr)

/-- Why a list of bytes is not an instruction. -/
inductive DecodeError where
  /-- There is no opcode byte. -/
  | noBytes
  /-- The opcode byte has no row in the table; 30_encoding.md R126 gives every byte one. -/
  | noRow (opcode : Byte)
  /-- The operand bytes the row's format needs are not all there. -/
  | truncated (opcode : Byte)
  deriving DecidableEq, Repr

/-- Row 0x of the opcode grid (30_encoding.md R126). -/
def opcodeRow0 : List Shape :=
  [.byte .brk, .byte .oraDpIndX, .byte .cop, .byte .oraSr,
   .byte .tsbDp, .byte .oraDp, .byte .aslDp, .byte .oraDpIndLong,
   .fixed .php, .immM .oraImm, .fixed .aslAcc, .fixed .phd,
   .word .tsbAbs, .word .oraAbs, .word .aslAbs, .long .oraLong]

/-- Row 1x of the opcode grid (30_encoding.md R126). -/
def opcodeRow1 : List Shape :=
  [.byte .bpl, .byte .oraDpIndY, .byte .oraDpInd, .byte .oraSrIndY,
   .byte .trbDp, .byte .oraDpX, .byte .aslDpX, .byte .oraDpIndLongY,
   .fixed .clc, .word .oraAbsY, .fixed .incAcc, .fixed .tcs,
   .word .trbAbs, .word .oraAbsX, .word .aslAbsX, .long .oraLongX]

/-- Row 2x of the opcode grid (30_encoding.md R126). -/
def opcodeRow2 : List Shape :=
  [.word .jsrAbs, .byte .andDpIndX, .long .jsl, .byte .andSr,
   .byte .bitDp, .byte .andDp, .byte .rolDp, .byte .andDpIndLong,
   .fixed .plp, .immM .andImm, .fixed .rolAcc, .fixed .pld,
   .word .bitAbs, .word .andAbs, .word .rolAbs, .long .andLong]

/-- Row 3x of the opcode grid (30_encoding.md R126). -/
def opcodeRow3 : List Shape :=
  [.byte .bmi, .byte .andDpIndY, .byte .andDpInd, .byte .andSrIndY,
   .byte .bitDpX, .byte .andDpX, .byte .rolDpX, .byte .andDpIndLongY,
   .fixed .sec, .word .andAbsY, .fixed .decAcc, .fixed .tsc,
   .word .bitAbsX, .word .andAbsX, .word .rolAbsX, .long .andLongX]

/-- Row 4x of the opcode grid (30_encoding.md R126). -/
def opcodeRow4 : List Shape :=
  [.fixed .rti, .byte .eorDpIndX, .byte .wdm, .byte .eorSr,
   .blk .mvp, .byte .eorDp, .byte .lsrDp, .byte .eorDpIndLong,
   .fixed .pha, .immM .eorImm, .fixed .lsrAcc, .fixed .phk,
   .word .jmpAbs, .word .eorAbs, .word .lsrAbs, .long .eorLong]

/-- Row 5x of the opcode grid (30_encoding.md R126). -/
def opcodeRow5 : List Shape :=
  [.byte .bvc, .byte .eorDpIndY, .byte .eorDpInd, .byte .eorSrIndY,
   .blk .mvn, .byte .eorDpX, .byte .lsrDpX, .byte .eorDpIndLongY,
   .fixed .cli, .word .eorAbsY, .fixed .phy, .fixed .tcd,
   .long .jmlLong, .word .eorAbsX, .word .lsrAbsX, .long .eorLongX]

/-- Row 6x of the opcode grid (30_encoding.md R126). -/
def opcodeRow6 : List Shape :=
  [.fixed .rts, .byte .adcDpIndX, .word .per, .byte .adcSr,
   .byte .stzDp, .byte .adcDp, .byte .rorDp, .byte .adcDpIndLong,
   .fixed .pla, .immM .adcImm, .fixed .rorAcc, .fixed .rtl,
   .word .jmpAbsInd, .word .adcAbs, .word .rorAbs, .long .adcLong]

/-- Row 7x of the opcode grid (30_encoding.md R126). -/
def opcodeRow7 : List Shape :=
  [.byte .bvs, .byte .adcDpIndY, .byte .adcDpInd, .byte .adcSrIndY,
   .byte .stzDpX, .byte .adcDpX, .byte .rorDpX, .byte .adcDpIndLongY,
   .fixed .sei, .word .adcAbsY, .fixed .ply, .fixed .tdc,
   .word .jmpAbsIndX, .word .adcAbsX, .word .rorAbsX, .long .adcLongX]

/-- Row 8x of the opcode grid (30_encoding.md R126). -/
def opcodeRow8 : List Shape :=
  [.byte .bra, .byte .staDpIndX, .word .brl, .byte .staSr,
   .byte .styDp, .byte .staDp, .byte .stxDp, .byte .staDpIndLong,
   .fixed .dey, .immM .bitImm, .fixed .txa, .fixed .phb,
   .word .styAbs, .word .staAbs, .word .stxAbs, .long .staLong]

/-- Row 9x of the opcode grid (30_encoding.md R126). -/
def opcodeRow9 : List Shape :=
  [.byte .bcc, .byte .staDpIndY, .byte .staDpInd, .byte .staSrIndY,
   .byte .styDpX, .byte .staDpX, .byte .stxDpY, .byte .staDpIndLongY,
   .fixed .tya, .word .staAbsY, .fixed .txs, .fixed .txy,
   .word .stzAbs, .word .staAbsX, .word .stzAbsX, .long .staLongX]

/-- Row Ax of the opcode grid (30_encoding.md R126). -/
def opcodeRowA : List Shape :=
  [.immX .ldyImm, .byte .ldaDpIndX, .immX .ldxImm, .byte .ldaSr,
   .byte .ldyDp, .byte .ldaDp, .byte .ldxDp, .byte .ldaDpIndLong,
   .fixed .tay, .immM .ldaImm, .fixed .tax, .fixed .plb,
   .word .ldyAbs, .word .ldaAbs, .word .ldxAbs, .long .ldaLong]

/-- Row Bx of the opcode grid (30_encoding.md R126). -/
def opcodeRowB : List Shape :=
  [.byte .bcs, .byte .ldaDpIndY, .byte .ldaDpInd, .byte .ldaSrIndY,
   .byte .ldyDpX, .byte .ldaDpX, .byte .ldxDpY, .byte .ldaDpIndLongY,
   .fixed .clv, .word .ldaAbsY, .fixed .tsx, .fixed .tyx,
   .word .ldyAbsX, .word .ldaAbsX, .word .ldxAbsY, .long .ldaLongX]

/-- Row Cx of the opcode grid (30_encoding.md R126). -/
def opcodeRowC : List Shape :=
  [.immX .cpyImm, .byte .cmpDpIndX, .byte .rep, .byte .cmpSr,
   .byte .cpyDp, .byte .cmpDp, .byte .decDp, .byte .cmpDpIndLong,
   .fixed .iny, .immM .cmpImm, .fixed .dex, .fixed .wai,
   .word .cpyAbs, .word .cmpAbs, .word .decAbs, .long .cmpLong]

/-- Row Dx of the opcode grid (30_encoding.md R126). -/
def opcodeRowD : List Shape :=
  [.byte .bne, .byte .cmpDpIndY, .byte .cmpDpInd, .byte .cmpSrIndY,
   .byte .pei, .byte .cmpDpX, .byte .decDpX, .byte .cmpDpIndLongY,
   .fixed .cld, .word .cmpAbsY, .fixed .phx, .fixed .stp,
   .word .jmlAbsIndLong, .word .cmpAbsX, .word .decAbsX, .long .cmpLongX]

/-- Row Ex of the opcode grid (30_encoding.md R126). -/
def opcodeRowE : List Shape :=
  [.immX .cpxImm, .byte .sbcDpIndX, .byte .sep, .byte .sbcSr,
   .byte .cpxDp, .byte .sbcDp, .byte .incDp, .byte .sbcDpIndLong,
   .fixed .inx, .immM .sbcImm, .fixed .nop, .fixed .xba,
   .word .cpxAbs, .word .sbcAbs, .word .incAbs, .long .sbcLong]

/-- Row Fx of the opcode grid (30_encoding.md R126). -/
def opcodeRowF : List Shape :=
  [.byte .beq, .byte .sbcDpIndY, .byte .sbcDpInd, .byte .sbcSrIndY,
   .word .pea, .byte .sbcDpX, .byte .incDpX, .byte .sbcDpIndLongY,
   .fixed .sed, .word .sbcAbsY, .fixed .plx, .fixed .xce,
   .word .jsrAbsIndX, .word .sbcAbsX, .word .incAbsX, .long .sbcLongX]

/-- The opcode table: one row per opcode byte, in order (30_encoding.md R126). -/
def opcodeTable : List Shape :=
  opcodeRow0 ++ opcodeRow1 ++ opcodeRow2 ++ opcodeRow3 ++ opcodeRow4 ++ opcodeRow5 ++ opcodeRow6 ++ opcodeRow7 ++
  opcodeRow8 ++ opcodeRow9 ++ opcodeRowA ++ opcodeRowB ++ opcodeRowC ++ opcodeRowD ++ opcodeRowE ++ opcodeRowF

/-- The table lookup: the opcode byte alone selects the row (30_encoding.md R120). -/
def shapeOf (opcode : Byte) : Option Shape := opcodeTable[opcode.toNat]?

/-- The number of operand bytes of a row under the width flags (30_encoding.md R122, R123). -/
def Shape.operandBytes (m x : Bool) : Shape → Nat
  | .fixed _ => 0
  | .byte _ => 1
  | .word _ => 2
  | .long _ => 3
  | .immM _ => if m then 1 else 2
  | .immX _ => if x then 1 else 2
  | .blk _ => 2

/-- `operand_bytes(format(opcode), P.M, P.X)` of 30_encoding.md R125. -/
def operandCount (m x : Bool) (opcode : Byte) : Nat :=
  match shapeOf opcode with
  | some r => r.operandBytes m x
  | none => 0

/-- One operand byte off the front. -/
def takeByte : List Byte → Option (Byte × List Byte)
  | b :: rest => some (b, rest)
  | [] => none

/-- A little-endian word off the front. -/
def takeWord : List Byte → Option (Word × List Byte)
  | l :: h :: rest => some (mkWord l h, rest)
  | _ => none

/-- A little-endian 24-bit address off the front. -/
def takeAddr : List Byte → Option (Addr × List Byte)
  | l :: h :: b :: rest => some (mkAddr b (mkWord l h), rest)
  | _ => none

/-- A flag-sized immediate off the front (30_encoding.md R123). -/
def takeImm (narrow : Bool) (bs : List Byte) : Option (Imm × List Byte) :=
  if narrow then (takeByte bs).map (fun p => (.byte p.1, p.2))
  else (takeWord bs).map (fun p => (.word p.1, p.2))

/-- Reading a row's operand field. BLK holds the destination bank first (30_encoding.md R124). -/
def Shape.read (m x : Bool) (r : Shape) (bs : List Byte) : Option (Instr × List Byte) :=
  match r with
  | .fixed i => some (i, bs)
  | .byte mk => (takeByte bs).map (fun p => (mk p.1, p.2))
  | .word mk => (takeWord bs).map (fun p => (mk p.1, p.2))
  | .long mk => (takeAddr bs).map (fun p => (mk p.1, p.2))
  | .immM mk => (takeImm m bs).map (fun p => (mk p.1, p.2))
  | .immX mk => (takeImm x bs).map (fun p => (mk p.1, p.2))
  | .blk mk =>
    match bs with
    | dd :: ss :: rest => some (mk dd ss, rest)
    | _ => none

/-- The decoder under the width flags `P.M = m`, `P.X = x`: the instruction at the front of the bytes
and the bytes after it, or the reason there is none. -/
def decode (m x : Bool) : List Byte → Except DecodeError (Instr × List Byte)
  | [] => .error .noBytes
  | op :: bs =>
    match shapeOf op with
    | none => .error (.noRow op)
    | some r =>
      match r.read m x bs with
      | some p => .ok p
      | none => .error (.truncated op)

/-- The bytes of a number's low end, least significant first. -/
def bytesOf (n : Nat) : Nat → List Byte
  | 0 => []
  | k + 1 => BitVec.ofNat 8 n :: bytesOf (n / 256) k

/-- The longest instruction, in bytes (30_encoding.md R122). -/
def maxLength : Nat := 4

/-- The four bytes of a table word: the bits from `nbits` up are 0. -/
def tableBytes (nbits w : Nat) : List Byte := bytesOf (w % 2 ^ nbits) maxLength

/-- The instruction the decoder reads from a table word, under the width flags of the state after
reset (both 1: 70_reset_and_hazards.md R412). -/
def decodeTableWord (nbits w : Nat) : Option Instr :=
  match decode true true (tableBytes nbits w) with
  | .ok (i, _) => some i
  | .error _ => none

/-- The operand bytes of a format, in address order (30_encoding.md R121, R124). -/
def Form.operandBytes : Form → List Byte
  | .imp | .stk | .acc => []
  | .immM (.byte v) | .immX (.byte v) | .imm8 v | .rel8 v => [v]
  | .immM (.word v) | .immX (.word v) | .imm16 v | .rel16 v => [loByte v, hiByte v]
  | .abs a | .absX a | .absY a | .absInd a | .absIndX a | .absIndLong a => [loByte a, hiByte a]
  | .long a | .longX a => [loByte (offsetOf a), hiByte (offsetOf a), bankOf a]
  | .dp d | .dpX d | .dpY d | .dpInd d | .dpIndX d | .dpIndY d | .dpIndLong d | .dpIndLongY d => [d]
  | .sr d | .srIndY d => [d]
  | .blk dd ss => [dd, ss]

/-- The length of a format in bytes, opcode included (the length column of 30_encoding.md R122). -/
def Form.length (f : Form) : Nat := 1 + f.operandBytes.length

/-- The opcode byte of an instruction (the opcode column of 30_encoding.md R126). -/
def Instr.opcode : Instr → Byte
  | .ldaDpIndX _ => 0xA1
  | .ldaSr _ => 0xA3
  | .ldaDp _ => 0xA5
  | .ldaDpIndLong _ => 0xA7
  | .ldaImm _ => 0xA9
  | .ldaAbs _ => 0xAD
  | .ldaLong _ => 0xAF
  | .ldaDpIndY _ => 0xB1
  | .ldaDpInd _ => 0xB2
  | .ldaSrIndY _ => 0xB3
  | .ldaDpX _ => 0xB5
  | .ldaDpIndLongY _ => 0xB7
  | .ldaAbsY _ => 0xB9
  | .ldaAbsX _ => 0xBD
  | .ldaLongX _ => 0xBF
  | .ldxImm _ => 0xA2
  | .ldxDp _ => 0xA6
  | .ldxAbs _ => 0xAE
  | .ldxDpY _ => 0xB6
  | .ldxAbsY _ => 0xBE
  | .ldyImm _ => 0xA0
  | .ldyDp _ => 0xA4
  | .ldyAbs _ => 0xAC
  | .ldyDpX _ => 0xB4
  | .ldyAbsX _ => 0xBC
  | .staDpIndX _ => 0x81
  | .staSr _ => 0x83
  | .staDp _ => 0x85
  | .staDpIndLong _ => 0x87
  | .staAbs _ => 0x8D
  | .staLong _ => 0x8F
  | .staDpIndY _ => 0x91
  | .staDpInd _ => 0x92
  | .staSrIndY _ => 0x93
  | .staDpX _ => 0x95
  | .staDpIndLongY _ => 0x97
  | .staAbsY _ => 0x99
  | .staAbsX _ => 0x9D
  | .staLongX _ => 0x9F
  | .stxDp _ => 0x86
  | .stxAbs _ => 0x8E
  | .stxDpY _ => 0x96
  | .styDp _ => 0x84
  | .styAbs _ => 0x8C
  | .styDpX _ => 0x94
  | .stzDp _ => 0x64
  | .stzDpX _ => 0x74
  | .stzAbs _ => 0x9C
  | .stzAbsX _ => 0x9E
  | .adcDpIndX _ => 0x61
  | .adcSr _ => 0x63
  | .adcDp _ => 0x65
  | .adcDpIndLong _ => 0x67
  | .adcImm _ => 0x69
  | .adcAbs _ => 0x6D
  | .adcLong _ => 0x6F
  | .adcDpIndY _ => 0x71
  | .adcDpInd _ => 0x72
  | .adcSrIndY _ => 0x73
  | .adcDpX _ => 0x75
  | .adcDpIndLongY _ => 0x77
  | .adcAbsY _ => 0x79
  | .adcAbsX _ => 0x7D
  | .adcLongX _ => 0x7F
  | .sbcDpIndX _ => 0xE1
  | .sbcSr _ => 0xE3
  | .sbcDp _ => 0xE5
  | .sbcDpIndLong _ => 0xE7
  | .sbcImm _ => 0xE9
  | .sbcAbs _ => 0xED
  | .sbcLong _ => 0xEF
  | .sbcDpIndY _ => 0xF1
  | .sbcDpInd _ => 0xF2
  | .sbcSrIndY _ => 0xF3
  | .sbcDpX _ => 0xF5
  | .sbcDpIndLongY _ => 0xF7
  | .sbcAbsY _ => 0xF9
  | .sbcAbsX _ => 0xFD
  | .sbcLongX _ => 0xFF
  | .cmpDpIndX _ => 0xC1
  | .cmpSr _ => 0xC3
  | .cmpDp _ => 0xC5
  | .cmpDpIndLong _ => 0xC7
  | .cmpImm _ => 0xC9
  | .cmpAbs _ => 0xCD
  | .cmpLong _ => 0xCF
  | .cmpDpIndY _ => 0xD1
  | .cmpDpInd _ => 0xD2
  | .cmpSrIndY _ => 0xD3
  | .cmpDpX _ => 0xD5
  | .cmpDpIndLongY _ => 0xD7
  | .cmpAbsY _ => 0xD9
  | .cmpAbsX _ => 0xDD
  | .cmpLongX _ => 0xDF
  | .cpxImm _ => 0xE0
  | .cpxDp _ => 0xE4
  | .cpxAbs _ => 0xEC
  | .cpyImm _ => 0xC0
  | .cpyDp _ => 0xC4
  | .cpyAbs _ => 0xCC
  | .incAcc => 0x1A
  | .incDp _ => 0xE6
  | .incAbs _ => 0xEE
  | .incDpX _ => 0xF6
  | .incAbsX _ => 0xFE
  | .decAcc => 0x3A
  | .decDp _ => 0xC6
  | .decAbs _ => 0xCE
  | .decDpX _ => 0xD6
  | .decAbsX _ => 0xDE
  | .andDpIndX _ => 0x21
  | .andSr _ => 0x23
  | .andDp _ => 0x25
  | .andDpIndLong _ => 0x27
  | .andImm _ => 0x29
  | .andAbs _ => 0x2D
  | .andLong _ => 0x2F
  | .andDpIndY _ => 0x31
  | .andDpInd _ => 0x32
  | .andSrIndY _ => 0x33
  | .andDpX _ => 0x35
  | .andDpIndLongY _ => 0x37
  | .andAbsY _ => 0x39
  | .andAbsX _ => 0x3D
  | .andLongX _ => 0x3F
  | .oraDpIndX _ => 0x01
  | .oraSr _ => 0x03
  | .oraDp _ => 0x05
  | .oraDpIndLong _ => 0x07
  | .oraImm _ => 0x09
  | .oraAbs _ => 0x0D
  | .oraLong _ => 0x0F
  | .oraDpIndY _ => 0x11
  | .oraDpInd _ => 0x12
  | .oraSrIndY _ => 0x13
  | .oraDpX _ => 0x15
  | .oraDpIndLongY _ => 0x17
  | .oraAbsY _ => 0x19
  | .oraAbsX _ => 0x1D
  | .oraLongX _ => 0x1F
  | .eorDpIndX _ => 0x41
  | .eorSr _ => 0x43
  | .eorDp _ => 0x45
  | .eorDpIndLong _ => 0x47
  | .eorImm _ => 0x49
  | .eorAbs _ => 0x4D
  | .eorLong _ => 0x4F
  | .eorDpIndY _ => 0x51
  | .eorDpInd _ => 0x52
  | .eorSrIndY _ => 0x53
  | .eorDpX _ => 0x55
  | .eorDpIndLongY _ => 0x57
  | .eorAbsY _ => 0x59
  | .eorAbsX _ => 0x5D
  | .eorLongX _ => 0x5F
  | .bitDp _ => 0x24
  | .bitAbs _ => 0x2C
  | .bitDpX _ => 0x34
  | .bitAbsX _ => 0x3C
  | .bitImm _ => 0x89
  | .tsbDp _ => 0x04
  | .tsbAbs _ => 0x0C
  | .trbDp _ => 0x14
  | .trbAbs _ => 0x1C
  | .aslDp _ => 0x06
  | .aslAcc => 0x0A
  | .aslAbs _ => 0x0E
  | .aslDpX _ => 0x16
  | .aslAbsX _ => 0x1E
  | .lsrDp _ => 0x46
  | .lsrAcc => 0x4A
  | .lsrAbs _ => 0x4E
  | .lsrDpX _ => 0x56
  | .lsrAbsX _ => 0x5E
  | .rolDp _ => 0x26
  | .rolAcc => 0x2A
  | .rolAbs _ => 0x2E
  | .rolDpX _ => 0x36
  | .rolAbsX _ => 0x3E
  | .rorDp _ => 0x66
  | .rorAcc => 0x6A
  | .rorAbs _ => 0x6E
  | .rorDpX _ => 0x76
  | .rorAbsX _ => 0x7E
  | .bpl _ => 0x10
  | .bmi _ => 0x30
  | .bvc _ => 0x50
  | .bvs _ => 0x70
  | .bcc _ => 0x90
  | .bcs _ => 0xB0
  | .bne _ => 0xD0
  | .beq _ => 0xF0
  | .bra _ => 0x80
  | .brl _ => 0x82
  | .jmpAbs _ => 0x4C
  | .jmpAbsInd _ => 0x6C
  | .jmpAbsIndX _ => 0x7C
  | .jmlLong _ => 0x5C
  | .jmlAbsIndLong _ => 0xDC
  | .jsrAbs _ => 0x20
  | .jsrAbsIndX _ => 0xFC
  | .jsl _ => 0x22
  | .rts => 0x60
  | .rtl => 0x6B
  | .pea _ => 0xF4
  | .pei _ => 0xD4
  | .per _ => 0x62
  | .rep _ => 0xC2
  | .sep _ => 0xE2
  | .wdm _ => 0x42
  | .brk _ => 0x00
  | .cop _ => 0x02
  | .rti => 0x40
  | .mvn _ _ => 0x54
  | .mvp _ _ => 0x44
  | .tax => 0xAA
  | .tay => 0xA8
  | .txa => 0x8A
  | .tya => 0x98
  | .tsx => 0xBA
  | .txs => 0x9A
  | .tdc => 0x7B
  | .tcd => 0x5B
  | .tsc => 0x3B
  | .tcs => 0x1B
  | .xba => 0xEB
  | .txy => 0x9B
  | .tyx => 0xBB
  | .inx => 0xE8
  | .iny => 0xC8
  | .dex => 0xCA
  | .dey => 0x88
  | .pha => 0x48
  | .phx => 0xDA
  | .phy => 0x5A
  | .phb => 0x8B
  | .phd => 0x0B
  | .phk => 0x4B
  | .php => 0x08
  | .pla => 0x68
  | .plx => 0xFA
  | .ply => 0x7A
  | .plb => 0xAB
  | .pld => 0x2B
  | .plp => 0x28
  | .clc => 0x18
  | .cld => 0xD8
  | .cli => 0x58
  | .clv => 0xB8
  | .sec => 0x38
  | .sed => 0xF8
  | .sei => 0x78
  | .nop => 0xEA
  | .xce => 0xFB
  | .wai => 0xCB
  | .stp => 0xDB

/-- The encoder: the opcode byte and the operand bytes at increasing addresses (30_encoding.md R120). -/
def encode (i : Instr) : List Byte := i.opcode :: i.form.operandBytes

end Sys2Proof
end

