-- ==== Sys2Proof/Machine/Geometry.lean ====
section
/-! DEFINITION. The geometry parameters `HIROM_MIRRORS` and `SRAM_WINDOW` of 00_scope.md R8 as plain data,
and the values the spec gives them (20_memory.md R87, R89, R90). -/

namespace Sys2Proof.Machine

/-- A window of banks and offsets, and the page stride that translates it (20_memory.md R87, R91). The
ranges are inclusive (90_conflicts.md C4). -/
structure Window where
  bankLo : Nat
  bankHi : Nat
  offsetLo : Nat
  offsetHi : Nat
  /-- `BANK_ORIGIN`. -/
  bankOrigin : Nat
  /-- `OFFSET_ORIGIN`. -/
  offsetOrigin : Nat
  /-- `PAGE`. -/
  page : Nat
  deriving DecidableEq, Repr

/-- Whether a window holds an address. -/
def Window.holds (w : Window) (bank offset : Nat) : Bool :=
  decide (w.bankLo ≤ bank) && decide (bank ≤ w.bankHi) && decide (w.offsetLo ≤ offset)
    && decide (offset ≤ w.offsetHi)

/-- The page-stride formula: the bank as a 7-bit page index, and the offset within the page (20_memory.md
R87, R91). DESIGN CHOICE (notes/assumptions/12.md), for windows other than the spec's: the offset within the
page is the remainder by `page`, where the spec masks with `PAGE - 1`, which is the same for a power of two; and
the bank is masked after its origin is taken off, as in R87, where R91 masks it before. -/
def Window.index (w : Window) (bank offset : Nat) : Nat :=
  (bank - w.bankOrigin) % 0x80 * w.page + (offset - w.offsetOrigin) % w.page

/-- What the model asks of a window (DESIGN CHOICE, notes/assumptions/12.md): it begins at or after its
origin, and its pages and its offset origin are whole blocks of 256 bytes. -/
def Window.wf (w : Window) : Bool :=
  decide (w.bankOrigin ≤ w.bankLo) && decide (w.offsetOrigin ≤ w.offsetLo) && decide (0 < w.page)
    && decide (w.page % 0x100 = 0) && decide (w.offsetOrigin % 0x100 = 0)

/-- Whether two windows hold an address in common (20_memory.md R76). -/
def Window.overlaps (v w : Window) : Bool :=
  decide (max v.bankLo w.bankLo ≤ min v.bankHi w.bankHi)
    && decide (max v.offsetLo w.offsetLo ≤ min v.offsetHi w.offsetHi)

/-- The windows of one mapping mode "must not overlap within a mode" (20_memory.md R76). -/
def disjoint : List Window → Bool
  | [] => true
  | w :: ws => ws.all (fun v => !w.overlaps v) && disjoint ws

/-- The window of a list that holds an address: the only one where the list is `disjoint`. -/
def windowAt (ws : List Window) (bank offset : Nat) : Option Window :=
  ws.find? fun w => w.holds bank offset

/-- The default of `HIROM_MIRRORS`: mirror A, and mirror B in the ROM banks and in the upper system banks
(20_memory.md R87). -/
def Window.hiRomDefault : List Window :=
  [⟨0x00, 0x3F, 0x8000, 0xFFFF, 0x00, 0, 0x8000⟩,
   ⟨0x40, 0x7D, 0x0000, 0xFFFF, 0x40, 0, 0x8000⟩,
   ⟨0x80, 0xBF, 0x8000, 0xFFFF, 0x40, 0, 0x8000⟩]

/-- The default of `SRAM_WINDOW(LoROM)`: banks 0x70–0x7D and their copy at 0xF0–0xFD (20_memory.md R89,
R91). -/
def Window.sramLoRomDefault : List Window :=
  [⟨0x70, 0x7D, 0x0000, 0xFFFF, 0x70, 0, 0x8000⟩, ⟨0xF0, 0xFD, 0x0000, 0xFFFF, 0x70, 0, 0x8000⟩]

/-- The default of `SRAM_WINDOW(HiROM)`: banks 0x30–0x3F and their copy at 0xB0–0xBF (20_memory.md R90,
R91). -/
def Window.sramHiRomDefault : List Window :=
  [⟨0x30, 0x3F, 0x6000, 0x7FFF, 0x30, 0x6000, 0x2000⟩,
   ⟨0xB0, 0xBF, 0x6000, 0x7FFF, 0x30, 0x6000, 0x2000⟩]

end Sys2Proof.Machine
end

