-- ==== Sys2Proof/Machine/State.lean ====
section
/-! DEFINITION. The state of the machine as plain data (10_state.md), the parameters of a session
(00_scope.md R8), the fatal errors (60_exceptions.md R371) and the state after reset. -/

namespace Sys2Proof.Machine

/-- The cartridge mapping mode (`MAPMODE` of 00_scope.md R8). -/
inductive MapMode where
  | loRom
  | hiRom
  | exHiRom
  deriving DecidableEq, Repr

/-- A byte store: cells in rising order of index, none equal to what an unlisted index reads as. -/
abbrev Memory := List Host.Cell

/-- `VEC_N`, the native-mode vectors (00_scope.md R8, 60_exceptions.md R384). -/
structure NativeVectors where
  cop : Word
  brk : Word
  abort : Word
  nmi : Word
  irq : Word
  deriving DecidableEq, Repr

/-- `VEC_E`, the emulation-mode vectors (00_scope.md R8, 60_exceptions.md R384). -/
structure EmulationVectors where
  cop : Word
  abort : Word
  nmi : Word
  reset : Word
  irqBrk : Word
  deriving DecidableEq, Repr

/-- The parameters of a session (00_scope.md R8). No step changes them. -/
structure Params where
  /-- `MAPMODE`. -/
  mapMode : MapMode
  /-- `ROM_SIZE`, the length of `ROM`. -/
  romSize : Nat
  /-- `ROM`: the byte at each index below `romSize`. -/
  rom : Memory
  /-- `SRAM_SIZE`. -/
  sramSize : Nat
  /-- `HIROM_MIRRORS`: the windows below the primary region (20_memory.md R76, R87). -/
  hiRomMirrors : List Window
  /-- `SRAM_WINDOW(LoROM)` (20_memory.md R89, R91). -/
  sramLoRom : List Window
  /-- `SRAM_WINDOW(HiROM)` (20_memory.md R90, R91). -/
  sramHiRom : List Window
  /-- `VEC_N`. -/
  vecN : NativeVectors
  /-- `VEC_E`. -/
  vecE : EmulationVectors
  /-- The opcode bytes that are not in `IMPLEMENTED`; none by default. -/
  unimplemented : List Byte
  /-- The façade offsets that `FACADE_VALID` rejects; an offset belongs to one façade only. -/
  facadeInvalid : List Word
  deriving DecidableEq, Repr

/-- The register blocks outside the core, and the internal register block, as an error names them
(20_memory.md R94, R96). -/
inductive Device where
  | ppu
  | apu
  | wramPort
  | ctrl
  | dma
  | intReg
  deriving DecidableEq, Repr

/-- The write-only internal CPU registers, in offset order from 0x4200 (20_memory.md R93). -/
inductive WReg where
  | nmitimen | wrio | wrmpya | wrmpyb | wrdivl | wrdivh | wrdivb
  | htimel | htimeh | vtimel | vtimeh | mdmaen | hdmaen | memsel
  deriving DecidableEq, Repr

/-- The read-only internal CPU registers, in offset order from 0x4210 (20_memory.md R93). -/
inductive RReg where
  | rdnmi | timeup | hvbjoy | rdio | rddivl | rddivh | rdmpyl | rdmpyh
  | joy1l | joy1h | joy2l | joy2h | joy3l | joy3h | joy4l | joy4h
  deriving DecidableEq, Repr

/-- A named internal CPU register with its direction (20_memory.md R93). -/
inductive IntReg where
  | w (r : WReg)
  | r (r : RReg)
  deriving DecidableEq, Repr

/-- `INTREG`: one byte cell per write-only internal CPU register (10_state.md R45). -/
structure IntRegs where
  nmitimen : Byte
  wrio : Byte
  wrmpya : Byte
  wrmpyb : Byte
  wrdivl : Byte
  wrdivh : Byte
  wrdivb : Byte
  htimel : Byte
  htimeh : Byte
  vtimel : Byte
  vtimeh : Byte
  mdmaen : Byte
  hdmaen : Byte
  memsel : Byte
  deriving DecidableEq, Repr

/-- A record of `IOLOG` (10_state.md R45, 92_eei_decisions.md D42). -/
inductive IoEvent where
  | facadeRead (dev : Device) (offset : Word) (v : Byte)
  | facadeWrite (dev : Device) (offset : Word) (v : Byte)
  | intRegRead (reg : RReg) (v : Byte)
  | intRegWrite (reg : WReg) (v : Byte)
  deriving DecidableEq, Repr

/-- The direction of an access (20_memory.md R73). -/
inductive Direction where
  | read
  | write
  deriving DecidableEq, Repr

/-- Which argument of an access is out of range (20_memory.md R74). -/
inductive RangePart where
  | bank
  | offset
  deriving DecidableEq, Repr

/-- What the mapper holds when an error is raised: the writes and the events of the step before the error
have happened (40_engine_addressing.md R155). -/
structure Remains where
  wram : Memory
  sram : Memory
  intRegs : IntRegs
  ioLog : List IoEvent
  deriving DecidableEq, Repr

/-- The fatal errors (60_exceptions.md R371), each with its typed context, what the mapper holds when it is
raised (`left`), and the address `at` of R370 (`loc`): that of the opcode of the faulting instruction; for
a fault of an interrupt entry, or of an access made from outside at a step boundary, `PBR:PC` at that
boundary. Each ends the run where the hardware ends it too ("must abort the current emulation session"). -/
inductive Fault where
  /-- Raised by the fetch of an opcode byte outside `IMPLEMENTED` (40_engine_addressing.md R152).
  Safe: the spec names it. -/
  | unimplementedOpcode (opcode pbr : Byte) (pc : Word) (left : Remains) (loc : Addr)
  /-- Raised by an access from outside with a bank above 0xFF or an offset above 0xFFFF
  (20_memory.md R74); the CPU never raises it (R178). Safe: the spec names it. -/
  | addressRange (which : RangePart) (bank offset : Nat) (left : Remains) (loc : Addr)
  /-- Raised by an access to an offset no internal register has, or that `FACADE_VALID` rejects
  (20_memory.md R94, R97). Safe: the spec names it. -/
  | invalidPeripheralRegister (dev : Device) (bank : Byte) (offset : Word) (left : Remains) (loc : Addr)
  /-- Raised by an ExHiROM access that needs ROM or save-RAM translation (20_memory.md R88).
  Safe: the spec names it. -/
  | unsupportedMapping (bank : Byte) (offset : Word) (left : Remains) (loc : Addr)
  /-- Raised by a read of a write-only internal register or a write of a read-only one
  (20_memory.md R94). Safe: the spec names it. -/
  | illegalRegisterAccess (reg : IntReg) (op : Direction) (left : Remains) (loc : Addr)
  /-- Raised by an access to an offset no region claims (20_memory.md R80). Safe: the spec names it. -/
  | unmappedRegion (bank : Byte) (offset : Word) (left : Remains) (loc : Addr)
  /-- Raised by a write to a ROM address (20_memory.md R83). Safe: the spec names it. -/
  | romWrite (bank : Byte) (offset : Word) (left : Remains) (loc : Addr)
  /-- Raised by a read past the end of `ROM` (20_memory.md R83). Safe: the spec names it. -/
  | romRange (bank : Byte) (offset : Word) (index : Nat) (left : Remains) (loc : Addr)
  /-- Raised by an access past the end of save RAM (20_memory.md R91). Safe: the spec names it. -/
  | sramRange (bank : Byte) (offset : Word) (index : Nat) (left : Remains) (loc : Addr)
  deriving DecidableEq, Repr

/-- Why the model gives no next state and no fault. -/
inductive Refusal where
  /-- Raised by an arm of `exec` without a meaning. No arm is without one. Safe. -/
  | notModelled (mnemonic : String)
  /-- Raised by `step` where the decoder rejects the bytes it fetched. It cannot happen, since every
  opcode byte has a row and `step` fetches the bytes the row needs (30_encoding.md R126). Safe. -/
  | undecodable (e : DecodeError)
  /-- Raised by `powerOn`, before any step, when `SRAM_INIT` has not `SRAM_SIZE` bytes or the window
  geometry is not well formed (00_scope.md R8, 20_memory.md R76). Safe: the spec refuses parameters outside
  their types, and windows of one mode must not overlap. -/
  | badParameters
  deriving DecidableEq, Repr

/-- `run` of 10_state.md R43. -/
inductive RunState where
  | running
  | waiting
  | stopped
  | faulted (f : Fault)
  deriving DecidableEq, Repr

/-- One access of an agent outside the core, through the mapper's own interface (20_memory.md R73,
R108): bank and offset are naturals, and a write carries its byte. -/
inductive BusRequest where
  | read (bank offset : Nat)
  | write (bank offset : Nat) (v : Byte)
  deriving DecidableEq, Repr

/-- What the outside world does at one step boundary (60_exceptions.md R378, 20_memory.md R108): the
accesses of other agents, a rising edge on NMI, the level of IRQ, and RESET. -/
structure Boundary where
  accesses : List BusRequest
  nmiEdge : Bool
  irqLine : Bool
  reset : Bool
  deriving DecidableEq, Repr

/-- The state of the machine (10_state.md R47), the session's parameters, the inputs that are still to
come, and one counter of the model's own. -/
structure State where
  /-- `A`, the accumulator (R31). -/
  a : Word
  /-- `X`, index register (R32). -/
  x : Word
  /-- `Y`, index register (R32). -/
  y : Word
  /-- `S`, the stack pointer (R36). -/
  sp : Word
  /-- `D`, the direct-page register (R37). -/
  d : Word
  /-- `PC` (R33). Between steps, and when `exec` is called, the offset of the opcode byte. -/
  pc : Word
  /-- `PBR`, the program bank (R34). -/
  pbr : Byte
  /-- `DBR`, the data bank (R35). -/
  dbr : Byte
  /-- `P`, the status register, bits N V M X D I Z C from bit 7 down (R38). -/
  p : Byte
  /-- `E`, the emulation-mode bit (R40). -/
  e : Bool
  /-- `cycles` of the last step (R41). -/
  cycles : Nat
  /-- `run` (R43). -/
  run : RunState
  /-- `nmi_pending` (R44). -/
  nmiPending : Bool
  /-- `irq_line`: the level of the IRQ input at the last boundary that gave one (R44). -/
  irqLine : Bool
  /-- The outside world's next boundaries, first to come first; past the end nothing happens. -/
  inputs : List Boundary
  /-- `WRAM`, by index below 0x20000 (R45). -/
  wram : Memory
  /-- `SRAM`, by index below `SRAM_SIZE` (R45). -/
  sram : Memory
  /-- `INTREG` (R45). -/
  intRegs : IntRegs
  /-- `IOLOG`, oldest event first (R45). -/
  ioLog : List IoEvent
  /-- The parameters, `ROM` among them (00_scope.md R8, 10_state.md R45). -/
  params : Params
  /-- MODEL'S OWN: how many bytes devices have answered so far; it numbers the free values of
  `Config.facadeRead` and `Config.intRegIn`. -/
  draws : Nat
  deriving DecidableEq, Repr

/-- The parameters of `State.reset`: the session of 95_test_vectors.md section 0, with a ROM of
0x400000 bytes none of which is listed (notes/assumptions/3.md). -/
def Params.standard : Params where
  mapMode := .loRom
  romSize := 0x400000
  rom := []
  sramSize := 0x10000
  hiRomMirrors := Window.hiRomDefault
  sramLoRom := Window.sramLoRomDefault
  sramHiRom := Window.sramHiRomDefault
  vecN := { cop := 0xA100, brk := 0xA000, abort := 0, nmi := 0xA200, irq := 0xA300 }
  vecE := { cop := 0xB100, abort := 0, nmi := 0xB200, reset := 0x8000, irqBrk := 0xB000 }
  unimplemented := []
  facadeInvalid := []

/-- Every internal register cell at 0 (notes/assumptions/4.md). -/
def IntRegs.blank : IntRegs where
  nmitimen := 0
  wrio := 0
  wrmpya := 0
  wrmpyb := 0
  wrdivl := 0
  wrdivh := 0
  wrdivb := 0
  htimel := 0
  htimeh := 0
  vtimel := 0
  vtimeh := 0
  mdmaen := 0
  hdmaen := 0
  memsel := 0

/-- The machine after `PowerOn(); Reset()` (70_reset_and_hazards.md R412). The values the spec calls
draws are those of notes/assumptions/4.md: `A`, `XL`, `YL`, `N`, `V`, `Z`, `C` and the cells are 0,
`SL` is 0xFF. -/
def State.reset : State where
  a := 0
  x := 0
  y := 0
  sp := 0x01FF
  d := 0
  pc := Params.standard.vecE.reset
  pbr := 0
  dbr := 0
  p := 0x34
  e := true
  cycles := 0
  run := .running
  nmiPending := false
  irqLine := false
  inputs := []
  wram := []
  sram := []
  intRegs := .blank
  ioLog := []
  params := .standard
  draws := 0

end Sys2Proof.Machine
end

