-- ==== Sys2Proof/Machine/Flags.lean ====
section
/-! DEFINITION. The status register's fields, the operand widths, and every computation of a result
with its flags, as functions of values and of `P` (10_state.md R38, 42_arith_logic_shift.md). -/

namespace Sys2Proof.Machine

/-- The fields of `P` (10_state.md R38). -/
inductive Flag where
  | n | v | m | x | d | i | z | c
  deriving DecidableEq, Repr

/-- The bit positions of the fields (10_state.md R38). -/
def Flag.bit : Flag → Nat
  | .n => 7
  | .v => 6
  | .m => 5
  | .x => 4
  | .d => 3
  | .i => 2
  | .z => 1
  | .c => 0

/-- `P.F`: a field of a status byte. -/
def getFlag (p : Byte) (f : Flag) : Bool := p.getLsbD f.bit

/-- `P.F <- b`: a status byte with one field written. -/
def putFlag (p : Byte) (f : Flag) (b : Bool) : Byte :=
  if b then p ||| (1#8 <<< f.bit) else p &&& ~~~(1#8 <<< f.bit)

/-- An operand width: one byte or two (00_scope.md R14). -/
inductive Width where
  | w8
  | w16
  deriving DecidableEq, Repr

/-- `w` in bytes. -/
def Width.bytes : Width → Nat
  | .w8 => 1
  | .w16 => 2

/-- `n = 8 * w`, the width in bits (42_arith_logic_shift.md). -/
def Width.bits (w : Width) : Nat := 8 * w.bytes

/-- `mask(w)` of 00_scope.md R10. -/
def Width.mask (w : Width) : Nat := 2 ^ w.bits - 1

/-- `v & mask(w)`. -/
def truncate (w : Width) (v : Word) : Word :=
  match w with
  | .w8 => v &&& 0x00FF
  | .w16 => v

/-- `msb(v, w)` of 00_scope.md R10. -/
def msb (w : Width) (v : Word) : Bool := v.getLsbD (w.bits - 1)

/-- `setNZ(v, w)` of 00_scope.md R14. -/
def setNZ (w : Width) (v : Word) (p : Byte) : Byte :=
  putFlag (putFlag p .n (msb w v)) .z (truncate w v == 0)

/-- A flag as a number. -/
def bitNat (b : Bool) : Nat := if b then 1 else 0

/-- `AddBin(a, b, w)` of 42_arith_logic_shift.md R230: the result and the new `P`. -/
def addBin (w : Width) (a b : Word) (p : Byte) : Word × Byte :=
  let r := a.toNat + b.toNat + bitNat (getFlag p .c)
  let res := truncate w (BitVec.ofNat 16 r)
  let overflow := msb w (~~~(a ^^^ b) &&& (a ^^^ res))
  (res, setNZ w res (putFlag (putFlag p .c (decide (w.mask < r))) .v overflow))

/-- `SubBin(a, b, w)` of 42_arith_logic_shift.md R230. -/
def subBin (w : Width) (a b : Word) (p : Byte) : Word × Byte :=
  addBin w a (truncate w (~~~b)) p

/-- The nibble loop of `AddDec` (42_arith_logic_shift.md R231) over `n` nibbles, low nibble first:
the result nibbles and the carry out. -/
def addDigits : Nat → Nat → Nat → Nat → Nat × Nat
  | 0, _, _, c => (0, c)
  | n + 1, a, b, c =>
    let t := a % 16 + b % 16 + c
    let digit := if 9 < t then (t + 6) % 16 else t
    let rest := addDigits n (a / 16) (b / 16) (if 9 < t then 1 else 0)
    (digit + 16 * rest.1, rest.2)

/-- The nibble loop of `SubDec` (42_arith_logic_shift.md R232): the result nibbles and the borrow out. -/
def subDigits : Nat → Nat → Nat → Nat → Nat × Nat
  | 0, _, _, brw => (0, brw)
  | n + 1, a, b, brw =>
    let t : Int := (a % 16 : Nat) - (b % 16 : Nat) - (brw : Nat)
    let digit := if t < 0 then ((t - 6) % 16).toNat else t.toNat
    let rest := subDigits n (a / 16) (b / 16) (if t < 0 then 1 else 0)
    (digit + 16 * rest.1, rest.2)

/-- `AddDec(a, b, w)` of 42_arith_logic_shift.md R231: `V` is 0. -/
def addDec (w : Width) (a b : Word) (p : Byte) : Word × Byte :=
  let r := addDigits (2 * w.bytes) a.toNat b.toNat (bitNat (getFlag p .c))
  let res := BitVec.ofNat 16 r.1
  (res, setNZ w res (putFlag (putFlag p .c (r.2 == 1)) .v false))

/-- `SubDec(a, b, w)` of 42_arith_logic_shift.md R232: `V` is 0, and `C` is the inverted borrow. -/
def subDec (w : Width) (a b : Word) (p : Byte) : Word × Byte :=
  let r := subDigits (2 * w.bytes) a.toNat b.toNat (1 - bitNat (getFlag p .c))
  let res := BitVec.ofNat 16 r.1
  (res, setNZ w res (putFlag (putFlag p .c (r.2 == 0)) .v false))

/-- The sum of ADC: decimal where `P.D = 1` (42_arith_logic_shift.md R233). -/
def addWithCarry (w : Width) (a b : Word) (p : Byte) : Word × Byte :=
  if getFlag p .d then addDec w a b p else addBin w a b p

/-- The difference of SBC: decimal where `P.D = 1` (42_arith_logic_shift.md R234). -/
def subWithBorrow (w : Width) (a b : Word) (p : Byte) : Word × Byte :=
  if getFlag p .d then subDec w a b p else subBin w a b p

/-- The flags of CMP, CPX and CPY (42_arith_logic_shift.md R235 to R237). -/
def compareFlags (w : Width) (a b : Word) (p : Byte) : Byte :=
  setNZ w (truncate w (a - b)) (putFlag p .c (decide (b.toNat ≤ a.toNat)))

/-- `v & mask(w)` with `N` and `Z` from it: the result of a load, a transfer or a logical operation. -/
def withNZ (w : Width) (v : Word) (p : Byte) : Word × Byte :=
  (truncate w v, setNZ w (truncate w v) p)

/-- INC (42_arith_logic_shift.md R238). -/
def incValue (w : Width) (v : Word) (p : Byte) : Word × Byte := withNZ w (v + 1) p

/-- DEC (42_arith_logic_shift.md R241). -/
def decValue (w : Width) (v : Word) (p : Byte) : Word × Byte := withNZ w (v - 1) p

/-- ASL (42_arith_logic_shift.md R250). -/
def aslValue (w : Width) (v : Word) (p : Byte) : Word × Byte :=
  withNZ w (v <<< 1) (putFlag p .c (msb w v))

/-- LSR (42_arith_logic_shift.md R251). -/
def lsrValue (w : Width) (v : Word) (p : Byte) : Word × Byte :=
  withNZ w (truncate w v >>> 1) (putFlag p .c (v.getLsbD 0))

/-- The carry as a word. -/
def carryWord (p : Byte) : Word := BitVec.ofNat 16 (bitNat (getFlag p .c))

/-- ROL (42_arith_logic_shift.md R252). -/
def rolValue (w : Width) (v : Word) (p : Byte) : Word × Byte :=
  withNZ w ((v <<< 1) ||| carryWord p) (putFlag p .c (msb w v))

/-- ROR (42_arith_logic_shift.md R253). -/
def rorValue (w : Width) (v : Word) (p : Byte) : Word × Byte :=
  withNZ w ((truncate w v >>> 1) ||| (carryWord p <<< (w.bits - 1))) (putFlag p .c (v.getLsbD 0))

/-- `P.Z` of BIT, TSB and TRB: whether `A` and the operand share no bit. -/
def testZ (w : Width) (a v : Word) (p : Byte) : Byte :=
  putFlag p .z (truncate w (a &&& v) == 0)

/-- TSB (42_arith_logic_shift.md R248). -/
def tsbValue (a : Word) (w : Width) (v : Word) (p : Byte) : Word × Byte :=
  (truncate w (v ||| a), testZ w a v p)

/-- TRB (42_arith_logic_shift.md R249). -/
def trbValue (a : Word) (w : Width) (v : Word) (p : Byte) : Word × Byte :=
  (truncate w (v &&& ~~~a), testZ w a v p)

/-- BIT: the immediate form writes only `Z` (42_arith_logic_shift.md R247). -/
def bitFlags (immediate : Bool) (w : Width) (a v : Word) (p : Byte) : Byte :=
  if immediate then testZ w a v p
  else putFlag (putFlag (testZ w a v p) .n (msb w v)) .v (v.getLsbD (w.bits - 2))

end Sys2Proof.Machine
end

