-- ==== Sys2Proof/Machine/Mapper.lean ====
section
/-! DEFINITION. The bus mapper: the region table, ROM and save-RAM translation, the internal CPU
registers and the peripheral façades, one byte per access (20_memory.md). -/

namespace Sys2Proof.Machine

/-- An error that still waits for what the mapper holds and for the address `at` of 60_exceptions.md R370. -/
abbrev Raising := Remains → Addr → Fault

/-- A raised error that still waits for the address `at` of 60_exceptions.md R370. -/
abbrev Raise := Addr → Fault

/-- What the mapper holds, as an error raised now leaves it (40_engine_addressing.md R155). -/
def State.remains (s : State) : Remains :=
  { wram := s.wram, sram := s.sram, intRegs := s.intRegs, ioLog := s.ioLog }

/-- What an index that a store does not list reads as: WRAM and save RAM at power-on, and ROM bytes
the image does not list (DESIGN CHOICE, notes/assumptions/5.md). -/
def blankByte : Byte := 0

/-- The byte a store holds at an index. -/
def Memory.read : Memory → Nat → Byte
  | [], _ => blankByte
  | (k, v) :: rest, i => if k = i then v else Memory.read rest i

/-- A cell in front of a store, left out where it says what an unlisted index reads as. -/
def Memory.cons (i : Nat) (v : Byte) (m : Memory) : Memory :=
  if v = blankByte then m else (i, v) :: m

/-- Writing one byte, keeping the canonical form. -/
def Memory.write : Memory → Nat → Byte → Memory
  | [], i, v => Memory.cons i v []
  | (k, u) :: rest, i, v =>
    if k < i then (k, u) :: Memory.write rest i v
    else if k = i then Memory.cons i v rest
    else Memory.cons i v ((k, u) :: rest)

/-- The canonical form from index `lo` on: indexes strictly rising and below `size`, no cell blank. -/
def Memory.wfFrom (size : Nat) : Nat → Memory → Bool
  | _, [] => true
  | lo, (k, v) :: rest =>
    decide (lo ≤ k) && decide (k < size) && (v != blankByte) && Memory.wfFrom size (k + 1) rest

/-- The canonical form of a store of `size` bytes. -/
def Memory.wf (size : Nat) (m : Memory) : Bool := Memory.wfFrom size 0 m

/-- Bank classes (20_memory.md R77). -/
inductive BankClass where
  | system
  | rom
  | ram
  deriving DecidableEq, Repr

/-- `BankClass(bank)` of 20_memory.md R77. -/
def bankClass (bank : Nat) : BankClass :=
  if bank ≤ 0x3F || (0x80 ≤ bank && bank ≤ 0xBF) then .system
  else if bank = 0x7E || bank = 0x7F then .ram
  else .rom

/-- `SRAM_WINDOW` of the session's mode; ExHiROM has none (20_memory.md R88 to R90). -/
def Params.sramWindows (p : Params) : List Window :=
  match p.mapMode with
  | .loRom => p.sramLoRom
  | .hiRom => p.sramHiRom
  | .exHiRom => []

/-- Every window of the geometry is well formed (notes/assumptions/12.md), and no two windows of one mapping
mode overlap: the save-RAM windows of LoROM, and the mirrors and save-RAM windows of HiROM (20_memory.md
R76). -/
def Params.geometryWf (p : Params) : Bool :=
  (p.hiRomMirrors ++ p.sramLoRom ++ p.sramHiRom).all Window.wf
    && disjoint p.sramLoRom && disjoint (p.hiRomMirrors ++ p.sramHiRom)

/-- `SramIndex(bank, offset)` where `InSramWindow(bank, offset)` (20_memory.md R89 to R91): a window exists
only where there is save RAM. -/
def sramIndex (p : Params) (bank offset : Nat) : Option Nat :=
  if 0 < p.sramSize then (windowAt p.sramWindows bank offset).map fun w => w.index bank offset
  else none

/-- `RomIndex(MAPMODE, bank, offset)` (20_memory.md R85 to R87). None where no window of `HIROM_MIRRORS`
holds the address; ExHiROM raises before it is asked. -/
def romIndex (p : Params) (bank offset : Nat) : Option Nat :=
  match p.mapMode with
  | .loRom => some (bank % 0x80 * 0x8000 + offset % 0x8000)
  | .hiRom =>
    if 0xC0 ≤ bank then some ((bank - 0xC0) * 0x10000 + offset)
    else (windowAt p.hiRomMirrors bank offset).map fun w => w.index bank offset
  | .exHiRom => none

/-- Where the region table sends an address: a store and an index, or a register block. A ROM address has no
index where no window of `HIROM_MIRRORS` holds it. -/
inductive Route where
  | wram (i : Nat)
  | sram (i : Nat)
  | rom (i : Option Nat)
  | facade (dev : Device)
  | intReg
  deriving DecidableEq, Repr

/-- A ROM address, with what it translates to (20_memory.md R83, R88). -/
def routeUpperRom (p : Params) (bank offset : Nat) : Except Raising Route :=
  match p.mapMode with
  | .exHiRom => .error (Fault.unsupportedMapping (BitVec.ofNat 8 bank) (BitVec.ofNat 16 offset))
  | .loRom | .hiRom => .ok (.rom (romIndex p bank offset))

/-- Save RAM in its window, else ROM, by the mapping mode (20_memory.md R82, R88). -/
def routeRom (p : Params) (bank offset : Nat) : Except Raising Route :=
  match sramIndex p bank offset with
  | some i => .ok (.sram i)
  | none => routeUpperRom p bank offset

/-- The expansion region 0x6000–0x7FFF of a system bank (20_memory.md R78, R80, R88). -/
def routeExpansion (p : Params) (bank offset : Nat) : Except Raising Route :=
  match p.mapMode with
  | .exHiRom => .error (Fault.unsupportedMapping (BitVec.ofNat 8 bank) (BitVec.ofNat 16 offset))
  | .loRom | .hiRom =>
    match sramIndex p bank offset with
    | some i => .ok (.sram i)
    | none => .error (Fault.unmappedRegion (BitVec.ofNat 8 bank) (BitVec.ofNat 16 offset))

/-- The offsets of a system bank (20_memory.md R78). -/
def routeSystem (p : Params) (bank offset : Nat) : Except Raising Route :=
  if offset ≤ 0x1FFF then .ok (.wram offset)
  else if 0x2100 ≤ offset ∧ offset ≤ 0x213F then .ok (.facade .ppu)
  else if 0x2140 ≤ offset ∧ offset ≤ 0x217F then .ok (.facade .apu)
  else if 0x2180 ≤ offset ∧ offset ≤ 0x2183 then .ok (.facade .wramPort)
  else if 0x4000 ≤ offset ∧ offset ≤ 0x41FF then .ok (.facade .ctrl)
  else if 0x4200 ≤ offset ∧ offset ≤ 0x42FF then .ok .intReg
  else if 0x4300 ≤ offset ∧ offset ≤ 0x43FF then .ok (.facade .dma)
  else if 0x6000 ≤ offset ∧ offset ≤ 0x7FFF then routeExpansion p bank offset
  else if 0x8000 ≤ offset then routeUpperRom p bank offset
  else .error (Fault.unmappedRegion (BitVec.ofNat 8 bank) (BitVec.ofNat 16 offset))

/-- The region table: a pure function of the parameters, the bank and the offset (20_memory.md R75 to
R82, R113). -/
def route (p : Params) (bank offset : Nat) : Except Raising Route :=
  match bankClass bank with
  | .system => routeSystem p bank offset
  | .rom => routeRom p bank offset
  | .ram => .ok (.wram ((bank - 0x7E) * 0x10000 + offset))

/-- The write-only registers in offset order (20_memory.md R93). -/
def wRegTable : List WReg :=
  [.nmitimen, .wrio, .wrmpya, .wrmpyb, .wrdivl, .wrdivh, .wrdivb,
   .htimel, .htimeh, .vtimel, .vtimeh, .mdmaen, .hdmaen, .memsel]

/-- The read-only registers in offset order (20_memory.md R93). -/
def rRegTable : List RReg :=
  [.rdnmi, .timeup, .hvbjoy, .rdio, .rddivl, .rddivh, .rdmpyl, .rdmpyh,
   .joy1l, .joy1h, .joy2l, .joy2h, .joy3l, .joy3h, .joy4l, .joy4h]

/-- `INTREG_TABLE` (20_memory.md R93): the register at an offset of 0x4200–0x42FF, if there is one. -/
def intRegAt (offset : Nat) : Option IntReg :=
  if offset < 0x4210 then wRegTable[offset - 0x4200]?.map .w
  else rRegTable[offset - 0x4210]?.map .r

/-- The cell of a write-only internal register. -/
def IntRegs.get (c : IntRegs) : WReg → Byte
  | .nmitimen => c.nmitimen
  | .wrio => c.wrio
  | .wrmpya => c.wrmpya
  | .wrmpyb => c.wrmpyb
  | .wrdivl => c.wrdivl
  | .wrdivh => c.wrdivh
  | .wrdivb => c.wrdivb
  | .htimel => c.htimel
  | .htimeh => c.htimeh
  | .vtimel => c.vtimel
  | .vtimeh => c.vtimeh
  | .mdmaen => c.mdmaen
  | .hdmaen => c.hdmaen
  | .memsel => c.memsel

/-- Writing the cell of a write-only internal register. -/
def IntRegs.set (c : IntRegs) (r : WReg) (v : Byte) : IntRegs :=
  match r with
  | .nmitimen => { c with nmitimen := v }
  | .wrio => { c with wrio := v }
  | .wrmpya => { c with wrmpya := v }
  | .wrmpyb => { c with wrmpyb := v }
  | .wrdivl => { c with wrdivl := v }
  | .wrdivh => { c with wrdivh := v }
  | .wrdivb => { c with wrdivb := v }
  | .htimel => { c with htimel := v }
  | .htimeh => { c with htimeh := v }
  | .vtimel => { c with vtimel := v }
  | .vtimeh => { c with vtimeh := v }
  | .mdmaen => { c with mdmaen := v }
  | .hdmaen => { c with hdmaen := v }
  | .memsel => { c with memsel := v }

/-- An event at the end of `IOLOG`. -/
def State.log (s : State) (e : IoEvent) : State := { s with ioLog := s.ioLog ++ [e] }

/-- `Facade(dev, bank, offset, read)` (20_memory.md R97): the byte is a draw. -/
def readFacade (dev : Device) (bank offset : Nat) (s : State) : Except Raise (Byte × State) :=
  if BitVec.ofNat 16 offset ∈ s.params.facadeInvalid then
    .error (Fault.invalidPeripheralRegister dev (BitVec.ofNat 8 bank) (BitVec.ofNat 16 offset) s.remains)
  else
    let v := Config.facadeRead s.draws
    .ok (v, { s with draws := s.draws + 1 }.log (.facadeRead dev (BitVec.ofNat 16 offset) v))

/-- `Facade(dev, bank, offset, write, v)` (20_memory.md R97). -/
def writeFacade (dev : Device) (bank offset : Nat) (v : Byte) (s : State) : Except Raise State :=
  if BitVec.ofNat 16 offset ∈ s.params.facadeInvalid then
    .error (Fault.invalidPeripheralRegister dev (BitVec.ofNat 8 bank) (BitVec.ofNat 16 offset) s.remains)
  else .ok (s.log (.facadeWrite dev (BitVec.ofNat 16 offset) v))

/-- `IntReg(bank, offset, read)` (20_memory.md R94, R95): the byte is a draw. -/
def readIntReg (bank offset : Nat) (s : State) : Except Raise (Byte × State) :=
  match intRegAt offset with
  | none =>
    .error (Fault.invalidPeripheralRegister .intReg (BitVec.ofNat 8 bank) (BitVec.ofNat 16 offset) s.remains)
  | some (.w r) => .error (Fault.illegalRegisterAccess (.w r) .read s.remains)
  | some (.r r) =>
    let v := Config.intRegIn s.draws
    .ok (v, { s with draws := s.draws + 1 }.log (.intRegRead r v))

/-- `IntReg(bank, offset, write, v)` (20_memory.md R94). -/
def writeIntReg (bank offset : Nat) (v : Byte) (s : State) : Except Raise State :=
  match intRegAt offset with
  | none =>
    .error (Fault.invalidPeripheralRegister .intReg (BitVec.ofNat 8 bank) (BitVec.ofNat 16 offset) s.remains)
  | some (.r r) => .error (Fault.illegalRegisterAccess (.r r) .write s.remains)
  | some (.w r) => .ok ({ s with intRegs := s.intRegs.set r v }.log (.intRegWrite r v))

/-- `RangeCheck(bank, offset)` (20_memory.md R74): the bank first. -/
def rangeCheck (bank offset : Nat) : Except Raising Unit :=
  if 0xFF < bank then .error (Fault.addressRange .bank bank offset)
  else if 0xFFFF < offset then .error (Fault.addressRange .offset bank offset)
  else .ok ()

/-- A read at the place the region table names. A ROM address that no window of `HIROM_MIRRORS` holds is one
that no region claims (20_memory.md R80; notes/assumptions/12.md). -/
def readRoute (r : Route) (bank offset : Nat) (s : State) : Except Raise (Byte × State) :=
  match r with
  | .wram i => .ok (Memory.read s.wram i, s)
  | .sram i =>
    if i < s.params.sramSize then .ok (Memory.read s.sram i, s)
    else .error (Fault.sramRange (BitVec.ofNat 8 bank) (BitVec.ofNat 16 offset) i s.remains)
  | .rom none => .error (Fault.unmappedRegion (BitVec.ofNat 8 bank) (BitVec.ofNat 16 offset) s.remains)
  | .rom (some i) =>
    if i < s.params.romSize then .ok (Memory.read s.params.rom i, s)
    else .error (Fault.romRange (BitVec.ofNat 8 bank) (BitVec.ofNat 16 offset) i s.remains)
  | .facade dev => readFacade dev bank offset s
  | .intReg => readIntReg bank offset s

/-- A write at the place the region table names. A write to ROM is an error whatever the address translates to
(20_memory.md R83). -/
def writeRoute (r : Route) (bank offset : Nat) (v : Byte) (s : State) : Except Raise State :=
  match r with
  | .wram i => .ok { s with wram := Memory.write s.wram i v }
  | .sram i =>
    if i < s.params.sramSize then .ok { s with sram := Memory.write s.sram i v }
    else .error (Fault.sramRange (BitVec.ofNat 8 bank) (BitVec.ofNat 16 offset) i s.remains)
  | .rom _ => .error (Fault.romWrite (BitVec.ofNat 8 bank) (BitVec.ofNat 16 offset) s.remains)
  | .facade dev => writeFacade dev bank offset v s
  | .intReg => writeIntReg bank offset v s

/-- The place an access reaches: the range check, then the region table (20_memory.md R74, R75). -/
def locate (bank offset : Nat) (s : State) : Except Raise Route :=
  match rangeCheck bank offset with
  | .error e => .error (e s.remains)
  | .ok () =>
    match route s.params bank offset with
    | .error e => .error (e s.remains)
    | .ok r => .ok r

/-- `Access(bank, offset, read)` (20_memory.md R73 to R75): the entry every agent uses. -/
def accessRead (bank offset : Nat) (s : State) : Except Raise (Byte × State) := do
  let r ← locate bank offset s
  readRoute r bank offset s

/-- `Access(bank, offset, write, v)` (20_memory.md R73 to R75). -/
def accessWrite (bank offset : Nat) (v : Byte) (s : State) : Except Raise State := do
  let r ← locate bank offset s
  writeRoute r bank offset v s

/-- `Read8(a24)` (00_scope.md R12). -/
def read8 (a : Addr) (s : State) : Except Raise (Byte × State) :=
  accessRead (bankOf a).toNat (offsetOf a).toNat s

/-- `Write8(a24, v)` (00_scope.md R12). -/
def write8 (a : Addr) (v : Byte) (s : State) : Except Raise State :=
  accessWrite (bankOf a).toNat (offsetOf a).toNat v s

/-- The byte a read of an address gives where the read has no side effect, that is in WRAM, save RAM
and ROM (20_memory.md R103); none at a register block or where a read is an error. -/
def peek (s : State) (a : Addr) : Option Byte :=
  match route s.params (bankOf a).toNat (offsetOf a).toNat with
  | .ok (.wram i) => some (Memory.read s.wram i)
  | .ok (.sram i) => if i < s.params.sramSize then some (Memory.read s.sram i) else none
  | .ok (.rom (some i)) => if i < s.params.romSize then some (Memory.read s.params.rom i) else none
  | _ => none

/-- How the bytes of a wider datum follow each other (40_engine_addressing.md R160). -/
inductive Wrap where
  /-- `L24`: the next address is the next of 2^24 (`MemRead`, `MemWrite`). -/
  | l24
  /-- The offset wraps within the bank (`BankRead`, `BankWrite`): class `B0` where the bank is 0. -/
  | bank
  deriving DecidableEq, Repr

/-- The address of byte `i` of a datum at `ea` (00_scope.md R12). -/
def byteAddr (c : Wrap) (ea : Addr) (i : Nat) : Addr :=
  match c with
  | .l24 => ea + BitVec.ofNat 24 i
  | .bank => mkAddr (bankOf ea) (offsetOf ea + BitVec.ofNat 16 i)

/-- Two bytes, low address first (00_scope.md R12). -/
def readWord (c : Wrap) (ea : Addr) (s : State) : Except Raise (Word × State) := do
  let (l, s) ← read8 (byteAddr c ea 0) s
  let (h, s) ← read8 (byteAddr c ea 1) s
  return (mkWord l h, s)

/-- Three bytes, low address first (00_scope.md R12). -/
def readLong (c : Wrap) (ea : Addr) (s : State) : Except Raise (Addr × State) := do
  let (w, s) ← readWord c ea s
  let (b, s) ← read8 (byteAddr c ea 2) s
  return (mkAddr b w, s)

/-- A datum of width `w`, zero-extended. -/
def readData (w : Width) (c : Wrap) (ea : Addr) (s : State) : Except Raise (Word × State) :=
  match w with
  | .w8 => do
    let (l, s) ← read8 (byteAddr c ea 0) s
    return (mkWord l 0, s)
  | .w16 => readWord c ea s

/-- A datum of width `w` written lowest address first (20_memory.md R102). -/
def writeData (w : Width) (c : Wrap) (ea : Addr) (v : Word) (s : State) : Except Raise State :=
  match w with
  | .w8 => write8 (byteAddr c ea 0) (loByte v) s
  | .w16 => do
    let s ← write8 (byteAddr c ea 0) (loByte v) s
    write8 (byteAddr c ea 1) (hiByte v) s

/-- A datum of width `w` written highest address first, as a read-modify-write does (20_memory.md R102). -/
def writeBack (w : Width) (c : Wrap) (ea : Addr) (v : Word) (s : State) : Except Raise State :=
  match w with
  | .w8 => write8 (byteAddr c ea 0) (loByte v) s
  | .w16 => do
    let s ← write8 (byteAddr c ea 1) (hiByte v) s
    write8 (byteAddr c ea 0) (loByte v) s

end Sys2Proof.Machine
end

