-- ==== Sys2Proof/Machine/Ops.lean ====
section
/-! DEFINITION. The named operations over registers and memory that the instructions share: the
dual-width registers, the invariant-keeping `Normalize`, the stack, taking an interrupt and returning
from one, power-on and RESET, and what happens at a step boundary. -/

namespace Sys2Proof.Machine

/-! ### Registers -/

/-- `P.F` of the state. -/
def State.flag (s : State) (f : Flag) : Bool := getFlag s.p f

/-- `P.F <- b` in the state. -/
def State.setFlag (s : State) (f : Flag) (b : Bool) : State := { s with p := putFlag s.p f b }

/-- The width a width flag gives: one byte where it is 1. -/
def widthOf (narrow : Bool) : Width := if narrow then .w8 else .w16

/-- `wM` of 00_scope.md R14. -/
def State.wM (s : State) : Width := widthOf (s.flag .m)

/-- `wX` of 00_scope.md R14. -/
def State.wX (s : State) : Width := widthOf (s.flag .x)

/-- `A_w <- v` of 00_scope.md R11: at width 1 the high byte `B` is kept. -/
def mergeLow (w : Width) (old v : Word) : Word :=
  match w with
  | .w8 => (old &&& 0xFF00) ||| (v &&& 0x00FF)
  | .w16 => v

/-- `A_w <- v` in the state. -/
def State.putA (s : State) (w : Width) (v : Word) : State := { s with a := mergeLow w s.a v }

/-- `setNZ(v, w)` in the state (00_scope.md R14). -/
def State.setNZ (s : State) (w : Width) (v : Word) : State := { s with p := Machine.setNZ w v s.p }

/-- A stack pointer confined to page 1: `0x0100 | S[7:0]`. -/
def pageOne (sp : Word) : Word := 0x0100 ||| (sp &&& 0x00FF)

/-- The emulation-mode half of `Normalize` (10_state.md R42, I1). -/
def State.normalizeE (s : State) : State :=
  if s.e then { s with p := putFlag (putFlag s.p .m true) .x true, sp := pageOne s.sp } else s

/-- The index half of `Normalize` (10_state.md R42, I2). -/
def State.normalizeX (s : State) : State :=
  if s.flag .x then { s with x := s.x &&& 0x00FF, y := s.y &&& 0x00FF } else s

/-- `Normalize()` (10_state.md R42). -/
def State.normalize (s : State) : State := s.normalizeE.normalizeX

/-- The 24-bit address `PBR:PC`. -/
def State.codeAddr (s : State) : Addr := mkAddr s.pbr s.pc

/-- Cycles added to the step's count (10_state.md R41). -/
def State.charge (s : State) (n : Nat) : State := { s with cycles := s.cycles + n }

/-! ### The stack (44_stack.md section 1) -/

/-- The stack pointer one down, or one up, in the mode's page (44_stack.md R300, R301, R303). -/
def stackWrap (e : Bool) (sp : Word) : Word := if e then pageOne sp else sp

/-- `Push8(v)` (44_stack.md R300). -/
def push8 (v : Byte) (s : State) : Except Raise State := do
  let s ← write8 (mkAddr 0 s.sp) v s
  return { s with sp := stackWrap s.e (s.sp - 1) }

/-- `Pull8()` (44_stack.md R301). -/
def pull8 (s : State) : Except Raise (Byte × State) :=
  read8 (mkAddr 0 (stackWrap s.e (s.sp + 1))) { s with sp := stackWrap s.e (s.sp + 1) }

/-- `Push16(v)` (44_stack.md R302): high byte first. -/
def push16 (v : Word) (s : State) : Except Raise State := do
  let s ← push8 (hiByte v) s
  push8 (loByte v) s

/-- `Pull16()` (44_stack.md R302): low byte first. -/
def pull16 (s : State) : Except Raise (Word × State) := do
  let (l, s) ← pull8 s
  let (h, s) ← pull8 s
  return (mkWord l h, s)

/-- A push at width `w`: `if w == 2: Push16(v) else: Push8(v[7:0])` (44_stack.md R304 to R306). -/
def pushW (w : Width) (v : Word) (s : State) : Except Raise State :=
  match w with
  | .w8 => push8 (loByte v) s
  | .w16 => push16 v s

/-- A pull at width `w`, zero-extended (44_stack.md R311 to R313). -/
def pullW (w : Width) (s : State) : Except Raise (Word × State) :=
  match w with
  | .w8 => do
    let (l, s) ← pull8 s
    return (mkWord l 0, s)
  | .w16 => pull16 s

/-! ### Taking an interrupt, and returning from one -/

/-- The events that have a vector and an entry (60_exceptions.md R384). -/
inductive IntKind where
  | cop
  | brk
  | abort
  | nmi
  | irq
  deriving DecidableEq, Repr

/-- The native entry of the vector table (60_exceptions.md R384). -/
def NativeVectors.entry (t : NativeVectors) : IntKind → Word
  | .cop => t.cop
  | .brk => t.brk
  | .abort => t.abort
  | .nmi => t.nmi
  | .irq => t.irq

/-- The emulation entry of the vector table: BRK and IRQ share one (60_exceptions.md R384). -/
def EmulationVectors.entry (t : EmulationVectors) : IntKind → Word
  | .cop => t.cop
  | .brk => t.irqBrk
  | .abort => t.abort
  | .nmi => t.nmi
  | .irq => t.irqBrk

/-- The status byte pushed by an emulation-mode entry: bit 4 is the "B" flag, 1 for BRK and COP
(60_exceptions.md R386, 10_state.md R39). -/
def pushedStatus (k : IntKind) (p : Byte) : Byte :=
  match k with
  | .brk | .cop => p ||| 0x10
  | .abort | .nmi | .irq => p &&& ~~~0x10

/-- The end of both entries: `I` set, `D` cleared, bank 0, the vector, `Running`. -/
def State.atVector (s : State) (v : Word) : State :=
  { s with p := putFlag (putFlag s.p .i true) .d false, pbr := 0, pc := v, run := .running }

/-- `Enter_native(kind, ret)` (60_exceptions.md R385). -/
def enterNative (k : IntKind) (ret : Word) (s : State) : Except Raise State := do
  let s ← push8 s.pbr s
  let s ← push16 ret s
  let s ← push8 s.p s
  return s.atVector (s.params.vecN.entry k)

/-- `Enter_emulation(kind, ret)` (60_exceptions.md R386). -/
def enterEmulation (k : IntKind) (ret : Word) (s : State) : Except Raise State := do
  let s ← push16 ret s
  let s ← push8 (pushedStatus k s.p) s
  return s.atVector (s.params.vecE.entry k)

/-- `Enter(kind, ret)`: the form the mode bit chooses (60_exceptions.md R387). -/
def enter (k : IntKind) (ret : Word) (s : State) : Except Raise State :=
  if s.e then enterEmulation k ret s else enterNative k ret s

/-- The pulls of RTI (45_flags_mode_system.md R344): `P`, then `PC`, then `PBR` in native mode. -/
def leave (s : State) : Except Raise State := do
  let (p, s) ← pull8 s
  let s := { s with p := p }.normalize
  let (pc, s) ← pull16 s
  let s := { s with pc := pc }
  if s.e then return s
  else
    let (b, s) ← pull8 s
    return { s with pbr := b }

/-! ### Power-on and RESET (70_reset_and_hazards.md section 1) -/

/-- `Reset()` (70_reset_and_hazards.md R410). -/
def State.resetSignal (s : State) : State :=
  { s with
    e := true
    p := putFlag (putFlag (putFlag (putFlag s.p .m true) .x true) .d false) .i true
    pbr := 0
    dbr := 0
    d := 0
    sp := pageOne s.sp
    x := s.x &&& 0x00FF
    y := s.y &&& 0x00FF
    nmiPending := false
    run := .running
    cycles := 0
    pc := s.params.vecE.reset }

/-- The values `PowerOn()` draws (70_reset_and_hazards.md R411): any of them may be anything. -/
structure PowerOnDraws where
  a : Word
  x : Word
  y : Word
  sp : Word
  d : Word
  pc : Word
  pbr : Byte
  dbr : Byte
  p : Byte
  e : Bool
  wram : Memory
  intRegs : IntRegs
  deriving DecidableEq, Repr

/-- The bytes of a list as a store, from an index on. -/
def Memory.ofBytes : Nat → List Byte → Memory
  | _, [] => []
  | i, v :: vs => Memory.cons i v (Memory.ofBytes (i + 1) vs)

/-- `PowerOn()` then `Reset()` for any parameters and any draws, with a level on IRQ and no inputs to
come; parameters outside their types are refused before any step (00_scope.md R8, 70_reset_and_hazards.md
R410, R411, R417). -/
def powerOn (params : Params) (sramInit : List Byte) (w : PowerOnDraws) (irq : Bool) :
    Except Refusal State :=
  if sramInit.length = params.sramSize ∧ params.geometryWf = true then
    .ok (State.resetSignal
      { a := w.a, x := w.x, y := w.y, sp := w.sp, d := w.d, pc := w.pc, pbr := w.pbr, dbr := w.dbr,
        p := w.p, e := w.e, cycles := 0, run := .running, nmiPending := false, irqLine := irq,
        inputs := [], wram := w.wram, sram := Memory.ofBytes 0 sramInit, intRegs := w.intRegs,
        ioLog := [], params := params, draws := 0 })
  else .error .badParameters

/-- The final content of save RAM, handed back at the end of a session (70_reset_and_hazards.md R418). -/
def State.saveRam (s : State) : List Byte :=
  (List.range s.params.sramSize).map (Memory.read s.sram)

/-- What the mapper held when a fault was raised. -/
def Fault.left : Fault → Remains
  | .unimplementedOpcode _ _ _ l _ | .addressRange _ _ _ l _ | .invalidPeripheralRegister _ _ _ l _
  | .unsupportedMapping _ _ l _ | .illegalRegisterAccess _ _ l _ | .unmappedRegion _ _ l _
  | .romWrite _ _ l _ | .romRange _ _ _ l _ | .sramRange _ _ _ l _ => l

/-- The state after a step from `s` that ended in a fault: final, with the writes and events the step made
before its error; the registers, which nothing observes, are those before the step (60_exceptions.md R370,
40_engine_addressing.md R155). -/
def State.faultedWith (s : State) (f : Fault) : State :=
  { s with
    run := .faulted f
    wram := f.left.wram
    sram := f.left.sram
    intRegs := f.left.intRegs
    ioLog := f.left.ioLog }

/-! ### A step boundary -/

/-- One access from outside (20_memory.md R108). The byte a read answers goes to the agent outside. -/
def serve (r : BusRequest) (s : State) : Except Raise State :=
  match r with
  | .read bank offset => (accessRead bank offset s).map (·.2)
  | .write bank offset v => accessWrite bank offset v s

/-- The accesses from outside, in order. -/
def serveAll : List BusRequest → State → Except Raise State
  | [], s => .ok s
  | r :: rest, s => do
    let s ← serve r s
    serveAll rest s

/-- The input lines at a boundary (60_exceptions.md R378, R381 to R383): an edge on NMI is latched, IRQ
is a level, and RESET comes first, so it clears the latch (notes/assumptions/8.md). -/
def State.sampleLines (s : State) (b : Boundary) : State :=
  let s := { s with nmiPending := s.nmiPending || b.nmiEdge, irqLine := b.irqLine }
  if b.reset then s.resetSignal else s

/-- What the outside world does at the boundary before a step: the first of the inputs to come. -/
def sampleInputs (s : State) : Except Raise State :=
  match s.inputs with
  | [] => .ok s
  | b :: rest => do
    let s ← serveAll b.accesses { s with inputs := rest }
    return s.sampleLines b

/-- The entry of a hardware interrupt costs 7 cycles, 8 in native mode (70_reset_and_hazards.md R440). -/
def entryCycles (e : Bool) : Nat := if e then 7 else 8

/-- `TakeInterrupt(kind)` as a whole step (60_exceptions.md R387): `ret = PC`, and NMI clears its latch. -/
def takeInterrupt (k : IntKind) (s : State) : Host.Outcome State Fault Refusal :=
  let t := { s with
    nmiPending := (match k with | .nmi => false | _ => s.nmiPending)
    cycles := entryCycles s.e }
  match enter k t.pc t with
  | .ok t => .next t.normalize
  | .error e => .fault (e s.codeAddr)

end Sys2Proof.Machine
end

