-- ==== Sys2Proof/Machine/Timing.lean ====
section
/-! DEFINITION. The cycle count of a step (70_reset_and_hazards.md section 3), and how the meaning of an
instruction is run: the program counter moved past it, its effect, `Normalize`, or the fault. -/

namespace Sys2Proof.Machine

/-- The base cycles of row 0x (the cycles column of 30_encoding.md R126). -/
def cyclesRow0 : List Nat := [7, 6, 7, 4, 5, 3, 5, 6, 3, 2, 2, 4, 6, 4, 6, 5]

/-- The base cycles of row 1x (the cycles column of 30_encoding.md R126). -/
def cyclesRow1 : List Nat := [2, 5, 5, 7, 5, 4, 6, 6, 2, 4, 2, 2, 6, 4, 7, 5]

/-- The base cycles of row 2x (the cycles column of 30_encoding.md R126). -/
def cyclesRow2 : List Nat := [6, 6, 8, 4, 3, 3, 5, 6, 4, 2, 2, 5, 4, 4, 6, 5]

/-- The base cycles of row 3x (the cycles column of 30_encoding.md R126). -/
def cyclesRow3 : List Nat := [2, 5, 5, 7, 4, 4, 6, 6, 2, 4, 2, 2, 4, 4, 7, 5]

/-- The base cycles of row 4x (the cycles column of 30_encoding.md R126). -/
def cyclesRow4 : List Nat := [6, 6, 2, 4, 7, 3, 5, 6, 3, 2, 2, 3, 3, 4, 6, 5]

/-- The base cycles of row 5x (the cycles column of 30_encoding.md R126). -/
def cyclesRow5 : List Nat := [2, 5, 5, 7, 7, 4, 6, 6, 2, 4, 3, 2, 4, 4, 7, 5]

/-- The base cycles of row 6x (the cycles column of 30_encoding.md R126). -/
def cyclesRow6 : List Nat := [6, 6, 6, 4, 3, 3, 5, 6, 4, 2, 2, 6, 5, 4, 6, 5]

/-- The base cycles of row 7x (the cycles column of 30_encoding.md R126). -/
def cyclesRow7 : List Nat := [2, 5, 5, 7, 4, 4, 6, 6, 2, 4, 4, 2, 6, 4, 7, 5]

/-- The base cycles of row 8x (the cycles column of 30_encoding.md R126). -/
def cyclesRow8 : List Nat := [2, 6, 4, 4, 3, 3, 3, 6, 2, 2, 2, 3, 4, 4, 4, 5]

/-- The base cycles of row 9x (the cycles column of 30_encoding.md R126). -/
def cyclesRow9 : List Nat := [2, 6, 5, 7, 4, 4, 4, 6, 2, 5, 2, 2, 4, 5, 5, 5]

/-- The base cycles of row Ax (the cycles column of 30_encoding.md R126). -/
def cyclesRowA : List Nat := [2, 6, 2, 4, 3, 3, 3, 6, 2, 2, 2, 4, 4, 4, 4, 5]

/-- The base cycles of row Bx (the cycles column of 30_encoding.md R126). -/
def cyclesRowB : List Nat := [2, 5, 5, 7, 4, 4, 4, 6, 2, 4, 2, 2, 4, 4, 4, 5]

/-- The base cycles of row Cx (the cycles column of 30_encoding.md R126). -/
def cyclesRowC : List Nat := [2, 6, 3, 4, 3, 3, 5, 6, 2, 2, 2, 3, 4, 4, 6, 5]

/-- The base cycles of row Dx (the cycles column of 30_encoding.md R126). -/
def cyclesRowD : List Nat := [2, 5, 5, 7, 6, 4, 6, 6, 2, 4, 3, 3, 6, 4, 7, 5]

/-- The base cycles of row Ex (the cycles column of 30_encoding.md R126). -/
def cyclesRowE : List Nat := [2, 6, 3, 4, 3, 3, 5, 6, 2, 2, 2, 3, 4, 4, 6, 5]

/-- The base cycles of row Fx (the cycles column of 30_encoding.md R126). -/
def cyclesRowF : List Nat := [2, 5, 5, 7, 5, 4, 6, 6, 2, 4, 4, 2, 8, 4, 7, 5]

/-- The base cycles of every opcode byte, in order. -/
def cyclesTable : List Nat :=
  cyclesRow0 ++ cyclesRow1 ++ cyclesRow2 ++ cyclesRow3 ++ cyclesRow4 ++ cyclesRow5 ++ cyclesRow6 ++
  cyclesRow7 ++ cyclesRow8 ++ cyclesRow9 ++ cyclesRowA ++ cyclesRowB ++ cyclesRowC ++ cyclesRowD ++
  cyclesRowE ++ cyclesRowF

/-- `base(desc)` (70_reset_and_hazards.md R431). -/
def baseCycles (opcode : Byte) : Nat := cyclesTable.getD opcode.toNat 0

/-- Whether a format uses direct-page addressing (70_reset_and_hazards.md R432). -/
def Form.directPage : Form → Bool
  | .dp _ | .dpX _ | .dpY _ | .dpInd _ | .dpIndX _ | .dpIndY _ | .dpIndLong _ | .dpIndLongY _ => true
  | .imp | .stk | .acc | .immM _ | .immX _ | .imm8 _ | .imm16 _ | .abs _ | .absX _ | .absY _
  | .absInd _ | .absIndX _ | .absIndLong _ | .long _ | .longX _ | .sr _ | .srIndY _
  | .rel8 _ | .rel16 _ | .blk _ _ => false

/-- `dp_penalty` (70_reset_and_hazards.md R432). -/
def dpPenalty (f : Form) (d : Word) : Nat :=
  if Form.directPage f && loByte d != 0 then 1 else 0

/-- How many of `n` fetches from offset `pc` on move `PC` from `0x..FF` to `0x..00`. -/
def pageCrossings (pc : Word) : Nat → Nat
  | 0 => 0
  | n + 1 => (if loByte pc = 0xFF then 1 else 0) + pageCrossings (pc + 1) n

/-- `pc_cross_penalty` of an instruction of `n` bytes at `pc` (70_reset_and_hazards.md R437). -/
def pcCrossPenalty (e : Bool) (pc : Word) (n : Nat) : Nat := if e then pageCrossings pc n else 0

/-- Whether a format pays the index page-crossing penalty (70_reset_and_hazards.md R436). -/
def Form.indexPenalised : Form → Bool
  | .absX _ | .absY _ | .dpIndY _ => true
  | .imp | .stk | .acc | .immM _ | .immX _ | .imm8 _ | .imm16 _ | .abs _
  | .absInd _ | .absIndX _ | .absIndLong _ | .long _ | .longX _
  | .dp _ | .dpX _ | .dpY _ | .dpInd _ | .dpIndX _ | .dpIndLong _ | .dpIndLongY _
  | .sr _ | .srIndY _ | .rel8 _ | .rel16 _ | .blk _ _ => false

/-- Whether two offsets lie in different 256-byte pages. -/
def otherPage (a b : Word) : Bool := a &&& 0xFF00 != b &&& 0xFF00

/-- `index_penalty` (70_reset_and_hazards.md R436); `crossed` says that adding the index moved the
address to another page. -/
def indexPenalty (f : Form) (x crossed : Bool) : Nat :=
  if Form.indexPenalised f && (!x || crossed) then 1 else 0

/-- `m_penalty`: `n` cycles where `P.M = 0` (70_reset_and_hazards.md R433). -/
def State.chargeM (s : State) (n : Nat) : State := s.charge (if s.flag .m then 0 else n)

/-- `x_penalty`: one cycle where `P.X = 0` (70_reset_and_hazards.md R434). -/
def State.chargeX (s : State) : State := s.charge (if s.flag .x then 0 else 1)

/-- `native_penalty`: one cycle where `E = 0` (70_reset_and_hazards.md R439). -/
def State.chargeNative (s : State) : State := s.charge (if s.e then 0 else 1)

/-- The cycles of a taken branch from `next` to `target` (70_reset_and_hazards.md R435). -/
def branchPenalty (e : Bool) (next target : Word) : Nat :=
  1 + (if e && otherPage target next then 1 else 0)

/-- The state when the handler of an instruction starts: `PC` is `PC_next`, and the cycles are those
known from the instruction and its place (40_engine_addressing.md R151, 70_reset_and_hazards.md R430). -/
def State.begin (s : State) (i : Instr) : State :=
  { s with
    pc := s.pc + BitVec.ofNat 16 i.form.length
    cycles := baseCycles i.opcode + dpPenalty i.form s.d + pcCrossPenalty s.e s.pc i.form.length }

/-- The execute phase of one instruction whose opcode is at `PBR:PC` (40_engine_addressing.md R150,
R155): its handler after the operand fetch, then `Normalize`; an error ends the step. -/
def perform (i : Instr) (handler : State → Except Raise State) (s : State) :
    Host.Outcome State Fault Refusal :=
  match handler (s.begin i) with
  | .ok t => .next t.normalize
  | .error e => .fault (e s.codeAddr)

/-- The execute phase of an instruction that accesses no memory. -/
def performPure (i : Instr) (handler : State → State) (s : State) :
    Host.Outcome State Fault Refusal :=
  perform i (fun t => .ok (handler t)) s

end Sys2Proof.Machine
end

