-- ==== Sys2Proof/Machine/Operands.lean ====
section
/-! DEFINITION. The addressing modes and the operand access forms (40_engine_addressing.md sections 3
and 4). The operand bytes are already fetched: they are the fields of the `Form`. -/

namespace Sys2Proof.Machine

/-- The operand forms of 40_engine_addressing.md R159 that an instruction reads or writes data through.
`crossed` of a memory operand says that its index moved it to another page (R436 of
70_reset_and_hazards.md). -/
inductive Operand where
  | imm (v : Word)
  | acc
  | mem (ea : Addr) (c : Wrap) (crossed : Bool)
  | none
  deriving DecidableEq, Repr

/-- Whether adding the index moved the operand to another page. -/
def Operand.crossed : Operand → Bool
  | .mem _ _ b => b
  | .imm _ | .acc | .none => false

/-- A byte as a word, zero-extended. -/
def zextByte (v : Byte) : Word := v.setWidth 16

/-- `sext_16(r8)` (30_encoding.md R124). -/
def sextByte (v : Byte) : Word := v.signExtend 16

/-- The value of a flag-sized immediate (30_encoding.md R123). -/
def immValue : Imm → Word
  | .byte v => zextByte v
  | .word v => v

/-- An address plus an index, mod 2^24 (40_engine_addressing.md R165 to R169). -/
def indexed (a : Addr) (i : Word) : Addr := a + i.setWidth 24

/-- The address `0x00:((D + d) & 0xFFFF)` (40_engine_addressing.md R163). -/
def directAddr (s : State) (d : Byte) : Addr := mkAddr 0 (s.d + zextByte d)

/-- The address `0x00:((D + d + i) & 0xFFFF)` (40_engine_addressing.md R164). -/
def directIndexed (s : State) (d : Byte) (i : Word) : Addr := mkAddr 0 (s.d + zextByte d + i)

/-- The address `0x00:((S + d) & 0xFFFF)` (40_engine_addressing.md R169). -/
def stackAddr (s : State) (d : Byte) : Addr := mkAddr 0 (s.sp + zextByte d)

/-- `Resolve(format)` for the formats that name data (40_engine_addressing.md R161 to R169, R171, R172).
A format that names no data (a jump, a branch, a block move, an implied operand) resolves to none. -/
def resolve (f : Form) (s : State) : Except Raise (Operand × State) :=
  match f with
  | .immM v | .immX v => .ok (.imm (immValue v), s)
  | .imm8 v => .ok (.imm (zextByte v), s)
  | .imm16 v => .ok (.imm v, s)
  | .acc => .ok (.acc, s)
  | .abs a => .ok (.mem (mkAddr s.dbr a) .l24 false, s)
  | .absX a => .ok (.mem (indexed (mkAddr s.dbr a) s.x) .l24 (otherPage a (a + s.x)), s)
  | .absY a => .ok (.mem (indexed (mkAddr s.dbr a) s.y) .l24 (otherPage a (a + s.y)), s)
  | .long a => .ok (.mem a .l24 false, s)
  | .longX a => .ok (.mem (indexed a s.x) .l24 false, s)
  | .dp d => .ok (.mem (directAddr s d) .bank false, s)
  | .dpX d => .ok (.mem (directIndexed s d s.x) .bank false, s)
  | .dpY d => .ok (.mem (directIndexed s d s.y) .bank false, s)
  | .dpInd d => do
    let (ptr, s) ← readWord .bank (directAddr s d) s
    return (.mem (mkAddr s.dbr ptr) .l24 false, s)
  | .dpIndX d => do
    let (ptr, s) ← readWord .bank (directIndexed s d s.x) s
    return (.mem (mkAddr s.dbr ptr) .l24 false, s)
  | .dpIndY d => do
    let (ptr, s) ← readWord .bank (directAddr s d) s
    return (.mem (indexed (mkAddr s.dbr ptr) s.y) .l24 (otherPage ptr (ptr + s.y)), s)
  | .dpIndLong d => do
    let (ptr, s) ← readLong .bank (directAddr s d) s
    return (.mem ptr .l24 false, s)
  | .dpIndLongY d => do
    let (ptr, s) ← readLong .bank (directAddr s d) s
    return (.mem (indexed ptr s.y) .l24 false, s)
  | .sr d => .ok (.mem (stackAddr s d) .bank false, s)
  | .srIndY d => do
    let (ptr, s) ← readWord .bank (stackAddr s d) s
    return (.mem (indexed (mkAddr s.dbr ptr) s.y) .l24 false, s)
  | .imp | .stk | .absInd _ | .absIndX _ | .absIndLong _ | .rel8 _ | .rel16 _ | .blk _ _ =>
    .ok (.none, s)

/-- `Load(opnd, w)` (40_engine_addressing.md R175). No row of the opcode table loads through `none`. -/
def load (o : Operand) (w : Width) (s : State) : Except Raise (Word × State) :=
  match o with
  | .imm v => .ok (v, s)
  | .acc => .ok (truncate w s.a, s)
  | .mem ea c _ => readData w c ea s
  | .none => .ok (0, s)

/-- `Store(opnd, w, v)` (40_engine_addressing.md R176). Every row that stores has a memory operand. -/
def store (o : Operand) (w : Width) (v : Word) (s : State) : Except Raise State :=
  match o with
  | .mem ea c _ => writeData w c ea v s
  | .imm _ | .acc | .none => .ok s

/-- The source operand of an instruction that reads without writing: resolved, loaded, and charged with
the index penalty (40_engine_addressing.md R175, 70_reset_and_hazards.md R436). -/
def readOperand (f : Form) (w : Width) (s : State) : Except Raise (Word × State) := do
  let (o, s) ← resolve f s
  let (v, s) ← load o w s
  return (v, s.charge (indexPenalty f (s.flag .x) o.crossed))

/-- Resolving the destination of a store and storing to it (40_engine_addressing.md R176). -/
def storeOperand (f : Form) (w : Width) (v : Word) (s : State) : Except Raise State := do
  let (o, s) ← resolve f s
  store o w v s

/-- `m_penalty` of a read-modify-write: none on the accumulator, 2 on memory (70_reset_and_hazards.md
R433). -/
def modifyPenalty : Operand → Nat
  | .mem _ _ _ => 2
  | .imm _ | .acc | .none => 0

/-- `Modify(opnd, w, f)` (40_engine_addressing.md R177), where `f` gives the new value and the new `P`
from the old ones: all reads, then all writes, then the flags. No row modifies an immediate. -/
def modifyAt (o : Operand) (f : Width → Word → Byte → Word × Byte) (s : State) :
    Except Raise State :=
  match o with
  | .mem ea c _ => do
    let (old, s) ← readData s.wM c ea s
    let r := f s.wM old s.p
    let s ← writeBack s.wM c ea r.1 s
    return { s with p := r.2 }
  | .acc =>
    let r := f s.wM (truncate s.wM s.a) s.p
    .ok { s.putA s.wM r.1 with p := r.2 }
  | .imm _ | .none => .ok s

/-- The whole of a read-modify-write instruction at width `wM` (40_engine_addressing.md R158, R177). -/
def modify (f : Form) (op : Width → Word → Byte → Word × Byte) (s : State) : Except Raise State := do
  let (o, s) ← resolve f s
  let t ← modifyAt o op s
  return t.charge (if s.flag .m then 0 else modifyPenalty o)

/-- The target of a relative branch: `(PC_next + sext_16(r8)) & 0xFFFF` (40_engine_addressing.md R170). -/
def relTarget8 (s : State) (r : Byte) : Word := s.pc + sextByte r

/-- The target of a long relative branch: `(PC_next + r16) & 0xFFFF` (40_engine_addressing.md R170). -/
def relTarget16 (s : State) (r : Word) : Word := s.pc + r

/-- The pointer of `(a16)`, in bank 0 (40_engine_addressing.md R173). -/
def readAbsInd (a : Word) (s : State) : Except Raise (Word × State) := readWord .bank (mkAddr 0 a) s

/-- The pointer of `(a16,X)`, in the program bank (40_engine_addressing.md R173). -/
def readAbsIndX (a : Word) (s : State) : Except Raise (Word × State) :=
  readWord .bank (mkAddr s.pbr (a + s.x)) s

/-- The pointer of `[a16]`, in bank 0 (40_engine_addressing.md R173). -/
def readAbsIndLong (a : Word) (s : State) : Except Raise (Addr × State) :=
  readLong .bank (mkAddr 0 a) s

end Sys2Proof.Machine
end

