-- ==== Sys2Proof/Machine/Arith.lean ====
section
/-! DEFINITION. Add, subtract, compare, increment and decrement (42_arith_logic_shift.md sections 2
and 3). -/

namespace Sys2Proof.Machine

/-- An instruction that combines `A` at width `wM` with a source operand into `A` and `P`. -/
def combineA (f : Form) (op : Width → Word → Word → Byte → Word × Byte) (s : State) :
    Except Raise State := do
  let (b, s) ← readOperand f s.wM s
  let r := op s.wM (truncate s.wM s.a) b s.p
  return { (s.chargeM 1).putA s.wM r.1 with p := r.2 }

/-- ADC, with the decimal cycle of 70_reset_and_hazards.md R438 (42_arith_logic_shift.md R233). -/
def adc (f : Form) (s : State) : Except Raise State := do
  let t ← combineA f addWithCarry s
  return t.charge (if s.flag .d then 1 else 0)

/-- SBC (42_arith_logic_shift.md R234). -/
def sbc (f : Form) (s : State) : Except Raise State := combineA f subWithBorrow s

/-- CMP (42_arith_logic_shift.md R235). -/
def cmp (f : Form) (s : State) : Except Raise State := do
  let (b, s) ← readOperand f s.wM s
  return { s.chargeM 1 with p := compareFlags s.wM (truncate s.wM s.a) b s.p }

/-- CPX (42_arith_logic_shift.md R236). -/
def cpx (f : Form) (s : State) : Except Raise State := do
  let (b, s) ← readOperand f s.wX s
  return { s.chargeX with p := compareFlags s.wX (truncate s.wX s.x) b s.p }

/-- CPY (42_arith_logic_shift.md R237). -/
def cpy (f : Form) (s : State) : Except Raise State := do
  let (b, s) ← readOperand f s.wX s
  return { s.chargeX with p := compareFlags s.wX (truncate s.wX s.y) b s.p }

/-- INC (42_arith_logic_shift.md R238). -/
def inc (f : Form) (s : State) : Except Raise State := modify f incValue s

/-- DEC (42_arith_logic_shift.md R241). -/
def dec (f : Form) (s : State) : Except Raise State := modify f decValue s

/-- INX (42_arith_logic_shift.md R239). -/
def inx (s : State) : State := { s with x := truncate s.wX (s.x + 1) }.setNZ s.wX (s.x + 1)

/-- INY (42_arith_logic_shift.md R240). -/
def iny (s : State) : State := { s with y := truncate s.wX (s.y + 1) }.setNZ s.wX (s.y + 1)

/-- DEX (42_arith_logic_shift.md R242). -/
def dex (s : State) : State := { s with x := truncate s.wX (s.x - 1) }.setNZ s.wX (s.x - 1)

/-- DEY (42_arith_logic_shift.md R243). -/
def dey (s : State) : State := { s with y := truncate s.wX (s.y - 1) }.setNZ s.wX (s.y - 1)

/-! ### One meaning per row of the opcode table -/

/-- ADC (d,X), opcode 0x61 (42_arith_logic_shift.md R233). -/
def execAdcDpIndX (d : Byte) (s : State) : Host.Outcome State Fault Refusal :=
  perform (.adcDpIndX d) (adc (.dpIndX d)) s

/-- ADC d,S, opcode 0x63 (42_arith_logic_shift.md R233). -/
def execAdcSr (d : Byte) (s : State) : Host.Outcome State Fault Refusal :=
  perform (.adcSr d) (adc (.sr d)) s

/-- ADC d, opcode 0x65 (42_arith_logic_shift.md R233). -/
def execAdcDp (d : Byte) (s : State) : Host.Outcome State Fault Refusal :=
  perform (.adcDp d) (adc (.dp d)) s

/-- ADC [d], opcode 0x67 (42_arith_logic_shift.md R233). -/
def execAdcDpIndLong (d : Byte) (s : State) : Host.Outcome State Fault Refusal :=
  perform (.adcDpIndLong d) (adc (.dpIndLong d)) s

/-- ADC #, opcode 0x69 (42_arith_logic_shift.md R233). -/
def execAdcImm (v : Imm) (s : State) : Host.Outcome State Fault Refusal :=
  perform (.adcImm v) (adc (.immM v)) s

/-- ADC a, opcode 0x6D (42_arith_logic_shift.md R233). -/
def execAdcAbs (a : Word) (s : State) : Host.Outcome State Fault Refusal :=
  perform (.adcAbs a) (adc (.abs a)) s

/-- ADC al, opcode 0x6F (42_arith_logic_shift.md R233). -/
def execAdcLong (a : Addr) (s : State) : Host.Outcome State Fault Refusal :=
  perform (.adcLong a) (adc (.long a)) s

/-- ADC (d),Y, opcode 0x71 (42_arith_logic_shift.md R233). -/
def execAdcDpIndY (d : Byte) (s : State) : Host.Outcome State Fault Refusal :=
  perform (.adcDpIndY d) (adc (.dpIndY d)) s

/-- ADC (d), opcode 0x72 (42_arith_logic_shift.md R233). -/
def execAdcDpInd (d : Byte) (s : State) : Host.Outcome State Fault Refusal :=
  perform (.adcDpInd d) (adc (.dpInd d)) s

/-- ADC (d,S),Y, opcode 0x73 (42_arith_logic_shift.md R233). -/
def execAdcSrIndY (d : Byte) (s : State) : Host.Outcome State Fault Refusal :=
  perform (.adcSrIndY d) (adc (.srIndY d)) s

/-- ADC d,X, opcode 0x75 (42_arith_logic_shift.md R233). -/
def execAdcDpX (d : Byte) (s : State) : Host.Outcome State Fault Refusal :=
  perform (.adcDpX d) (adc (.dpX d)) s

/-- ADC [d],Y, opcode 0x77 (42_arith_logic_shift.md R233). -/
def execAdcDpIndLongY (d : Byte) (s : State) : Host.Outcome State Fault Refusal :=
  perform (.adcDpIndLongY d) (adc (.dpIndLongY d)) s

/-- ADC a,Y, opcode 0x79 (42_arith_logic_shift.md R233). -/
def execAdcAbsY (a : Word) (s : State) : Host.Outcome State Fault Refusal :=
  perform (.adcAbsY a) (adc (.absY a)) s

/-- ADC a,X, opcode 0x7D (42_arith_logic_shift.md R233). -/
def execAdcAbsX (a : Word) (s : State) : Host.Outcome State Fault Refusal :=
  perform (.adcAbsX a) (adc (.absX a)) s

/-- ADC al,X, opcode 0x7F (42_arith_logic_shift.md R233). -/
def execAdcLongX (a : Addr) (s : State) : Host.Outcome State Fault Refusal :=
  perform (.adcLongX a) (adc (.longX a)) s

/-- SBC (d,X), opcode 0xE1 (42_arith_logic_shift.md R234). -/
def execSbcDpIndX (d : Byte) (s : State) : Host.Outcome State Fault Refusal :=
  perform (.sbcDpIndX d) (sbc (.dpIndX d)) s

/-- SBC d,S, opcode 0xE3 (42_arith_logic_shift.md R234). -/
def execSbcSr (d : Byte) (s : State) : Host.Outcome State Fault Refusal :=
  perform (.sbcSr d) (sbc (.sr d)) s

/-- SBC d, opcode 0xE5 (42_arith_logic_shift.md R234). -/
def execSbcDp (d : Byte) (s : State) : Host.Outcome State Fault Refusal :=
  perform (.sbcDp d) (sbc (.dp d)) s

/-- SBC [d], opcode 0xE7 (42_arith_logic_shift.md R234). -/
def execSbcDpIndLong (d : Byte) (s : State) : Host.Outcome State Fault Refusal :=
  perform (.sbcDpIndLong d) (sbc (.dpIndLong d)) s

/-- SBC #, opcode 0xE9 (42_arith_logic_shift.md R234). -/
def execSbcImm (v : Imm) (s : State) : Host.Outcome State Fault Refusal :=
  perform (.sbcImm v) (sbc (.immM v)) s

/-- SBC a, opcode 0xED (42_arith_logic_shift.md R234). -/
def execSbcAbs (a : Word) (s : State) : Host.Outcome State Fault Refusal :=
  perform (.sbcAbs a) (sbc (.abs a)) s

/-- SBC al, opcode 0xEF (42_arith_logic_shift.md R234). -/
def execSbcLong (a : Addr) (s : State) : Host.Outcome State Fault Refusal :=
  perform (.sbcLong a) (sbc (.long a)) s

/-- SBC (d),Y, opcode 0xF1 (42_arith_logic_shift.md R234). -/
def execSbcDpIndY (d : Byte) (s : State) : Host.Outcome State Fault Refusal :=
  perform (.sbcDpIndY d) (sbc (.dpIndY d)) s

/-- SBC (d), opcode 0xF2 (42_arith_logic_shift.md R234). -/
def execSbcDpInd (d : Byte) (s : State) : Host.Outcome State Fault Refusal :=
  perform (.sbcDpInd d) (sbc (.dpInd d)) s

/-- SBC (d,S),Y, opcode 0xF3 (42_arith_logic_shift.md R234). -/
def execSbcSrIndY (d : Byte) (s : State) : Host.Outcome State Fault Refusal :=
  perform (.sbcSrIndY d) (sbc (.srIndY d)) s

/-- SBC d,X, opcode 0xF5 (42_arith_logic_shift.md R234). -/
def execSbcDpX (d : Byte) (s : State) : Host.Outcome State Fault Refusal :=
  perform (.sbcDpX d) (sbc (.dpX d)) s

/-- SBC [d],Y, opcode 0xF7 (42_arith_logic_shift.md R234). -/
def execSbcDpIndLongY (d : Byte) (s : State) : Host.Outcome State Fault Refusal :=
  perform (.sbcDpIndLongY d) (sbc (.dpIndLongY d)) s

/-- SBC a,Y, opcode 0xF9 (42_arith_logic_shift.md R234). -/
def execSbcAbsY (a : Word) (s : State) : Host.Outcome State Fault Refusal :=
  perform (.sbcAbsY a) (sbc (.absY a)) s

/-- SBC a,X, opcode 0xFD (42_arith_logic_shift.md R234). -/
def execSbcAbsX (a : Word) (s : State) : Host.Outcome State Fault Refusal :=
  perform (.sbcAbsX a) (sbc (.absX a)) s

/-- SBC al,X, opcode 0xFF (42_arith_logic_shift.md R234). -/
def execSbcLongX (a : Addr) (s : State) : Host.Outcome State Fault Refusal :=
  perform (.sbcLongX a) (sbc (.longX a)) s

/-- CMP (d,X), opcode 0xC1 (42_arith_logic_shift.md R235). -/
def execCmpDpIndX (d : Byte) (s : State) : Host.Outcome State Fault Refusal :=
  perform (.cmpDpIndX d) (cmp (.dpIndX d)) s

/-- CMP d,S, opcode 0xC3 (42_arith_logic_shift.md R235). -/
def execCmpSr (d : Byte) (s : State) : Host.Outcome State Fault Refusal :=
  perform (.cmpSr d) (cmp (.sr d)) s

/-- CMP d, opcode 0xC5 (42_arith_logic_shift.md R235). -/
def execCmpDp (d : Byte) (s : State) : Host.Outcome State Fault Refusal :=
  perform (.cmpDp d) (cmp (.dp d)) s

/-- CMP [d], opcode 0xC7 (42_arith_logic_shift.md R235). -/
def execCmpDpIndLong (d : Byte) (s : State) : Host.Outcome State Fault Refusal :=
  perform (.cmpDpIndLong d) (cmp (.dpIndLong d)) s

/-- CMP #, opcode 0xC9 (42_arith_logic_shift.md R235). -/
def execCmpImm (v : Imm) (s : State) : Host.Outcome State Fault Refusal :=
  perform (.cmpImm v) (cmp (.immM v)) s

/-- CMP a, opcode 0xCD (42_arith_logic_shift.md R235). -/
def execCmpAbs (a : Word) (s : State) : Host.Outcome State Fault Refusal :=
  perform (.cmpAbs a) (cmp (.abs a)) s

/-- CMP al, opcode 0xCF (42_arith_logic_shift.md R235). -/
def execCmpLong (a : Addr) (s : State) : Host.Outcome State Fault Refusal :=
  perform (.cmpLong a) (cmp (.long a)) s

/-- CMP (d),Y, opcode 0xD1 (42_arith_logic_shift.md R235). -/
def execCmpDpIndY (d : Byte) (s : State) : Host.Outcome State Fault Refusal :=
  perform (.cmpDpIndY d) (cmp (.dpIndY d)) s

/-- CMP (d), opcode 0xD2 (42_arith_logic_shift.md R235). -/
def execCmpDpInd (d : Byte) (s : State) : Host.Outcome State Fault Refusal :=
  perform (.cmpDpInd d) (cmp (.dpInd d)) s

/-- CMP (d,S),Y, opcode 0xD3 (42_arith_logic_shift.md R235). -/
def execCmpSrIndY (d : Byte) (s : State) : Host.Outcome State Fault Refusal :=
  perform (.cmpSrIndY d) (cmp (.srIndY d)) s

/-- CMP d,X, opcode 0xD5 (42_arith_logic_shift.md R235). -/
def execCmpDpX (d : Byte) (s : State) : Host.Outcome State Fault Refusal :=
  perform (.cmpDpX d) (cmp (.dpX d)) s

/-- CMP [d],Y, opcode 0xD7 (42_arith_logic_shift.md R235). -/
def execCmpDpIndLongY (d : Byte) (s : State) : Host.Outcome State Fault Refusal :=
  perform (.cmpDpIndLongY d) (cmp (.dpIndLongY d)) s

/-- CMP a,Y, opcode 0xD9 (42_arith_logic_shift.md R235). -/
def execCmpAbsY (a : Word) (s : State) : Host.Outcome State Fault Refusal :=
  perform (.cmpAbsY a) (cmp (.absY a)) s

/-- CMP a,X, opcode 0xDD (42_arith_logic_shift.md R235). -/
def execCmpAbsX (a : Word) (s : State) : Host.Outcome State Fault Refusal :=
  perform (.cmpAbsX a) (cmp (.absX a)) s

/-- CMP al,X, opcode 0xDF (42_arith_logic_shift.md R235). -/
def execCmpLongX (a : Addr) (s : State) : Host.Outcome State Fault Refusal :=
  perform (.cmpLongX a) (cmp (.longX a)) s

/-- CPX #, opcode 0xE0 (42_arith_logic_shift.md R236). -/
def execCpxImm (v : Imm) (s : State) : Host.Outcome State Fault Refusal :=
  perform (.cpxImm v) (cpx (.immX v)) s

/-- CPX d, opcode 0xE4 (42_arith_logic_shift.md R236). -/
def execCpxDp (d : Byte) (s : State) : Host.Outcome State Fault Refusal :=
  perform (.cpxDp d) (cpx (.dp d)) s

/-- CPX a, opcode 0xEC (42_arith_logic_shift.md R236). -/
def execCpxAbs (a : Word) (s : State) : Host.Outcome State Fault Refusal :=
  perform (.cpxAbs a) (cpx (.abs a)) s

/-- CPY #, opcode 0xC0 (42_arith_logic_shift.md R237). -/
def execCpyImm (v : Imm) (s : State) : Host.Outcome State Fault Refusal :=
  perform (.cpyImm v) (cpy (.immX v)) s

/-- CPY d, opcode 0xC4 (42_arith_logic_shift.md R237). -/
def execCpyDp (d : Byte) (s : State) : Host.Outcome State Fault Refusal :=
  perform (.cpyDp d) (cpy (.dp d)) s

/-- CPY a, opcode 0xCC (42_arith_logic_shift.md R237). -/
def execCpyAbs (a : Word) (s : State) : Host.Outcome State Fault Refusal :=
  perform (.cpyAbs a) (cpy (.abs a)) s

/-- INC A, opcode 0x1A (42_arith_logic_shift.md R238). -/
def execIncAcc (s : State) : Host.Outcome State Fault Refusal :=
  perform .incAcc (inc (.acc)) s

/-- INC d, opcode 0xE6 (42_arith_logic_shift.md R238). -/
def execIncDp (d : Byte) (s : State) : Host.Outcome State Fault Refusal :=
  perform (.incDp d) (inc (.dp d)) s

/-- INC a, opcode 0xEE (42_arith_logic_shift.md R238). -/
def execIncAbs (a : Word) (s : State) : Host.Outcome State Fault Refusal :=
  perform (.incAbs a) (inc (.abs a)) s

/-- INC d,X, opcode 0xF6 (42_arith_logic_shift.md R238). -/
def execIncDpX (d : Byte) (s : State) : Host.Outcome State Fault Refusal :=
  perform (.incDpX d) (inc (.dpX d)) s

/-- INC a,X, opcode 0xFE (42_arith_logic_shift.md R238). -/
def execIncAbsX (a : Word) (s : State) : Host.Outcome State Fault Refusal :=
  perform (.incAbsX a) (inc (.absX a)) s

/-- INX, opcode 0xE8 (42_arith_logic_shift.md R239). -/
def execInx (s : State) : Host.Outcome State Fault Refusal :=
  performPure .inx inx s

/-- INY, opcode 0xC8 (42_arith_logic_shift.md R240). -/
def execIny (s : State) : Host.Outcome State Fault Refusal :=
  performPure .iny iny s

/-- DEC A, opcode 0x3A (42_arith_logic_shift.md R241). -/
def execDecAcc (s : State) : Host.Outcome State Fault Refusal :=
  perform .decAcc (dec (.acc)) s

/-- DEC d, opcode 0xC6 (42_arith_logic_shift.md R241). -/
def execDecDp (d : Byte) (s : State) : Host.Outcome State Fault Refusal :=
  perform (.decDp d) (dec (.dp d)) s

/-- DEC a, opcode 0xCE (42_arith_logic_shift.md R241). -/
def execDecAbs (a : Word) (s : State) : Host.Outcome State Fault Refusal :=
  perform (.decAbs a) (dec (.abs a)) s

/-- DEC d,X, opcode 0xD6 (42_arith_logic_shift.md R241). -/
def execDecDpX (d : Byte) (s : State) : Host.Outcome State Fault Refusal :=
  perform (.decDpX d) (dec (.dpX d)) s

/-- DEC a,X, opcode 0xDE (42_arith_logic_shift.md R241). -/
def execDecAbsX (a : Word) (s : State) : Host.Outcome State Fault Refusal :=
  perform (.decAbsX a) (dec (.absX a)) s

/-- DEX, opcode 0xCA (42_arith_logic_shift.md R242). -/
def execDex (s : State) : Host.Outcome State Fault Refusal :=
  performPure .dex dex s

/-- DEY, opcode 0x88 (42_arith_logic_shift.md R243). -/
def execDey (s : State) : Host.Outcome State Fault Refusal :=
  performPure .dey dey s

end Sys2Proof.Machine
end

