-- ==== Sys2Proof/Machine/Control.lean ====
section
/-! DEFINITION. Branches, jumps, calls and returns (43_control_transfer.md). In every handler `s.pc` is
`PC_next`, the offset after the instruction's last byte. -/

namespace Sys2Proof.Machine

/-- A taken relative branch: `PC <- t`, and its cycles (43_control_transfer.md R270,
70_reset_and_hazards.md R435). -/
def branchTo (r : Byte) (s : State) : State :=
  { s with pc := relTarget8 s r }.charge (branchPenalty s.e s.pc (relTarget8 s r))

/-- `Branch(P.F == b)` (43_control_transfer.md R270, R287). -/
def branchOn (f : Flag) (b : Bool) (r : Byte) (s : State) : State :=
  if s.flag f = b then branchTo r s else s

/-- BRL: a fixed cost, no penalty (43_control_transfer.md R280). -/
def brl (r : Word) (s : State) : State := { s with pc := relTarget16 s r }

/-- JMP a (43_control_transfer.md R281). -/
def jmpAbs (a : Word) (s : State) : State := { s with pc := a }

/-- JMP (a) (43_control_transfer.md R281). -/
def jmpInd (a : Word) (s : State) : Except Raise State := do
  let (ptr, s) ← readAbsInd a s
  return { s with pc := ptr }

/-- JMP (a,X) (43_control_transfer.md R281). -/
def jmpIndX (a : Word) (s : State) : Except Raise State := do
  let (ptr, s) ← readAbsIndX a s
  return { s with pc := ptr }

/-- `PBR <- b; PC <- o`. -/
def State.goto (s : State) (t : Addr) : State := { s with pbr := bankOf t, pc := offsetOf t }

/-- JML al (43_control_transfer.md R282). -/
def jmlLong (a : Addr) (s : State) : State := s.goto a

/-- JML [a] (43_control_transfer.md R282). -/
def jmlInd (a : Word) (s : State) : Except Raise State := do
  let (t, s) ← readAbsIndLong a s
  return s.goto t

/-- JSR a: the address of the call's last byte is pushed (43_control_transfer.md R283). -/
def jsrAbs (a : Word) (s : State) : Except Raise State := do
  let s ← push16 (s.pc - 1) s
  return { s with pc := a }

/-- JSR (a,X): the push comes before the pointer read (43_control_transfer.md R283). -/
def jsrIndX (a : Word) (s : State) : Except Raise State := do
  let s ← push16 (s.pc - 1) s
  let (ptr, s) ← readAbsIndX a s
  return { s with pc := ptr }

/-- JSL (43_control_transfer.md R284). -/
def jslLong (a : Addr) (s : State) : Except Raise State := do
  let ret := s.pc - 1
  let s ← push8 s.pbr s
  let s ← push16 ret s
  return s.goto a

/-- RTS (43_control_transfer.md R285). -/
def rts (s : State) : Except Raise State := do
  let (v, s) ← pull16 s
  return { s with pc := v + 1 }

/-- RTL: the `+ 1` does not carry into `PBR` (43_control_transfer.md R286). -/
def rtl (s : State) : Except Raise State := do
  let (v, s) ← pull16 s
  let (b, s) ← pull8 s
  return { s with pc := v + 1, pbr := b }

/-! ### One meaning per row of the opcode table -/

/-- BPL r, opcode 0x10 (43_control_transfer.md R271). -/
def execBpl (r : Byte) (s : State) : Host.Outcome State Fault Refusal :=
  performPure (.bpl r) (branchOn .n false r) s

/-- BMI r, opcode 0x30 (43_control_transfer.md R272). -/
def execBmi (r : Byte) (s : State) : Host.Outcome State Fault Refusal :=
  performPure (.bmi r) (branchOn .n true r) s

/-- BVC r, opcode 0x50 (43_control_transfer.md R273). -/
def execBvc (r : Byte) (s : State) : Host.Outcome State Fault Refusal :=
  performPure (.bvc r) (branchOn .v false r) s

/-- BVS r, opcode 0x70 (43_control_transfer.md R274). -/
def execBvs (r : Byte) (s : State) : Host.Outcome State Fault Refusal :=
  performPure (.bvs r) (branchOn .v true r) s

/-- BCC r, opcode 0x90 (43_control_transfer.md R275). -/
def execBcc (r : Byte) (s : State) : Host.Outcome State Fault Refusal :=
  performPure (.bcc r) (branchOn .c false r) s

/-- BCS r, opcode 0xB0 (43_control_transfer.md R276). -/
def execBcs (r : Byte) (s : State) : Host.Outcome State Fault Refusal :=
  performPure (.bcs r) (branchOn .c true r) s

/-- BNE r, opcode 0xD0 (43_control_transfer.md R277). -/
def execBne (r : Byte) (s : State) : Host.Outcome State Fault Refusal :=
  performPure (.bne r) (branchOn .z false r) s

/-- BEQ r, opcode 0xF0 (43_control_transfer.md R278). -/
def execBeq (r : Byte) (s : State) : Host.Outcome State Fault Refusal :=
  performPure (.beq r) (branchOn .z true r) s

/-- BRA r, opcode 0x80 (43_control_transfer.md R279). -/
def execBra (r : Byte) (s : State) : Host.Outcome State Fault Refusal :=
  performPure (.bra r) (branchTo r) s

/-- BRL rl, opcode 0x82 (43_control_transfer.md R280). -/
def execBrl (r : Word) (s : State) : Host.Outcome State Fault Refusal :=
  performPure (.brl r) (brl r) s

/-- JMP a, opcode 0x4C (43_control_transfer.md R281). -/
def execJmpAbs (a : Word) (s : State) : Host.Outcome State Fault Refusal :=
  performPure (.jmpAbs a) (jmpAbs a) s

/-- JMP (a), opcode 0x6C (43_control_transfer.md R281). -/
def execJmpAbsInd (a : Word) (s : State) : Host.Outcome State Fault Refusal :=
  perform (.jmpAbsInd a) (jmpInd a) s

/-- JMP (a,X), opcode 0x7C (43_control_transfer.md R281). -/
def execJmpAbsIndX (a : Word) (s : State) : Host.Outcome State Fault Refusal :=
  perform (.jmpAbsIndX a) (jmpIndX a) s

/-- JML al, opcode 0x5C (43_control_transfer.md R282). -/
def execJmlLong (a : Addr) (s : State) : Host.Outcome State Fault Refusal :=
  performPure (.jmlLong a) (jmlLong a) s

/-- JML [a], opcode 0xDC (43_control_transfer.md R282). -/
def execJmlAbsIndLong (a : Word) (s : State) : Host.Outcome State Fault Refusal :=
  perform (.jmlAbsIndLong a) (jmlInd a) s

/-- JSR a, opcode 0x20 (43_control_transfer.md R283). -/
def execJsrAbs (a : Word) (s : State) : Host.Outcome State Fault Refusal :=
  perform (.jsrAbs a) (jsrAbs a) s

/-- JSR (a,X), opcode 0xFC (43_control_transfer.md R283). -/
def execJsrAbsIndX (a : Word) (s : State) : Host.Outcome State Fault Refusal :=
  perform (.jsrAbsIndX a) (jsrIndX a) s

/-- JSL al, opcode 0x22 (43_control_transfer.md R284). -/
def execJsl (a : Addr) (s : State) : Host.Outcome State Fault Refusal :=
  perform (.jsl a) (jslLong a) s

/-- RTS, opcode 0x60 (43_control_transfer.md R285). -/
def execRts (s : State) : Host.Outcome State Fault Refusal :=
  perform .rts rts s

/-- RTL, opcode 0x6B (43_control_transfer.md R286). -/
def execRtl (s : State) : Host.Outcome State Fault Refusal :=
  perform .rtl rtl s

end Sys2Proof.Machine
end

