-- ==== Sys2Proof/Machine/Load.lean ====
section
/-! DEFINITION. Loads and stores (41_load_store_transfer.md sections 2 and 3). -/

namespace Sys2Proof.Machine

/-- LDA: `v <- Load(opnd, wM); A_w <- v; setNZ(v, wM)` (41_load_store_transfer.md R201). -/
def lda (f : Form) (s : State) : Except Raise State := do
  let (v, s) ← readOperand f s.wM s
  return ((s.chargeM 1).putA s.wM v).setNZ s.wM v

/-- LDX: `v <- Load(opnd, wX); X <- zext_16(v); setNZ(v, wX)` (41_load_store_transfer.md R202). -/
def ldx (f : Form) (s : State) : Except Raise State := do
  let (v, s) ← readOperand f s.wX s
  return { s.chargeX with x := v }.setNZ s.wX v

/-- LDY: `v <- Load(opnd, wX); Y <- zext_16(v); setNZ(v, wX)` (41_load_store_transfer.md R203). -/
def ldy (f : Form) (s : State) : Except Raise State := do
  let (v, s) ← readOperand f s.wX s
  return { s.chargeX with y := v }.setNZ s.wX v

/-- STA: `Store(opnd, wM, A & mask(wM))` (41_load_store_transfer.md R204). -/
def sta (f : Form) (s : State) : Except Raise State := do
  let s ← storeOperand f s.wM (truncate s.wM s.a) s
  return s.chargeM 1

/-- STX: `Store(opnd, wX, X & mask(wX))` (41_load_store_transfer.md R205). -/
def stx (f : Form) (s : State) : Except Raise State := do
  let s ← storeOperand f s.wX (truncate s.wX s.x) s
  return s.chargeX

/-- STY: `Store(opnd, wX, Y & mask(wX))` (41_load_store_transfer.md R206). -/
def sty (f : Form) (s : State) : Except Raise State := do
  let s ← storeOperand f s.wX (truncate s.wX s.y) s
  return s.chargeX

/-- STZ: `Store(opnd, wM, 0)` (41_load_store_transfer.md R207). -/
def stz (f : Form) (s : State) : Except Raise State := do
  let s ← storeOperand f s.wM 0 s
  return s.chargeM 1

/-! ### One meaning per row of the opcode table -/

/-- LDA (d,X), opcode 0xA1 (41_load_store_transfer.md R201). -/
def execLdaDpIndX (d : Byte) (s : State) : Host.Outcome State Fault Refusal :=
  perform (.ldaDpIndX d) (lda (.dpIndX d)) s

/-- LDA d,S, opcode 0xA3 (41_load_store_transfer.md R201). -/
def execLdaSr (d : Byte) (s : State) : Host.Outcome State Fault Refusal :=
  perform (.ldaSr d) (lda (.sr d)) s

/-- LDA d, opcode 0xA5 (41_load_store_transfer.md R201). -/
def execLdaDp (d : Byte) (s : State) : Host.Outcome State Fault Refusal :=
  perform (.ldaDp d) (lda (.dp d)) s

/-- LDA [d], opcode 0xA7 (41_load_store_transfer.md R201). -/
def execLdaDpIndLong (d : Byte) (s : State) : Host.Outcome State Fault Refusal :=
  perform (.ldaDpIndLong d) (lda (.dpIndLong d)) s

/-- LDA #, opcode 0xA9 (41_load_store_transfer.md R201). -/
def execLdaImm (v : Imm) (s : State) : Host.Outcome State Fault Refusal :=
  perform (.ldaImm v) (lda (.immM v)) s

/-- LDA a, opcode 0xAD (41_load_store_transfer.md R201). -/
def execLdaAbs (a : Word) (s : State) : Host.Outcome State Fault Refusal :=
  perform (.ldaAbs a) (lda (.abs a)) s

/-- LDA al, opcode 0xAF (41_load_store_transfer.md R201). -/
def execLdaLong (a : Addr) (s : State) : Host.Outcome State Fault Refusal :=
  perform (.ldaLong a) (lda (.long a)) s

/-- LDA (d),Y, opcode 0xB1 (41_load_store_transfer.md R201). -/
def execLdaDpIndY (d : Byte) (s : State) : Host.Outcome State Fault Refusal :=
  perform (.ldaDpIndY d) (lda (.dpIndY d)) s

/-- LDA (d), opcode 0xB2 (41_load_store_transfer.md R201). -/
def execLdaDpInd (d : Byte) (s : State) : Host.Outcome State Fault Refusal :=
  perform (.ldaDpInd d) (lda (.dpInd d)) s

/-- LDA (d,S),Y, opcode 0xB3 (41_load_store_transfer.md R201). -/
def execLdaSrIndY (d : Byte) (s : State) : Host.Outcome State Fault Refusal :=
  perform (.ldaSrIndY d) (lda (.srIndY d)) s

/-- LDA d,X, opcode 0xB5 (41_load_store_transfer.md R201). -/
def execLdaDpX (d : Byte) (s : State) : Host.Outcome State Fault Refusal :=
  perform (.ldaDpX d) (lda (.dpX d)) s

/-- LDA [d],Y, opcode 0xB7 (41_load_store_transfer.md R201). -/
def execLdaDpIndLongY (d : Byte) (s : State) : Host.Outcome State Fault Refusal :=
  perform (.ldaDpIndLongY d) (lda (.dpIndLongY d)) s

/-- LDA a,Y, opcode 0xB9 (41_load_store_transfer.md R201). -/
def execLdaAbsY (a : Word) (s : State) : Host.Outcome State Fault Refusal :=
  perform (.ldaAbsY a) (lda (.absY a)) s

/-- LDA a,X, opcode 0xBD (41_load_store_transfer.md R201). -/
def execLdaAbsX (a : Word) (s : State) : Host.Outcome State Fault Refusal :=
  perform (.ldaAbsX a) (lda (.absX a)) s

/-- LDA al,X, opcode 0xBF (41_load_store_transfer.md R201). -/
def execLdaLongX (a : Addr) (s : State) : Host.Outcome State Fault Refusal :=
  perform (.ldaLongX a) (lda (.longX a)) s

/-- LDX #, opcode 0xA2 (41_load_store_transfer.md R202). -/
def execLdxImm (v : Imm) (s : State) : Host.Outcome State Fault Refusal :=
  perform (.ldxImm v) (ldx (.immX v)) s

/-- LDX d, opcode 0xA6 (41_load_store_transfer.md R202). -/
def execLdxDp (d : Byte) (s : State) : Host.Outcome State Fault Refusal :=
  perform (.ldxDp d) (ldx (.dp d)) s

/-- LDX a, opcode 0xAE (41_load_store_transfer.md R202). -/
def execLdxAbs (a : Word) (s : State) : Host.Outcome State Fault Refusal :=
  perform (.ldxAbs a) (ldx (.abs a)) s

/-- LDX d,Y, opcode 0xB6 (41_load_store_transfer.md R202). -/
def execLdxDpY (d : Byte) (s : State) : Host.Outcome State Fault Refusal :=
  perform (.ldxDpY d) (ldx (.dpY d)) s

/-- LDX a,Y, opcode 0xBE (41_load_store_transfer.md R202). -/
def execLdxAbsY (a : Word) (s : State) : Host.Outcome State Fault Refusal :=
  perform (.ldxAbsY a) (ldx (.absY a)) s

/-- LDY #, opcode 0xA0 (41_load_store_transfer.md R203). -/
def execLdyImm (v : Imm) (s : State) : Host.Outcome State Fault Refusal :=
  perform (.ldyImm v) (ldy (.immX v)) s

/-- LDY d, opcode 0xA4 (41_load_store_transfer.md R203). -/
def execLdyDp (d : Byte) (s : State) : Host.Outcome State Fault Refusal :=
  perform (.ldyDp d) (ldy (.dp d)) s

/-- LDY a, opcode 0xAC (41_load_store_transfer.md R203). -/
def execLdyAbs (a : Word) (s : State) : Host.Outcome State Fault Refusal :=
  perform (.ldyAbs a) (ldy (.abs a)) s

/-- LDY d,X, opcode 0xB4 (41_load_store_transfer.md R203). -/
def execLdyDpX (d : Byte) (s : State) : Host.Outcome State Fault Refusal :=
  perform (.ldyDpX d) (ldy (.dpX d)) s

/-- LDY a,X, opcode 0xBC (41_load_store_transfer.md R203). -/
def execLdyAbsX (a : Word) (s : State) : Host.Outcome State Fault Refusal :=
  perform (.ldyAbsX a) (ldy (.absX a)) s

/-- STA (d,X), opcode 0x81 (41_load_store_transfer.md R204). -/
def execStaDpIndX (d : Byte) (s : State) : Host.Outcome State Fault Refusal :=
  perform (.staDpIndX d) (sta (.dpIndX d)) s

/-- STA d,S, opcode 0x83 (41_load_store_transfer.md R204). -/
def execStaSr (d : Byte) (s : State) : Host.Outcome State Fault Refusal :=
  perform (.staSr d) (sta (.sr d)) s

/-- STA d, opcode 0x85 (41_load_store_transfer.md R204). -/
def execStaDp (d : Byte) (s : State) : Host.Outcome State Fault Refusal :=
  perform (.staDp d) (sta (.dp d)) s

/-- STA [d], opcode 0x87 (41_load_store_transfer.md R204). -/
def execStaDpIndLong (d : Byte) (s : State) : Host.Outcome State Fault Refusal :=
  perform (.staDpIndLong d) (sta (.dpIndLong d)) s

/-- STA a, opcode 0x8D (41_load_store_transfer.md R204). -/
def execStaAbs (a : Word) (s : State) : Host.Outcome State Fault Refusal :=
  perform (.staAbs a) (sta (.abs a)) s

/-- STA al, opcode 0x8F (41_load_store_transfer.md R204). -/
def execStaLong (a : Addr) (s : State) : Host.Outcome State Fault Refusal :=
  perform (.staLong a) (sta (.long a)) s

/-- STA (d),Y, opcode 0x91 (41_load_store_transfer.md R204). -/
def execStaDpIndY (d : Byte) (s : State) : Host.Outcome State Fault Refusal :=
  perform (.staDpIndY d) (sta (.dpIndY d)) s

/-- STA (d), opcode 0x92 (41_load_store_transfer.md R204). -/
def execStaDpInd (d : Byte) (s : State) : Host.Outcome State Fault Refusal :=
  perform (.staDpInd d) (sta (.dpInd d)) s

/-- STA (d,S),Y, opcode 0x93 (41_load_store_transfer.md R204). -/
def execStaSrIndY (d : Byte) (s : State) : Host.Outcome State Fault Refusal :=
  perform (.staSrIndY d) (sta (.srIndY d)) s

/-- STA d,X, opcode 0x95 (41_load_store_transfer.md R204). -/
def execStaDpX (d : Byte) (s : State) : Host.Outcome State Fault Refusal :=
  perform (.staDpX d) (sta (.dpX d)) s

/-- STA [d],Y, opcode 0x97 (41_load_store_transfer.md R204). -/
def execStaDpIndLongY (d : Byte) (s : State) : Host.Outcome State Fault Refusal :=
  perform (.staDpIndLongY d) (sta (.dpIndLongY d)) s

/-- STA a,Y, opcode 0x99 (41_load_store_transfer.md R204). -/
def execStaAbsY (a : Word) (s : State) : Host.Outcome State Fault Refusal :=
  perform (.staAbsY a) (sta (.absY a)) s

/-- STA a,X, opcode 0x9D (41_load_store_transfer.md R204). -/
def execStaAbsX (a : Word) (s : State) : Host.Outcome State Fault Refusal :=
  perform (.staAbsX a) (sta (.absX a)) s

/-- STA al,X, opcode 0x9F (41_load_store_transfer.md R204). -/
def execStaLongX (a : Addr) (s : State) : Host.Outcome State Fault Refusal :=
  perform (.staLongX a) (sta (.longX a)) s

/-- STX d, opcode 0x86 (41_load_store_transfer.md R205). -/
def execStxDp (d : Byte) (s : State) : Host.Outcome State Fault Refusal :=
  perform (.stxDp d) (stx (.dp d)) s

/-- STX a, opcode 0x8E (41_load_store_transfer.md R205). -/
def execStxAbs (a : Word) (s : State) : Host.Outcome State Fault Refusal :=
  perform (.stxAbs a) (stx (.abs a)) s

/-- STX d,Y, opcode 0x96 (41_load_store_transfer.md R205). -/
def execStxDpY (d : Byte) (s : State) : Host.Outcome State Fault Refusal :=
  perform (.stxDpY d) (stx (.dpY d)) s

/-- STY d, opcode 0x84 (41_load_store_transfer.md R206). -/
def execStyDp (d : Byte) (s : State) : Host.Outcome State Fault Refusal :=
  perform (.styDp d) (sty (.dp d)) s

/-- STY a, opcode 0x8C (41_load_store_transfer.md R206). -/
def execStyAbs (a : Word) (s : State) : Host.Outcome State Fault Refusal :=
  perform (.styAbs a) (sty (.abs a)) s

/-- STY d,X, opcode 0x94 (41_load_store_transfer.md R206). -/
def execStyDpX (d : Byte) (s : State) : Host.Outcome State Fault Refusal :=
  perform (.styDpX d) (sty (.dpX d)) s

/-- STZ d, opcode 0x64 (41_load_store_transfer.md R207). -/
def execStzDp (d : Byte) (s : State) : Host.Outcome State Fault Refusal :=
  perform (.stzDp d) (stz (.dp d)) s

/-- STZ d,X, opcode 0x74 (41_load_store_transfer.md R207). -/
def execStzDpX (d : Byte) (s : State) : Host.Outcome State Fault Refusal :=
  perform (.stzDpX d) (stz (.dpX d)) s

/-- STZ a, opcode 0x9C (41_load_store_transfer.md R207). -/
def execStzAbs (a : Word) (s : State) : Host.Outcome State Fault Refusal :=
  perform (.stzAbs a) (stz (.abs a)) s

/-- STZ a,X, opcode 0x9E (41_load_store_transfer.md R207). -/
def execStzAbsX (a : Word) (s : State) : Host.Outcome State Fault Refusal :=
  perform (.stzAbsX a) (stz (.absX a)) s

end Sys2Proof.Machine
end

