-- ==== Sys2Proof/Machine/Logic.lean ====
section
/-! DEFINITION. Logic, bit tests, shifts and rotates (42_arith_logic_shift.md sections 4 and 5). -/

namespace Sys2Proof.Machine

/-- AND (42_arith_logic_shift.md R244). -/
def andA (f : Form) (s : State) : Except Raise State :=
  combineA f (fun w a v p => withNZ w (a &&& v) p) s

/-- ORA (42_arith_logic_shift.md R245). -/
def oraA (f : Form) (s : State) : Except Raise State :=
  combineA f (fun w a v p => withNZ w (a ||| v) p) s

/-- EOR (42_arith_logic_shift.md R246). -/
def eorA (f : Form) (s : State) : Except Raise State :=
  combineA f (fun w a v p => withNZ w (a ^^^ v) p) s

/-- BIT; the immediate form writes only `Z` (42_arith_logic_shift.md R247). -/
def bitTest (immediate : Bool) (f : Form) (s : State) : Except Raise State := do
  let (v, s) ← readOperand f s.wM s
  return { s.chargeM 1 with p := bitFlags immediate s.wM s.a v s.p }

/-- TSB (42_arith_logic_shift.md R248). -/
def tsb (f : Form) (s : State) : Except Raise State := modify f (tsbValue s.a) s

/-- TRB (42_arith_logic_shift.md R249). -/
def trb (f : Form) (s : State) : Except Raise State := modify f (trbValue s.a) s

/-- ASL (42_arith_logic_shift.md R250). -/
def asl (f : Form) (s : State) : Except Raise State := modify f aslValue s

/-- LSR (42_arith_logic_shift.md R251). -/
def lsr (f : Form) (s : State) : Except Raise State := modify f lsrValue s

/-- ROL (42_arith_logic_shift.md R252). -/
def rol (f : Form) (s : State) : Except Raise State := modify f rolValue s

/-- ROR (42_arith_logic_shift.md R253). -/
def ror (f : Form) (s : State) : Except Raise State := modify f rorValue s

/-! ### One meaning per row of the opcode table -/

/-- AND (d,X), opcode 0x21 (42_arith_logic_shift.md R244). -/
def execAndDpIndX (d : Byte) (s : State) : Host.Outcome State Fault Refusal :=
  perform (.andDpIndX d) (andA (.dpIndX d)) s

/-- AND d,S, opcode 0x23 (42_arith_logic_shift.md R244). -/
def execAndSr (d : Byte) (s : State) : Host.Outcome State Fault Refusal :=
  perform (.andSr d) (andA (.sr d)) s

/-- AND d, opcode 0x25 (42_arith_logic_shift.md R244). -/
def execAndDp (d : Byte) (s : State) : Host.Outcome State Fault Refusal :=
  perform (.andDp d) (andA (.dp d)) s

/-- AND [d], opcode 0x27 (42_arith_logic_shift.md R244). -/
def execAndDpIndLong (d : Byte) (s : State) : Host.Outcome State Fault Refusal :=
  perform (.andDpIndLong d) (andA (.dpIndLong d)) s

/-- AND #, opcode 0x29 (42_arith_logic_shift.md R244). -/
def execAndImm (v : Imm) (s : State) : Host.Outcome State Fault Refusal :=
  perform (.andImm v) (andA (.immM v)) s

/-- AND a, opcode 0x2D (42_arith_logic_shift.md R244). -/
def execAndAbs (a : Word) (s : State) : Host.Outcome State Fault Refusal :=
  perform (.andAbs a) (andA (.abs a)) s

/-- AND al, opcode 0x2F (42_arith_logic_shift.md R244). -/
def execAndLong (a : Addr) (s : State) : Host.Outcome State Fault Refusal :=
  perform (.andLong a) (andA (.long a)) s

/-- AND (d),Y, opcode 0x31 (42_arith_logic_shift.md R244). -/
def execAndDpIndY (d : Byte) (s : State) : Host.Outcome State Fault Refusal :=
  perform (.andDpIndY d) (andA (.dpIndY d)) s

/-- AND (d), opcode 0x32 (42_arith_logic_shift.md R244). -/
def execAndDpInd (d : Byte) (s : State) : Host.Outcome State Fault Refusal :=
  perform (.andDpInd d) (andA (.dpInd d)) s

/-- AND (d,S),Y, opcode 0x33 (42_arith_logic_shift.md R244). -/
def execAndSrIndY (d : Byte) (s : State) : Host.Outcome State Fault Refusal :=
  perform (.andSrIndY d) (andA (.srIndY d)) s

/-- AND d,X, opcode 0x35 (42_arith_logic_shift.md R244). -/
def execAndDpX (d : Byte) (s : State) : Host.Outcome State Fault Refusal :=
  perform (.andDpX d) (andA (.dpX d)) s

/-- AND [d],Y, opcode 0x37 (42_arith_logic_shift.md R244). -/
def execAndDpIndLongY (d : Byte) (s : State) : Host.Outcome State Fault Refusal :=
  perform (.andDpIndLongY d) (andA (.dpIndLongY d)) s

/-- AND a,Y, opcode 0x39 (42_arith_logic_shift.md R244). -/
def execAndAbsY (a : Word) (s : State) : Host.Outcome State Fault Refusal :=
  perform (.andAbsY a) (andA (.absY a)) s

/-- AND a,X, opcode 0x3D (42_arith_logic_shift.md R244). -/
def execAndAbsX (a : Word) (s : State) : Host.Outcome State Fault Refusal :=
  perform (.andAbsX a) (andA (.absX a)) s

/-- AND al,X, opcode 0x3F (42_arith_logic_shift.md R244). -/
def execAndLongX (a : Addr) (s : State) : Host.Outcome State Fault Refusal :=
  perform (.andLongX a) (andA (.longX a)) s

/-- ORA (d,X), opcode 0x01 (42_arith_logic_shift.md R245). -/
def execOraDpIndX (d : Byte) (s : State) : Host.Outcome State Fault Refusal :=
  perform (.oraDpIndX d) (oraA (.dpIndX d)) s

/-- ORA d,S, opcode 0x03 (42_arith_logic_shift.md R245). -/
def execOraSr (d : Byte) (s : State) : Host.Outcome State Fault Refusal :=
  perform (.oraSr d) (oraA (.sr d)) s

/-- ORA d, opcode 0x05 (42_arith_logic_shift.md R245). -/
def execOraDp (d : Byte) (s : State) : Host.Outcome State Fault Refusal :=
  perform (.oraDp d) (oraA (.dp d)) s

/-- ORA [d], opcode 0x07 (42_arith_logic_shift.md R245). -/
def execOraDpIndLong (d : Byte) (s : State) : Host.Outcome State Fault Refusal :=
  perform (.oraDpIndLong d) (oraA (.dpIndLong d)) s

/-- ORA #, opcode 0x09 (42_arith_logic_shift.md R245). -/
def execOraImm (v : Imm) (s : State) : Host.Outcome State Fault Refusal :=
  perform (.oraImm v) (oraA (.immM v)) s

/-- ORA a, opcode 0x0D (42_arith_logic_shift.md R245). -/
def execOraAbs (a : Word) (s : State) : Host.Outcome State Fault Refusal :=
  perform (.oraAbs a) (oraA (.abs a)) s

/-- ORA al, opcode 0x0F (42_arith_logic_shift.md R245). -/
def execOraLong (a : Addr) (s : State) : Host.Outcome State Fault Refusal :=
  perform (.oraLong a) (oraA (.long a)) s

/-- ORA (d),Y, opcode 0x11 (42_arith_logic_shift.md R245). -/
def execOraDpIndY (d : Byte) (s : State) : Host.Outcome State Fault Refusal :=
  perform (.oraDpIndY d) (oraA (.dpIndY d)) s

/-- ORA (d), opcode 0x12 (42_arith_logic_shift.md R245). -/
def execOraDpInd (d : Byte) (s : State) : Host.Outcome State Fault Refusal :=
  perform (.oraDpInd d) (oraA (.dpInd d)) s

/-- ORA (d,S),Y, opcode 0x13 (42_arith_logic_shift.md R245). -/
def execOraSrIndY (d : Byte) (s : State) : Host.Outcome State Fault Refusal :=
  perform (.oraSrIndY d) (oraA (.srIndY d)) s

/-- ORA d,X, opcode 0x15 (42_arith_logic_shift.md R245). -/
def execOraDpX (d : Byte) (s : State) : Host.Outcome State Fault Refusal :=
  perform (.oraDpX d) (oraA (.dpX d)) s

/-- ORA [d],Y, opcode 0x17 (42_arith_logic_shift.md R245). -/
def execOraDpIndLongY (d : Byte) (s : State) : Host.Outcome State Fault Refusal :=
  perform (.oraDpIndLongY d) (oraA (.dpIndLongY d)) s

/-- ORA a,Y, opcode 0x19 (42_arith_logic_shift.md R245). -/
def execOraAbsY (a : Word) (s : State) : Host.Outcome State Fault Refusal :=
  perform (.oraAbsY a) (oraA (.absY a)) s

/-- ORA a,X, opcode 0x1D (42_arith_logic_shift.md R245). -/
def execOraAbsX (a : Word) (s : State) : Host.Outcome State Fault Refusal :=
  perform (.oraAbsX a) (oraA (.absX a)) s

/-- ORA al,X, opcode 0x1F (42_arith_logic_shift.md R245). -/
def execOraLongX (a : Addr) (s : State) : Host.Outcome State Fault Refusal :=
  perform (.oraLongX a) (oraA (.longX a)) s

/-- EOR (d,X), opcode 0x41 (42_arith_logic_shift.md R246). -/
def execEorDpIndX (d : Byte) (s : State) : Host.Outcome State Fault Refusal :=
  perform (.eorDpIndX d) (eorA (.dpIndX d)) s

/-- EOR d,S, opcode 0x43 (42_arith_logic_shift.md R246). -/
def execEorSr (d : Byte) (s : State) : Host.Outcome State Fault Refusal :=
  perform (.eorSr d) (eorA (.sr d)) s

/-- EOR d, opcode 0x45 (42_arith_logic_shift.md R246). -/
def execEorDp (d : Byte) (s : State) : Host.Outcome State Fault Refusal :=
  perform (.eorDp d) (eorA (.dp d)) s

/-- EOR [d], opcode 0x47 (42_arith_logic_shift.md R246). -/
def execEorDpIndLong (d : Byte) (s : State) : Host.Outcome State Fault Refusal :=
  perform (.eorDpIndLong d) (eorA (.dpIndLong d)) s

/-- EOR #, opcode 0x49 (42_arith_logic_shift.md R246). -/
def execEorImm (v : Imm) (s : State) : Host.Outcome State Fault Refusal :=
  perform (.eorImm v) (eorA (.immM v)) s

/-- EOR a, opcode 0x4D (42_arith_logic_shift.md R246). -/
def execEorAbs (a : Word) (s : State) : Host.Outcome State Fault Refusal :=
  perform (.eorAbs a) (eorA (.abs a)) s

/-- EOR al, opcode 0x4F (42_arith_logic_shift.md R246). -/
def execEorLong (a : Addr) (s : State) : Host.Outcome State Fault Refusal :=
  perform (.eorLong a) (eorA (.long a)) s

/-- EOR (d),Y, opcode 0x51 (42_arith_logic_shift.md R246). -/
def execEorDpIndY (d : Byte) (s : State) : Host.Outcome State Fault Refusal :=
  perform (.eorDpIndY d) (eorA (.dpIndY d)) s

/-- EOR (d), opcode 0x52 (42_arith_logic_shift.md R246). -/
def execEorDpInd (d : Byte) (s : State) : Host.Outcome State Fault Refusal :=
  perform (.eorDpInd d) (eorA (.dpInd d)) s

/-- EOR (d,S),Y, opcode 0x53 (42_arith_logic_shift.md R246). -/
def execEorSrIndY (d : Byte) (s : State) : Host.Outcome State Fault Refusal :=
  perform (.eorSrIndY d) (eorA (.srIndY d)) s

/-- EOR d,X, opcode 0x55 (42_arith_logic_shift.md R246). -/
def execEorDpX (d : Byte) (s : State) : Host.Outcome State Fault Refusal :=
  perform (.eorDpX d) (eorA (.dpX d)) s

/-- EOR [d],Y, opcode 0x57 (42_arith_logic_shift.md R246). -/
def execEorDpIndLongY (d : Byte) (s : State) : Host.Outcome State Fault Refusal :=
  perform (.eorDpIndLongY d) (eorA (.dpIndLongY d)) s

/-- EOR a,Y, opcode 0x59 (42_arith_logic_shift.md R246). -/
def execEorAbsY (a : Word) (s : State) : Host.Outcome State Fault Refusal :=
  perform (.eorAbsY a) (eorA (.absY a)) s

/-- EOR a,X, opcode 0x5D (42_arith_logic_shift.md R246). -/
def execEorAbsX (a : Word) (s : State) : Host.Outcome State Fault Refusal :=
  perform (.eorAbsX a) (eorA (.absX a)) s

/-- EOR al,X, opcode 0x5F (42_arith_logic_shift.md R246). -/
def execEorLongX (a : Addr) (s : State) : Host.Outcome State Fault Refusal :=
  perform (.eorLongX a) (eorA (.longX a)) s

/-- BIT d, opcode 0x24 (42_arith_logic_shift.md R247). -/
def execBitDp (d : Byte) (s : State) : Host.Outcome State Fault Refusal :=
  perform (.bitDp d) (bitTest false (.dp d)) s

/-- BIT a, opcode 0x2C (42_arith_logic_shift.md R247). -/
def execBitAbs (a : Word) (s : State) : Host.Outcome State Fault Refusal :=
  perform (.bitAbs a) (bitTest false (.abs a)) s

/-- BIT d,X, opcode 0x34 (42_arith_logic_shift.md R247). -/
def execBitDpX (d : Byte) (s : State) : Host.Outcome State Fault Refusal :=
  perform (.bitDpX d) (bitTest false (.dpX d)) s

/-- BIT a,X, opcode 0x3C (42_arith_logic_shift.md R247). -/
def execBitAbsX (a : Word) (s : State) : Host.Outcome State Fault Refusal :=
  perform (.bitAbsX a) (bitTest false (.absX a)) s

/-- BIT #, opcode 0x89 (42_arith_logic_shift.md R247). -/
def execBitImm (v : Imm) (s : State) : Host.Outcome State Fault Refusal :=
  perform (.bitImm v) (bitTest true (.immM v)) s

/-- TSB d, opcode 0x04 (42_arith_logic_shift.md R248). -/
def execTsbDp (d : Byte) (s : State) : Host.Outcome State Fault Refusal :=
  perform (.tsbDp d) (tsb (.dp d)) s

/-- TSB a, opcode 0x0C (42_arith_logic_shift.md R248). -/
def execTsbAbs (a : Word) (s : State) : Host.Outcome State Fault Refusal :=
  perform (.tsbAbs a) (tsb (.abs a)) s

/-- TRB d, opcode 0x14 (42_arith_logic_shift.md R249). -/
def execTrbDp (d : Byte) (s : State) : Host.Outcome State Fault Refusal :=
  perform (.trbDp d) (trb (.dp d)) s

/-- TRB a, opcode 0x1C (42_arith_logic_shift.md R249). -/
def execTrbAbs (a : Word) (s : State) : Host.Outcome State Fault Refusal :=
  perform (.trbAbs a) (trb (.abs a)) s

/-- ASL d, opcode 0x06 (42_arith_logic_shift.md R250). -/
def execAslDp (d : Byte) (s : State) : Host.Outcome State Fault Refusal :=
  perform (.aslDp d) (asl (.dp d)) s

/-- ASL A, opcode 0x0A (42_arith_logic_shift.md R250). -/
def execAslAcc (s : State) : Host.Outcome State Fault Refusal :=
  perform .aslAcc (asl (.acc)) s

/-- ASL a, opcode 0x0E (42_arith_logic_shift.md R250). -/
def execAslAbs (a : Word) (s : State) : Host.Outcome State Fault Refusal :=
  perform (.aslAbs a) (asl (.abs a)) s

/-- ASL d,X, opcode 0x16 (42_arith_logic_shift.md R250). -/
def execAslDpX (d : Byte) (s : State) : Host.Outcome State Fault Refusal :=
  perform (.aslDpX d) (asl (.dpX d)) s

/-- ASL a,X, opcode 0x1E (42_arith_logic_shift.md R250). -/
def execAslAbsX (a : Word) (s : State) : Host.Outcome State Fault Refusal :=
  perform (.aslAbsX a) (asl (.absX a)) s

/-- LSR d, opcode 0x46 (42_arith_logic_shift.md R251). -/
def execLsrDp (d : Byte) (s : State) : Host.Outcome State Fault Refusal :=
  perform (.lsrDp d) (lsr (.dp d)) s

/-- LSR A, opcode 0x4A (42_arith_logic_shift.md R251). -/
def execLsrAcc (s : State) : Host.Outcome State Fault Refusal :=
  perform .lsrAcc (lsr (.acc)) s

/-- LSR a, opcode 0x4E (42_arith_logic_shift.md R251). -/
def execLsrAbs (a : Word) (s : State) : Host.Outcome State Fault Refusal :=
  perform (.lsrAbs a) (lsr (.abs a)) s

/-- LSR d,X, opcode 0x56 (42_arith_logic_shift.md R251). -/
def execLsrDpX (d : Byte) (s : State) : Host.Outcome State Fault Refusal :=
  perform (.lsrDpX d) (lsr (.dpX d)) s

/-- LSR a,X, opcode 0x5E (42_arith_logic_shift.md R251). -/
def execLsrAbsX (a : Word) (s : State) : Host.Outcome State Fault Refusal :=
  perform (.lsrAbsX a) (lsr (.absX a)) s

/-- ROL d, opcode 0x26 (42_arith_logic_shift.md R252). -/
def execRolDp (d : Byte) (s : State) : Host.Outcome State Fault Refusal :=
  perform (.rolDp d) (rol (.dp d)) s

/-- ROL A, opcode 0x2A (42_arith_logic_shift.md R252). -/
def execRolAcc (s : State) : Host.Outcome State Fault Refusal :=
  perform .rolAcc (rol (.acc)) s

/-- ROL a, opcode 0x2E (42_arith_logic_shift.md R252). -/
def execRolAbs (a : Word) (s : State) : Host.Outcome State Fault Refusal :=
  perform (.rolAbs a) (rol (.abs a)) s

/-- ROL d,X, opcode 0x36 (42_arith_logic_shift.md R252). -/
def execRolDpX (d : Byte) (s : State) : Host.Outcome State Fault Refusal :=
  perform (.rolDpX d) (rol (.dpX d)) s

/-- ROL a,X, opcode 0x3E (42_arith_logic_shift.md R252). -/
def execRolAbsX (a : Word) (s : State) : Host.Outcome State Fault Refusal :=
  perform (.rolAbsX a) (rol (.absX a)) s

/-- ROR d, opcode 0x66 (42_arith_logic_shift.md R253). -/
def execRorDp (d : Byte) (s : State) : Host.Outcome State Fault Refusal :=
  perform (.rorDp d) (ror (.dp d)) s

/-- ROR A, opcode 0x6A (42_arith_logic_shift.md R253). -/
def execRorAcc (s : State) : Host.Outcome State Fault Refusal :=
  perform .rorAcc (ror (.acc)) s

/-- ROR a, opcode 0x6E (42_arith_logic_shift.md R253). -/
def execRorAbs (a : Word) (s : State) : Host.Outcome State Fault Refusal :=
  perform (.rorAbs a) (ror (.abs a)) s

/-- ROR d,X, opcode 0x76 (42_arith_logic_shift.md R253). -/
def execRorDpX (d : Byte) (s : State) : Host.Outcome State Fault Refusal :=
  perform (.rorDpX d) (ror (.dpX d)) s

/-- ROR a,X, opcode 0x7E (42_arith_logic_shift.md R253). -/
def execRorAbsX (a : Word) (s : State) : Host.Outcome State Fault Refusal :=
  perform (.rorAbsX a) (ror (.absX a)) s

end Sys2Proof.Machine
end

