-- ==== Sys2Proof/Machine/Stack.lean ====
section
/-! DEFINITION. The stack instructions (44_stack.md sections 2 to 4). -/

namespace Sys2Proof.Machine

/-- PHA (44_stack.md R304). -/
def pha (s : State) : Except Raise State := do
  let s ← pushW s.wM s.a s
  return s.chargeM 1

/-- PHX (44_stack.md R305). -/
def phx (s : State) : Except Raise State := do
  let s ← pushW s.wX s.x s
  return s.chargeX

/-- PHY (44_stack.md R306). -/
def phy (s : State) : Except Raise State := do
  let s ← pushW s.wX s.y s
  return s.chargeX

/-- PHB (44_stack.md R307). -/
def phb (s : State) : Except Raise State := push8 s.dbr s

/-- PHD (44_stack.md R308). -/
def phd (s : State) : Except Raise State := push16 s.d s

/-- PHK (44_stack.md R309). -/
def phk (s : State) : Except Raise State := push8 s.pbr s

/-- PHP (44_stack.md R310). -/
def php (s : State) : Except Raise State := push8 s.p s

/-- PLA (44_stack.md R311). -/
def pla (s : State) : Except Raise State := do
  let (v, s) ← pullW s.wM s
  return ((s.chargeM 1).putA s.wM v).setNZ s.wM v

/-- PLX (44_stack.md R312). -/
def plx (s : State) : Except Raise State := do
  let (v, s) ← pullW s.wX s
  return { s.chargeX with x := v }.setNZ s.wX v

/-- PLY (44_stack.md R313). -/
def ply (s : State) : Except Raise State := do
  let (v, s) ← pullW s.wX s
  return { s.chargeX with y := v }.setNZ s.wX v

/-- PLB: `DBR <- Pull8(); setNZ(DBR, 1)` (44_stack.md R314). -/
def plb (s : State) : Except Raise State := do
  let (v, s) ← pull8 s
  return { s with dbr := v }.setNZ .w8 (zextByte v)

/-- PLD: `D <- Pull16(); setNZ(D, 2)` (44_stack.md R315). -/
def pld (s : State) : Except Raise State := do
  let (v, s) ← pull16 s
  return { s with d := v }.setNZ .w16 v

/-- PLP: `P <- Pull8(); Normalize()` (44_stack.md R316). -/
def plp (s : State) : Except Raise State := do
  let (v, s) ← pull8 s
  return { s with p := v }

/-- PEI: the pointer itself is pushed (44_stack.md R318). -/
def pei (d : Byte) (s : State) : Except Raise State := do
  let (ptr, s) ← readWord .bank (directAddr s d) s
  push16 ptr s

/-- PER: `Push16((PC_next + r) & 0xFFFF)` (44_stack.md R319). -/
def per (r : Word) (s : State) : Except Raise State := push16 (relTarget16 s r) s

/-! ### One meaning per row of the opcode table -/

/-- PHA, opcode 0x48 (44_stack.md R304). -/
def execPha (s : State) : Host.Outcome State Fault Refusal :=
  perform .pha pha s

/-- PHX, opcode 0xDA (44_stack.md R305). -/
def execPhx (s : State) : Host.Outcome State Fault Refusal :=
  perform .phx phx s

/-- PHY, opcode 0x5A (44_stack.md R306). -/
def execPhy (s : State) : Host.Outcome State Fault Refusal :=
  perform .phy phy s

/-- PHB, opcode 0x8B (44_stack.md R307). -/
def execPhb (s : State) : Host.Outcome State Fault Refusal :=
  perform .phb phb s

/-- PHD, opcode 0x0B (44_stack.md R308). -/
def execPhd (s : State) : Host.Outcome State Fault Refusal :=
  perform .phd phd s

/-- PHK, opcode 0x4B (44_stack.md R309). -/
def execPhk (s : State) : Host.Outcome State Fault Refusal :=
  perform .phk phk s

/-- PHP, opcode 0x08 (44_stack.md R310). -/
def execPhp (s : State) : Host.Outcome State Fault Refusal :=
  perform .php php s

/-- PLA, opcode 0x68 (44_stack.md R311). -/
def execPla (s : State) : Host.Outcome State Fault Refusal :=
  perform .pla pla s

/-- PLX, opcode 0xFA (44_stack.md R312). -/
def execPlx (s : State) : Host.Outcome State Fault Refusal :=
  perform .plx plx s

/-- PLY, opcode 0x7A (44_stack.md R313). -/
def execPly (s : State) : Host.Outcome State Fault Refusal :=
  perform .ply ply s

/-- PLB, opcode 0xAB (44_stack.md R314). -/
def execPlb (s : State) : Host.Outcome State Fault Refusal :=
  perform .plb plb s

/-- PLD, opcode 0x2B (44_stack.md R315). -/
def execPld (s : State) : Host.Outcome State Fault Refusal :=
  perform .pld pld s

/-- PLP, opcode 0x28 (44_stack.md R316). -/
def execPlp (s : State) : Host.Outcome State Fault Refusal :=
  perform .plp plp s

/-- PEA, opcode 0xF4 (44_stack.md R317). -/
def execPea (v : Word) (s : State) : Host.Outcome State Fault Refusal :=
  perform (.pea v) (push16 v) s

/-- PEI (d), opcode 0xD4 (44_stack.md R318). -/
def execPei (d : Byte) (s : State) : Host.Outcome State Fault Refusal :=
  perform (.pei d) (pei d) s

/-- PER rl, opcode 0x62 (44_stack.md R319). -/
def execPer (r : Word) (s : State) : Host.Outcome State Fault Refusal :=
  perform (.per r) (per r) s

end Sys2Proof.Machine
end

