-- ==== Sys2Proof/Machine/System.lean ====
section
/-! DEFINITION. Flags, the mode switch, software interrupts, wait, stop and block moves
(45_flags_mode_system.md). The `Normalize()` of REP, SEP and XCE is the one `perform` ends every
instruction with. -/

namespace Sys2Proof.Machine

/-- REP: `P <- P & ~m; Normalize()` (45_flags_mode_system.md R337). -/
def rep (m : Byte) (s : State) : State := { s with p := s.p &&& ~~~m }

/-- SEP: `P <- P | m; Normalize()` (45_flags_mode_system.md R338). -/
def sep (m : Byte) (s : State) : State := { s with p := s.p ||| m }

/-- NOP, and WDM after its signature byte (45_flags_mode_system.md R339, R341). -/
def nop (s : State) : State := s

/-- XCE: `t <- P.C; P.C <- E; E <- t`, then exactly `Normalize()` (45_flags_mode_system.md R340). -/
def xce (s : State) : State := { s.setFlag .c s.e with e := s.flag .c }

/-- BRK and COP: `Enter(kind, ret = PC_next)` (45_flags_mode_system.md R342, R343). -/
def softInterrupt (k : IntKind) (s : State) : Except Raise State := do
  let s ← enter k s.pc s
  return s.chargeNative

/-- RTI (45_flags_mode_system.md R344). -/
def rti (s : State) : Except Raise State := do
  let s ← leave s
  return s.chargeNative

/-- WAI: `run <- Waiting` (45_flags_mode_system.md R345). -/
def wai (s : State) : State := { s with run := .waiting }

/-- STP: `run <- Stopped` (45_flags_mode_system.md R346). -/
def stp (s : State) : State := { s with run := .stopped }

/-- One byte of MVN (`step` is 1) or MVP (`step` is -1): the byte, `DBR`, the indexes and `A`, and `PC`
back to the opcode, three bytes before `PC_next`, unless `A` has become 0xFFFF
(45_flags_mode_system.md R347, R348). -/
def blockMove (step : Word) (dd ss : Byte) (s : State) : Except Raise State := do
  let (v, s) ← read8 (mkAddr ss s.x) s
  let s ← write8 (mkAddr dd s.y) v s
  return { s with
    dbr := dd
    x := truncate s.wX (s.x + step)
    y := truncate s.wX (s.y + step)
    a := s.a - 1
    pc := if s.a - 1 = 0xFFFF then s.pc else s.pc - 3 }

/-! ### One meaning per row of the opcode table -/

/-- CLC, opcode 0x18 (45_flags_mode_system.md R330). -/
def execClc (s : State) : Host.Outcome State Fault Refusal :=
  performPure .clc (fun t => t.setFlag .c false) s

/-- CLD, opcode 0xD8 (45_flags_mode_system.md R331). -/
def execCld (s : State) : Host.Outcome State Fault Refusal :=
  performPure .cld (fun t => t.setFlag .d false) s

/-- CLI, opcode 0x58 (45_flags_mode_system.md R332). -/
def execCli (s : State) : Host.Outcome State Fault Refusal :=
  performPure .cli (fun t => t.setFlag .i false) s

/-- CLV, opcode 0xB8 (45_flags_mode_system.md R333). -/
def execClv (s : State) : Host.Outcome State Fault Refusal :=
  performPure .clv (fun t => t.setFlag .v false) s

/-- SEC, opcode 0x38 (45_flags_mode_system.md R334). -/
def execSec (s : State) : Host.Outcome State Fault Refusal :=
  performPure .sec (fun t => t.setFlag .c true) s

/-- SED, opcode 0xF8 (45_flags_mode_system.md R335). -/
def execSed (s : State) : Host.Outcome State Fault Refusal :=
  performPure .sed (fun t => t.setFlag .d true) s

/-- SEI, opcode 0x78 (45_flags_mode_system.md R336). -/
def execSei (s : State) : Host.Outcome State Fault Refusal :=
  performPure .sei (fun t => t.setFlag .i true) s

/-- REP #, opcode 0xC2 (45_flags_mode_system.md R337). -/
def execRep (v : Byte) (s : State) : Host.Outcome State Fault Refusal :=
  performPure (.rep v) (rep v) s

/-- SEP #, opcode 0xE2 (45_flags_mode_system.md R338). -/
def execSep (v : Byte) (s : State) : Host.Outcome State Fault Refusal :=
  performPure (.sep v) (sep v) s

/-- NOP, opcode 0xEA (45_flags_mode_system.md R339). -/
def execNop (s : State) : Host.Outcome State Fault Refusal :=
  performPure .nop nop s

/-- XCE, opcode 0xFB (45_flags_mode_system.md R340). -/
def execXce (s : State) : Host.Outcome State Fault Refusal :=
  performPure .xce xce s

/-- WDM #, opcode 0x42 (45_flags_mode_system.md R341). -/
def execWdm (v : Byte) (s : State) : Host.Outcome State Fault Refusal :=
  performPure (.wdm v) nop s

/-- BRK #, opcode 0x00 (45_flags_mode_system.md R342). -/
def execBrk (v : Byte) (s : State) : Host.Outcome State Fault Refusal :=
  perform (.brk v) (softInterrupt .brk) s

/-- COP #, opcode 0x02 (45_flags_mode_system.md R343). -/
def execCop (v : Byte) (s : State) : Host.Outcome State Fault Refusal :=
  perform (.cop v) (softInterrupt .cop) s

/-- RTI, opcode 0x40 (45_flags_mode_system.md R344). -/
def execRti (s : State) : Host.Outcome State Fault Refusal :=
  perform .rti rti s

/-- WAI, opcode 0xCB (45_flags_mode_system.md R345). -/
def execWai (s : State) : Host.Outcome State Fault Refusal :=
  performPure .wai wai s

/-- STP, opcode 0xDB (45_flags_mode_system.md R346). -/
def execStp (s : State) : Host.Outcome State Fault Refusal :=
  performPure .stp stp s

/-- MVN ss,dd, opcode 0x54 (45_flags_mode_system.md R347). -/
def execMvn (dd : Byte) (ss : Byte) (s : State) : Host.Outcome State Fault Refusal :=
  perform (.mvn dd ss) (blockMove 1 dd ss) s

/-- MVP ss,dd, opcode 0x44 (45_flags_mode_system.md R348). -/
def execMvp (dd : Byte) (ss : Byte) (s : State) : Host.Outcome State Fault Refusal :=
  perform (.mvp dd ss) (blockMove (-1) dd ss) s

end Sys2Proof.Machine
end

