-- ==== Sys2Proof/Machine/Transfer.lean ====
section
/-! DEFINITION. Register transfers (41_load_store_transfer.md section 4). The invariant-keeping
`Normalize()` of TXS and TCS is the one `perform` ends every instruction with. -/

namespace Sys2Proof.Machine

/-- TAX: `X <- A & mask(wX); setNZ(X, wX)` (41_load_store_transfer.md R208). -/
def tax (s : State) : State := { s with x := truncate s.wX s.a }.setNZ s.wX s.a

/-- TAY: `Y <- A & mask(wX); setNZ(Y, wX)` (41_load_store_transfer.md R209). -/
def tay (s : State) : State := { s with y := truncate s.wX s.a }.setNZ s.wX s.a

/-- TXA: `A_w <- X & mask(wM)`, `setNZ(A, wM)` (41_load_store_transfer.md R210). -/
def txa (s : State) : State := (s.putA s.wM (truncate s.wM s.x)).setNZ s.wM s.x

/-- TYA: `A_w <- Y & mask(wM)`, `setNZ(A, wM)` (41_load_store_transfer.md R211). -/
def tya (s : State) : State := (s.putA s.wM (truncate s.wM s.y)).setNZ s.wM s.y

/-- TSX: `X <- S & mask(wX); setNZ(X, wX)` (41_load_store_transfer.md R212). -/
def tsx (s : State) : State := { s with x := truncate s.wX s.sp }.setNZ s.wX s.sp

/-- TXS: `S <- X; Normalize()` (41_load_store_transfer.md R213). -/
def txs (s : State) : State := { s with sp := s.x }

/-- TDC: `A <- D; setNZ(A, 2)` (41_load_store_transfer.md R214). -/
def tdc (s : State) : State := { s with a := s.d }.setNZ .w16 s.d

/-- TCD: `D <- A; setNZ(D, 2)` (41_load_store_transfer.md R215). -/
def tcd (s : State) : State := { s with d := s.a }.setNZ .w16 s.a

/-- TSC: `A <- S; setNZ(A, 2)` (41_load_store_transfer.md R216). -/
def tsc (s : State) : State := { s with a := s.sp }.setNZ .w16 s.sp

/-- TCS: `S <- A; Normalize()` (41_load_store_transfer.md R217). -/
def tcs (s : State) : State := { s with sp := s.a }

/-- XBA: `A <- (A[7:0] << 8) | A[15:8]; setNZ(A[7:0], 1)` (41_load_store_transfer.md R218). -/
def xba (s : State) : State :=
  { s with a := mkWord (hiByte s.a) (loByte s.a) }.setNZ .w8 (zextByte (hiByte s.a))

/-- TXY: `Y <- X; setNZ(Y, wX)` (41_load_store_transfer.md R219). -/
def txy (s : State) : State := { s with y := s.x }.setNZ s.wX s.x

/-- TYX: `X <- Y; setNZ(X, wX)` (41_load_store_transfer.md R220). -/
def tyx (s : State) : State := { s with x := s.y }.setNZ s.wX s.y

/-! ### One meaning per row of the opcode table -/

/-- TAX, opcode 0xAA (41_load_store_transfer.md R208). -/
def execTax (s : State) : Host.Outcome State Fault Refusal :=
  performPure .tax tax s

/-- TAY, opcode 0xA8 (41_load_store_transfer.md R209). -/
def execTay (s : State) : Host.Outcome State Fault Refusal :=
  performPure .tay tay s

/-- TXA, opcode 0x8A (41_load_store_transfer.md R210). -/
def execTxa (s : State) : Host.Outcome State Fault Refusal :=
  performPure .txa txa s

/-- TYA, opcode 0x98 (41_load_store_transfer.md R211). -/
def execTya (s : State) : Host.Outcome State Fault Refusal :=
  performPure .tya tya s

/-- TSX, opcode 0xBA (41_load_store_transfer.md R212). -/
def execTsx (s : State) : Host.Outcome State Fault Refusal :=
  performPure .tsx tsx s

/-- TXS, opcode 0x9A (41_load_store_transfer.md R213). -/
def execTxs (s : State) : Host.Outcome State Fault Refusal :=
  performPure .txs txs s

/-- TDC, opcode 0x7B (41_load_store_transfer.md R214). -/
def execTdc (s : State) : Host.Outcome State Fault Refusal :=
  performPure .tdc tdc s

/-- TCD, opcode 0x5B (41_load_store_transfer.md R215). -/
def execTcd (s : State) : Host.Outcome State Fault Refusal :=
  performPure .tcd tcd s

/-- TSC, opcode 0x3B (41_load_store_transfer.md R216). -/
def execTsc (s : State) : Host.Outcome State Fault Refusal :=
  performPure .tsc tsc s

/-- TCS, opcode 0x1B (41_load_store_transfer.md R217). -/
def execTcs (s : State) : Host.Outcome State Fault Refusal :=
  performPure .tcs tcs s

/-- XBA, opcode 0xEB (41_load_store_transfer.md R218). -/
def execXba (s : State) : Host.Outcome State Fault Refusal :=
  performPure .xba xba s

/-- TXY, opcode 0x9B (41_load_store_transfer.md R219). -/
def execTxy (s : State) : Host.Outcome State Fault Refusal :=
  performPure .txy txy s

/-- TYX, opcode 0xBB (41_load_store_transfer.md R220). -/
def execTyx (s : State) : Host.Outcome State Fault Refusal :=
  performPure .tyx tyx s

end Sys2Proof.Machine
end

