-- ==== Sys2Proof/Machine/Dispatch.lean ====
section
/-! DEFINITION. One arm per constructor of `Instr`, each one direct call of that row's meaning. -/

namespace Sys2Proof.Machine

def exec (i : Instr) (s : State) : Host.Outcome State Fault Refusal :=
  match i with
  | .ldaDpIndX d => Sys2Proof.Machine.execLdaDpIndX d s
  | .ldaSr d => Sys2Proof.Machine.execLdaSr d s
  | .ldaDp d => Sys2Proof.Machine.execLdaDp d s
  | .ldaDpIndLong d => Sys2Proof.Machine.execLdaDpIndLong d s
  | .ldaImm v => Sys2Proof.Machine.execLdaImm v s
  | .ldaAbs a => Sys2Proof.Machine.execLdaAbs a s
  | .ldaLong a => Sys2Proof.Machine.execLdaLong a s
  | .ldaDpIndY d => Sys2Proof.Machine.execLdaDpIndY d s
  | .ldaDpInd d => Sys2Proof.Machine.execLdaDpInd d s
  | .ldaSrIndY d => Sys2Proof.Machine.execLdaSrIndY d s
  | .ldaDpX d => Sys2Proof.Machine.execLdaDpX d s
  | .ldaDpIndLongY d => Sys2Proof.Machine.execLdaDpIndLongY d s
  | .ldaAbsY a => Sys2Proof.Machine.execLdaAbsY a s
  | .ldaAbsX a => Sys2Proof.Machine.execLdaAbsX a s
  | .ldaLongX a => Sys2Proof.Machine.execLdaLongX a s
  | .ldxImm v => Sys2Proof.Machine.execLdxImm v s
  | .ldxDp d => Sys2Proof.Machine.execLdxDp d s
  | .ldxAbs a => Sys2Proof.Machine.execLdxAbs a s
  | .ldxDpY d => Sys2Proof.Machine.execLdxDpY d s
  | .ldxAbsY a => Sys2Proof.Machine.execLdxAbsY a s
  | .ldyImm v => Sys2Proof.Machine.execLdyImm v s
  | .ldyDp d => Sys2Proof.Machine.execLdyDp d s
  | .ldyAbs a => Sys2Proof.Machine.execLdyAbs a s
  | .ldyDpX d => Sys2Proof.Machine.execLdyDpX d s
  | .ldyAbsX a => Sys2Proof.Machine.execLdyAbsX a s
  | .staDpIndX d => Sys2Proof.Machine.execStaDpIndX d s
  | .staSr d => Sys2Proof.Machine.execStaSr d s
  | .staDp d => Sys2Proof.Machine.execStaDp d s
  | .staDpIndLong d => Sys2Proof.Machine.execStaDpIndLong d s
  | .staAbs a => Sys2Proof.Machine.execStaAbs a s
  | .staLong a => Sys2Proof.Machine.execStaLong a s
  | .staDpIndY d => Sys2Proof.Machine.execStaDpIndY d s
  | .staDpInd d => Sys2Proof.Machine.execStaDpInd d s
  | .staSrIndY d => Sys2Proof.Machine.execStaSrIndY d s
  | .staDpX d => Sys2Proof.Machine.execStaDpX d s
  | .staDpIndLongY d => Sys2Proof.Machine.execStaDpIndLongY d s
  | .staAbsY a => Sys2Proof.Machine.execStaAbsY a s
  | .staAbsX a => Sys2Proof.Machine.execStaAbsX a s
  | .staLongX a => Sys2Proof.Machine.execStaLongX a s
  | .stxDp d => Sys2Proof.Machine.execStxDp d s
  | .stxAbs a => Sys2Proof.Machine.execStxAbs a s
  | .stxDpY d => Sys2Proof.Machine.execStxDpY d s
  | .styDp d => Sys2Proof.Machine.execStyDp d s
  | .styAbs a => Sys2Proof.Machine.execStyAbs a s
  | .styDpX d => Sys2Proof.Machine.execStyDpX d s
  | .stzDp d => Sys2Proof.Machine.execStzDp d s
  | .stzDpX d => Sys2Proof.Machine.execStzDpX d s
  | .stzAbs a => Sys2Proof.Machine.execStzAbs a s
  | .stzAbsX a => Sys2Proof.Machine.execStzAbsX a s
  | .adcDpIndX d => Sys2Proof.Machine.execAdcDpIndX d s
  | .adcSr d => Sys2Proof.Machine.execAdcSr d s
  | .adcDp d => Sys2Proof.Machine.execAdcDp d s
  | .adcDpIndLong d => Sys2Proof.Machine.execAdcDpIndLong d s
  | .adcImm v => Sys2Proof.Machine.execAdcImm v s
  | .adcAbs a => Sys2Proof.Machine.execAdcAbs a s
  | .adcLong a => Sys2Proof.Machine.execAdcLong a s
  | .adcDpIndY d => Sys2Proof.Machine.execAdcDpIndY d s
  | .adcDpInd d => Sys2Proof.Machine.execAdcDpInd d s
  | .adcSrIndY d => Sys2Proof.Machine.execAdcSrIndY d s
  | .adcDpX d => Sys2Proof.Machine.execAdcDpX d s
  | .adcDpIndLongY d => Sys2Proof.Machine.execAdcDpIndLongY d s
  | .adcAbsY a => Sys2Proof.Machine.execAdcAbsY a s
  | .adcAbsX a => Sys2Proof.Machine.execAdcAbsX a s
  | .adcLongX a => Sys2Proof.Machine.execAdcLongX a s
  | .sbcDpIndX d => Sys2Proof.Machine.execSbcDpIndX d s
  | .sbcSr d => Sys2Proof.Machine.execSbcSr d s
  | .sbcDp d => Sys2Proof.Machine.execSbcDp d s
  | .sbcDpIndLong d => Sys2Proof.Machine.execSbcDpIndLong d s
  | .sbcImm v => Sys2Proof.Machine.execSbcImm v s
  | .sbcAbs a => Sys2Proof.Machine.execSbcAbs a s
  | .sbcLong a => Sys2Proof.Machine.execSbcLong a s
  | .sbcDpIndY d => Sys2Proof.Machine.execSbcDpIndY d s
  | .sbcDpInd d => Sys2Proof.Machine.execSbcDpInd d s
  | .sbcSrIndY d => Sys2Proof.Machine.execSbcSrIndY d s
  | .sbcDpX d => Sys2Proof.Machine.execSbcDpX d s
  | .sbcDpIndLongY d => Sys2Proof.Machine.execSbcDpIndLongY d s
  | .sbcAbsY a => Sys2Proof.Machine.execSbcAbsY a s
  | .sbcAbsX a => Sys2Proof.Machine.execSbcAbsX a s
  | .sbcLongX a => Sys2Proof.Machine.execSbcLongX a s
  | .cmpDpIndX d => Sys2Proof.Machine.execCmpDpIndX d s
  | .cmpSr d => Sys2Proof.Machine.execCmpSr d s
  | .cmpDp d => Sys2Proof.Machine.execCmpDp d s
  | .cmpDpIndLong d => Sys2Proof.Machine.execCmpDpIndLong d s
  | .cmpImm v => Sys2Proof.Machine.execCmpImm v s
  | .cmpAbs a => Sys2Proof.Machine.execCmpAbs a s
  | .cmpLong a => Sys2Proof.Machine.execCmpLong a s
  | .cmpDpIndY d => Sys2Proof.Machine.execCmpDpIndY d s
  | .cmpDpInd d => Sys2Proof.Machine.execCmpDpInd d s
  | .cmpSrIndY d => Sys2Proof.Machine.execCmpSrIndY d s
  | .cmpDpX d => Sys2Proof.Machine.execCmpDpX d s
  | .cmpDpIndLongY d => Sys2Proof.Machine.execCmpDpIndLongY d s
  | .cmpAbsY a => Sys2Proof.Machine.execCmpAbsY a s
  | .cmpAbsX a => Sys2Proof.Machine.execCmpAbsX a s
  | .cmpLongX a => Sys2Proof.Machine.execCmpLongX a s
  | .cpxImm v => Sys2Proof.Machine.execCpxImm v s
  | .cpxDp d => Sys2Proof.Machine.execCpxDp d s
  | .cpxAbs a => Sys2Proof.Machine.execCpxAbs a s
  | .cpyImm v => Sys2Proof.Machine.execCpyImm v s
  | .cpyDp d => Sys2Proof.Machine.execCpyDp d s
  | .cpyAbs a => Sys2Proof.Machine.execCpyAbs a s
  | .incAcc => Sys2Proof.Machine.execIncAcc s
  | .incDp d => Sys2Proof.Machine.execIncDp d s
  | .incAbs a => Sys2Proof.Machine.execIncAbs a s
  | .incDpX d => Sys2Proof.Machine.execIncDpX d s
  | .incAbsX a => Sys2Proof.Machine.execIncAbsX a s
  | .decAcc => Sys2Proof.Machine.execDecAcc s
  | .decDp d => Sys2Proof.Machine.execDecDp d s
  | .decAbs a => Sys2Proof.Machine.execDecAbs a s
  | .decDpX d => Sys2Proof.Machine.execDecDpX d s
  | .decAbsX a => Sys2Proof.Machine.execDecAbsX a s
  | .andDpIndX d => Sys2Proof.Machine.execAndDpIndX d s
  | .andSr d => Sys2Proof.Machine.execAndSr d s
  | .andDp d => Sys2Proof.Machine.execAndDp d s
  | .andDpIndLong d => Sys2Proof.Machine.execAndDpIndLong d s
  | .andImm v => Sys2Proof.Machine.execAndImm v s
  | .andAbs a => Sys2Proof.Machine.execAndAbs a s
  | .andLong a => Sys2Proof.Machine.execAndLong a s
  | .andDpIndY d => Sys2Proof.Machine.execAndDpIndY d s
  | .andDpInd d => Sys2Proof.Machine.execAndDpInd d s
  | .andSrIndY d => Sys2Proof.Machine.execAndSrIndY d s
  | .andDpX d => Sys2Proof.Machine.execAndDpX d s
  | .andDpIndLongY d => Sys2Proof.Machine.execAndDpIndLongY d s
  | .andAbsY a => Sys2Proof.Machine.execAndAbsY a s
  | .andAbsX a => Sys2Proof.Machine.execAndAbsX a s
  | .andLongX a => Sys2Proof.Machine.execAndLongX a s
  | .oraDpIndX d => Sys2Proof.Machine.execOraDpIndX d s
  | .oraSr d => Sys2Proof.Machine.execOraSr d s
  | .oraDp d => Sys2Proof.Machine.execOraDp d s
  | .oraDpIndLong d => Sys2Proof.Machine.execOraDpIndLong d s
  | .oraImm v => Sys2Proof.Machine.execOraImm v s
  | .oraAbs a => Sys2Proof.Machine.execOraAbs a s
  | .oraLong a => Sys2Proof.Machine.execOraLong a s
  | .oraDpIndY d => Sys2Proof.Machine.execOraDpIndY d s
  | .oraDpInd d => Sys2Proof.Machine.execOraDpInd d s
  | .oraSrIndY d => Sys2Proof.Machine.execOraSrIndY d s
  | .oraDpX d => Sys2Proof.Machine.execOraDpX d s
  | .oraDpIndLongY d => Sys2Proof.Machine.execOraDpIndLongY d s
  | .oraAbsY a => Sys2Proof.Machine.execOraAbsY a s
  | .oraAbsX a => Sys2Proof.Machine.execOraAbsX a s
  | .oraLongX a => Sys2Proof.Machine.execOraLongX a s
  | .eorDpIndX d => Sys2Proof.Machine.execEorDpIndX d s
  | .eorSr d => Sys2Proof.Machine.execEorSr d s
  | .eorDp d => Sys2Proof.Machine.execEorDp d s
  | .eorDpIndLong d => Sys2Proof.Machine.execEorDpIndLong d s
  | .eorImm v => Sys2Proof.Machine.execEorImm v s
  | .eorAbs a => Sys2Proof.Machine.execEorAbs a s
  | .eorLong a => Sys2Proof.Machine.execEorLong a s
  | .eorDpIndY d => Sys2Proof.Machine.execEorDpIndY d s
  | .eorDpInd d => Sys2Proof.Machine.execEorDpInd d s
  | .eorSrIndY d => Sys2Proof.Machine.execEorSrIndY d s
  | .eorDpX d => Sys2Proof.Machine.execEorDpX d s
  | .eorDpIndLongY d => Sys2Proof.Machine.execEorDpIndLongY d s
  | .eorAbsY a => Sys2Proof.Machine.execEorAbsY a s
  | .eorAbsX a => Sys2Proof.Machine.execEorAbsX a s
  | .eorLongX a => Sys2Proof.Machine.execEorLongX a s
  | .bitDp d => Sys2Proof.Machine.execBitDp d s
  | .bitAbs a => Sys2Proof.Machine.execBitAbs a s
  | .bitDpX d => Sys2Proof.Machine.execBitDpX d s
  | .bitAbsX a => Sys2Proof.Machine.execBitAbsX a s
  | .bitImm v => Sys2Proof.Machine.execBitImm v s
  | .tsbDp d => Sys2Proof.Machine.execTsbDp d s
  | .tsbAbs a => Sys2Proof.Machine.execTsbAbs a s
  | .trbDp d => Sys2Proof.Machine.execTrbDp d s
  | .trbAbs a => Sys2Proof.Machine.execTrbAbs a s
  | .aslDp d => Sys2Proof.Machine.execAslDp d s
  | .aslAcc => Sys2Proof.Machine.execAslAcc s
  | .aslAbs a => Sys2Proof.Machine.execAslAbs a s
  | .aslDpX d => Sys2Proof.Machine.execAslDpX d s
  | .aslAbsX a => Sys2Proof.Machine.execAslAbsX a s
  | .lsrDp d => Sys2Proof.Machine.execLsrDp d s
  | .lsrAcc => Sys2Proof.Machine.execLsrAcc s
  | .lsrAbs a => Sys2Proof.Machine.execLsrAbs a s
  | .lsrDpX d => Sys2Proof.Machine.execLsrDpX d s
  | .lsrAbsX a => Sys2Proof.Machine.execLsrAbsX a s
  | .rolDp d => Sys2Proof.Machine.execRolDp d s
  | .rolAcc => Sys2Proof.Machine.execRolAcc s
  | .rolAbs a => Sys2Proof.Machine.execRolAbs a s
  | .rolDpX d => Sys2Proof.Machine.execRolDpX d s
  | .rolAbsX a => Sys2Proof.Machine.execRolAbsX a s
  | .rorDp d => Sys2Proof.Machine.execRorDp d s
  | .rorAcc => Sys2Proof.Machine.execRorAcc s
  | .rorAbs a => Sys2Proof.Machine.execRorAbs a s
  | .rorDpX d => Sys2Proof.Machine.execRorDpX d s
  | .rorAbsX a => Sys2Proof.Machine.execRorAbsX a s
  | .bpl r => Sys2Proof.Machine.execBpl r s
  | .bmi r => Sys2Proof.Machine.execBmi r s
  | .bvc r => Sys2Proof.Machine.execBvc r s
  | .bvs r => Sys2Proof.Machine.execBvs r s
  | .bcc r => Sys2Proof.Machine.execBcc r s
  | .bcs r => Sys2Proof.Machine.execBcs r s
  | .bne r => Sys2Proof.Machine.execBne r s
  | .beq r => Sys2Proof.Machine.execBeq r s
  | .bra r => Sys2Proof.Machine.execBra r s
  | .brl r => Sys2Proof.Machine.execBrl r s
  | .jmpAbs a => Sys2Proof.Machine.execJmpAbs a s
  | .jmpAbsInd a => Sys2Proof.Machine.execJmpAbsInd a s
  | .jmpAbsIndX a => Sys2Proof.Machine.execJmpAbsIndX a s
  | .jmlLong a => Sys2Proof.Machine.execJmlLong a s
  | .jmlAbsIndLong a => Sys2Proof.Machine.execJmlAbsIndLong a s
  | .jsrAbs a => Sys2Proof.Machine.execJsrAbs a s
  | .jsrAbsIndX a => Sys2Proof.Machine.execJsrAbsIndX a s
  | .jsl a => Sys2Proof.Machine.execJsl a s
  | .rts => Sys2Proof.Machine.execRts s
  | .rtl => Sys2Proof.Machine.execRtl s
  | .pea v => Sys2Proof.Machine.execPea v s
  | .pei d => Sys2Proof.Machine.execPei d s
  | .per r => Sys2Proof.Machine.execPer r s
  | .rep v => Sys2Proof.Machine.execRep v s
  | .sep v => Sys2Proof.Machine.execSep v s
  | .wdm v => Sys2Proof.Machine.execWdm v s
  | .brk v => Sys2Proof.Machine.execBrk v s
  | .cop v => Sys2Proof.Machine.execCop v s
  | .rti => Sys2Proof.Machine.execRti s
  | .mvn dd ss => Sys2Proof.Machine.execMvn dd ss s
  | .mvp dd ss => Sys2Proof.Machine.execMvp dd ss s
  | .tax => Sys2Proof.Machine.execTax s
  | .tay => Sys2Proof.Machine.execTay s
  | .txa => Sys2Proof.Machine.execTxa s
  | .tya => Sys2Proof.Machine.execTya s
  | .tsx => Sys2Proof.Machine.execTsx s
  | .txs => Sys2Proof.Machine.execTxs s
  | .tdc => Sys2Proof.Machine.execTdc s
  | .tcd => Sys2Proof.Machine.execTcd s
  | .tsc => Sys2Proof.Machine.execTsc s
  | .tcs => Sys2Proof.Machine.execTcs s
  | .xba => Sys2Proof.Machine.execXba s
  | .txy => Sys2Proof.Machine.execTxy s
  | .tyx => Sys2Proof.Machine.execTyx s
  | .inx => Sys2Proof.Machine.execInx s
  | .iny => Sys2Proof.Machine.execIny s
  | .dex => Sys2Proof.Machine.execDex s
  | .dey => Sys2Proof.Machine.execDey s
  | .pha => Sys2Proof.Machine.execPha s
  | .phx => Sys2Proof.Machine.execPhx s
  | .phy => Sys2Proof.Machine.execPhy s
  | .phb => Sys2Proof.Machine.execPhb s
  | .phd => Sys2Proof.Machine.execPhd s
  | .phk => Sys2Proof.Machine.execPhk s
  | .php => Sys2Proof.Machine.execPhp s
  | .pla => Sys2Proof.Machine.execPla s
  | .plx => Sys2Proof.Machine.execPlx s
  | .ply => Sys2Proof.Machine.execPly s
  | .plb => Sys2Proof.Machine.execPlb s
  | .pld => Sys2Proof.Machine.execPld s
  | .plp => Sys2Proof.Machine.execPlp s
  | .clc => Sys2Proof.Machine.execClc s
  | .cld => Sys2Proof.Machine.execCld s
  | .cli => Sys2Proof.Machine.execCli s
  | .clv => Sys2Proof.Machine.execClv s
  | .sec => Sys2Proof.Machine.execSec s
  | .sed => Sys2Proof.Machine.execSed s
  | .sei => Sys2Proof.Machine.execSei s
  | .nop => Sys2Proof.Machine.execNop s
  | .xce => Sys2Proof.Machine.execXce s
  | .wai => Sys2Proof.Machine.execWai s
  | .stp => Sys2Proof.Machine.execStp s

end Sys2Proof.Machine
end

