-- ==== Sys2Proof/Machine/Fetch.lean ====
section
/-! DEFINITION. Fetching an instruction through the mapper (40_engine_addressing.md R150 to R152), and
placing one where it is fetched. -/

namespace Sys2Proof.Machine

/-- `Read8` of the instruction stream, `k` bytes after the opcode: bank `PBR`, the offset wrapping within
the bank (40_engine_addressing.md R151). `PC` itself moves when the instruction is performed. -/
def fetchByte (k : Nat) (s : State) : Except Raise (Byte × State) :=
  read8 (mkAddr s.pbr (s.pc + BitVec.ofNat 16 k)) s

/-- `n` bytes of the instruction stream, from `k` bytes after the opcode on, in address order. -/
def fetchBytes : Nat → Nat → State → Except Raise (List Byte × State)
  | _, 0, s => .ok ([], s)
  | k, n + 1, s => do
    let (b, s) ← fetchByte k s
    let (bs, s) ← fetchBytes (k + 1) n s
    return (b :: bs, s)

/-- The fetch of one instruction's bytes: the opcode, then as many operand bytes as its row and the width
flags give (30_encoding.md R125); an opcode outside `IMPLEMENTED` is an error (40_engine_addressing.md
R152). -/
def fetchInstr (s : State) : Except Raise (List Byte × State) := do
  let (op, t) ← fetchByte 0 s
  if op ∈ s.params.unimplemented then .error (Fault.unimplementedOpcode op s.pbr s.pc t.remains)
  else
    let (bs, u) ← fetchBytes 1 (operandCount (s.flag .m) (s.flag .x) op) t
    return (op :: bs, u)

/-- Storing a byte where a fetch from an address reads it: in WRAM, in save RAM, or in the ROM image,
which grows to hold it; none where no store backs the address. -/
def placeByte (a : Addr) (v : Byte) (s : State) : Option State :=
  match route s.params (bankOf a).toNat (offsetOf a).toNat with
  | .ok (.wram i) => some { s with wram := Memory.write s.wram i v }
  | .ok (.sram i) =>
    if i < s.params.sramSize then some { s with sram := Memory.write s.sram i v } else none
  | .ok (.rom (some i)) =>
    some { s with params := { s.params with
      rom := Memory.write s.params.rom i v, romSize := max s.params.romSize (i + 1) } }
  | _ => none

/-- Bytes placed from an offset of the program bank on. -/
def placeBytes : Word → List Byte → State → Option State
  | _, [], s => some s
  | o, b :: bs, s => (placeByte (mkAddr s.pbr o) b s).bind (placeBytes (o + 1) bs)

/-- The state in which the next step fetches an instruction, whatever waited, stopped or was pending. -/
def State.readyToFetch (s : State) : State :=
  { s with run := .running, nmiPending := false, irqLine := false, inputs := []
           params := { s.params with unimplemented := [] } }

/-- Bytes placed at `PBR:PC`; where no store backs that place, at the start of WRAM, with `PBR:PC` moved
there. -/
def State.withCode (s : State) (bs : List Byte) : State :=
  match placeBytes s.pc bs s.readyToFetch with
  | some t => t
  | none =>
    let u := { s.readyToFetch with pbr := 0x7E, pc := 0 }
    (placeBytes 0 bs u).getD u

end Sys2Proof.Machine
end

