-- ==== Sys2Proof/Machine/Step.lean ====
section
/-! DEFINITION. One step of the engine (40_engine_addressing.md R150): the inputs of the boundary, then an
idle step, an interrupt, or one instruction. -/

namespace Sys2Proof.Machine

/-- The fetch and the execution of one instruction. -/
def stepInstr (s : State) : Host.Outcome State Fault Refusal :=
  match fetchInstr s with
  | .error e => .fault (e s.codeAddr)
  | .ok (bs, t) =>
    match decode (s.flag .m) (s.flag .x) bs with
    | .ok (i, _) => exec i t
    | .error e => .refused (.undecodable e)

/-- A step of a running machine: NMI, then an unmasked IRQ, then an instruction (60_exceptions.md R379 to
R383). -/
def stepRunning (s : State) : Host.Outcome State Fault Refusal :=
  if s.nmiPending then takeInterrupt .nmi s
  else if s.irqLine && !s.flag .i then takeInterrupt .irq s
  else stepInstr s

/-- An idle step (70_reset_and_hazards.md R441). -/
def stepIdle (s : State) : Host.Outcome State Fault Refusal := .next { s with cycles := 1 }

/-- A step after the boundary's inputs, by the run state (60_exceptions.md R398). -/
def stepRun (s : State) : Host.Outcome State Fault Refusal :=
  match s.run with
  | .faulted f => .fault f
  | .stopped => stepIdle s
  | .waiting =>
    if s.nmiPending || s.irqLine then stepRunning { s with run := .running } else stepIdle s
  | .running => stepRunning s

/-- One step. A faulted machine has none: no input leaves that state (60_exceptions.md R370). -/
def step (s : State) : Host.Outcome State Fault Refusal :=
  match s.run with
  | .faulted f => .fault f
  | .running | .waiting | .stopped =>
    match sampleInputs s with
    | .error e => .fault (e s.codeAddr)
    | .ok t => stepRun t

/-- The state with the instruction of a table word stored where `step` fetches its next instruction
(notes/assumptions/7.md). -/
def State.withFetchWord (s : State) (nbits w : Nat) : State := s.withCode (tableBytes nbits w)

end Sys2Proof.Machine
end

