-- ==== Sys2Proof/Safety.lean ====
section
/-! DEFINITION. The terms the statements are written in: the two invariants of 10_state.md R42, the form
of the stores, and what the spec says each instruction may write. -/

namespace Sys2Proof.Machine

/-- Invariant I1 (10_state.md R42): in emulation mode `M = X = 1` and `SH = 0x01`. -/
abbrev State.I1 (s : State) : Prop :=
  s.e = true → s.flag .m = true ∧ s.flag .x = true ∧ hiByte s.sp = 0x01

/-- Invariant I2 (10_state.md R42): where `P.X = 1`, `XH = YH = 0`. -/
abbrev State.I2 (s : State) : Prop :=
  s.flag .x = true → hiByte s.x = 0 ∧ hiByte s.y = 0

/-- Both invariants of 10_state.md R42. -/
abbrev State.ModeInv (s : State) : Prop := s.I1 ∧ s.I2

/-- WRAM, save RAM and ROM are in canonical form and within their sizes (10_state.md R45), and the windows
that translate addresses are well formed (notes/assumptions/12.md) and do not overlap within a mode
(20_memory.md R76). -/
abbrev State.StoresWf (s : State) : Prop :=
  Memory.wf Config.wramSize s.wram = true ∧ Memory.wf s.params.sramSize s.sram = true
    ∧ Memory.wf s.params.romSize s.params.rom = true ∧ s.params.geometryWf = true

/-- The cell or register block an address names, where it names one (20_memory.md R113). Two addresses
that are the same byte have the same cell (R79, R85, R87). -/
def cellAt (p : Params) (a : Addr) : Option Route :=
  match route p (bankOf a).toNat (offsetOf a).toNat with
  | .ok r => some r
  | .error _ => none

/-- Whether an address is none of the `n` bytes of a datum at `ea`, under any name. -/
def Outside (p : Params) (c : Wrap) (ea : Addr) (n : Nat) (a : Addr) : Prop :=
  ∀ k, k < n → cellAt p a ≠ cellAt p (byteAddr c ea k)

/-- Whether a read of an address answers a byte (20_memory.md R75 to R97). -/
def readable (p : Params) (a : Addr) : Bool :=
  match cellAt p a with
  | some (.wram _) => true
  | some (.sram i) => decide (i < p.sramSize)
  | some (.rom (some i)) => decide (i < p.romSize)
  | some (.rom none) => false
  | some (.facade _) => decide (offsetOf a ∉ p.facadeInvalid)
  | some .intReg =>
    match intRegAt (offsetOf a).toNat with
    | some (.r _) => true
    | some (.w _) | none => false
  | none => false

/-- Whether a write to an address is accepted (20_memory.md R75 to R97). -/
def writable (p : Params) (a : Addr) : Bool :=
  match cellAt p a with
  | some (.wram _) => true
  | some (.sram i) => decide (i < p.sramSize)
  | some (.rom _) => false
  | some (.facade _) => decide (offsetOf a ∉ p.facadeInvalid)
  | some .intReg =>
    match intRegAt (offsetOf a).toNat with
    | some (.w _) => true
    | some (.r _) | none => false
  | none => false

/-- Whether an address names a byte of WRAM or of save RAM. -/
def isRam (p : Params) (a : Addr) : Bool :=
  match cellAt p a with
  | some (.wram _) => true
  | some (.sram i) => decide (i < p.sramSize)
  | some (.rom _) | some (.facade _) | some .intReg | none => false

/-- The stack pointer after `n` bytes are pushed (44_stack.md R300, R303). -/
def stackDown (e : Bool) : Nat → Word → Word
  | 0, sp => sp
  | n + 1, sp => stackDown e n (stackWrap e (sp - 1))

/-- The stack pointer after `n` bytes are pulled (44_stack.md R301, R303). -/
def stackUp (e : Bool) : Nat → Word → Word
  | 0, sp => sp
  | n + 1, sp => stackUp e n (stackWrap e (sp + 1))

/-- The address of byte `k` of a push, counted in the order of the pushes (44_stack.md R300). -/
def State.pushSlot (s : State) (k : Nat) : Addr := mkAddr 0 (stackDown s.e k s.sp)

/-- The address of byte `k` of a pull, counted in the order of the pulls (44_stack.md R301). -/
def State.pullSlot (s : State) (k : Nat) : Addr := mkAddr 0 (stackUp s.e (k + 1) s.sp)

/-- Whether an address is none of the next `n` bytes pushed, under any name. -/
def OffStack (s : State) (n : Nat) (a : Addr) : Prop :=
  ∀ k, k < n → cellAt s.params a ≠ cellAt s.params (s.pushSlot k)

/-- The registers that hold data or a bank, for frames. -/
inductive Reg where
  | a | x | y | sp | d | pbr | dbr
  deriving DecidableEq, Repr

/-- The value of a register, a bank register zero-extended. -/
def State.reg (s : State) : Reg → Word
  | .a => s.a
  | .x => s.x
  | .y => s.y
  | .sp => s.sp
  | .d => s.d
  | .pbr => zextByte s.pbr
  | .dbr => zextByte s.dbr

/-- The flags in the descriptor of a mnemonic (the flags column of 30_encoding.md R126); `imm` says that
its operand is an immediate, where BIT writes only `Z`. -/
def Mnemonic.flagSet (imm : Bool) : Mnemonic → List Flag
  | .lda | .ldx | .ldy | .tax | .tay | .txa | .tya | .tsx | .tdc | .tcd | .tsc | .xba | .txy | .tyx
  | .inc | .dec | .inx | .iny | .dex | .dey | .and | .ora | .eor
  | .pla | .plx | .ply | .plb | .pld => [.n, .z]
  | .sta | .stx | .sty | .stz | .txs | .tcs => []
  | .adc | .sbc => [.n, .v, .z, .c]
  | .cmp | .cpx | .cpy | .asl | .lsr | .rol | .ror => [.n, .z, .c]
  | .bit => if imm then [.z] else [.n, .v, .z]
  | .tsb | .trb => [.z]
  | .bpl | .bmi | .bvc | .bvs | .bcc | .bcs | .bne | .beq | .bra | .brl => []
  | .jmp | .jml | .jsr | .jsl | .rts | .rtl => []
  | .pha | .phx | .phy | .phb | .phd | .phk | .php | .pea | .pei | .per => []
  | .clc | .sec => [.c]
  | .cld | .sed => [.d]
  | .cli | .sei => [.i]
  | .clv => [.v]
  | .plp | .rti | .rep | .sep => [.n, .v, .m, .x, .d, .i, .z, .c]
  | .brk | .cop => [.d, .i]
  | .xce => [.c, .m, .x]
  | .nop | .wdm | .wai | .stp | .mvn | .mvp => []

/-- Whether a format is the accumulator-sized immediate. -/
def Form.isImmM : Form → Bool
  | .immM _ => true
  | _ => false

/-- The flags in the descriptor of an instruction (30_encoding.md R126). -/
def Instr.flagSet (i : Instr) : List Flag := Mnemonic.flagSet (Form.isImmM i.form) i.mnemonic

/-- The registers an instruction's rule writes, besides `PC` and `P`; `onA` says that its operand is the
accumulator. `X` and `Y` are among them where the rule may set `P.X` (10_state.md R42, I2). -/
def Mnemonic.writes (onA : Bool) : Mnemonic → List Reg
  | .lda | .txa | .tya | .tdc | .tsc | .xba | .adc | .sbc | .and | .ora | .eor => [.a]
  | .ldx | .tax | .tsx | .tyx | .inx | .dex => [.x]
  | .ldy | .tay | .txy | .iny | .dey => [.y]
  | .tcd => [.d]
  | .txs | .tcs => [.sp]
  | .inc | .dec | .asl | .lsr | .rol | .ror => if onA then [.a] else []
  | .sta | .stx | .sty | .stz | .cmp | .cpx | .cpy | .bit | .tsb | .trb => []
  | .bpl | .bmi | .bvc | .bvs | .bcc | .bcs | .bne | .beq | .bra | .brl | .jmp => []
  | .jml => [.pbr]
  | .jsr | .rts => [.sp]
  | .jsl | .rtl => [.sp, .pbr]
  | .pha | .phx | .phy | .phb | .phd | .phk | .php | .pea | .pei | .per => [.sp]
  | .pla => [.a, .sp]
  | .plx => [.x, .sp]
  | .ply => [.y, .sp]
  | .plb => [.dbr, .sp]
  | .pld => [.d, .sp]
  | .plp => [.sp, .x, .y]
  | .clc | .cld | .cli | .clv | .sec | .sed | .sei | .rep | .nop | .wdm | .wai | .stp => []
  | .sep => [.x, .y]
  | .xce => [.x, .y, .sp]
  | .brk | .cop => [.sp, .pbr]
  | .rti => [.sp, .pbr, .x, .y]
  | .mvn | .mvp => [.a, .x, .y, .dbr]

/-- The registers an instruction's rule writes, besides `PC` and `P`. -/
def Instr.writes (i : Instr) : List Reg := Mnemonic.writes (i.form == .acc) i.mnemonic

/-- Whether an instruction stores to memory; `onA` says that its operand is the accumulator. -/
def Mnemonic.stores (onA : Bool) : Mnemonic → Bool
  | .sta | .stx | .sty | .stz | .tsb | .trb => true
  | .inc | .dec | .asl | .lsr | .rol | .ror => !onA
  | .jsr | .jsl | .brk | .cop | .mvn | .mvp => true
  | .pha | .phx | .phy | .phb | .phd | .phk | .php | .pea | .pei | .per => true
  | .lda | .ldx | .ldy | .tax | .tay | .txa | .tya | .tsx | .txs | .tdc | .tcd | .tsc | .tcs | .xba
  | .txy | .tyx | .adc | .sbc | .cmp | .cpx | .cpy | .inx | .iny | .dex | .dey
  | .and | .ora | .eor | .bit => false
  | .bpl | .bmi | .bvc | .bvs | .bcc | .bcs | .bne | .beq | .bra | .brl | .jmp | .jml | .rts | .rtl => false
  | .pla | .plx | .ply | .plb | .pld | .plp | .rti => false
  | .clc | .cld | .cli | .clv | .sec | .sed | .sei | .rep | .sep | .nop | .xce | .wdm | .wai | .stp => false

/-- Whether an instruction stores to memory. -/
def Instr.stores (i : Instr) : Bool := Mnemonic.stores (i.form == .acc) i.mnemonic

/-- Whether an instruction can leave `PC` elsewhere than after itself (40_engine_addressing.md R154). -/
def Mnemonic.transfers : Mnemonic → Bool
  | .bpl | .bmi | .bvc | .bvs | .bcc | .bcs | .bne | .beq | .bra | .brl => true
  | .jmp | .jml | .jsr | .jsl | .rts | .rtl | .brk | .cop | .rti | .mvn | .mvp => true
  | .lda | .ldx | .ldy | .sta | .stx | .sty | .stz | .tax | .tay | .txa | .tya | .tsx | .txs | .tdc
  | .tcd | .tsc | .tcs | .xba | .txy | .tyx | .adc | .sbc | .cmp | .cpx | .cpy
  | .inc | .inx | .iny | .dec | .dex | .dey | .and | .ora | .eor | .bit | .tsb | .trb
  | .asl | .lsr | .rol | .ror => false
  | .pha | .phx | .phy | .phb | .phd | .phk | .php | .pla | .plx | .ply | .plb | .pld | .plp
  | .pea | .pei | .per => false
  | .clc | .cld | .cli | .clv | .sec | .sed | .sei | .rep | .sep | .nop | .xce | .wdm | .wai | .stp => false

/-! ### The values the rules give, said by bytes and bits -/

/-- The register that `A_w <- v` leaves: at width 1 (`narrow`) the high byte is kept (00_scope.md R11). -/
def dual (narrow : Bool) (old v : Word) : Word :=
  if narrow then mkWord (loByte v) (hiByte old) else v

/-- `v & mask(w)` (00_scope.md R10). -/
def low (narrow : Bool) (v : Word) : Word := if narrow then mkWord (loByte v) 0 else v

/-- `msb(v, w)` (00_scope.md R10). -/
def sign (narrow : Bool) (v : Word) : Bool := if narrow then v.getLsbD 7 else v.getLsbD 15

/-- `setNZ(v, w)` was done last (00_scope.md R14). -/
def State.HasNZ (t : State) (narrow : Bool) (v : Word) : Prop :=
  t.flag .n = sign narrow v ∧ t.flag .z = decide (low narrow v = 0)

/-- `2 ^ (8 * w)`. -/
def modulus (narrow : Bool) : Nat := if narrow then 0x100 else 0x10000

/-- `v.nibble(i)` (42_arith_logic_shift.md R231). -/
def nibble (v i : Nat) : Nat := v / 16 ^ i % 16

/-- The number that `n` decimal digits stand for, low digit first. -/
def bcdValue : Nat → Nat → Nat
  | 0, _ => 0
  | n + 1, v => v % 16 + 10 * bcdValue n (v / 16)

/-- Every one of the `n` low nibbles is a decimal digit. -/
def isBcd (n v : Nat) : Prop := ∀ i, i < n → nibble v i ≤ 9

/-- The bytes a datum of a width stores, low byte first (20_memory.md R99). -/
def datumBytes (narrow : Bool) (v : Word) : List Byte :=
  if narrow then [loByte v] else [loByte v, hiByte v]

/-- The new value a read-modify-write gives, before it is cut to the width; `a` is the accumulator
(42_arith_logic_shift.md R238, R241, R248 to R253). -/
def rmwResult (narrow : Bool) (a old : Word) (carry : Bool) : Mnemonic → Word
  | .inc => old + 1
  | .dec => old - 1
  | .asl => old <<< 1
  | .lsr => low narrow old >>> 1
  | .rol => (old <<< 1) ||| (if carry then 1 else 0)
  | .ror => (low narrow old >>> 1) ||| (if carry then (if narrow then 0x0080 else 0x8000) else 0)
  | .tsb => old ||| a
  | .trb => old &&& ~~~a
  | _ => old

/-- The bit a shift or a rotate moves into `C` (42_arith_logic_shift.md R250 to R253). -/
def rmwCarry (narrow : Bool) (old : Word) : Mnemonic → Option Bool
  | .asl | .rol => some (sign narrow old)
  | .lsr | .ror => some (old.getLsbD 0)
  | _ => none

/-! ### The shapes of what an instruction does to memory and the stack -/

/-- After `i` at `s`, the bytes of a datum stand at an address `ea` that its operand resolves to, where
that is RAM, and every byte under another name is as before. Where the first byte of two is written and the
second raises an error, the step ends in that error and leaves what the first write left (40_engine_addressing.md
R155). -/
def State.StoresDatum (s : State) (i : Instr) (narrow : Bool) (v : Word) : Prop :=
  ∀ ea c b u, resolve i.form (s.begin i) = .ok (.mem ea c b, u) →
    (∀ t e, narrow = false → write8 (byteAddr c ea 0) (loByte v) u = .ok t →
      write8 (byteAddr c ea 1) (hiByte v) t = .error e →
      exec i s = .fault (e (mkAddr s.pbr s.pc)) ∧ (e (mkAddr s.pbr s.pc)).left = t.remains) ∧
    ((∀ k, k < (datumBytes narrow v).length → writable s.params (byteAddr c ea k) = true) →
    ∃ t, exec i s = .next t ∧
      (∀ k w, (datumBytes narrow v)[k]? = some w → isRam s.params (byteAddr c ea k) = true →
        peek t (byteAddr c ea k) = some w) ∧
      ∀ a, Outside s.params c ea (datumBytes narrow v).length a → peek t a = peek s a)

/-- `bs` were pushed between two states, the first of them first: each stands in its slot, where that
slot is RAM, the stack pointer is as many lower, and every byte under another name is as before
(44_stack.md R300, R302). -/
def State.Pushed (s : State) (bs : List Byte) (t : State) : Prop :=
  t.sp = stackDown s.e bs.length s.sp ∧
    (∀ k b, bs[k]? = some b → isRam s.params (s.pushSlot k) = true → peek t (s.pushSlot k) = some b) ∧
    ∀ a, OffStack s bs.length a → peek t a = peek s a

/-- The slots of the next `n` pushes accept a byte. -/
def State.CanPush (s : State) (n : Nat) : Prop :=
  ∀ k, k < n → writable s.params (s.pushSlot k) = true

/-- Two bytes of a word as they are pushed: high byte first (44_stack.md R302). -/
def pushOrder (v : Word) : List Byte := [hiByte v, loByte v]

/-- The frame of an interrupt in the order it is pushed: `PBR` in native mode, then the return address,
then the status byte (60_exceptions.md R385, R386). -/
def State.entryFrame (s : State) (ret : Word) (status : Byte) : List Byte :=
  if s.e then pushOrder ret ++ [status] else s.pbr :: (pushOrder ret ++ [status])

/-- An interrupt entry was made: the frame pushed, `I` set and `D` cleared, bank 0, the vector, and every
other register and flag as before (60_exceptions.md R385, R386). -/
def State.Entered (s : State) (vector ret : Word) (status : Byte) (t : State) : Prop :=
  s.Pushed (s.entryFrame ret status) t ∧
    t.pbr = 0 ∧ t.pc = vector ∧ t.run = .running ∧ t.e = s.e ∧
    t.flag .i = true ∧ t.flag .d = false ∧
    (∀ f, f ≠ .i → f ≠ .d → t.flag f = s.flag f) ∧
    t.a = s.a ∧ t.x = s.x ∧ t.y = s.y ∧ t.d = s.d ∧ t.dbr = s.dbr

/-! ### Cycles (70_reset_and_hazards.md R430 to R441) -/

/-- `m_penalty` where `P.M = 0`; `onA` says that the operand is the accumulator (R433). -/
def Mnemonic.mCycles (onA : Bool) : Mnemonic → Nat
  | .adc | .and | .bit | .cmp | .eor | .lda | .ora | .sbc | .sta | .stz | .pha | .pla => 1
  | .asl | .lsr | .rol | .ror | .inc | .dec | .tsb | .trb => if onA then 0 else 2
  | _ => 0

/-- `x_penalty` where `P.X = 0` (R434). -/
def Mnemonic.xCycles : Mnemonic → Nat
  | .cpx | .cpy | .ldx | .ldy | .stx | .sty | .phx | .phy | .plx | .ply => 1
  | _ => 0

/-- The instructions that read without writing, which alone pay the index penalty (R436). -/
def Mnemonic.reads : Mnemonic → Bool
  | .adc | .and | .bit | .cmp | .eor | .lda | .ldx | .ldy | .ora | .sbc => true
  | _ => false

/-- Whether a branch is taken (43_control_transfer.md R287). -/
def Mnemonic.taken (s : State) : Mnemonic → Bool
  | .bpl => !s.flag .n
  | .bmi => s.flag .n
  | .bvc => !s.flag .v
  | .bvs => s.flag .v
  | .bcc => !s.flag .c
  | .bcs => s.flag .c
  | .bne => !s.flag .z
  | .beq => s.flag .z
  | .bra => true
  | _ => false

/-- `branch_penalty` of an instruction that went from `next` to `target` (R435). -/
def branchCycles (s : State) (m : Mnemonic) (next target : Word) : Nat :=
  if Mnemonic.taken s m then
    (if s.e = true ∧ hiByte target ≠ hiByte next then 2 else 1)
  else 0

/-- The cycles of an instruction from `s` to `t`; `crossed` says that its index moved its address to
another page (R430). -/
def instrCycles (i : Instr) (s t : State) (crossed : Bool) : Nat :=
  baseCycles i.opcode + dpPenalty i.form s.d
    + (if s.flag .m then 0 else Mnemonic.mCycles (i.form == .acc) i.mnemonic)
    + (if s.flag .x then 0 else Mnemonic.xCycles i.mnemonic)
    + branchCycles s i.mnemonic (s.pc + BitVec.ofNat 16 i.form.length) t.pc
    + (if Mnemonic.reads i.mnemonic then indexPenalty i.form (s.flag .x) crossed else 0)
    + pcCrossPenalty s.e s.pc i.form.length
    + (if i.mnemonic = .adc ∧ s.flag .d = true then 1 else 0)
    + (if (i.mnemonic = .brk ∨ i.mnemonic = .cop ∨ i.mnemonic = .rti) ∧ s.e = false then 1 else 0)

/-! ### Where an instruction is fetched, and when one is -/

/-- The bytes of an instruction stand, in memory that reads have no effect on, where the next fetch
reads them. -/
def State.Holds (s : State) (i : Instr) : Prop :=
  ∀ k b, (encode i)[k]? = some b → peek s (mkAddr s.pbr (s.pc + BitVec.ofNat 16 k)) = some b

/-- Nothing comes from outside at the next boundary, and no interrupt is due: the next step runs an
instruction (40_engine_addressing.md R150). -/
def State.Quiet (s : State) : Prop :=
  s.run = .running ∧ s.inputs = [] ∧ s.nmiPending = false ∧ (s.irqLine = false ∨ s.flag .i = true)

end Sys2Proof.Machine
end

