-- ==== Sys2Proof/Certificates/Slice0/Obligations.lean ====
section
/-! DEFINITION. The statements for the provers. Each one's docstring names the rules of spec/ it formalises. -/

open Sys2Proof Sys2Proof.Machine

/-! ### Reset and the invariants -/

/-- 70_reset_and_hazards.md R412: the state after `PowerOn(); Reset()`, register by register, for any
parameters and any draws; parameters with a save RAM of another length are refused (00_scope.md R8), and so
are windows that overlap within a mapping mode (20_memory.md R76). That the latter are refused at power-on, and
what a well formed window is, is the model's choice (notes/assumptions/12.md). -/
def Obligations.PowerOnState : Prop :=
  ∀ (params : Params) (sramInit : List Byte) (w : PowerOnDraws) (irq : Bool),
    let apart := fun ws : List Window => ws.Pairwise fun u v =>
      ∀ bank offset, ¬(u.holds bank offset = true ∧ v.holds bank offset = true)
    let accepted := sramInit.length = params.sramSize ∧
      (∀ u ∈ params.hiRomMirrors ++ params.sramLoRom ++ params.sramHiRom, u.wf = true) ∧
      apart params.sramLoRom ∧ apart (params.hiRomMirrors ++ params.sramHiRom)
    (¬accepted → powerOn params sramInit w irq = .error .badParameters) ∧
    (accepted →
      ∃ s, powerOn params sramInit w irq = .ok s ∧ s.e = true ∧
        s.flag .m = true ∧ s.flag .x = true ∧ s.flag .d = false ∧ s.flag .i = true ∧
        (∀ f, f = .n ∨ f = .v ∨ f = .z ∨ f = .c → s.flag f = getFlag w.p f) ∧
        s.a = w.a ∧ s.x = mkWord (loByte w.x) 0 ∧ s.y = mkWord (loByte w.y) 0 ∧
        s.sp = mkWord (loByte w.sp) 0x01 ∧ s.d = 0 ∧ s.dbr = 0 ∧ s.pbr = 0 ∧
        s.pc = params.vecE.reset ∧ s.run = .running ∧ s.nmiPending = false ∧ s.cycles = 0 ∧
        s.wram = w.wram ∧ (∀ k, k < params.sramSize → Memory.read s.sram k = sramInit.getD k 0) ∧
        s.intRegs = w.intRegs ∧ s.ioLog = [] ∧ s.params = params)

/-- 70_reset_and_hazards.md R410, R413, R414: what `Reset()` writes and keeps; at a step boundary RESET
comes before NMI and IRQ, from any run state but `Faulted`, and the step then runs an instruction. That
it comes after the accesses from outside, and that an NMI edge of the same boundary is lost, is the model's
choice (notes/assumptions/8.md). -/
def Obligations.ResetSignal : Prop :=
  (∀ s : State,
    let t := s.resetSignal
    t.e = true ∧ t.flag .m = true ∧ t.flag .x = true ∧ t.flag .d = false ∧ t.flag .i = true ∧
    (∀ f, f = .n ∨ f = .v ∨ f = .z ∨ f = .c → t.flag f = s.flag f) ∧
    t.pbr = 0 ∧ t.dbr = 0 ∧ t.d = 0 ∧ t.sp = mkWord (loByte s.sp) 0x01 ∧
    t.x = mkWord (loByte s.x) 0 ∧ t.y = mkWord (loByte s.y) 0 ∧ t.a = s.a ∧
    t.nmiPending = false ∧ t.run = .running ∧ t.cycles = 0 ∧ t.pc = s.params.vecE.reset ∧
    t.wram = s.wram ∧ t.sram = s.sram ∧ t.intRegs = s.intRegs ∧ t.ioLog = s.ioLog ∧
    t.params = s.params) ∧
  ∀ (s t : State) (b : Boundary) (rest : List Boundary),
    (∀ f, s.run ≠ .faulted f) → s.inputs = b :: rest → b.reset = true →
    serveAll b.accesses { s with inputs := rest } = .ok t →
    step s = stepInstr { t with irqLine := b.irqLine }.resetSignal

/-- The model's reset state has both invariants of 10_state.md R42 and stores in canonical form, and it is
a power-on state of the session of Params.standard (notes/assumptions/3.md, 4.md: the draws are the
model's choice). -/
def Obligations.ResetMeetsInvariants : Prop :=
  State.reset.ModeInv ∧ State.reset.StoresWf ∧
    ∃ w, powerOn Params.standard (List.replicate 0x10000 0) w false = .ok State.reset

/-- 10_state.md R42: what `Normalize` does, and that I1 and I2 hold at every step boundary once they
hold at one. -/
def Obligations.StepKeepsModeInvariants : Prop :=
  (∀ s : State, s.normalize =
    { s with
      p := if s.e then s.p ||| 0x30 else s.p
      sp := if s.e then mkWord (loByte s.sp) 0x01 else s.sp
      x := if s.e || s.flag .x then mkWord (loByte s.x) 0 else s.x
      y := if s.e || s.flag .x then mkWord (loByte s.y) 0 else s.y }) ∧
  ∀ s t : State, s.ModeInv → step s = .next t → t.ModeInv

/-- 10_state.md R45: every step keeps WRAM, save RAM and ROM in canonical form and within their sizes,
whatever agents outside the core access; so does a step that ends in a fault, with the writes it made
before its error (40_engine_addressing.md R155). The canonical form is the model's (notes/assumptions/5.md,
12.md). -/
def Obligations.StepKeepsStores : Prop :=
  ∀ s : State, s.StoresWf →
    (∀ t, step s = .next t → t.StoresWf) ∧
    ((∀ g, s.run ≠ .faulted g) → ∀ f, step s = .fault f → (s.faultedWith f).StoresWf)

/-- 00_scope.md R8, 10_state.md R45: no step changes a parameter, ROM among them, and `IOLOG` is only
appended to; a step that ends in a fault leaves the events it had before its error (40_engine_addressing.md
R155). -/
def Obligations.StepKeepsParameters : Prop :=
  ∀ s : State,
    (∀ t, step s = .next t → t.params = s.params ∧ ∃ l, t.ioLog = s.ioLog ++ l) ∧
    ((∀ g, s.run ≠ .faulted g) → ∀ f, step s = .fault f → ∃ l, f.left.ioLog = s.ioLog ++ l)

/-- Two stores in canonical form that read alike at every index are the same data. The form is the
model's (notes/assumptions/5.md). -/
def Obligations.CanonicalStores : Prop :=
  ∀ (size : Nat) (m n : Memory), Memory.wf size m = true → Memory.wf size n = true →
    (∀ i, i < size → Memory.read m i = Memory.read n i) → m = n

/-! ### The mapper -/

/-- 20_memory.md R107, R100, R103: RAM accepts a byte, reads back the byte last written, twice alike, and
a write leaves every byte under another name alone. -/
def Obligations.WriteThenRead : Prop :=
  ∀ (s : State) (a : Addr) (v : Byte), s.StoresWf → isRam s.params a = true →
    ∃ t, write8 a v s = .ok t ∧ read8 a t = .ok (v, t) ∧
      ∀ b, cellAt s.params b ≠ cellAt s.params a → peek t b = peek s b

/-- 20_memory.md R79 and R81: low RAM of a system bank and the two RAM banks are the bytes of WRAM. -/
def Obligations.WramAccess : Prop :=
  ∀ (s : State) (bank offset : Nat) (v : Byte), bank ≤ 0xFF → offset ≤ 0xFFFF →
    ((bank ≤ 0x3F ∨ (0x80 ≤ bank ∧ bank ≤ 0xBF)) → offset ≤ 0x1FFF →
      accessRead bank offset s = .ok (Memory.read s.wram offset, s) ∧
      accessWrite bank offset v s = .ok { s with wram := Memory.write s.wram offset v }) ∧
    ((bank = 0x7E ∨ bank = 0x7F) →
      accessRead bank offset s = .ok (Memory.read s.wram ((bank - 0x7E) * 0x10000 + offset), s) ∧
      accessWrite bank offset v s =
        .ok { s with wram := Memory.write s.wram ((bank - 0x7E) * 0x10000 + offset) v })

/-- 20_memory.md R83, R85 to R87: the ROM index of every ROM address in LoROM and HiROM, the error past
the end of `ROM`, and the error of a write, which comes before any translation; for the geometry the spec
gives and for any other, whose windows do not overlap (R76). That `HIROM_MIRRORS` and `SRAM_WINDOW`
have the form of windows with a page stride is the model's choice (notes/assumptions/12.md); their default
values are those of R87, R89 and R90. -/
def Obligations.RomAccess : Prop :=
  ∀ (s : State) (bank offset idx : Nat) (v : Byte), bank ≤ 0xFF → offset ≤ 0xFFFF →
    let system := bank ≤ 0x3F ∨ (0x80 ≤ bank ∧ bank ≤ 0xBF)
    let ram := bank = 0x7E ∨ bank = 0x7F
    let answers :=
      accessRead bank offset s =
        (if idx < s.params.romSize then .ok (Memory.read s.params.rom idx, s)
         else .error (Fault.romRange (BitVec.ofNat 8 bank) (BitVec.ofNat 16 offset) idx s.remains)) ∧
      accessWrite bank offset v s =
        .error (Fault.romWrite (BitVec.ofNat 8 bank) (BitVec.ofNat 16 offset) s.remains)
    (s.params.hiRomMirrors = Window.hiRomDefault → s.params.sramLoRom = Window.sramLoRomDefault →
      s.params.sramHiRom = Window.sramHiRomDefault →
      let window := 0 < s.params.sramSize ∧ 0x70 ≤ bank % 0x80 ∧ bank % 0x80 ≤ 0x7D
      ((s.params.mapMode = .loRom ∧ (if system then 0x8000 ≤ offset else ¬ram ∧ ¬window) ∧
          idx = bank % 0x80 * 0x8000 + offset % 0x8000) ∨
        (s.params.mapMode = .hiRom ∧ (if system then 0x8000 ≤ offset else ¬ram) ∧
          idx = (if 0xC0 ≤ bank then (bank - 0xC0) * 0x10000 + offset
                 else if bank ≤ 0x3F then bank * 0x8000 + offset % 0x8000
                 else (bank - 0x40) % 0x80 * 0x8000 + offset % 0x8000))) →
      answers) ∧
    let inRom := if system then 0x8000 ≤ offset
      else ¬ram ∧ (s.params.sramSize = 0 ∨ ∀ w ∈ s.params.sramWindows, w.holds bank offset = false)
    (inRom → s.params.mapMode ≠ .exHiRom →
      accessWrite bank offset v s =
        .error (Fault.romWrite (BitVec.ofNat 8 bank) (BitVec.ofNat 16 offset) s.remains)) ∧
    (inRom →
      ((s.params.mapMode = .loRom ∧ idx = bank % 0x80 * 0x8000 + offset % 0x8000) ∨
        (s.params.mapMode = .hiRom ∧ 0xC0 ≤ bank ∧ idx = (bank - 0xC0) * 0x10000 + offset) ∨
        (s.params.mapMode = .hiRom ∧ bank < 0xC0 ∧ s.params.geometryWf = true ∧
          ∃ w ∈ s.params.hiRomMirrors, w.holds bank offset = true ∧
            idx = (bank - w.bankOrigin) % 0x80 * w.page + (offset - w.offsetOrigin) % w.page)) →
      answers)

/-- 20_memory.md R89 to R91: the save-RAM window of each mode, its index, and the error past its end; for
the geometry the spec gives and for any other, whose windows do not overlap (R76). That `SRAM_WINDOW` has the
form of windows with a page stride is the model's choice (notes/assumptions/12.md); its default values are those of R89 and R90. -/
def Obligations.SaveRamAccess : Prop :=
  ∀ (s : State) (bank offset idx : Nat) (v : Byte), bank ≤ 0xFF → offset ≤ 0xFFFF →
    0 < s.params.sramSize →
    let system := bank ≤ 0x3F ∨ (0x80 ≤ bank ∧ bank ≤ 0xBF)
    let ram := bank = 0x7E ∨ bank = 0x7F
    let answers :=
      accessRead bank offset s =
        (if idx < s.params.sramSize then .ok (Memory.read s.sram idx, s)
         else .error (Fault.sramRange (BitVec.ofNat 8 bank) (BitVec.ofNat 16 offset) idx s.remains)) ∧
      accessWrite bank offset v s =
        (if idx < s.params.sramSize then .ok { s with sram := Memory.write s.sram idx v }
         else .error (Fault.sramRange (BitVec.ofNat 8 bank) (BitVec.ofNat 16 offset) idx s.remains))
    (s.params.sramLoRom = Window.sramLoRomDefault → s.params.sramHiRom = Window.sramHiRomDefault →
      ((s.params.mapMode = .loRom ∧ 0x70 ≤ bank % 0x80 ∧ bank % 0x80 ≤ 0x7D ∧
          idx = (bank % 0x80 - 0x70) * 0x8000 + offset % 0x8000) ∨
        (s.params.mapMode = .hiRom ∧ 0x30 ≤ bank % 0x80 ∧ bank % 0x80 ≤ 0x3F ∧
          0x6000 ≤ offset ∧ offset ≤ 0x7FFF ∧
          idx = (bank % 0x80 - 0x30) * 0x2000 + (offset - 0x6000))) →
      answers) ∧
    (s.params.geometryWf = true → ∀ w ∈ s.params.sramWindows, w.holds bank offset = true →
      (if system then 0x6000 ≤ offset ∧ offset ≤ 0x7FFF else ¬ram) →
      idx = (bank - w.bankOrigin) % 0x80 * w.page + (offset - w.offsetOrigin) % w.page → answers)

/-- 20_memory.md R80 and R88: the offsets no region claims, and the accesses ExHiROM does not support; for
the geometry the spec gives and for any other. That `HIROM_MIRRORS` and `SRAM_WINDOW` have the form of
windows, and that a read of a HiROM ROM address in no mirror is one of an address no region claims, is the
model's choice (notes/assumptions/12.md); a write there is that of ROM (R83, Obligations.RomAccess). -/
def Obligations.UnroutedAccess : Prop :=
  ∀ (s : State) (bank offset : Nat) (v : Byte), bank ≤ 0xFF → offset ≤ 0xFFFF →
    let system := bank ≤ 0x3F ∨ (0x80 ≤ bank ∧ bank ≤ 0xBF)
    let ram := bank = 0x7E ∨ bank = 0x7F
    let unmapped :=
      accessRead bank offset s =
        .error (Fault.unmappedRegion (BitVec.ofNat 8 bank) (BitVec.ofNat 16 offset) s.remains) ∧
      accessWrite bank offset v s =
        .error (Fault.unmappedRegion (BitVec.ofNat 8 bank) (BitVec.ofNat 16 offset) s.remains)
    let noSaveRam := s.params.sramSize = 0 ∨ ∀ w ∈ s.params.sramWindows, w.holds bank offset = false
    (system ∧
        ((0x2000 ≤ offset ∧ offset ≤ 0x20FF) ∨ (0x2184 ≤ offset ∧ offset ≤ 0x3FFF) ∨
          (0x4400 ≤ offset ∧ offset ≤ 0x5FFF) ∨
          (0x6000 ≤ offset ∧ offset ≤ 0x7FFF ∧ s.params.mapMode ≠ .exHiRom ∧ noSaveRam)) →
      unmapped) ∧
    (s.params.sramLoRom = Window.sramLoRomDefault → s.params.sramHiRom = Window.sramHiRomDefault →
      system → 0x6000 ≤ offset → offset ≤ 0x7FFF →
      (s.params.mapMode = .loRom ∨
        (s.params.mapMode = .hiRom ∧ (s.params.sramSize = 0 ∨ bank % 0x80 < 0x30))) →
      unmapped) ∧
    (s.params.mapMode = .hiRom → bank < 0xC0 →
      (if system then 0x8000 ≤ offset else ¬ram ∧ noSaveRam) →
      (∀ w ∈ s.params.hiRomMirrors, w.holds bank offset = false) →
      accessRead bank offset s =
        .error (Fault.unmappedRegion (BitVec.ofNat 8 bank) (BitVec.ofNat 16 offset) s.remains)) ∧
    (s.params.mapMode = .exHiRom → (if system then 0x6000 ≤ offset else ¬ram) →
      accessRead bank offset s =
        .error (Fault.unsupportedMapping (BitVec.ofNat 8 bank) (BitVec.ofNat 16 offset) s.remains) ∧
      accessWrite bank offset v s =
        .error (Fault.unsupportedMapping (BitVec.ofNat 8 bank) (BitVec.ofNat 16 offset) s.remains))

/-- 20_memory.md R94: the internal CPU registers of a system bank, by their place in the table of R93.
The byte a read answers is a free value (notes/assumptions/2.md). -/
def Obligations.InternalRegisterAccess : Prop :=
  ∀ (s : State) (bank k : Nat) (v : Byte), (bank ≤ 0x3F ∨ (0x80 ≤ bank ∧ bank ≤ 0xBF)) →
    (∀ r, wRegTable[k]? = some r →
      accessWrite bank (0x4200 + k) v s =
        .ok { s with intRegs := s.intRegs.set r v, ioLog := s.ioLog ++ [.intRegWrite r v] } ∧
      accessRead bank (0x4200 + k) s = .error (Fault.illegalRegisterAccess (.w r) .read s.remains)) ∧
    (∀ r, rRegTable[k]? = some r →
      accessRead bank (0x4210 + k) s =
        .ok (Config.intRegIn s.draws,
          { s with draws := s.draws + 1
                   ioLog := s.ioLog ++ [.intRegRead r (Config.intRegIn s.draws)] }) ∧
      accessWrite bank (0x4210 + k) v s = .error (Fault.illegalRegisterAccess (.r r) .write s.remains)) ∧
    (∀ offset, (0x420E ≤ offset ∧ offset ≤ 0x420F) ∨ (0x4220 ≤ offset ∧ offset ≤ 0x42FF) →
      accessRead bank offset s = .error (Fault.invalidPeripheralRegister .intReg
        (BitVec.ofNat 8 bank) (BitVec.ofNat 16 offset) s.remains) ∧
      accessWrite bank offset v s = .error (Fault.invalidPeripheralRegister .intReg
        (BitVec.ofNat 8 bank) (BitVec.ofNat 16 offset) s.remains)) ∧
    ∀ (c : IntRegs) (q r : WReg), (c.set q v).get r = if r = q then v else c.get r

/-- 20_memory.md R96 and R97: the five façade windows of a system bank. The byte a read answers is a free
value (notes/assumptions/2.md). -/
def Obligations.FacadeAccess : Prop :=
  ∀ (s : State) (bank offset : Nat) (dev : Device) (v : Byte),
    (bank ≤ 0x3F ∨ (0x80 ≤ bank ∧ bank ≤ 0xBF)) →
    ((dev = .ppu ∧ 0x2100 ≤ offset ∧ offset ≤ 0x213F) ∨
      (dev = .apu ∧ 0x2140 ≤ offset ∧ offset ≤ 0x217F) ∨
      (dev = .wramPort ∧ 0x2180 ≤ offset ∧ offset ≤ 0x2183) ∨
      (dev = .ctrl ∧ 0x4000 ≤ offset ∧ offset ≤ 0x41FF) ∨
      (dev = .dma ∧ 0x4300 ≤ offset ∧ offset ≤ 0x43FF)) →
    (BitVec.ofNat 16 offset ∈ s.params.facadeInvalid →
      accessRead bank offset s = .error (Fault.invalidPeripheralRegister dev
        (BitVec.ofNat 8 bank) (BitVec.ofNat 16 offset) s.remains) ∧
      accessWrite bank offset v s = .error (Fault.invalidPeripheralRegister dev
        (BitVec.ofNat 8 bank) (BitVec.ofNat 16 offset) s.remains)) ∧
    (BitVec.ofNat 16 offset ∉ s.params.facadeInvalid →
      accessRead bank offset s =
        .ok (Config.facadeRead s.draws,
          { s with draws := s.draws + 1
                   ioLog := s.ioLog ++
                     [.facadeRead dev (BitVec.ofNat 16 offset) (Config.facadeRead s.draws)] }) ∧
      accessWrite bank offset v s =
        .ok { s with ioLog := s.ioLog ++ [.facadeWrite dev (BitVec.ofNat 16 offset) v] })

/-- 20_memory.md R74: the range check comes first, the bank before the offset; and no access the CPU makes
at a 24-bit address can fail it (40_engine_addressing.md R178). -/
def Obligations.AccessRange : Prop :=
  (∀ (s : State) (bank offset : Nat) (v : Byte),
    (0xFF < bank →
      accessRead bank offset s = .error (Fault.addressRange .bank bank offset s.remains) ∧
      accessWrite bank offset v s = .error (Fault.addressRange .bank bank offset s.remains)) ∧
    (bank ≤ 0xFF → 0xFFFF < offset →
      accessRead bank offset s = .error (Fault.addressRange .offset bank offset s.remains) ∧
      accessWrite bank offset v s = .error (Fault.addressRange .offset bank offset s.remains))) ∧
  ∀ (s : State) (a : Addr) (v : Byte) (e : Raise) (place : Addr) (w : RangePart) (b o : Nat)
    (r : Remains) (l : Addr),
    (read8 a s = .error e ∨ write8 a v s = .error e) → e place ≠ .addressRange w b o r l

/-- 44_stack.md R300 to R302 and vector S9 of 95_test_vectors.md: a push puts the byte at `S`, a word has
its low byte at the lower address, and a pull after the push gives the value and `S` back, in both modes. -/
def Obligations.StackIdentity : Prop :=
  ∀ s : State, s.StoresWf → s.I1 →
    (∀ v : Byte, isRam s.params (mkAddr 0 s.sp) = true →
      ∃ t, push8 v s = .ok t ∧ peek t (mkAddr 0 s.sp) = some v ∧ t.sp = stackDown s.e 1 s.sp ∧
        pull8 t = .ok (v, { t with sp := s.sp })) ∧
    ∀ v : Word, isRam s.params (s.pushSlot 0) = true → isRam s.params (s.pushSlot 1) = true →
      ∃ t, push16 v s = .ok t ∧ peek t (s.pushSlot 0) = some (hiByte v) ∧
        peek t (s.pushSlot 1) = some (loByte v) ∧ t.sp = stackDown s.e 2 s.sp ∧
        pull16 t = .ok (v, { t with sp := s.sp })

/-! ### Addressing -/

/-- 40_engine_addressing.md R161 to R164, R167 to R169: the operands that need no pointer. -/
def Obligations.DirectAddresses : Prop :=
  ∀ (s : State) (d : Byte) (a : Word) (l : Addr),
    let bank0 := fun n : Nat => mkAddr 0 (BitVec.ofNat 16 n)
    let long := fun n : Nat => BitVec.ofNat 24 n
    let other := fun i : Word => decide (a.toNat / 0x100 ≠ (a.toNat + i.toNat) % 0x10000 / 0x100)
    resolve (.imm8 d) s = .ok (.imm (mkWord d 0), s) ∧ resolve (.imm16 a) s = .ok (.imm a, s) ∧
    resolve (.immM (.byte d)) s = .ok (.imm (mkWord d 0), s) ∧
    resolve (.immM (.word a)) s = .ok (.imm a, s) ∧
    resolve (.immX (.byte d)) s = .ok (.imm (mkWord d 0), s) ∧
    resolve (.immX (.word a)) s = .ok (.imm a, s) ∧
    resolve .acc s = .ok (.acc, s) ∧
    resolve (.dp d) s = .ok (.mem (bank0 (s.d.toNat + d.toNat)) .bank false, s) ∧
    resolve (.dpX d) s = .ok (.mem (bank0 (s.d.toNat + d.toNat + s.x.toNat)) .bank false, s) ∧
    resolve (.dpY d) s = .ok (.mem (bank0 (s.d.toNat + d.toNat + s.y.toNat)) .bank false, s) ∧
    resolve (.sr d) s = .ok (.mem (bank0 (s.sp.toNat + d.toNat)) .bank false, s) ∧
    resolve (.abs a) s = .ok (.mem (mkAddr s.dbr a) .l24 false, s) ∧
    resolve (.absX a) s =
      .ok (.mem (long (s.dbr.toNat * 0x10000 + a.toNat + s.x.toNat)) .l24 (other s.x), s) ∧
    resolve (.absY a) s =
      .ok (.mem (long (s.dbr.toNat * 0x10000 + a.toNat + s.y.toNat)) .l24 (other s.y), s) ∧
    resolve (.long l) s = .ok (.mem l .l24 false, s) ∧
    resolve (.longX l) s = .ok (.mem (long (l.toNat + s.x.toNat)) .l24 false, s)

/-- 40_engine_addressing.md R160, R165, R166, R169 and 20_memory.md R99: a pointer is read low byte first
within bank 0, two bytes with `DBR` above them or three bytes, and `Y` is added to the whole address. -/
def Obligations.IndirectAddresses : Prop :=
  ∀ (s : State) (d l h b : Byte) (base : Word),
    let at0 := fun n : Nat => peek s (mkAddr 0 (BitVec.ofNat 16 (base.toNat + n)))
    let ptr := mkAddr s.dbr (mkWord l h)
    let plusY := fun p : Addr => BitVec.ofNat 24 (p.toNat + s.y.toNat)
    let other := decide
      ((mkWord l h).toNat / 0x100 ≠ ((mkWord l h).toNat + s.y.toNat) % 0x10000 / 0x100)
    at0 0 = some l → at0 1 = some h →
    (base = BitVec.ofNat 16 (s.d.toNat + d.toNat) →
      resolve (.dpInd d) s = .ok (.mem ptr .l24 false, s) ∧
      resolve (.dpIndY d) s = .ok (.mem (plusY ptr) .l24 other, s) ∧
      (at0 2 = some b →
        resolve (.dpIndLong d) s = .ok (.mem (mkAddr b (mkWord l h)) .l24 false, s) ∧
        resolve (.dpIndLongY d) s =
          .ok (.mem (plusY (mkAddr b (mkWord l h))) .l24 false, s))) ∧
    (base = BitVec.ofNat 16 (s.d.toNat + d.toNat + s.x.toNat) →
      resolve (.dpIndX d) s = .ok (.mem ptr .l24 false, s)) ∧
    (base = BitVec.ofNat 16 (s.sp.toNat + d.toNat) →
      resolve (.srIndY d) s = .ok (.mem (plusY ptr) .l24 false, s))

/-- 00_scope.md R12, 20_memory.md R99 and R101: data wider than a byte is little-endian at any address,
wrapping in 24 bits or within its bank. -/
def Obligations.DataBytes : Prop :=
  ∀ (s : State) (ea : Addr) (l h : Byte),
    (∀ k, byteAddr .l24 ea k = BitVec.ofNat 24 (ea.toNat + k) ∧
      byteAddr .bank ea k =
        mkAddr (BitVec.ofNat 8 (ea.toNat / 0x10000)) (BitVec.ofNat 16 (ea.toNat % 0x10000 + k))) ∧
    ∀ c : Wrap, peek s (byteAddr c ea 0) = some l →
      readData .w8 c ea s = .ok (mkWord l 0, s) ∧
      (peek s (byteAddr c ea 1) = some h → readData .w16 c ea s = .ok (mkWord l h, s) ∧
        (mkWord l h).toNat = l.toNat + 0x100 * h.toNat)

/-! ### Encoding -/

/-- 30_encoding.md R120 to R126: decoding what was encoded gives the instruction back, and the bytes after
it, for every well-formed instruction and every operand. -/
def Obligations.DecodeEncode : Prop :=
  ∀ (m x : Bool) (i : Instr) (rest : List Byte), i.wellFormed m x = true →
    decode m x (encode i ++ rest) = .ok (i, rest)

/-- 30_encoding.md R125 and R126: every one of the 256 opcode bytes is an instruction; with the operand
bytes its row asks for it decodes, to a well-formed instruction that encodes to those bytes. -/
def Obligations.EncodeDecode : Prop :=
  ∀ (m x : Bool) (opcode : Byte) (rest : List Byte), operandCount m x opcode ≤ rest.length →
    ∃ i tail, decode m x (opcode :: rest) = .ok (i, tail) ∧ i.opcode = opcode ∧
      i.wellFormed m x = true ∧ encode i ++ tail = opcode :: rest ∧
      (encode i).length = 1 + operandCount m x opcode

/-- A sanity check against 30_encoding.md R122 to R126: one word of each family, written out from the
spec's tables. -/
def Obligations.SampleWords : Prop :=
  decode true true [0xA9, 0x42] = .ok (.ldaImm (.byte 0x42), []) ∧
  decode false true [0xA9, 0x42, 0x00] = .ok (.ldaImm (.word 0x0042), []) ∧
  decode true true [0x8D, 0x00, 0x20] = .ok (.staAbs 0x2000, []) ∧
  decode true true [0xAA] = .ok (.tax, []) ∧
  decode true true [0x7F, 0x56, 0x34, 0x12] = .ok (.adcLongX 0x123456, []) ∧
  decode true true [0x06, 0x10] = .ok (.aslDp 0x10, []) ∧
  decode true true [0xD0, 0xFE] = .ok (.bne 0xFE, []) ∧
  decode true true [0xFC, 0x34, 0x12] = .ok (.jsrAbsIndX 0x1234, []) ∧
  decode true true [0x62, 0xFD, 0xFF] = .ok (.per 0xFFFD, []) ∧
  decode true true [0x54, 0x7F, 0x7E] = .ok (.mvn 0x7F 0x7E, []) ∧
  decode true false [0xE0, 0x34, 0x12, 0xEA] = .ok (.cpxImm (.word 0x1234), [0xEA])

/-! ### The step -/

/-- 40_engine_addressing.md R150, R151: where no interrupt is due and the bytes at `PBR:PC` are those of a
well-formed instruction, a step is that instruction's execution. `PC` is moved past it by `exec`. -/
def Obligations.StepRunsInstruction : Prop :=
  ∀ (s : State) (i : Instr), s.Quiet → s.Holds i →
    i.wellFormed (s.flag .m) (s.flag .x) = true → i.opcode ∉ s.params.unimplemented →
    step s = exec i s

/-- 40_engine_addressing.md R152: an opcode outside `IMPLEMENTED` is the fault that names it and its
address. -/
def Obligations.UnimplementedOpcode : Prop :=
  ∀ (s : State) (opcode : Byte), s.Quiet → peek s (mkAddr s.pbr s.pc) = some opcode →
    opcode ∈ s.params.unimplemented →
    step s = .fault (.unimplementedOpcode opcode s.pbr s.pc s.remains (mkAddr s.pbr s.pc))

/-- 60_exceptions.md R381, R384 to R387, 70_reset_and_hazards.md R440: a pending NMI is taken at the
boundary, whatever `P.I` is, and its latch is cleared. -/
def Obligations.NmiEntry : Prop :=
  ∀ s : State, s.ModeInv → s.StoresWf → s.run = .running ∨ s.run = .waiting → s.inputs = [] →
    s.nmiPending = true → s.CanPush (if s.e then 3 else 4) →
    ∃ t, step s = .next t ∧
      s.Entered (if s.e then s.params.vecE.nmi else s.params.vecN.nmi) s.pc
        (if s.e then s.p &&& 0xEF else s.p) t ∧
      t.nmiPending = false ∧ t.irqLine = s.irqLine ∧ t.cycles = (if s.e then 7 else 8)

/-- 60_exceptions.md R380, R382, R384 to R387: an asserted IRQ is taken where `P.I = 0` and no NMI is
pending, and its line is not acknowledged; where `P.I = 1` the step runs an instruction. -/
def Obligations.IrqEntry : Prop :=
  ∀ s : State, s.inputs = [] → s.nmiPending = false → s.irqLine = true →
    (s.ModeInv → s.StoresWf → s.run = .running ∨ s.run = .waiting → s.flag .i = false →
      s.CanPush (if s.e then 3 else 4) →
      ∃ t, step s = .next t ∧
        s.Entered (if s.e then s.params.vecE.irqBrk else s.params.vecN.irq) s.pc
          (if s.e then s.p &&& 0xEF else s.p) t ∧
        t.nmiPending = false ∧ t.irqLine = true ∧ t.cycles = (if s.e then 7 else 8)) ∧
    (s.run = .running → s.flag .i = true → step s = stepInstr s)

/-- 45_flags_mode_system.md R345, R346, 60_exceptions.md R370, R378, R397, R398, 20_memory.md R108: at a
boundary the accesses from outside are made in their order through `Access`, an error among them ends the
step, and then the lines are latched; `Waiting` and `Stopped` idle for one cycle, NMI and IRQ end `Waiting`
only, and no step leaves `Faulted`. That accesses come before the lines, that their error ends the step in
any run state, and that nothing happens past the end of `inputs`, where IRQ keeps its level, is the model's
choice (notes/assumptions/8.md, 11.md); that such an error has the address `PBR:PC` is the model's choice too
(notes/assumptions/6.md). -/
def Obligations.RunStates : Prop :=
  ∀ s : State,
    (∀ f, s.run = .faulted f → step s = .fault f) ∧
    (∀ b rest, (∀ f, s.run ≠ .faulted f) → s.inputs = b :: rest →
      (∀ e, serveAll b.accesses { s with inputs := rest } = .error e →
        step s = .fault (e (mkAddr s.pbr s.pc))) ∧
      ∀ t, serveAll b.accesses { s with inputs := rest } = .ok t → b.reset = false →
        step s = stepRun { t with irqLine := b.irqLine, nmiPending := t.nmiPending || b.nmiEdge }) ∧
    (serveAll [] s = .ok s ∧
      (∀ bank offset more v t, accessRead bank offset s = .ok (v, t) →
        serveAll (.read bank offset :: more) s = serveAll more t) ∧
      (∀ bank offset more e, accessRead bank offset s = .error e →
        serveAll (.read bank offset :: more) s = .error e) ∧
      (∀ bank offset v more t, accessWrite bank offset v s = .ok t →
        serveAll (.write bank offset v :: more) s = serveAll more t) ∧
      ∀ bank offset v more e, accessWrite bank offset v s = .error e →
        serveAll (.write bank offset v :: more) s = .error e) ∧
    (s.inputs = [] →
      (s.run = .stopped → step s = .next { s with cycles := 1 }) ∧
      (s.run = .waiting → s.nmiPending = false → s.irqLine = false →
        step s = .next { s with cycles := 1 }) ∧
      (s.run = .waiting → s.nmiPending = false → s.irqLine = true → s.flag .i = true →
        step s = stepInstr { s with run := .running }) ∧
      (s.run = .running → s.nmiPending = false → s.irqLine = false → step s = stepInstr s))

/-! ### Frames -/

/-- 40_engine_addressing.md R153, 30_encoding.md R130: an instruction writes only the flags of its
descriptor. -/
def Obligations.FlagFrame : Prop :=
  ∀ (i : Instr) (s t : State), s.ModeInv → exec i s = .next t →
    ∀ f, f ∉ Instr.flagSet i → t.flag f = s.flag f

/-- 10_state.md R31, R34 to R37: which registers each instruction writes besides `PC` and `P`; while
`P.M = 1`, the high byte of `A` survives every instruction but XBA, TDC, TSC and the block moves. That the
block moves are among them is the model's choice: it follows 45_flags_mode_system.md R347, which counts down
all 16 bits of `A`, where R31 names XBA, TDC and TSC only (notes/assumptions/13.md). -/
def Obligations.RegisterFrame : Prop :=
  ∀ (i : Instr) (s t : State), s.ModeInv → exec i s = .next t →
    (∀ r, r ∉ Instr.writes i → t.reg r = s.reg r) ∧
    (s.flag .m = true → i.mnemonic ∉ [.xba, .tdc, .tsc, .mvn, .mvp] → hiByte t.a = hiByte s.a)

/-- 10_state.md R40, 60_exceptions.md R391, R380: XCE alone changes `E`; only WAI, STP and the software
interrupts write the run state; no instruction touches the interrupt inputs or the parameters, and `IOLOG`
only grows. -/
def Obligations.ControlFrame : Prop :=
  ∀ (i : Instr) (s t : State), exec i s = .next t →
    (i.mnemonic ≠ .xce → t.e = s.e) ∧
    (i.mnemonic ∉ [.wai, .stp, .brk, .cop] → t.run = s.run) ∧
    t.nmiPending = s.nmiPending ∧ t.irqLine = s.irqLine ∧ t.inputs = s.inputs ∧ t.params = s.params ∧
    ∃ l, t.ioLog = s.ioLog ++ l

/-- 20_memory.md R103, 41_load_store_transfer.md R200: an instruction whose form stores nothing leaves
every byte of memory and every internal register cell as it was. -/
def Obligations.MemoryFrame : Prop :=
  ∀ (i : Instr) (s t : State), exec i s = .next t → Instr.stores i = false →
    (∀ a, peek t a = peek s a) ∧ t.intRegs = s.intRegs

/-- 40_engine_addressing.md R154: after an instruction that is no transfer, `PC` is `PC_next`, within the
same bank. -/
def Obligations.SequentialPc : Prop :=
  ∀ (i : Instr) (s t : State), exec i s = .next t → Mnemonic.transfers i.mnemonic = false →
    t.pc = s.pc + BitVec.ofNat 16 (encode i).length ∧ t.pbr = s.pbr

/-- 70_reset_and_hazards.md R430 to R439, R441: the cycles of every instruction that completes. -/
def Obligations.StepCycles : Prop :=
  ∀ (i : Instr) (s t : State), exec i s = .next t →
    ∃ o u, resolve i.form (s.begin i) = .ok (o, u) ∧ t.cycles = instrCycles i s t o.crossed

/-! ### Loads, stores and transfers -/

/-- 41_load_store_transfer.md R201: LDA, every format, completes whenever its operand can be read. -/
def Obligations.LoadAccumulator : Prop :=
  ∀ (i : Instr) (s : State) (o : Operand) (u r : State) (v : Word), i.mnemonic = .lda →
    resolve i.form (s.begin i) = .ok (o, u) → load o s.wM u = .ok (v, r) →
    ∃ t, exec i s = .next t ∧ t.a = dual (s.flag .m) s.a v ∧ t.HasNZ (s.flag .m) v

/-- 41_load_store_transfer.md R202, R203: LDX and LDY, every format. -/
def Obligations.LoadIndex : Prop :=
  ∀ (i : Instr) (s : State) (o : Operand) (u r : State) (v : Word), s.ModeInv →
    resolve i.form (s.begin i) = .ok (o, u) → load o s.wX u = .ok (v, r) →
    (i.mnemonic = .ldx →
      ∃ t, exec i s = .next t ∧ t.x = low (s.flag .x) v ∧ t.HasNZ (s.flag .x) v) ∧
    (i.mnemonic = .ldy →
      ∃ t, exec i s = .next t ∧ t.y = low (s.flag .x) v ∧ t.HasNZ (s.flag .x) v)

/-- 41_load_store_transfer.md R204 to R207: STA, STX, STY and STZ, every format, with the bytes stored and
every other byte of memory unchanged; and where the second byte raises an error, the first stays written
(40_engine_addressing.md R155). -/
def Obligations.StoreRegister : Prop :=
  ∀ (i : Instr) (s : State), s.StoresWf →
    (i.mnemonic = .sta → s.StoresDatum i (s.flag .m) s.a) ∧
    (i.mnemonic = .stx → s.StoresDatum i (s.flag .x) s.x) ∧
    (i.mnemonic = .sty → s.StoresDatum i (s.flag .x) s.y) ∧
    (i.mnemonic = .stz → s.StoresDatum i (s.flag .m) 0)

/-- 41_load_store_transfer.md R208 to R220: the register transfers. -/
def Obligations.TransferRegister : Prop :=
  ∀ s : State, s.ModeInv →
    let m := s.flag .m
    let x := s.flag .x
    (∃ t, exec .tax s = .next t ∧ t.x = low x s.a ∧ t.HasNZ x s.a) ∧
    (∃ t, exec .tay s = .next t ∧ t.y = low x s.a ∧ t.HasNZ x s.a) ∧
    (∃ t, exec .txa s = .next t ∧ t.a = dual m s.a s.x ∧ t.HasNZ m s.x) ∧
    (∃ t, exec .tya s = .next t ∧ t.a = dual m s.a s.y ∧ t.HasNZ m s.y) ∧
    (∃ t, exec .tsx s = .next t ∧ t.x = low x s.sp ∧ t.HasNZ x s.sp) ∧
    (∃ t, exec .txs s = .next t ∧ t.sp = (if s.e then mkWord (loByte s.x) 0x01 else s.x)) ∧
    (∃ t, exec .tdc s = .next t ∧ t.a = s.d ∧ t.HasNZ false s.d) ∧
    (∃ t, exec .tcd s = .next t ∧ t.d = s.a ∧ t.HasNZ false s.a) ∧
    (∃ t, exec .tsc s = .next t ∧ t.a = s.sp ∧ t.HasNZ false s.sp) ∧
    (∃ t, exec .tcs s = .next t ∧ t.sp = (if s.e then mkWord (loByte s.a) 0x01 else s.a)) ∧
    (∃ t, exec .xba s = .next t ∧ t.a = mkWord (hiByte s.a) (loByte s.a) ∧ t.HasNZ true t.a) ∧
    (∃ t, exec .txy s = .next t ∧ t.y = s.x ∧ t.HasNZ x s.x) ∧
    (∃ t, exec .tyx s = .next t ∧ t.x = s.y ∧ t.HasNZ x s.y)

/-! ### Arithmetic -/

/-- 42_arith_logic_shift.md R230, R233: ADC where `P.D = 0`, every format: the sum with the carry, the
carry out, and the signed overflow. -/
def Obligations.AddBinary : Prop :=
  ∀ (i : Instr) (s : State) (o : Operand) (u r : State) (b : Word), i.mnemonic = .adc →
    s.flag .d = false → resolve i.form (s.begin i) = .ok (o, u) → load o s.wM u = .ok (b, r) →
    let m := s.flag .m
    let sum := s.a.toNat % modulus m + b.toNat + (if s.flag .c then 1 else 0)
    let res := BitVec.ofNat 16 sum
    ∃ t, exec i s = .next t ∧ t.a = dual m s.a res ∧ t.HasNZ m res ∧
      t.flag .c = decide (modulus m ≤ sum) ∧
      t.flag .v = decide (sign m s.a = sign m b ∧ sign m res ≠ sign m s.a)

/-- 42_arith_logic_shift.md R231, R233: ADC where `P.D = 1`, every format and every operand: nibble by
nibble from the low one, a sum above 9 corrected by 6 and carried; `V` is 0. -/
def Obligations.AddDecimal : Prop :=
  ∀ (i : Instr) (s : State) (o : Operand) (u r : State) (b : Word), i.mnemonic = .adc →
    s.flag .d = true → resolve i.form (s.begin i) = .ok (o, u) → load o s.wM u = .ok (b, r) →
    let m := s.flag .m
    ∃ (t : State) (res : Word) (c : Nat → Nat), exec i s = .next t ∧
      t.a = dual m s.a res ∧ t.HasNZ m res ∧ t.flag .v = false ∧
      c 0 = (if s.flag .c then 1 else 0) ∧ t.flag .c = decide (c (2 * s.wM.bytes) = 1) ∧
      ∀ j, j < 2 * s.wM.bytes →
        let n := nibble s.a.toNat j + nibble b.toNat j + c j
        nibble res.toNat j = (if 9 < n then (n + 6) % 16 else n) ∧
        c (j + 1) = (if 9 < n then 1 else 0)

/-- 42_arith_logic_shift.md R230, R234: SBC where `P.D = 0`, every format: `C` in and out is the inverted
borrow. -/
def Obligations.SubtractBinary : Prop :=
  ∀ (i : Instr) (s : State) (o : Operand) (u r : State) (b : Word), i.mnemonic = .sbc →
    s.flag .d = false → resolve i.form (s.begin i) = .ok (o, u) → load o s.wM u = .ok (b, r) →
    let m := s.flag .m
    let a := s.a.toNat % modulus m
    let taken := b.toNat % modulus m + (if s.flag .c then 0 else 1)
    let res := BitVec.ofInt 16 ((a : Int) - (taken : Int))
    ∃ t, exec i s = .next t ∧ t.a = dual m s.a res ∧ t.HasNZ m res ∧
      t.flag .c = decide (taken ≤ a) ∧
      t.flag .v = decide (sign m s.a ≠ sign m b ∧ sign m res ≠ sign m s.a)

/-- 42_arith_logic_shift.md R232, R234: SBC where `P.D = 1`, every format and every operand: nibble by
nibble, a difference below 0 corrected by 6 and borrowed; `V` is 0 and `C` is the inverted borrow. -/
def Obligations.SubtractDecimal : Prop :=
  ∀ (i : Instr) (s : State) (o : Operand) (u r : State) (b : Word), i.mnemonic = .sbc →
    s.flag .d = true → resolve i.form (s.begin i) = .ok (o, u) → load o s.wM u = .ok (b, r) →
    let m := s.flag .m
    ∃ (t : State) (res : Word) (c : Nat → Nat), exec i s = .next t ∧
      t.a = dual m s.a res ∧ t.HasNZ m res ∧ t.flag .v = false ∧
      c 0 = (if s.flag .c then 0 else 1) ∧ t.flag .c = decide (c (2 * s.wM.bytes) = 0) ∧
      ∀ j, j < 2 * s.wM.bytes →
        let n : Int := (nibble s.a.toNat j : Int) - (nibble b.toNat j : Int) - (c j : Int)
        (nibble res.toNat j : Int) = (if n < 0 then (n - 6) % 16 else n) ∧
        c (j + 1) = (if n < 0 then 1 else 0)

/-- 42_arith_logic_shift.md R231, R232: on operands whose nibbles are decimal digits the decimal sum and
difference are the sum and the difference of the numbers they stand for, mod 10 ^ (2w), and `C` is the
decimal carry and the inverted decimal borrow. -/
def Obligations.DecimalIsBcd : Prop :=
  ∀ (w : Width) (a b : Word) (p : Byte),
    let n := 2 * w.bytes
    let carry := fun q : Byte => if getFlag q .c then 1 else 0
    a.toNat < 16 ^ n → b.toNat < 16 ^ n → isBcd n a.toNat → isBcd n b.toNat →
    isBcd n (addDec w a b p).1.toNat ∧ isBcd n (subDec w a b p).1.toNat ∧
    bcdValue n (addDec w a b p).1.toNat + 10 ^ n * carry (addDec w a b p).2 =
      bcdValue n a.toNat + bcdValue n b.toNat + carry p ∧
    bcdValue n (subDec w a b p).1.toNat + bcdValue n b.toNat + 1 + 10 ^ n * carry (subDec w a b p).2 =
      bcdValue n a.toNat + 10 ^ n + carry p

/-- 42_arith_logic_shift.md R235 to R237: CMP, CPX and CPY, every format; `V` and the registers are not
written (the frames). -/
def Obligations.Compare : Prop :=
  ∀ (i : Instr) (s : State) (o : Operand) (u r : State) (b : Word),
    resolve i.form (s.begin i) = .ok (o, u) →
    (i.mnemonic = .cmp → load o s.wM u = .ok (b, r) →
      ∃ t, exec i s = .next t ∧ t.HasNZ (s.flag .m) (s.a - b) ∧
        t.flag .c = decide (b.toNat ≤ (low (s.flag .m) s.a).toNat)) ∧
    (i.mnemonic = .cpx → load o s.wX u = .ok (b, r) →
      ∃ t, exec i s = .next t ∧ t.HasNZ (s.flag .x) (s.x - b) ∧
        t.flag .c = decide (b.toNat ≤ (low (s.flag .x) s.x).toNat)) ∧
    (i.mnemonic = .cpy → load o s.wX u = .ok (b, r) →
      ∃ t, exec i s = .next t ∧ t.HasNZ (s.flag .x) (s.y - b) ∧
        t.flag .c = decide (b.toNat ≤ (low (s.flag .x) s.y).toNat))

/-- 42_arith_logic_shift.md R238, R241, R250 to R253, 40_engine_addressing.md R177: the accumulator forms
of INC, DEC, ASL, LSR, ROL and ROR. -/
def Obligations.ModifyAccumulator : Prop :=
  ∀ (i : Instr) (s : State), i.form = .acc →
    let m := s.flag .m
    let res := rmwResult m s.a s.a (s.flag .c) i.mnemonic
    ∃ t, exec i s = .next t ∧ t.a = dual m s.a res ∧ t.HasNZ m res ∧
      ∀ c, rmwCarry m s.a i.mnemonic = some c → t.flag .c = c

/-- 42_arith_logic_shift.md R238, R241, R248 to R253, 40_engine_addressing.md R177: INC, DEC, ASL, LSR,
ROL, ROR, TSB and TRB on memory, every format, with the bytes written back and every other byte of memory
unchanged. -/
def Obligations.ModifyMemory : Prop :=
  ∀ (i : Instr) (s : State) (ea : Addr) (c : Wrap) (crossed : Bool) (u r : State) (old : Word),
    s.StoresWf → i.mnemonic ∈ [.inc, .dec, .asl, .lsr, .rol, .ror, .tsb, .trb] →
    resolve i.form (s.begin i) = .ok (.mem ea c crossed, u) →
    readData s.wM c ea u = .ok (old, r) →
    (∀ k, k < s.wM.bytes → writable s.params (byteAddr c ea k) = true) →
    let m := s.flag .m
    let res := rmwResult m s.a old (s.flag .c) i.mnemonic
    ∃ t, exec i s = .next t ∧
      (∀ k w, (datumBytes m res)[k]? = some w → isRam s.params (byteAddr c ea k) = true →
        peek t (byteAddr c ea k) = some w) ∧
      (∀ a, Outside s.params c ea s.wM.bytes a → peek t a = peek s a) ∧
      (i.mnemonic = .tsb ∨ i.mnemonic = .trb → t.flag .z = decide (low m (s.a &&& old) = 0)) ∧
      (i.mnemonic ≠ .tsb → i.mnemonic ≠ .trb → t.HasNZ m res) ∧
      ∀ b, rmwCarry m old i.mnemonic = some b → t.flag .c = b

/-- 42_arith_logic_shift.md R239, R240, R242, R243: INX, INY, DEX and DEY. -/
def Obligations.IndexStep : Prop :=
  ∀ s : State, s.ModeInv →
    let x := s.flag .x
    (∃ t, exec .inx s = .next t ∧ t.x = low x (s.x + 1) ∧ t.HasNZ x (s.x + 1)) ∧
    (∃ t, exec .iny s = .next t ∧ t.y = low x (s.y + 1) ∧ t.HasNZ x (s.y + 1)) ∧
    (∃ t, exec .dex s = .next t ∧ t.x = low x (s.x - 1) ∧ t.HasNZ x (s.x - 1)) ∧
    (∃ t, exec .dey s = .next t ∧ t.y = low x (s.y - 1) ∧ t.HasNZ x (s.y - 1))

/-- 42_arith_logic_shift.md R244 to R246: AND, ORA and EOR, every format. -/
def Obligations.Logic : Prop :=
  ∀ (i : Instr) (s : State) (o : Operand) (u r : State) (v : Word),
    resolve i.form (s.begin i) = .ok (o, u) → load o s.wM u = .ok (v, r) →
    let m := s.flag .m
    (i.mnemonic = .and →
      ∃ t, exec i s = .next t ∧ t.a = dual m s.a (s.a &&& v) ∧ t.HasNZ m (s.a &&& v)) ∧
    (i.mnemonic = .ora →
      ∃ t, exec i s = .next t ∧ t.a = dual m s.a (s.a ||| v) ∧ t.HasNZ m (s.a ||| v)) ∧
    (i.mnemonic = .eor →
      ∃ t, exec i s = .next t ∧ t.a = dual m s.a (s.a ^^^ v) ∧ t.HasNZ m (s.a ^^^ v))

/-- 42_arith_logic_shift.md R247: BIT, every format; the immediate form writes only `Z`. -/
def Obligations.BitTest : Prop :=
  ∀ (i : Instr) (s : State) (o : Operand) (u r : State) (v : Word), i.mnemonic = .bit →
    resolve i.form (s.begin i) = .ok (o, u) → load o s.wM u = .ok (v, r) →
    let m := s.flag .m
    ∃ t, exec i s = .next t ∧ t.flag .z = decide (low m (s.a &&& v) = 0) ∧
      t.flag .n = (if Form.isImmM i.form then s.flag .n else sign m v) ∧
      t.flag .v = (if Form.isImmM i.form then s.flag .v
        else if m then v.getLsbD 6 else v.getLsbD 14)

/-! ### Control transfer -/

/-- 43_control_transfer.md R270 to R280: the branches, on their conditions, within the bank. -/
def Obligations.Branches : Prop :=
  ∀ (s : State) (r : Byte) (rl : Word),
    let goes := fun (i : Instr) (taken : Bool) => ∃ t, exec i s = .next t ∧ t.pbr = s.pbr ∧
      t.pc = (if taken then s.pc + 2 + r.signExtend 16 else s.pc + 2)
    goes (.bpl r) (!s.flag .n) ∧ goes (.bmi r) (s.flag .n) ∧
    goes (.bvc r) (!s.flag .v) ∧ goes (.bvs r) (s.flag .v) ∧
    goes (.bcc r) (!s.flag .c) ∧ goes (.bcs r) (s.flag .c) ∧
    goes (.bne r) (!s.flag .z) ∧ goes (.beq r) (s.flag .z) ∧ goes (.bra r) true ∧
    ∃ t, exec (.brl rl) s = .next t ∧ t.pbr = s.pbr ∧ t.pc = s.pc + 3 + rl

/-- 43_control_transfer.md R281, R282, 40_engine_addressing.md R173: JMP and JML; the pointers of `(a)`
and `[a]` are in bank 0, that of `(a,X)` in the program bank. -/
def Obligations.Jumps : Prop :=
  ∀ (s u : State) (a p : Word) (l : Addr),
    (∃ t, exec (.jmpAbs a) s = .next t ∧ t.pc = a ∧ t.pbr = s.pbr) ∧
    (readWord .bank (mkAddr 0 a) (s.begin (.jmpAbsInd a)) = .ok (p, u) →
      ∃ t, exec (.jmpAbsInd a) s = .next t ∧ t.pc = p ∧ t.pbr = s.pbr) ∧
    (readWord .bank (mkAddr s.pbr (a + s.x)) (s.begin (.jmpAbsIndX a)) = .ok (p, u) →
      ∃ t, exec (.jmpAbsIndX a) s = .next t ∧ t.pc = p ∧ t.pbr = s.pbr) ∧
    (∃ t, exec (.jmlLong l) s = .next t ∧ t.pc = offsetOf l ∧ t.pbr = bankOf l) ∧
    (readLong .bank (mkAddr 0 a) (s.begin (.jmlAbsIndLong a)) = .ok (l, u) →
      ∃ t, exec (.jmlAbsIndLong a) s = .next t ∧ t.pc = offsetOf l ∧ t.pbr = bankOf l)

/-- 43_control_transfer.md R283, R284: JSR and JSL push the address of the call's last byte, JSL after the
program bank, and JSR (a,X) reads its pointer after the push. -/
def Obligations.Calls : Prop :=
  ∀ (s u w : State) (a p : Word) (l : Addr), s.StoresWf →
    (s.CanPush 2 → ∃ t, exec (.jsrAbs a) s = .next t ∧ s.Pushed (pushOrder (s.pc + 2)) t ∧
      t.pc = a ∧ t.pbr = s.pbr) ∧
    (push16 (s.pc + 2) (s.begin (.jsrAbsIndX a)) = .ok u →
      readWord .bank (mkAddr s.pbr (a + s.x)) u = .ok (p, w) →
      ∃ t, exec (.jsrAbsIndX a) s = .next t ∧ s.Pushed (pushOrder (s.pc + 2)) t ∧
        t.pc = p ∧ t.pbr = s.pbr) ∧
    (s.CanPush 3 → ∃ t, exec (.jsl l) s = .next t ∧ s.Pushed (s.pbr :: pushOrder (s.pc + 3)) t ∧
      t.pc = offsetOf l ∧ t.pbr = bankOf l)

/-- 43_control_transfer.md R285, R286: RTS and RTL return to the byte after the pulled address, which does
not carry into the bank. -/
def Obligations.Returns : Prop :=
  ∀ (s u w : State) (v : Word) (b : Byte),
    (pull16 (s.begin .rts) = .ok (v, u) →
      ∃ t, exec .rts s = .next t ∧ t.pc = v + 1 ∧ t.pbr = s.pbr ∧ t.sp = stackUp s.e 2 s.sp) ∧
    (pull16 (s.begin .rtl) = .ok (v, u) → pull8 u = .ok (b, w) →
      ∃ t, exec .rtl s = .next t ∧ t.pc = v + 1 ∧ t.pbr = b ∧ t.sp = stackUp s.e 3 s.sp)

/-! ### The stack instructions -/

/-- 44_stack.md R304 to R310, R317 to R319: what each push instruction pushes, and that it changes no
other byte of memory. -/
def Obligations.Pushes : Prop :=
  ∀ (s u : State) (v p : Word) (d : Byte), s.StoresWf →
    let pushes := fun (i : Instr) (bs : List Byte) => s.CanPush bs.length →
      ∃ t, exec i s = .next t ∧ s.Pushed bs t
    pushes .pha (if s.flag .m then [loByte s.a] else pushOrder s.a) ∧
    pushes .phx (if s.flag .x then [loByte s.x] else pushOrder s.x) ∧
    pushes .phy (if s.flag .x then [loByte s.y] else pushOrder s.y) ∧
    pushes .phb [s.dbr] ∧ pushes .phd (pushOrder s.d) ∧ pushes .phk [s.pbr] ∧ pushes .php [s.p] ∧
    pushes (.pea v) (pushOrder v) ∧ pushes (.per v) (pushOrder (s.pc + 3 + v)) ∧
    (readWord .bank (mkAddr 0 (BitVec.ofNat 16 (s.d.toNat + d.toNat))) (s.begin (.pei d)) = .ok (p, u) →
      pushes (.pei d) (pushOrder p))

/-- 44_stack.md R311 to R316: what each pull instruction does with the value it pulls. -/
def Obligations.Pulls : Prop :=
  ∀ (s u : State) (v : Word) (b : Byte), s.ModeInv →
    let m := s.flag .m
    let x := s.flag .x
    (pullW s.wM (s.begin .pla) = .ok (v, u) →
      ∃ t, exec .pla s = .next t ∧ t.a = dual m s.a v ∧ t.HasNZ m v ∧
        t.sp = stackUp s.e s.wM.bytes s.sp) ∧
    (pullW s.wX (s.begin .plx) = .ok (v, u) →
      ∃ t, exec .plx s = .next t ∧ t.x = v ∧ t.HasNZ x v ∧ t.sp = stackUp s.e s.wX.bytes s.sp) ∧
    (pullW s.wX (s.begin .ply) = .ok (v, u) →
      ∃ t, exec .ply s = .next t ∧ t.y = v ∧ t.HasNZ x v ∧ t.sp = stackUp s.e s.wX.bytes s.sp) ∧
    (pull8 (s.begin .plb) = .ok (b, u) →
      ∃ t, exec .plb s = .next t ∧ t.dbr = b ∧ t.HasNZ true (mkWord b 0) ∧ t.sp = stackUp s.e 1 s.sp) ∧
    (pull16 (s.begin .pld) = .ok (v, u) →
      ∃ t, exec .pld s = .next t ∧ t.d = v ∧ t.HasNZ false v ∧ t.sp = stackUp s.e 2 s.sp) ∧
    (pull8 (s.begin .plp) = .ok (b, u) →
      ∃ t, exec .plp s = .next t ∧ t.p = (if s.e then b ||| 0x30 else b) ∧
        t.x = low (t.flag .x) s.x ∧ t.y = low (t.flag .x) s.y ∧ t.sp = stackUp s.e 1 s.sp)

/-! ### Flags, modes and system instructions -/

/-- 45_flags_mode_system.md R330 to R338: the single-flag instructions, REP and SEP; in emulation mode
`M` and `X` stay 1, and setting `X` clears the high bytes of the index registers. -/
def Obligations.StatusInstructions : Prop :=
  ∀ (s : State) (v : Byte), s.ModeInv →
    let gives := fun (i : Instr) (q : Byte) => ∃ t, exec i s = .next t ∧
      t.p = (if s.e then q ||| 0x30 else q) ∧ t.sp = s.sp ∧
      t.x = low (t.flag .x) s.x ∧ t.y = low (t.flag .x) s.y
    gives .clc (s.p &&& 0xFE) ∧ gives .cld (s.p &&& 0xF7) ∧ gives .cli (s.p &&& 0xFB) ∧
    gives .clv (s.p &&& 0xBF) ∧ gives .sec (s.p ||| 0x01) ∧ gives .sed (s.p ||| 0x08) ∧
    gives .sei (s.p ||| 0x04) ∧ gives (.rep v) (s.p &&& ~~~v) ∧ gives (.sep v) (s.p ||| v)

/-- 45_flags_mode_system.md R340: XCE exchanges `C` and `E`, and forces `M`, `X`, the index high bytes and
the stack page on entry to emulation mode only. -/
def Obligations.ExchangeCarry : Prop :=
  ∀ s : State, s.ModeInv → ∃ t, exec .xce s = .next t ∧ t.e = s.flag .c ∧ t.flag .c = s.e ∧
    (s.flag .c = true → t.flag .m = true ∧ t.flag .x = true ∧ t.x = low true s.x ∧
      t.y = low true s.y ∧ t.sp = mkWord (loByte s.sp) 0x01) ∧
    (s.flag .c = false → t.flag .m = s.flag .m ∧ t.flag .x = s.flag .x ∧ t.x = s.x ∧ t.y = s.y ∧
      t.sp = s.sp) ∧
    (∀ f, f ≠ .c → f ≠ .m → f ≠ .x → t.flag f = s.flag f) ∧ t.a = s.a

/-- 45_flags_mode_system.md R339, R341, R345, R346: NOP and WDM change only `PC` and the cycle count, and
WAI and STP the run state besides. -/
def Obligations.NoOperationWaitStop : Prop :=
  ∀ (s : State) (v : Byte), s.ModeInv →
    exec .nop s = .next { s with pc := s.pc + 1, cycles := 2 + pcCrossPenalty s.e s.pc 1 } ∧
    exec (.wdm v) s = .next { s with pc := s.pc + 2, cycles := 2 + pcCrossPenalty s.e s.pc 2 } ∧
    exec .wai s =
      .next { s with pc := s.pc + 1, cycles := 3 + pcCrossPenalty s.e s.pc 1, run := .waiting } ∧
    exec .stp s =
      .next { s with pc := s.pc + 1, cycles := 3 + pcCrossPenalty s.e s.pc 1, run := .stopped }

/-- 45_flags_mode_system.md R342, R343, 60_exceptions.md R384 to R386: BRK and COP enter through their
vectors, return past the signature byte, and push bit 4 as 1 in emulation mode. -/
def Obligations.SoftwareInterrupt : Prop :=
  ∀ (s : State) (v : Byte), s.ModeInv → s.StoresWf → s.CanPush (if s.e then 3 else 4) →
    (∃ t, exec (.brk v) s = .next t ∧
      s.Entered (if s.e then s.params.vecE.irqBrk else s.params.vecN.brk) (s.pc + 2)
        (if s.e then s.p ||| 0x10 else s.p) t) ∧
    ∃ t, exec (.cop v) s = .next t ∧
      s.Entered (if s.e then s.params.vecE.cop else s.params.vecN.cop) (s.pc + 2)
        (if s.e then s.p ||| 0x10 else s.p) t

/-- 45_flags_mode_system.md R344: RTI completes whenever its stack bytes can be read; it restores `P`, then
`PC`, which it does not increment, then `PBR` in native mode only. -/
def Obligations.ReturnFromInterrupt : Prop :=
  ∀ s : State, s.ModeInv →
    (∀ k, k < (if s.e then 3 else 4) → readable s.params (s.pullSlot k) = true) →
    ∃ t, exec .rti s = .next t ∧ t.sp = stackUp s.e (if s.e then 3 else 4) s.sp ∧
      ∀ p l h b, peek s (s.pullSlot 0) = some p → peek s (s.pullSlot 1) = some l →
        peek s (s.pullSlot 2) = some h → (s.e = false → peek s (s.pullSlot 3) = some b) →
        t.p = (if s.e then p ||| 0x30 else p) ∧ t.pc = mkWord l h ∧
        t.pbr = (if s.e then s.pbr else b) ∧
        t.x = low (t.flag .x) s.x ∧ t.y = low (t.flag .x) s.y

/-- 45_flags_mode_system.md R347, R348: one byte of MVN and of MVP: the byte moved, the indexes, all 16
bits of `A` counted down, `DBR`, and `PC` back at the opcode until the count has passed 0. That all 16 bits count
down where `P.M = 1` too is the model's choice: it follows R347 where 10_state.md R31 says that the high byte
survives (notes/assumptions/13.md). -/
def Obligations.BlockMove : Prop :=
  ∀ (s u : State) (dd ss v : Byte), s.ModeInv → s.StoresWf →
    writable s.params (mkAddr dd s.y) = true →
    let moves := fun (i : Instr) (x y : Word) =>
      read8 (mkAddr ss s.x) (s.begin i) = .ok (v, u) →
      ∃ t, exec i s = .next t ∧ t.x = low (s.flag .x) x ∧ t.y = low (s.flag .x) y ∧
        t.a = s.a - 1 ∧ t.dbr = dd ∧ t.pc = (if s.a = 0 then s.pc + 3 else s.pc) ∧
        (isRam s.params (mkAddr dd s.y) = true → peek t (mkAddr dd s.y) = some v) ∧
        ∀ a, cellAt s.params a ≠ cellAt s.params (mkAddr dd s.y) → peek t a = peek s a
    moves (.mvn dd ss) (s.x + 1) (s.y + 1) ∧ moves (.mvp dd ss) (s.x - 1) (s.y - 1)
end

