-- ==== Sys2Proof/Laws/State.lean ====
section
/-! SUPPORT. One lemma per field per named update of the state, so that no later proof unfolds a record
update. -/

namespace Sys2Proof.Machine

variable (s : State)

/-! ### An event logged -/

@[simp] theorem State.log_a (v : IoEvent) : (s.log v).a = s.a := rfl
@[simp] theorem State.log_x (v : IoEvent) : (s.log v).x = s.x := rfl
@[simp] theorem State.log_y (v : IoEvent) : (s.log v).y = s.y := rfl
@[simp] theorem State.log_sp (v : IoEvent) : (s.log v).sp = s.sp := rfl
@[simp] theorem State.log_d (v : IoEvent) : (s.log v).d = s.d := rfl
@[simp] theorem State.log_pc (v : IoEvent) : (s.log v).pc = s.pc := rfl
@[simp] theorem State.log_pbr (v : IoEvent) : (s.log v).pbr = s.pbr := rfl
@[simp] theorem State.log_dbr (v : IoEvent) : (s.log v).dbr = s.dbr := rfl
@[simp] theorem State.log_p (v : IoEvent) : (s.log v).p = s.p := rfl
@[simp] theorem State.log_e (v : IoEvent) : (s.log v).e = s.e := rfl
@[simp] theorem State.log_cycles (v : IoEvent) : (s.log v).cycles = s.cycles := rfl
@[simp] theorem State.log_run (v : IoEvent) : (s.log v).run = s.run := rfl
@[simp] theorem State.log_nmiPending (v : IoEvent) : (s.log v).nmiPending = s.nmiPending := rfl
@[simp] theorem State.log_irqLine (v : IoEvent) : (s.log v).irqLine = s.irqLine := rfl
@[simp] theorem State.log_inputs (v : IoEvent) : (s.log v).inputs = s.inputs := rfl
@[simp] theorem State.log_wram (v : IoEvent) : (s.log v).wram = s.wram := rfl
@[simp] theorem State.log_sram (v : IoEvent) : (s.log v).sram = s.sram := rfl
@[simp] theorem State.log_intRegs (v : IoEvent) : (s.log v).intRegs = s.intRegs := rfl
@[simp] theorem State.log_ioLog (v : IoEvent) : (s.log v).ioLog = s.ioLog ++ [v] := rfl
@[simp] theorem State.log_params (v : IoEvent) : (s.log v).params = s.params := rfl
@[simp] theorem State.log_draws (v : IoEvent) : (s.log v).draws = s.draws := rfl

/-! ### Cycles charged -/

@[simp] theorem State.charge_a (n : Nat) : (s.charge n).a = s.a := rfl
@[simp] theorem State.charge_x (n : Nat) : (s.charge n).x = s.x := rfl
@[simp] theorem State.charge_y (n : Nat) : (s.charge n).y = s.y := rfl
@[simp] theorem State.charge_sp (n : Nat) : (s.charge n).sp = s.sp := rfl
@[simp] theorem State.charge_d (n : Nat) : (s.charge n).d = s.d := rfl
@[simp] theorem State.charge_pc (n : Nat) : (s.charge n).pc = s.pc := rfl
@[simp] theorem State.charge_pbr (n : Nat) : (s.charge n).pbr = s.pbr := rfl
@[simp] theorem State.charge_dbr (n : Nat) : (s.charge n).dbr = s.dbr := rfl
@[simp] theorem State.charge_p (n : Nat) : (s.charge n).p = s.p := rfl
@[simp] theorem State.charge_e (n : Nat) : (s.charge n).e = s.e := rfl
@[simp] theorem State.charge_cycles (n : Nat) : (s.charge n).cycles = s.cycles + n := rfl
@[simp] theorem State.charge_run (n : Nat) : (s.charge n).run = s.run := rfl
@[simp] theorem State.charge_nmiPending (n : Nat) : (s.charge n).nmiPending = s.nmiPending := rfl
@[simp] theorem State.charge_irqLine (n : Nat) : (s.charge n).irqLine = s.irqLine := rfl
@[simp] theorem State.charge_inputs (n : Nat) : (s.charge n).inputs = s.inputs := rfl
@[simp] theorem State.charge_wram (n : Nat) : (s.charge n).wram = s.wram := rfl
@[simp] theorem State.charge_sram (n : Nat) : (s.charge n).sram = s.sram := rfl
@[simp] theorem State.charge_intRegs (n : Nat) : (s.charge n).intRegs = s.intRegs := rfl
@[simp] theorem State.charge_ioLog (n : Nat) : (s.charge n).ioLog = s.ioLog := rfl
@[simp] theorem State.charge_params (n : Nat) : (s.charge n).params = s.params := rfl
@[simp] theorem State.charge_draws (n : Nat) : (s.charge n).draws = s.draws := rfl

/-! ### Cycles charged where `P.M = 0` -/

@[simp] theorem State.chargeM_a (n : Nat) : (s.chargeM n).a = s.a := rfl
@[simp] theorem State.chargeM_x (n : Nat) : (s.chargeM n).x = s.x := rfl
@[simp] theorem State.chargeM_y (n : Nat) : (s.chargeM n).y = s.y := rfl
@[simp] theorem State.chargeM_sp (n : Nat) : (s.chargeM n).sp = s.sp := rfl
@[simp] theorem State.chargeM_d (n : Nat) : (s.chargeM n).d = s.d := rfl
@[simp] theorem State.chargeM_pc (n : Nat) : (s.chargeM n).pc = s.pc := rfl
@[simp] theorem State.chargeM_pbr (n : Nat) : (s.chargeM n).pbr = s.pbr := rfl
@[simp] theorem State.chargeM_dbr (n : Nat) : (s.chargeM n).dbr = s.dbr := rfl
@[simp] theorem State.chargeM_p (n : Nat) : (s.chargeM n).p = s.p := rfl
@[simp] theorem State.chargeM_e (n : Nat) : (s.chargeM n).e = s.e := rfl
@[simp] theorem State.chargeM_cycles (n : Nat) : (s.chargeM n).cycles = s.cycles + (if s.flag .m then 0 else n) := rfl
@[simp] theorem State.chargeM_run (n : Nat) : (s.chargeM n).run = s.run := rfl
@[simp] theorem State.chargeM_nmiPending (n : Nat) : (s.chargeM n).nmiPending = s.nmiPending := rfl
@[simp] theorem State.chargeM_irqLine (n : Nat) : (s.chargeM n).irqLine = s.irqLine := rfl
@[simp] theorem State.chargeM_inputs (n : Nat) : (s.chargeM n).inputs = s.inputs := rfl
@[simp] theorem State.chargeM_wram (n : Nat) : (s.chargeM n).wram = s.wram := rfl
@[simp] theorem State.chargeM_sram (n : Nat) : (s.chargeM n).sram = s.sram := rfl
@[simp] theorem State.chargeM_intRegs (n : Nat) : (s.chargeM n).intRegs = s.intRegs := rfl
@[simp] theorem State.chargeM_ioLog (n : Nat) : (s.chargeM n).ioLog = s.ioLog := rfl
@[simp] theorem State.chargeM_params (n : Nat) : (s.chargeM n).params = s.params := rfl
@[simp] theorem State.chargeM_draws (n : Nat) : (s.chargeM n).draws = s.draws := rfl

/-! ### A cycle charged where `P.X = 0` -/

@[simp] theorem State.chargeX_a : (s.chargeX).a = s.a := rfl
@[simp] theorem State.chargeX_x : (s.chargeX).x = s.x := rfl
@[simp] theorem State.chargeX_y : (s.chargeX).y = s.y := rfl
@[simp] theorem State.chargeX_sp : (s.chargeX).sp = s.sp := rfl
@[simp] theorem State.chargeX_d : (s.chargeX).d = s.d := rfl
@[simp] theorem State.chargeX_pc : (s.chargeX).pc = s.pc := rfl
@[simp] theorem State.chargeX_pbr : (s.chargeX).pbr = s.pbr := rfl
@[simp] theorem State.chargeX_dbr : (s.chargeX).dbr = s.dbr := rfl
@[simp] theorem State.chargeX_p : (s.chargeX).p = s.p := rfl
@[simp] theorem State.chargeX_e : (s.chargeX).e = s.e := rfl
@[simp] theorem State.chargeX_cycles : (s.chargeX).cycles = s.cycles + (if s.flag .x then 0 else 1) := rfl
@[simp] theorem State.chargeX_run : (s.chargeX).run = s.run := rfl
@[simp] theorem State.chargeX_nmiPending : (s.chargeX).nmiPending = s.nmiPending := rfl
@[simp] theorem State.chargeX_irqLine : (s.chargeX).irqLine = s.irqLine := rfl
@[simp] theorem State.chargeX_inputs : (s.chargeX).inputs = s.inputs := rfl
@[simp] theorem State.chargeX_wram : (s.chargeX).wram = s.wram := rfl
@[simp] theorem State.chargeX_sram : (s.chargeX).sram = s.sram := rfl
@[simp] theorem State.chargeX_intRegs : (s.chargeX).intRegs = s.intRegs := rfl
@[simp] theorem State.chargeX_ioLog : (s.chargeX).ioLog = s.ioLog := rfl
@[simp] theorem State.chargeX_params : (s.chargeX).params = s.params := rfl
@[simp] theorem State.chargeX_draws : (s.chargeX).draws = s.draws := rfl

/-! ### A cycle charged in native mode -/

@[simp] theorem State.chargeNative_a : (s.chargeNative).a = s.a := rfl
@[simp] theorem State.chargeNative_x : (s.chargeNative).x = s.x := rfl
@[simp] theorem State.chargeNative_y : (s.chargeNative).y = s.y := rfl
@[simp] theorem State.chargeNative_sp : (s.chargeNative).sp = s.sp := rfl
@[simp] theorem State.chargeNative_d : (s.chargeNative).d = s.d := rfl
@[simp] theorem State.chargeNative_pc : (s.chargeNative).pc = s.pc := rfl
@[simp] theorem State.chargeNative_pbr : (s.chargeNative).pbr = s.pbr := rfl
@[simp] theorem State.chargeNative_dbr : (s.chargeNative).dbr = s.dbr := rfl
@[simp] theorem State.chargeNative_p : (s.chargeNative).p = s.p := rfl
@[simp] theorem State.chargeNative_e : (s.chargeNative).e = s.e := rfl
@[simp] theorem State.chargeNative_cycles : (s.chargeNative).cycles = s.cycles + (if s.e then 0 else 1) := rfl
@[simp] theorem State.chargeNative_run : (s.chargeNative).run = s.run := rfl
@[simp] theorem State.chargeNative_nmiPending : (s.chargeNative).nmiPending = s.nmiPending := rfl
@[simp] theorem State.chargeNative_irqLine : (s.chargeNative).irqLine = s.irqLine := rfl
@[simp] theorem State.chargeNative_inputs : (s.chargeNative).inputs = s.inputs := rfl
@[simp] theorem State.chargeNative_wram : (s.chargeNative).wram = s.wram := rfl
@[simp] theorem State.chargeNative_sram : (s.chargeNative).sram = s.sram := rfl
@[simp] theorem State.chargeNative_intRegs : (s.chargeNative).intRegs = s.intRegs := rfl
@[simp] theorem State.chargeNative_ioLog : (s.chargeNative).ioLog = s.ioLog := rfl
@[simp] theorem State.chargeNative_params : (s.chargeNative).params = s.params := rfl
@[simp] theorem State.chargeNative_draws : (s.chargeNative).draws = s.draws := rfl

/-! ### One flag written -/

@[simp] theorem State.setFlag_a (f : Flag) (b : Bool) : (s.setFlag f b).a = s.a := rfl
@[simp] theorem State.setFlag_x (f : Flag) (b : Bool) : (s.setFlag f b).x = s.x := rfl
@[simp] theorem State.setFlag_y (f : Flag) (b : Bool) : (s.setFlag f b).y = s.y := rfl
@[simp] theorem State.setFlag_sp (f : Flag) (b : Bool) : (s.setFlag f b).sp = s.sp := rfl
@[simp] theorem State.setFlag_d (f : Flag) (b : Bool) : (s.setFlag f b).d = s.d := rfl
@[simp] theorem State.setFlag_pc (f : Flag) (b : Bool) : (s.setFlag f b).pc = s.pc := rfl
@[simp] theorem State.setFlag_pbr (f : Flag) (b : Bool) : (s.setFlag f b).pbr = s.pbr := rfl
@[simp] theorem State.setFlag_dbr (f : Flag) (b : Bool) : (s.setFlag f b).dbr = s.dbr := rfl
@[simp] theorem State.setFlag_p (f : Flag) (b : Bool) : (s.setFlag f b).p = putFlag s.p f b := rfl
@[simp] theorem State.setFlag_e (f : Flag) (b : Bool) : (s.setFlag f b).e = s.e := rfl
@[simp] theorem State.setFlag_cycles (f : Flag) (b : Bool) : (s.setFlag f b).cycles = s.cycles := rfl
@[simp] theorem State.setFlag_run (f : Flag) (b : Bool) : (s.setFlag f b).run = s.run := rfl
@[simp] theorem State.setFlag_nmiPending (f : Flag) (b : Bool) : (s.setFlag f b).nmiPending = s.nmiPending := rfl
@[simp] theorem State.setFlag_irqLine (f : Flag) (b : Bool) : (s.setFlag f b).irqLine = s.irqLine := rfl
@[simp] theorem State.setFlag_inputs (f : Flag) (b : Bool) : (s.setFlag f b).inputs = s.inputs := rfl
@[simp] theorem State.setFlag_wram (f : Flag) (b : Bool) : (s.setFlag f b).wram = s.wram := rfl
@[simp] theorem State.setFlag_sram (f : Flag) (b : Bool) : (s.setFlag f b).sram = s.sram := rfl
@[simp] theorem State.setFlag_intRegs (f : Flag) (b : Bool) : (s.setFlag f b).intRegs = s.intRegs := rfl
@[simp] theorem State.setFlag_ioLog (f : Flag) (b : Bool) : (s.setFlag f b).ioLog = s.ioLog := rfl
@[simp] theorem State.setFlag_params (f : Flag) (b : Bool) : (s.setFlag f b).params = s.params := rfl
@[simp] theorem State.setFlag_draws (f : Flag) (b : Bool) : (s.setFlag f b).draws = s.draws := rfl

/-! ### The accumulator written at a width -/

@[simp] theorem State.putA_a (w : Width) (v : Word) : (s.putA w v).a = mergeLow w s.a v := rfl
@[simp] theorem State.putA_x (w : Width) (v : Word) : (s.putA w v).x = s.x := rfl
@[simp] theorem State.putA_y (w : Width) (v : Word) : (s.putA w v).y = s.y := rfl
@[simp] theorem State.putA_sp (w : Width) (v : Word) : (s.putA w v).sp = s.sp := rfl
@[simp] theorem State.putA_d (w : Width) (v : Word) : (s.putA w v).d = s.d := rfl
@[simp] theorem State.putA_pc (w : Width) (v : Word) : (s.putA w v).pc = s.pc := rfl
@[simp] theorem State.putA_pbr (w : Width) (v : Word) : (s.putA w v).pbr = s.pbr := rfl
@[simp] theorem State.putA_dbr (w : Width) (v : Word) : (s.putA w v).dbr = s.dbr := rfl
@[simp] theorem State.putA_p (w : Width) (v : Word) : (s.putA w v).p = s.p := rfl
@[simp] theorem State.putA_e (w : Width) (v : Word) : (s.putA w v).e = s.e := rfl
@[simp] theorem State.putA_cycles (w : Width) (v : Word) : (s.putA w v).cycles = s.cycles := rfl
@[simp] theorem State.putA_run (w : Width) (v : Word) : (s.putA w v).run = s.run := rfl
@[simp] theorem State.putA_nmiPending (w : Width) (v : Word) : (s.putA w v).nmiPending = s.nmiPending := rfl
@[simp] theorem State.putA_irqLine (w : Width) (v : Word) : (s.putA w v).irqLine = s.irqLine := rfl
@[simp] theorem State.putA_inputs (w : Width) (v : Word) : (s.putA w v).inputs = s.inputs := rfl
@[simp] theorem State.putA_wram (w : Width) (v : Word) : (s.putA w v).wram = s.wram := rfl
@[simp] theorem State.putA_sram (w : Width) (v : Word) : (s.putA w v).sram = s.sram := rfl
@[simp] theorem State.putA_intRegs (w : Width) (v : Word) : (s.putA w v).intRegs = s.intRegs := rfl
@[simp] theorem State.putA_ioLog (w : Width) (v : Word) : (s.putA w v).ioLog = s.ioLog := rfl
@[simp] theorem State.putA_params (w : Width) (v : Word) : (s.putA w v).params = s.params := rfl
@[simp] theorem State.putA_draws (w : Width) (v : Word) : (s.putA w v).draws = s.draws := rfl

/-! ### `N` and `Z` written from a value -/

@[simp] theorem State.setNZ_a (w : Width) (v : Word) : (s.setNZ w v).a = s.a := rfl
@[simp] theorem State.setNZ_x (w : Width) (v : Word) : (s.setNZ w v).x = s.x := rfl
@[simp] theorem State.setNZ_y (w : Width) (v : Word) : (s.setNZ w v).y = s.y := rfl
@[simp] theorem State.setNZ_sp (w : Width) (v : Word) : (s.setNZ w v).sp = s.sp := rfl
@[simp] theorem State.setNZ_d (w : Width) (v : Word) : (s.setNZ w v).d = s.d := rfl
@[simp] theorem State.setNZ_pc (w : Width) (v : Word) : (s.setNZ w v).pc = s.pc := rfl
@[simp] theorem State.setNZ_pbr (w : Width) (v : Word) : (s.setNZ w v).pbr = s.pbr := rfl
@[simp] theorem State.setNZ_dbr (w : Width) (v : Word) : (s.setNZ w v).dbr = s.dbr := rfl
@[simp] theorem State.setNZ_p (w : Width) (v : Word) : (s.setNZ w v).p = Machine.setNZ w v s.p := rfl
@[simp] theorem State.setNZ_e (w : Width) (v : Word) : (s.setNZ w v).e = s.e := rfl
@[simp] theorem State.setNZ_cycles (w : Width) (v : Word) : (s.setNZ w v).cycles = s.cycles := rfl
@[simp] theorem State.setNZ_run (w : Width) (v : Word) : (s.setNZ w v).run = s.run := rfl
@[simp] theorem State.setNZ_nmiPending (w : Width) (v : Word) : (s.setNZ w v).nmiPending = s.nmiPending := rfl
@[simp] theorem State.setNZ_irqLine (w : Width) (v : Word) : (s.setNZ w v).irqLine = s.irqLine := rfl
@[simp] theorem State.setNZ_inputs (w : Width) (v : Word) : (s.setNZ w v).inputs = s.inputs := rfl
@[simp] theorem State.setNZ_wram (w : Width) (v : Word) : (s.setNZ w v).wram = s.wram := rfl
@[simp] theorem State.setNZ_sram (w : Width) (v : Word) : (s.setNZ w v).sram = s.sram := rfl
@[simp] theorem State.setNZ_intRegs (w : Width) (v : Word) : (s.setNZ w v).intRegs = s.intRegs := rfl
@[simp] theorem State.setNZ_ioLog (w : Width) (v : Word) : (s.setNZ w v).ioLog = s.ioLog := rfl
@[simp] theorem State.setNZ_params (w : Width) (v : Word) : (s.setNZ w v).params = s.params := rfl
@[simp] theorem State.setNZ_draws (w : Width) (v : Word) : (s.setNZ w v).draws = s.draws := rfl

/-! ### The end of an entry -/

@[simp] theorem State.atVector_a (v : Word) : (s.atVector v).a = s.a := rfl
@[simp] theorem State.atVector_x (v : Word) : (s.atVector v).x = s.x := rfl
@[simp] theorem State.atVector_y (v : Word) : (s.atVector v).y = s.y := rfl
@[simp] theorem State.atVector_sp (v : Word) : (s.atVector v).sp = s.sp := rfl
@[simp] theorem State.atVector_d (v : Word) : (s.atVector v).d = s.d := rfl
@[simp] theorem State.atVector_pc (v : Word) : (s.atVector v).pc = v := rfl
@[simp] theorem State.atVector_pbr (v : Word) : (s.atVector v).pbr = 0 := rfl
@[simp] theorem State.atVector_dbr (v : Word) : (s.atVector v).dbr = s.dbr := rfl
@[simp] theorem State.atVector_p (v : Word) : (s.atVector v).p = putFlag (putFlag s.p .i true) .d false := rfl
@[simp] theorem State.atVector_e (v : Word) : (s.atVector v).e = s.e := rfl
@[simp] theorem State.atVector_cycles (v : Word) : (s.atVector v).cycles = s.cycles := rfl
@[simp] theorem State.atVector_run (v : Word) : (s.atVector v).run = .running := rfl
@[simp] theorem State.atVector_nmiPending (v : Word) : (s.atVector v).nmiPending = s.nmiPending := rfl
@[simp] theorem State.atVector_irqLine (v : Word) : (s.atVector v).irqLine = s.irqLine := rfl
@[simp] theorem State.atVector_inputs (v : Word) : (s.atVector v).inputs = s.inputs := rfl
@[simp] theorem State.atVector_wram (v : Word) : (s.atVector v).wram = s.wram := rfl
@[simp] theorem State.atVector_sram (v : Word) : (s.atVector v).sram = s.sram := rfl
@[simp] theorem State.atVector_intRegs (v : Word) : (s.atVector v).intRegs = s.intRegs := rfl
@[simp] theorem State.atVector_ioLog (v : Word) : (s.atVector v).ioLog = s.ioLog := rfl
@[simp] theorem State.atVector_params (v : Word) : (s.atVector v).params = s.params := rfl
@[simp] theorem State.atVector_draws (v : Word) : (s.atVector v).draws = s.draws := rfl

/-! ### A long jump -/

@[simp] theorem State.goto_a (t : Addr) : (s.goto t).a = s.a := rfl
@[simp] theorem State.goto_x (t : Addr) : (s.goto t).x = s.x := rfl
@[simp] theorem State.goto_y (t : Addr) : (s.goto t).y = s.y := rfl
@[simp] theorem State.goto_sp (t : Addr) : (s.goto t).sp = s.sp := rfl
@[simp] theorem State.goto_d (t : Addr) : (s.goto t).d = s.d := rfl
@[simp] theorem State.goto_pc (t : Addr) : (s.goto t).pc = offsetOf t := rfl
@[simp] theorem State.goto_pbr (t : Addr) : (s.goto t).pbr = bankOf t := rfl
@[simp] theorem State.goto_dbr (t : Addr) : (s.goto t).dbr = s.dbr := rfl
@[simp] theorem State.goto_p (t : Addr) : (s.goto t).p = s.p := rfl
@[simp] theorem State.goto_e (t : Addr) : (s.goto t).e = s.e := rfl
@[simp] theorem State.goto_cycles (t : Addr) : (s.goto t).cycles = s.cycles := rfl
@[simp] theorem State.goto_run (t : Addr) : (s.goto t).run = s.run := rfl
@[simp] theorem State.goto_nmiPending (t : Addr) : (s.goto t).nmiPending = s.nmiPending := rfl
@[simp] theorem State.goto_irqLine (t : Addr) : (s.goto t).irqLine = s.irqLine := rfl
@[simp] theorem State.goto_inputs (t : Addr) : (s.goto t).inputs = s.inputs := rfl
@[simp] theorem State.goto_wram (t : Addr) : (s.goto t).wram = s.wram := rfl
@[simp] theorem State.goto_sram (t : Addr) : (s.goto t).sram = s.sram := rfl
@[simp] theorem State.goto_intRegs (t : Addr) : (s.goto t).intRegs = s.intRegs := rfl
@[simp] theorem State.goto_ioLog (t : Addr) : (s.goto t).ioLog = s.ioLog := rfl
@[simp] theorem State.goto_params (t : Addr) : (s.goto t).params = s.params := rfl
@[simp] theorem State.goto_draws (t : Addr) : (s.goto t).draws = s.draws := rfl

/-! ### The start of a handler -/

@[simp] theorem State.begin_a (i : Instr) : (s.begin i).a = s.a := rfl
@[simp] theorem State.begin_x (i : Instr) : (s.begin i).x = s.x := rfl
@[simp] theorem State.begin_y (i : Instr) : (s.begin i).y = s.y := rfl
@[simp] theorem State.begin_sp (i : Instr) : (s.begin i).sp = s.sp := rfl
@[simp] theorem State.begin_d (i : Instr) : (s.begin i).d = s.d := rfl
@[simp] theorem State.begin_pc (i : Instr) : (s.begin i).pc = s.pc + BitVec.ofNat 16 i.form.length := rfl
@[simp] theorem State.begin_pbr (i : Instr) : (s.begin i).pbr = s.pbr := rfl
@[simp] theorem State.begin_dbr (i : Instr) : (s.begin i).dbr = s.dbr := rfl
@[simp] theorem State.begin_p (i : Instr) : (s.begin i).p = s.p := rfl
@[simp] theorem State.begin_e (i : Instr) : (s.begin i).e = s.e := rfl
@[simp] theorem State.begin_cycles (i : Instr) : (s.begin i).cycles = baseCycles i.opcode + dpPenalty i.form s.d + pcCrossPenalty s.e s.pc i.form.length := rfl
@[simp] theorem State.begin_run (i : Instr) : (s.begin i).run = s.run := rfl
@[simp] theorem State.begin_nmiPending (i : Instr) : (s.begin i).nmiPending = s.nmiPending := rfl
@[simp] theorem State.begin_irqLine (i : Instr) : (s.begin i).irqLine = s.irqLine := rfl
@[simp] theorem State.begin_inputs (i : Instr) : (s.begin i).inputs = s.inputs := rfl
@[simp] theorem State.begin_wram (i : Instr) : (s.begin i).wram = s.wram := rfl
@[simp] theorem State.begin_sram (i : Instr) : (s.begin i).sram = s.sram := rfl
@[simp] theorem State.begin_intRegs (i : Instr) : (s.begin i).intRegs = s.intRegs := rfl
@[simp] theorem State.begin_ioLog (i : Instr) : (s.begin i).ioLog = s.ioLog := rfl
@[simp] theorem State.begin_params (i : Instr) : (s.begin i).params = s.params := rfl
@[simp] theorem State.begin_draws (i : Instr) : (s.begin i).draws = s.draws := rfl

/-! ### RESET -/

@[simp] theorem State.resetSignal_a : (s.resetSignal).a = s.a := rfl
@[simp] theorem State.resetSignal_x : (s.resetSignal).x = s.x &&& 0x00FF := rfl
@[simp] theorem State.resetSignal_y : (s.resetSignal).y = s.y &&& 0x00FF := rfl
@[simp] theorem State.resetSignal_sp : (s.resetSignal).sp = pageOne s.sp := rfl
@[simp] theorem State.resetSignal_d : (s.resetSignal).d = 0 := rfl
@[simp] theorem State.resetSignal_pc : (s.resetSignal).pc = s.params.vecE.reset := rfl
@[simp] theorem State.resetSignal_pbr : (s.resetSignal).pbr = 0 := rfl
@[simp] theorem State.resetSignal_dbr : (s.resetSignal).dbr = 0 := rfl
@[simp] theorem State.resetSignal_p : (s.resetSignal).p = putFlag (putFlag (putFlag (putFlag s.p .m true) .x true) .d false) .i true := rfl
@[simp] theorem State.resetSignal_e : (s.resetSignal).e = true := rfl
@[simp] theorem State.resetSignal_cycles : (s.resetSignal).cycles = 0 := rfl
@[simp] theorem State.resetSignal_run : (s.resetSignal).run = .running := rfl
@[simp] theorem State.resetSignal_nmiPending : (s.resetSignal).nmiPending = false := rfl
@[simp] theorem State.resetSignal_irqLine : (s.resetSignal).irqLine = s.irqLine := rfl
@[simp] theorem State.resetSignal_inputs : (s.resetSignal).inputs = s.inputs := rfl
@[simp] theorem State.resetSignal_wram : (s.resetSignal).wram = s.wram := rfl
@[simp] theorem State.resetSignal_sram : (s.resetSignal).sram = s.sram := rfl
@[simp] theorem State.resetSignal_intRegs : (s.resetSignal).intRegs = s.intRegs := rfl
@[simp] theorem State.resetSignal_ioLog : (s.resetSignal).ioLog = s.ioLog := rfl
@[simp] theorem State.resetSignal_params : (s.resetSignal).params = s.params := rfl
@[simp] theorem State.resetSignal_draws : (s.resetSignal).draws = s.draws := rfl

/-! ### The fault state -/

@[simp] theorem State.faultedWith_a (f : Fault) : (s.faultedWith f).a = s.a := rfl
@[simp] theorem State.faultedWith_x (f : Fault) : (s.faultedWith f).x = s.x := rfl
@[simp] theorem State.faultedWith_y (f : Fault) : (s.faultedWith f).y = s.y := rfl
@[simp] theorem State.faultedWith_sp (f : Fault) : (s.faultedWith f).sp = s.sp := rfl
@[simp] theorem State.faultedWith_d (f : Fault) : (s.faultedWith f).d = s.d := rfl
@[simp] theorem State.faultedWith_pc (f : Fault) : (s.faultedWith f).pc = s.pc := rfl
@[simp] theorem State.faultedWith_pbr (f : Fault) : (s.faultedWith f).pbr = s.pbr := rfl
@[simp] theorem State.faultedWith_dbr (f : Fault) : (s.faultedWith f).dbr = s.dbr := rfl
@[simp] theorem State.faultedWith_p (f : Fault) : (s.faultedWith f).p = s.p := rfl
@[simp] theorem State.faultedWith_e (f : Fault) : (s.faultedWith f).e = s.e := rfl
@[simp] theorem State.faultedWith_cycles (f : Fault) : (s.faultedWith f).cycles = s.cycles := rfl
@[simp] theorem State.faultedWith_run (f : Fault) : (s.faultedWith f).run = .faulted f := rfl
@[simp] theorem State.faultedWith_nmiPending (f : Fault) : (s.faultedWith f).nmiPending = s.nmiPending := rfl
@[simp] theorem State.faultedWith_irqLine (f : Fault) : (s.faultedWith f).irqLine = s.irqLine := rfl
@[simp] theorem State.faultedWith_inputs (f : Fault) : (s.faultedWith f).inputs = s.inputs := rfl
@[simp] theorem State.faultedWith_wram (f : Fault) : (s.faultedWith f).wram = f.left.wram := rfl
@[simp] theorem State.faultedWith_sram (f : Fault) : (s.faultedWith f).sram = f.left.sram := rfl
@[simp] theorem State.faultedWith_intRegs (f : Fault) : (s.faultedWith f).intRegs = f.left.intRegs := rfl
@[simp] theorem State.faultedWith_ioLog (f : Fault) : (s.faultedWith f).ioLog = f.left.ioLog := rfl
@[simp] theorem State.faultedWith_params (f : Fault) : (s.faultedWith f).params = s.params := rfl
@[simp] theorem State.faultedWith_draws (f : Fault) : (s.faultedWith f).draws = s.draws := rfl

/-! ### `Normalize` -/

@[simp] theorem State.normalizeE_a : s.normalizeE.a = s.a := by
  unfold State.normalizeE; split <;> rfl
@[simp] theorem State.normalizeX_a : s.normalizeX.a = s.a := by
  unfold State.normalizeX; split <;> rfl
@[simp] theorem State.normalize_a : s.normalize.a = s.a := by simp [State.normalize]
@[simp] theorem State.normalizeE_d : s.normalizeE.d = s.d := by
  unfold State.normalizeE; split <;> rfl
@[simp] theorem State.normalizeX_d : s.normalizeX.d = s.d := by
  unfold State.normalizeX; split <;> rfl
@[simp] theorem State.normalize_d : s.normalize.d = s.d := by simp [State.normalize]
@[simp] theorem State.normalizeE_pc : s.normalizeE.pc = s.pc := by
  unfold State.normalizeE; split <;> rfl
@[simp] theorem State.normalizeX_pc : s.normalizeX.pc = s.pc := by
  unfold State.normalizeX; split <;> rfl
@[simp] theorem State.normalize_pc : s.normalize.pc = s.pc := by simp [State.normalize]
@[simp] theorem State.normalizeE_pbr : s.normalizeE.pbr = s.pbr := by
  unfold State.normalizeE; split <;> rfl
@[simp] theorem State.normalizeX_pbr : s.normalizeX.pbr = s.pbr := by
  unfold State.normalizeX; split <;> rfl
@[simp] theorem State.normalize_pbr : s.normalize.pbr = s.pbr := by simp [State.normalize]
@[simp] theorem State.normalizeE_dbr : s.normalizeE.dbr = s.dbr := by
  unfold State.normalizeE; split <;> rfl
@[simp] theorem State.normalizeX_dbr : s.normalizeX.dbr = s.dbr := by
  unfold State.normalizeX; split <;> rfl
@[simp] theorem State.normalize_dbr : s.normalize.dbr = s.dbr := by simp [State.normalize]
@[simp] theorem State.normalizeE_e : s.normalizeE.e = s.e := by
  unfold State.normalizeE; split <;> rfl
@[simp] theorem State.normalizeX_e : s.normalizeX.e = s.e := by
  unfold State.normalizeX; split <;> rfl
@[simp] theorem State.normalize_e : s.normalize.e = s.e := by simp [State.normalize]
@[simp] theorem State.normalizeE_cycles : s.normalizeE.cycles = s.cycles := by
  unfold State.normalizeE; split <;> rfl
@[simp] theorem State.normalizeX_cycles : s.normalizeX.cycles = s.cycles := by
  unfold State.normalizeX; split <;> rfl
@[simp] theorem State.normalize_cycles : s.normalize.cycles = s.cycles := by simp [State.normalize]
@[simp] theorem State.normalizeE_run : s.normalizeE.run = s.run := by
  unfold State.normalizeE; split <;> rfl
@[simp] theorem State.normalizeX_run : s.normalizeX.run = s.run := by
  unfold State.normalizeX; split <;> rfl
@[simp] theorem State.normalize_run : s.normalize.run = s.run := by simp [State.normalize]
@[simp] theorem State.normalizeE_nmiPending : s.normalizeE.nmiPending = s.nmiPending := by
  unfold State.normalizeE; split <;> rfl
@[simp] theorem State.normalizeX_nmiPending : s.normalizeX.nmiPending = s.nmiPending := by
  unfold State.normalizeX; split <;> rfl
@[simp] theorem State.normalize_nmiPending : s.normalize.nmiPending = s.nmiPending := by simp [State.normalize]
@[simp] theorem State.normalizeE_irqLine : s.normalizeE.irqLine = s.irqLine := by
  unfold State.normalizeE; split <;> rfl
@[simp] theorem State.normalizeX_irqLine : s.normalizeX.irqLine = s.irqLine := by
  unfold State.normalizeX; split <;> rfl
@[simp] theorem State.normalize_irqLine : s.normalize.irqLine = s.irqLine := by simp [State.normalize]
@[simp] theorem State.normalizeE_inputs : s.normalizeE.inputs = s.inputs := by
  unfold State.normalizeE; split <;> rfl
@[simp] theorem State.normalizeX_inputs : s.normalizeX.inputs = s.inputs := by
  unfold State.normalizeX; split <;> rfl
@[simp] theorem State.normalize_inputs : s.normalize.inputs = s.inputs := by simp [State.normalize]
@[simp] theorem State.normalizeE_wram : s.normalizeE.wram = s.wram := by
  unfold State.normalizeE; split <;> rfl
@[simp] theorem State.normalizeX_wram : s.normalizeX.wram = s.wram := by
  unfold State.normalizeX; split <;> rfl
@[simp] theorem State.normalize_wram : s.normalize.wram = s.wram := by simp [State.normalize]
@[simp] theorem State.normalizeE_sram : s.normalizeE.sram = s.sram := by
  unfold State.normalizeE; split <;> rfl
@[simp] theorem State.normalizeX_sram : s.normalizeX.sram = s.sram := by
  unfold State.normalizeX; split <;> rfl
@[simp] theorem State.normalize_sram : s.normalize.sram = s.sram := by simp [State.normalize]
@[simp] theorem State.normalizeE_intRegs : s.normalizeE.intRegs = s.intRegs := by
  unfold State.normalizeE; split <;> rfl
@[simp] theorem State.normalizeX_intRegs : s.normalizeX.intRegs = s.intRegs := by
  unfold State.normalizeX; split <;> rfl
@[simp] theorem State.normalize_intRegs : s.normalize.intRegs = s.intRegs := by simp [State.normalize]
@[simp] theorem State.normalizeE_ioLog : s.normalizeE.ioLog = s.ioLog := by
  unfold State.normalizeE; split <;> rfl
@[simp] theorem State.normalizeX_ioLog : s.normalizeX.ioLog = s.ioLog := by
  unfold State.normalizeX; split <;> rfl
@[simp] theorem State.normalize_ioLog : s.normalize.ioLog = s.ioLog := by simp [State.normalize]
@[simp] theorem State.normalizeE_params : s.normalizeE.params = s.params := by
  unfold State.normalizeE; split <;> rfl
@[simp] theorem State.normalizeX_params : s.normalizeX.params = s.params := by
  unfold State.normalizeX; split <;> rfl
@[simp] theorem State.normalize_params : s.normalize.params = s.params := by simp [State.normalize]
@[simp] theorem State.normalizeE_draws : s.normalizeE.draws = s.draws := by
  unfold State.normalizeE; split <;> rfl
@[simp] theorem State.normalizeX_draws : s.normalizeX.draws = s.draws := by
  unfold State.normalizeX; split <;> rfl
@[simp] theorem State.normalize_draws : s.normalize.draws = s.draws := by simp [State.normalize]

@[simp] theorem State.normalizeX_p : s.normalizeX.p = s.p := by
  unfold State.normalizeX; split <;> rfl
@[simp] theorem State.normalizeX_sp : s.normalizeX.sp = s.sp := by
  unfold State.normalizeX; split <;> rfl
@[simp] theorem State.normalizeE_x : s.normalizeE.x = s.x := by
  unfold State.normalizeE; split <;> rfl
@[simp] theorem State.normalizeE_y : s.normalizeE.y = s.y := by
  unfold State.normalizeE; split <;> rfl

theorem State.normalize_p :
    s.normalize.p = if s.e then putFlag (putFlag s.p .m true) .x true else s.p := by
  rw [State.normalize, State.normalizeX_p]; unfold State.normalizeE; split <;> rfl

theorem State.normalize_sp : s.normalize.sp = if s.e then pageOne s.sp else s.sp := by
  rw [State.normalize, State.normalizeX_sp]; unfold State.normalizeE; split <;> rfl

theorem State.normalize_x :
    s.normalize.x = if s.normalize.flag .x then s.x &&& 0x00FF else s.x := by
  have h : s.normalize.flag .x = s.normalizeE.flag .x := by simp [State.flag, State.normalize]
  rw [h, State.normalize, State.normalizeX]; split <;> simp

theorem State.normalize_y :
    s.normalize.y = if s.normalize.flag .x then s.y &&& 0x00FF else s.y := by
  have h : s.normalize.flag .x = s.normalizeE.flag .x := by simp [State.flag, State.normalize]
  rw [h, State.normalize, State.normalizeX]; split <;> simp

end Sys2Proof.Machine
end

