-- ==== Sys2Proof/Laws/Flags.lean ====
section
/-! SUPPORT. The fields of the status byte: reading after writing, which fields each computation leaves,
and what `Normalize` gives. -/

namespace Sys2Proof.Machine

/-! ### Single fields -/

theorem getFlag_putFlag (p : Byte) (f g : Flag) (b : Bool) :
    getFlag (putFlag p f b) g = if f = g then b else getFlag p g := by
  cases f <;> cases g <;> cases b <;> simp [getFlag, putFlag, Flag.bit]

@[simp] theorem getFlag_putFlag_same (p : Byte) (f : Flag) (b : Bool) :
    getFlag (putFlag p f b) f = b := by
  simp [getFlag_putFlag]

theorem getFlag_putFlag_of_ne (p : Byte) {f g : Flag} (b : Bool) (h : f ≠ g) :
    getFlag (putFlag p f b) g = getFlag p g := by
  simp [getFlag_putFlag, h]

/-- A status byte is its eight fields. -/
theorem status_ext {p q : Byte} (h : ∀ f, getFlag p f = getFlag q f) : p = q := by
  have h0 := h .c; have h1 := h .z; have h2 := h .i; have h3 := h .d
  have h4 := h .x; have h5 := h .m; have h6 := h .v; have h7 := h .n
  simp only [getFlag, Flag.bit] at *
  ext i hi
  simp only [← BitVec.getLsbD_eq_getElem]
  interval_cases i <;> assumption

/-- Writing a field with what it holds changes nothing. -/
theorem putFlag_getFlag (p : Byte) (f : Flag) : putFlag p f (getFlag p f) = p :=
  status_ext fun g => by
    rw [getFlag_putFlag]; split
    · next h => rw [h]
    · rfl

theorem putFlag_of_eq {p : Byte} {f : Flag} {b : Bool} (h : getFlag p f = b) : putFlag p f b = p := by
  rw [← h, putFlag_getFlag]

@[simp] theorem getFlag_and (p q : Byte) (f : Flag) : getFlag (p &&& q) f = (getFlag p f && getFlag q f) := by
  simp [getFlag]

@[simp] theorem getFlag_or (p q : Byte) (f : Flag) : getFlag (p ||| q) f = (getFlag p f || getFlag q f) := by
  simp [getFlag]

@[simp] theorem getFlag_not (p : Byte) (f : Flag) : getFlag (~~~p) f = !getFlag p f := by
  cases f <;> simp [getFlag, Flag.bit]

/-! ### The computations of results -/

/-- `setNZ` field by field (00_scope.md R14). -/
theorem getFlag_setNZ (w : Width) (v : Word) (p : Byte) (f : Flag) :
    getFlag (setNZ w v p) f =
      match f with
      | .n => msb w v
      | .z => truncate w v == 0
      | _ => getFlag p f := by
  cases f <;> simp [setNZ, getFlag_putFlag]

@[simp] theorem setNZ_n (w : Width) (v : Word) (p : Byte) : getFlag (setNZ w v p) .n = msb w v := by
  simp [getFlag_setNZ]
@[simp] theorem setNZ_z (w : Width) (v : Word) (p : Byte) :
    getFlag (setNZ w v p) .z = (truncate w v == 0) := by
  simp [getFlag_setNZ]
theorem setNZ_other (w : Width) (v : Word) (p : Byte) {f : Flag} (hn : f ≠ .n) (hz : f ≠ .z) :
    getFlag (setNZ w v p) f = getFlag p f := by
  cases f <;> simp_all [getFlag_setNZ]

@[simp] theorem truncate_truncate (w : Width) (v : Word) : truncate w (truncate w v) = truncate w v := by
  cases w <;> simp [truncate, BitVec.and_assoc]

/-- The flags a computation on a status byte may write. -/
def KeepsFlags (fs : List Flag) (p q : Byte) : Prop := ∀ f, f ∉ fs → getFlag q f = getFlag p f

theorem KeepsFlags.refl (fs : List Flag) (p : Byte) : KeepsFlags fs p p := fun _ _ => rfl

theorem KeepsFlags.trans {fs : List Flag} {p q r : Byte} (h : KeepsFlags fs p q)
    (k : KeepsFlags fs q r) : KeepsFlags fs p r := fun f hf => (k f hf).trans (h f hf)

theorem KeepsFlags.putFlag {fs : List Flag} (p : Byte) {f : Flag} (b : Bool) (h : f ∈ fs) :
    KeepsFlags fs p (putFlag p f b) := fun _ hg =>
  getFlag_putFlag_of_ne p b fun he => hg (he ▸ h)

theorem KeepsFlags.setNZ {fs : List Flag} (w : Width) (v : Word) (p : Byte)
    (hn : Flag.n ∈ fs) (hz : Flag.z ∈ fs) : KeepsFlags fs p (setNZ w v p) := fun _ hg =>
  setNZ_other w v p (fun he => hg (he ▸ hn)) (fun he => hg (he ▸ hz))

theorem addBin_keeps (w : Width) (a b : Word) (p : Byte) :
    KeepsFlags [.n, .v, .z, .c] p (addBin w a b p).2 :=
  ((KeepsFlags.putFlag _ _ (by decide)).trans (.putFlag _ _ (by decide))).trans
    (.setNZ _ _ _ (by decide) (by decide))

theorem addDec_keeps (w : Width) (a b : Word) (p : Byte) :
    KeepsFlags [.n, .v, .z, .c] p (addDec w a b p).2 :=
  ((KeepsFlags.putFlag _ _ (by decide)).trans (.putFlag _ _ (by decide))).trans
    (.setNZ _ _ _ (by decide) (by decide))

theorem subDec_keeps (w : Width) (a b : Word) (p : Byte) :
    KeepsFlags [.n, .v, .z, .c] p (subDec w a b p).2 :=
  ((KeepsFlags.putFlag _ _ (by decide)).trans (.putFlag _ _ (by decide))).trans
    (.setNZ _ _ _ (by decide) (by decide))

theorem addWithCarry_keeps (w : Width) (a b : Word) (p : Byte) :
    KeepsFlags [.n, .v, .z, .c] p (addWithCarry w a b p).2 := by
  unfold addWithCarry; split
  · exact addDec_keeps w a b p
  · exact addBin_keeps w a b p

theorem subWithBorrow_keeps (w : Width) (a b : Word) (p : Byte) :
    KeepsFlags [.n, .v, .z, .c] p (subWithBorrow w a b p).2 := by
  unfold subWithBorrow; split
  · exact subDec_keeps w a b p
  · exact addBin_keeps w a _ p

theorem withNZ_keeps (w : Width) (v : Word) (p : Byte) :
    KeepsFlags [.n, .z] p (withNZ w v p).2 := .setNZ _ _ _ (by decide) (by decide)

theorem compareFlags_keeps (w : Width) (a b : Word) (p : Byte) :
    KeepsFlags [.n, .z, .c] p (compareFlags w a b p) :=
  (KeepsFlags.putFlag _ _ (by decide)).trans (.setNZ _ _ _ (by decide) (by decide))

theorem withNZ_carry_keeps (w : Width) (v : Word) (p : Byte) (b : Bool) :
    KeepsFlags [.n, .z, .c] p (withNZ w v (putFlag p .c b)).2 :=
  (KeepsFlags.putFlag _ _ (by decide)).trans (.setNZ _ _ _ (by decide) (by decide))

theorem testZ_keeps (w : Width) (a v : Word) (p : Byte) : KeepsFlags [.z] p (testZ w a v p) :=
  .putFlag _ _ (by decide)

theorem bitFlags_keeps (w : Width) (a v : Word) (p : Byte) :
    KeepsFlags [.n, .v, .z] p (bitFlags false w a v p) :=
  ((KeepsFlags.putFlag _ _ (by decide)).trans (.putFlag _ _ (by decide))).trans
    (.putFlag _ _ (by decide))

/-! ### Bytes of words and addresses -/

@[simp] theorem toNat_loByte (w : Word) : (loByte w).toNat = w.toNat % 256 := by
  simp [loByte]

@[simp] theorem toNat_hiByte (w : Word) : (hiByte w).toNat = w.toNat / 256 := by
  have := w.isLt
  simp [hiByte, Nat.shiftRight_eq_div_pow]; omega

@[simp] theorem toNat_mkWord (l h : Byte) : (mkWord l h).toNat = h.toNat * 256 + l.toNat := by
  have hl := l.isLt
  show ((h ++ l : BitVec (8 + 8))).toNat = _
  rw [BitVec.toNat_append, ← Nat.shiftLeft_add_eq_or_of_lt hl, Nat.shiftLeft_eq]

@[simp] theorem toNat_bankOf (a : Addr) : (bankOf a).toNat = a.toNat / 65536 := by
  have := a.isLt
  simp [bankOf, Nat.shiftRight_eq_div_pow]; omega

@[simp] theorem toNat_offsetOf (a : Addr) : (offsetOf a).toNat = a.toNat % 65536 := by
  simp [offsetOf]

@[simp] theorem toNat_mkAddr (b : Byte) (o : Word) :
    (mkAddr b o).toNat = b.toNat * 65536 + o.toNat := by
  have ho := o.isLt
  show ((b ++ o : BitVec (8 + 16))).toNat = _
  rw [BitVec.toNat_append, ← Nat.shiftLeft_add_eq_or_of_lt ho, Nat.shiftLeft_eq]

@[simp] theorem loByte_mkWord (l h : Byte) : loByte (mkWord l h) = l := by
  have := l.isLt
  apply BitVec.eq_of_toNat_eq; simp; omega

@[simp] theorem hiByte_mkWord (l h : Byte) : hiByte (mkWord l h) = h := by
  have := l.isLt
  apply BitVec.eq_of_toNat_eq; simp; omega

@[simp] theorem mkWord_bytes (w : Word) : mkWord (loByte w) (hiByte w) = w := by
  apply BitVec.eq_of_toNat_eq; simp; omega

@[simp] theorem bankOf_mkAddr (b : Byte) (o : Word) : bankOf (mkAddr b o) = b := by
  have := o.isLt
  apply BitVec.eq_of_toNat_eq; simp; omega

@[simp] theorem offsetOf_mkAddr (b : Byte) (o : Word) : offsetOf (mkAddr b o) = o := by
  have := o.isLt
  apply BitVec.eq_of_toNat_eq; simp; omega

@[simp] theorem mkAddr_parts (a : Addr) : mkAddr (bankOf a) (offsetOf a) = a := by
  apply BitVec.eq_of_toNat_eq; simp; omega

theorem hiByte_eq_zero {w : Word} : hiByte w = 0 ↔ w &&& 0x00FF = w := by
  constructor
  · intro h
    have hb : ∀ i, i < 8 → w.getLsbD (8 + i) = false := fun i hi => by
      have := congrArg (fun v => BitVec.getLsbD v i) h
      simpa [hiByte, hi] using this
    ext i hi
    simp only [← BitVec.getLsbD_eq_getElem]
    by_cases h8 : i < 8
    · interval_cases i <;> simp
    · have := hb (i - 8) (by omega)
      rw [show 8 + (i - 8) = i by omega] at this
      simp [this]
  · intro h
    rw [← h]
    ext i hi
    simp only [hiByte, ← BitVec.getLsbD_eq_getElem]
    interval_cases i <;> simp

theorem hiByte_and_low (w : Word) : hiByte (w &&& 0x00FF) = 0 :=
  hiByte_eq_zero.2 (by rw [BitVec.and_assoc, BitVec.and_self])

@[simp] theorem hiByte_pageOne (w : Word) : hiByte (pageOne w) = 0x01 := by
  ext i hi
  simp only [hiByte, pageOne, ← BitVec.getLsbD_eq_getElem]
  interval_cases i <;> simp

@[simp] theorem loByte_pageOne (w : Word) : loByte (pageOne w) = loByte w := by
  ext i hi
  simp only [loByte, pageOne, ← BitVec.getLsbD_eq_getElem]
  interval_cases i <;> simp

theorem word_ext {v w : Word} (hl : loByte v = loByte w) (hh : hiByte v = hiByte w) : v = w := by
  rw [← mkWord_bytes v, ← mkWord_bytes w, hl, hh]

theorem pageOne_of_hiByte {w : Word} (h : hiByte w = 0x01) : pageOne w = w :=
  word_ext (loByte_pageOne w) (by rw [hiByte_pageOne, h])

/-! ### `Normalize` restores the invariants and keeps states that have them (10_state.md R42) -/

theorem normalize_modeInv (s : State) : s.normalize.ModeInv := by
  constructor
  · intro he
    rw [State.normalize_e] at he
    simp [State.flag, State.normalize_p, State.normalize_sp, he, getFlag_putFlag]
  · intro hx
    rw [State.normalize_x, State.normalize_y, if_pos hx, if_pos hx]
    exact ⟨hiByte_and_low _, hiByte_and_low _⟩

theorem normalize_of_modeInv {s : State} (h : s.ModeInv) : s.normalize = s := by
  have hE : s.normalizeE = s := by
    unfold State.normalizeE
    split
    · next he =>
      obtain ⟨hm, hx, hs⟩ := h.1 he
      rw [putFlag_of_eq (f := .m) hm, putFlag_of_eq (f := .x) hx, pageOne_of_hiByte hs]
    · rfl
  rw [State.normalize, hE, State.normalizeX]
  split
  · next hx =>
    obtain ⟨h1, h2⟩ := h.2 hx
    rw [hiByte_eq_zero.1 h1, hiByte_eq_zero.1 h2]
  · rfl

@[simp] theorem normalize_normalize (s : State) : s.normalize.normalize = s.normalize :=
  normalize_of_modeInv (normalize_modeInv s)

end Sys2Proof.Machine
end

