-- ==== Sys2Proof/Laws/Memory.lean ====
section
/-! SUPPORT. The byte stores: a write is read back, leaves every other index alone, and keeps the canonical
form; the mapper's accesses keep the form of every store. -/

namespace Sys2Proof.Machine

/-! ### One store -/

theorem Memory.wfFrom_cons {size lo k : Nat} {v : Byte} {m : Memory} :
    Memory.wfFrom size lo ((k, v) :: m) = true ↔
      lo ≤ k ∧ k < size ∧ v ≠ blankByte ∧ Memory.wfFrom size (k + 1) m = true := by
  simp [Memory.wfFrom, and_assoc]

theorem Memory.wfFrom_mono {size : Nat} {m : Memory} {lo lo' : Nat} (hle : lo' ≤ lo)
    (h : Memory.wfFrom size lo m = true) : Memory.wfFrom size lo' m = true := by
  cases m with
  | nil => rfl
  | cons c m =>
    obtain ⟨h1, h2⟩ := Memory.wfFrom_cons.1 h
    exact Memory.wfFrom_cons.2 ⟨hle.trans h1, h2⟩

/-- Below its first index a store is blank. -/
theorem Memory.read_below {size : Nat} {m : Memory} {lo i : Nat}
    (h : Memory.wfFrom size lo m = true) (hi : i < lo) : Memory.read m i = blankByte := by
  induction m generalizing lo with
  | nil => rfl
  | cons c m ih =>
    obtain ⟨h1, -, -, h4⟩ := Memory.wfFrom_cons.1 h
    rw [Memory.read, if_neg (by omega)]
    exact ih h4 (by omega)

theorem Memory.read_cons_self {size : Nat} {m : Memory} {i : Nat} (v : Byte)
    (h : Memory.wfFrom size (i + 1) m = true) : Memory.read (Memory.cons i v m) i = v := by
  unfold Memory.cons
  split
  · next hv => rw [hv]; exact Memory.read_below h (by omega)
  · simp [Memory.read]

theorem Memory.read_cons_ne {m : Memory} {i j : Nat} (v : Byte) (h : j ≠ i) :
    Memory.read (Memory.cons i v m) j = Memory.read m j := by
  unfold Memory.cons
  split
  · rfl
  · rw [Memory.read, if_neg h.symm]

/-- A write is read back. -/
theorem Memory.read_write_self {size : Nat} {m : Memory} {lo i : Nat} (v : Byte)
    (h : Memory.wfFrom size lo m = true) : Memory.read (Memory.write m i v) i = v := by
  induction m generalizing lo with
  | nil => exact Memory.read_cons_self (size := size) v rfl
  | cons c m ih =>
    obtain ⟨k, u⟩ := c
    obtain ⟨-, h2, h3, h4⟩ := Memory.wfFrom_cons.1 h
    unfold Memory.write
    split
    · next hk => rw [Memory.read, if_neg (by omega)]; exact ih h4
    · split
      · next hk => subst hk; exact Memory.read_cons_self v h4
      · exact Memory.read_cons_self v (Memory.wfFrom_cons.2 ⟨by omega, h2, h3, h4⟩)

/-- A write leaves every other index alone. -/
theorem Memory.read_write_ne {m : Memory} {i j : Nat} (v : Byte) (h : j ≠ i) :
    Memory.read (Memory.write m i v) j = Memory.read m j := by
  induction m with
  | nil => exact Memory.read_cons_ne v h
  | cons c m ih =>
    obtain ⟨k, u⟩ := c
    unfold Memory.write
    split
    · rw [Memory.read, Memory.read, ih]
    · split
      · next hk => rw [Memory.read_cons_ne v h, Memory.read, if_neg (by omega)]
      · exact Memory.read_cons_ne v h

theorem Memory.wfFrom_consCell {size : Nat} {m : Memory} {lo i : Nat} (v : Byte)
    (h : Memory.wfFrom size (i + 1) m = true) (hlo : lo ≤ i) (hi : i < size) :
    Memory.wfFrom size lo (Memory.cons i v m) = true := by
  unfold Memory.cons
  split
  · exact Memory.wfFrom_mono (by omega) h
  · next hv => exact Memory.wfFrom_cons.2 ⟨hlo, hi, hv, h⟩

/-- A write keeps the canonical form. -/
theorem Memory.write_wfFrom {size : Nat} {m : Memory} {lo i : Nat} (v : Byte)
    (h : Memory.wfFrom size lo m = true) (hlo : lo ≤ i) (hi : i < size) :
    Memory.wfFrom size lo (Memory.write m i v) = true := by
  induction m generalizing lo with
  | nil => exact Memory.wfFrom_consCell v rfl hlo hi
  | cons c m ih =>
    obtain ⟨k, u⟩ := c
    obtain ⟨h1, h2, h3, h4⟩ := Memory.wfFrom_cons.1 h
    unfold Memory.write
    split
    · next hk => exact Memory.wfFrom_cons.2 ⟨h1, h2, h3, ih h4 hk⟩
    · split
      · next hk => subst hk; exact Memory.wfFrom_consCell v h4 hlo hi
      · exact Memory.wfFrom_consCell v (Memory.wfFrom_cons.2 ⟨by omega, h2, h3, h4⟩) hlo hi

theorem Memory.write_wf {size : Nat} {m : Memory} {i : Nat} (v : Byte)
    (h : Memory.wf size m = true) (hi : i < size) : Memory.wf size (Memory.write m i v) = true :=
  Memory.write_wfFrom v h (Nat.zero_le i) hi

theorem Memory.ofBytes_wfFrom (vs : List Byte) (i size : Nat) (h : i + vs.length ≤ size) :
    Memory.wfFrom size i (Memory.ofBytes i vs) = true := by
  induction vs generalizing i with
  | nil => rfl
  | cons v vs ih =>
    simp only [List.length_cons] at h
    exact Memory.wfFrom_consCell v (ih (i + 1) (by omega)) (Nat.le_refl i) (by omega)

theorem routeUpperRom_ne_wram (p : Params) (bank offset i : Nat) :
    routeUpperRom p bank offset ≠ .ok (.wram i) := by
  unfold routeUpperRom
  split <;> simp

theorem routeRom_ne_wram (p : Params) (bank offset i : Nat) :
    routeRom p bank offset ≠ .ok (.wram i) := by
  unfold routeRom
  split
  · simp
  · exact routeUpperRom_ne_wram p bank offset i

theorem routeExpansion_ne_wram (p : Params) (bank offset i : Nat) :
    routeExpansion p bank offset ≠ .ok (.wram i) := by
  unfold routeExpansion
  split
  · simp
  all_goals split <;> simp

/-- In a system bank, WRAM is reached at its low 8 KiB only (20_memory.md R78, R79). -/
theorem routeSystem_wram {p : Params} {bank offset i : Nat}
    (h : routeSystem p bank offset = .ok (.wram i)) : i = offset ∧ offset ≤ 0x1FFF := by
  unfold routeSystem at h
  by_cases h1 : offset ≤ 0x1FFF
  · rw [if_pos h1] at h
    injection h with h; injection h with h
    exact ⟨h.symm, h1⟩
  · rw [if_neg h1] at h
    repeat' split at h
    all_goals first
      | exact absurd h (routeExpansion_ne_wram _ _ _ _)
      | exact absurd h (routeUpperRom_ne_wram _ _ _ _)
      | simp at h

theorem bankClass_ram {bank : Nat} (h : bankClass bank = .ram) : bank = 0x7E ∨ bank = 0x7F := by
  by_contra hc
  obtain ⟨h1, h2⟩ := not_or.1 hc
  unfold bankClass at h
  split at h
  · exact absurd h (by decide)
  · simp [h1, h2] at h

/-- Every access that the region table sends to WRAM stays inside it (20_memory.md R79, R81). -/
theorem route_wram_lt {p : Params} {bank offset i : Nat} (h : route p bank offset = .ok (.wram i))
    (ho : offset ≤ 0xFFFF) : i < Config.wramSize := by
  unfold route at h
  split at h
  · obtain ⟨rfl, h1⟩ := routeSystem_wram h
    simp only [Config.wramSize]; omega
  · exact absurd h (routeRom_ne_wram _ _ _ _)
  · next hk =>
    have := bankClass_ram hk
    injection h with h; injection h with h
    subst h; simp only [Config.wramSize]; omega

end Sys2Proof.Machine
end

