-- ==== Sys2Proof/Laws/Bus.lean ====
section
/-! SUPPORT. What an access through the mapper can do: it answers, and then it has changed only what the
mapper holds, or it raises. -/

namespace Sys2Proof.Machine

/-! ### Sequences of operations that may raise -/

theorem Except.bind_ok {ε α β : Type} {x : Except ε α} {f : α → Except ε β} {r : β} :
    (x >>= f) = .ok r ↔ ∃ a, x = .ok a ∧ f a = .ok r := by
  cases x <;> simp [bind, Except.bind]

@[simp] theorem Except.ok_bind {ε α β : Type} (a : α) (f : α → Except ε β) :
    ((.ok a : Except ε α) >>= f) = f a := rfl

@[simp] theorem Except.pure_ok {ε α : Type} (a : α) : (pure a : Except ε α) = .ok a := rfl

/-! ### The three shapes of change -/

/-- Only reads were made: the log and the number of draws have grown. -/
def Reads (s t : State) : Prop :=
  ∃ l k, t = { s with ioLog := s.ioLog ++ l, draws := s.draws + k }

/-- Reads and writes were made: nothing outside the mapper has changed. -/
def Bus (s t : State) : Prop :=
  ∃ w m r l k, t = { s with wram := w, sram := m, intRegs := r, ioLog := s.ioLog ++ l, draws := s.draws + k }

/-- As `Bus`, and the stack pointer may have moved. -/
def Stacked (s t : State) : Prop := ∃ sp, Bus { s with sp := sp } t

/-- As `Reads`, and the stack pointer may have moved. -/
def Pulled (s t : State) : Prop := ∃ sp, Reads { s with sp := sp } t

theorem Reads.refl (s : State) : Reads s s := ⟨[], 0, by simp⟩

theorem Reads.trans {s t u : State} (h : Reads s t) (k : Reads t u) : Reads s u := by
  obtain ⟨l, a, rfl⟩ := h; obtain ⟨l', b, rfl⟩ := k
  exact ⟨l ++ l', a + b, by simp [Nat.add_assoc]⟩

theorem Reads.bus {s t : State} (h : Reads s t) : Bus s t := by
  obtain ⟨l, a, rfl⟩ := h
  exact ⟨_, _, _, l, a, rfl⟩

theorem Bus.refl (s : State) : Bus s s := (Reads.refl s).bus

theorem Bus.trans {s t u : State} (h : Bus s t) (k : Bus t u) : Bus s u := by
  obtain ⟨_, _, _, l, a, rfl⟩ := h; obtain ⟨w, m, r, l', b, rfl⟩ := k
  exact ⟨w, m, r, l ++ l', a + b, by simp [Nat.add_assoc]⟩

theorem Bus.stacked {s t : State} (h : Bus s t) : Stacked s t := ⟨s.sp, h⟩

theorem Stacked.refl (s : State) : Stacked s s := (Bus.refl s).stacked

theorem Stacked.trans {s t u : State} (h : Stacked s t) (k : Stacked t u) : Stacked s u := by
  obtain ⟨p, _, _, _, l, a, rfl⟩ := h; obtain ⟨q, w, m, r, l', b, rfl⟩ := k
  exact ⟨q, w, m, r, l ++ l', a + b, by simp [Nat.add_assoc]⟩

theorem Pulled.refl (s : State) : Pulled s s := ⟨s.sp, Reads.refl s⟩

theorem Pulled.trans {s t u : State} (h : Pulled s t) (k : Pulled t u) : Pulled s u := by
  obtain ⟨p, l, a, rfl⟩ := h; obtain ⟨q, l', b, rfl⟩ := k
  exact ⟨q, l ++ l', a + b, by simp [Nat.add_assoc]⟩

theorem Pulled.stacked {s t : State} (h : Pulled s t) : Stacked s t := by
  obtain ⟨p, h⟩ := h; exact ⟨p, h.bus⟩

theorem Reads.pulled {s t : State} (h : Reads s t) : Pulled s t := ⟨s.sp, h⟩

/-- What a change through the mapper never touches. -/
theorem Reads.same {s t : State} (h : Reads s t) :
    t.wram = s.wram ∧ t.sram = s.sram ∧ t.intRegs = s.intRegs ∧ t.params = s.params := by
  obtain ⟨l, a, rfl⟩ := h; exact ⟨rfl, rfl, rfl, rfl⟩

/-! ### Single accesses -/

theorem readFacade_reads {dev : Device} {b o : Nat} {s t : State} {v : Byte}
    (h : readFacade dev b o s = .ok (v, t)) : Reads s t := by
  unfold readFacade at h
  split at h
  · cases h
  · cases h; exact ⟨[_], 1, rfl⟩

theorem readIntReg_reads {b o : Nat} {s t : State} {v : Byte}
    (h : readIntReg b o s = .ok (v, t)) : Reads s t := by
  unfold readIntReg at h
  split at h
  · cases h
  · cases h
  · cases h; exact ⟨[_], 1, rfl⟩

theorem readRoute_reads {r : Route} {b o : Nat} {s t : State} {v : Byte}
    (h : readRoute r b o s = .ok (v, t)) : Reads s t := by
  unfold readRoute at h
  split at h
  · cases h; exact Reads.refl _
  · split at h <;> cases h; exact Reads.refl _
  · cases h
  · split at h <;> cases h; exact Reads.refl _
  · exact readFacade_reads h
  · exact readIntReg_reads h

theorem rangeCheck_ok {b o : Nat} : rangeCheck b o = .ok () ↔ b ≤ 0xFF ∧ o ≤ 0xFFFF := by
  unfold rangeCheck
  split
  · simp only [reduceCtorEq, false_iff]; omega
  · split
    · simp only [reduceCtorEq, false_iff]; omega
    · simp only [true_iff]; omega

/-- An access reaches a place when it is in range and the region table names that place. -/
theorem locate_ok {b o : Nat} {s : State} {r : Route} :
    locate b o s = .ok r ↔ (b ≤ 0xFF ∧ o ≤ 0xFFFF) ∧ route s.params b o = .ok r := by
  unfold locate
  split
  · next h =>
    simp only [reduceCtorEq, false_iff]
    intro hc; rw [rangeCheck_ok.2 hc.1] at h; cases h
  · next h =>
    rw [rangeCheck_ok] at h
    split <;> simp_all

/-- Where an access in range is routed. -/
theorem locate_eq {b o : Nat} (s : State) (hb : b ≤ 0xFF) (ho : o ≤ 0xFFFF) :
    locate b o s =
      match route s.params b o with
      | .error e => .error (e s.remains)
      | .ok r => .ok r := by
  unfold locate; rw [rangeCheck_ok.2 ⟨hb, ho⟩] <;> rfl

/-- An access that answers names a place, and that place answers. -/
theorem accessRead_ok {b o : Nat} {s : State} {p : Byte × State} (h : accessRead b o s = .ok p) :
    ∃ r, route s.params b o = .ok r ∧ readRoute r b o s = .ok p := by
  obtain ⟨r, hr, h⟩ := Except.bind_ok.1 h
  exact ⟨r, (locate_ok.1 hr).2, h⟩

theorem accessWrite_ok {b o : Nat} {v : Byte} {s t : State} (h : accessWrite b o v s = .ok t) :
    ∃ r, route s.params b o = .ok r ∧ writeRoute r b o v s = .ok t := by
  obtain ⟨r, hr, h⟩ := Except.bind_ok.1 h
  exact ⟨r, (locate_ok.1 hr).2, h⟩

theorem accessRead_reads {b o : Nat} {s t : State} {v : Byte}
    (h : accessRead b o s = .ok (v, t)) : Reads s t := by
  obtain ⟨r, -, h⟩ := accessRead_ok h
  exact readRoute_reads h

/-- What a write at a place changes. -/
theorem writeRoute_ok {r : Route} {b o : Nat} {v : Byte} {s t : State}
    (h : writeRoute r b o v s = .ok t) :
    (∃ i, r = .wram i ∧ t = { s with wram := Memory.write s.wram i v }) ∨
    (∃ i, r = .sram i ∧ i < s.params.sramSize ∧ t = { s with sram := Memory.write s.sram i v }) ∨
    (∃ dev, r = .facade dev ∧ t = s.log (.facadeWrite dev (BitVec.ofNat 16 o) v)) ∨
    (r = .intReg ∧ ∃ x, intRegAt o = some (.w x) ∧
      t = { s with intRegs := s.intRegs.set x v }.log (.intRegWrite x v)) := by
  unfold writeRoute at h
  split at h
  · cases h; exact .inl ⟨_, rfl, rfl⟩
  · split at h
    · next hi => cases h; exact .inr (.inl ⟨_, rfl, hi, rfl⟩)
    · cases h
  · cases h
  · unfold writeFacade at h
    split at h
    · cases h
    · cases h; exact .inr (.inr (.inl ⟨_, rfl, rfl⟩))
  · unfold writeIntReg at h
    split at h
    · cases h
    · cases h
    · next x hx => cases h; exact .inr (.inr (.inr ⟨rfl, x, hx, rfl⟩))

theorem accessWrite_bus {b o : Nat} {v : Byte} {s t : State} (h : accessWrite b o v s = .ok t) :
    Bus s t := by
  obtain ⟨r, -, h⟩ := accessWrite_ok h
  obtain ⟨i, -, rfl⟩ | ⟨i, -, -, rfl⟩ | ⟨d, -, rfl⟩ | ⟨-, x, -, rfl⟩ := writeRoute_ok h
  · exact ⟨Memory.write s.wram i v, s.sram, s.intRegs, [], 0, by simp⟩
  · exact ⟨s.wram, Memory.write s.sram i v, s.intRegs, [], 0, by simp⟩
  · exact ⟨s.wram, s.sram, s.intRegs, [_], 0, rfl⟩
  · exact ⟨s.wram, s.sram, _, [_], 0, rfl⟩

theorem read8_reads {a : Addr} {s t : State} {v : Byte} (h : read8 a s = .ok (v, t)) : Reads s t :=
  accessRead_reads h

theorem write8_bus {a : Addr} {v : Byte} {s t : State} (h : write8 a v s = .ok t) : Bus s t :=
  accessWrite_bus h

/-! ### The canonical form is kept -/

theorem Reads.storesWf {s t : State} (h : Reads s t) (w : s.StoresWf) : t.StoresWf := by
  obtain ⟨l, a, rfl⟩ := h; exact w

theorem accessWrite_storesWf {b o : Nat} {v : Byte} {s t : State} (h : accessWrite b o v s = .ok t)
    (w : s.StoresWf) : t.StoresWf := by
  obtain ⟨r, hr, h⟩ := Except.bind_ok.1 h
  obtain ⟨⟨-, ho⟩, hroute⟩ := locate_ok.1 hr
  obtain ⟨i, rfl, rfl⟩ | ⟨i, -, hi, rfl⟩ | ⟨d, -, rfl⟩ | ⟨-, x, -, rfl⟩ := writeRoute_ok h
  · exact ⟨Memory.write_wf v w.1 (route_wram_lt hroute ho), w.2⟩
  · exact ⟨w.1, Memory.write_wf v w.2.1 hi, w.2.2⟩
  · exact w
  · exact w

theorem write8_storesWf {a : Addr} {v : Byte} {s t : State} (h : write8 a v s = .ok t)
    (w : s.StoresWf) : t.StoresWf := accessWrite_storesWf h w

/-! ### Reading a byte that a read has no effect on -/

/-- A 24-bit address is in range (20_memory.md R74). -/
theorem locate_addr (a : Addr) (s : State) :
    locate (bankOf a).toNat (offsetOf a).toNat s =
      match route s.params (bankOf a).toNat (offsetOf a).toNat with
      | .error e => .error (e s.remains)
      | .ok r => .ok r :=
  locate_eq s (by have := (bankOf a).isLt; omega) (by have := (offsetOf a).isLt; omega)

/-- Where `peek` sees a byte, a read answers it and changes nothing (20_memory.md R103). -/
theorem read8_of_peek {s : State} {a : Addr} {v : Byte} (h : peek s a = some v) :
    read8 a s = .ok (v, s) := by
  unfold peek at h
  unfold read8 accessRead
  rw [locate_addr]
  split at h
  · next hr => rw [hr]; cases h; rfl
  · next hr =>
    split at h
    · next hi => rw [hr, Except.ok_bind, readRoute, if_pos hi]; cases h; rfl
    · cases h
  · next hr =>
    split at h
    · next hi => rw [hr, Except.ok_bind, readRoute, if_pos hi]; cases h; rfl
    · cases h
  · cases h

/-- `peek` looks at the stores and the parameters only. -/
theorem peek_congr {s t : State} (hw : t.wram = s.wram) (hm : t.sram = s.sram)
    (hp : t.params = s.params) (a : Addr) : peek t a = peek s a := by
  unfold peek; rw [hw, hm, hp]

theorem Reads.peek {s t : State} (h : Reads s t) (a : Addr) : peek t a = peek s a :=
  peek_congr h.same.1 h.same.2.1 h.same.2.2.2 a

theorem Bus.params {s t : State} (h : Bus s t) : t.params = s.params := by
  obtain ⟨_, _, _, _, _, rfl⟩ := h; rfl

/-- The byte of a cell, where it is one of WRAM, save RAM or ROM. -/
def cellByte (s : State) : Route → Option Byte
  | .wram i => some (Memory.read s.wram i)
  | .sram i => if i < s.params.sramSize then some (Memory.read s.sram i) else none
  | .rom (some i) => if i < s.params.romSize then some (Memory.read s.params.rom i) else none
  | .rom none => none
  | .facade _ => none
  | .intReg => none

theorem peek_eq_cellByte (s : State) (a : Addr) : Machine.peek s a = (cellAt s.params a).bind (cellByte s) := by
  unfold Machine.peek cellAt
  cases hr : route s.params (bankOf a).toNat (offsetOf a).toNat with
  | error e => rfl
  | ok r =>
    cases r with
    | rom j => cases j <;> rfl
    | _ => rfl

/-- A write leaves every byte under another name alone. -/
theorem write8_peek_ne {a b : Addr} {v : Byte} {s t : State} (h : write8 a v s = .ok t)
    (hne : cellAt s.params b ≠ cellAt s.params a) : Machine.peek t b = Machine.peek s b := by
  have hp := (write8_bus h).params
  obtain ⟨r, hr, h⟩ := accessWrite_ok h
  rw [peek_eq_cellByte, peek_eq_cellByte, hp]
  have ha : cellAt s.params a = some r := by unfold cellAt; rw [hr]
  rw [ha] at hne
  cases hb : cellAt s.params b with
  | none => rfl
  | some q =>
    rw [hb] at hne
    have hqr : q ≠ r := fun he => hne (congrArg some he)
    obtain ⟨i, rfl, rfl⟩ | ⟨i, rfl, -, rfl⟩ | ⟨d, -, rfl⟩ | ⟨-, x, -, rfl⟩ := writeRoute_ok h
    · cases q with
      | wram j => exact congrArg some (Memory.read_write_ne v fun he => hqr (congrArg Route.wram he))
      | rom j => cases j <;> rfl
      | _ => rfl
    · cases q with
      | sram j =>
        simp only [Option.bind_some, cellByte]
        rw [Memory.read_write_ne v fun he => hqr (congrArg Route.sram he)]
      | rom j => cases j <;> rfl
      | _ => rfl
    all_goals
      cases q with
      | rom j => cases j <;> rfl
      | _ => rfl

/-- The store and index a write reaches hold the byte afterwards. -/
theorem write8_peek_self {a : Addr} {v : Byte} {s t : State} (h : write8 a v s = .ok t)
    (w : s.StoresWf) (hs : (Machine.peek s a).isSome = true) : Machine.peek t a = some v := by
  have hp := (write8_bus h).params
  obtain ⟨r, hr, h⟩ := accessWrite_ok h
  have ha : cellAt s.params a = some r := by unfold cellAt; rw [hr]
  rw [peek_eq_cellByte, ha] at hs
  rw [peek_eq_cellByte, hp, ha]
  obtain ⟨i, rfl, rfl⟩ | ⟨i, rfl, hi, rfl⟩ | ⟨d, rfl, -⟩ | ⟨rfl, x, -, -⟩ := writeRoute_ok h
  · exact congrArg some (Memory.read_write_self v w.1)
  · simp only [Option.bind_some, cellByte, if_pos hi]
    rw [Memory.read_write_self v w.2.1]
  · simp [cellByte] at hs
  · simp [cellByte] at hs

/-- The cell of an address that holds a byte a program can write: WRAM, or save RAM within its size. -/
theorem write8_ok_of_cell {a : Addr} (v : Byte) {s : State} {r : Route} (hr : cellAt s.params a = some r)
    (hram : (∃ i, r = .wram i) ∨ ∃ i, r = .sram i ∧ i < s.params.sramSize) :
    ∃ t, write8 a v s = .ok t := by
  have hroute : route s.params (bankOf a).toNat (offsetOf a).toNat = .ok r := by
    unfold cellAt at hr
    split at hr
    · next h => rw [h, Option.some.inj hr]
    · cases hr
  unfold write8 accessWrite
  rw [locate_addr, hroute, Except.ok_bind]
  obtain ⟨i, rfl⟩ | ⟨i, rfl, hi⟩ := hram
  · exact ⟨_, rfl⟩
  · exact ⟨_, by rw [writeRoute, if_pos hi]⟩

end Sys2Proof.Machine
end

