-- ==== Sys2Proof/Laws/Operands.lean ====
section
/-! SUPPORT. One lemma per shared operation that says once what it can do: data wider than a byte, the
stack, the operand forms, and the entry and the return of interrupts. -/

namespace Sys2Proof.Machine

/-! ### When a byte access answers -/

theorem route_of_cellAt {p : Params} {a : Addr} {r : Route} (h : cellAt p a = some r) :
    route p (bankOf a).toNat (offsetOf a).toNat = .ok r := by
  unfold cellAt at h
  split at h
  · next hr => rw [hr, Option.some.inj h]
  · cases h

theorem read8_eq {s : State} {a : Addr} {r : Route} (h : cellAt s.params a = some r) :
    read8 a s = readRoute r (bankOf a).toNat (offsetOf a).toNat s := by
  unfold read8 accessRead
  rw [locate_addr, route_of_cellAt h, Except.ok_bind]

theorem write8_eq {s : State} {a : Addr} {r : Route} (v : Byte) (h : cellAt s.params a = some r) :
    write8 a v s = writeRoute r (bankOf a).toNat (offsetOf a).toNat v s := by
  unfold write8 accessWrite
  rw [locate_addr, route_of_cellAt h, Except.ok_bind]

theorem ofNat_offset (a : Addr) : BitVec.ofNat 16 (offsetOf a).toNat = offsetOf a :=
  BitVec.eq_of_toNat_eq (by simp)

/-- A readable address answers a byte. -/
theorem read8_of_readable {s : State} {a : Addr} (h : readable s.params a = true) :
    ∃ v t, read8 a s = .ok (v, t) := by
  unfold readable at h
  split at h
  · next hc => rw [read8_eq hc]; exact ⟨_, _, rfl⟩
  · next hc => rw [read8_eq hc, readRoute, if_pos (by simpa using h)]; exact ⟨_, _, rfl⟩
  · next hc => rw [read8_eq hc, readRoute, if_pos (by simpa using h)]; exact ⟨_, _, rfl⟩
  · cases h
  · next hc =>
    rw [read8_eq hc, readRoute, readFacade, ofNat_offset, if_neg (by simpa using h)]
    exact ⟨_, _, rfl⟩
  · next hc =>
    rw [read8_eq hc, readRoute, readIntReg]
    split at h
    · next hr => rw [hr]; exact ⟨_, _, rfl⟩
    · cases h
    · cases h
  · cases h

/-- A writable address accepts a byte. -/
theorem write8_of_writable {s : State} {a : Addr} (v : Byte) (h : writable s.params a = true) :
    ∃ t, write8 a v s = .ok t := by
  unfold writable at h
  split at h
  · next hc => rw [write8_eq v hc]; exact ⟨_, rfl⟩
  · next hc => rw [write8_eq v hc, writeRoute, if_pos (by simpa using h)]; exact ⟨_, rfl⟩
  · cases h
  · next hc =>
    rw [write8_eq v hc, writeRoute, writeFacade, ofNat_offset, if_neg (by simpa using h)]
    exact ⟨_, rfl⟩
  · next hc =>
    rw [write8_eq v hc, writeRoute, writeIntReg]
    split at h
    · next hr => rw [hr]; exact ⟨_, rfl⟩
    · cases h
    · cases h
  · cases h

theorem writable_of_isRam {p : Params} {a : Addr} (h : isRam p a = true) : writable p a = true := by
  unfold isRam at h; unfold writable
  split at h <;> simp_all

/-- A byte of RAM reads back what was written to it. -/
theorem write8_peek_ram {a : Addr} {v : Byte} {s t : State} (h : write8 a v s = .ok t)
    (w : s.StoresWf) (hr : isRam s.params a = true) : peek t a = some v := by
  refine write8_peek_self h w ?_
  rw [peek_eq_cellByte]
  unfold isRam at hr
  split at hr
  · next hc => rw [hc]; rfl
  · next hc => rw [hc]; simp [cellByte, of_decide_eq_true hr]
  · cases hr
  · cases hr
  · cases hr
  · cases hr

/-! ### Data wider than a byte -/

theorem readWord_ok {c : Wrap} {ea : Addr} {s t : State} {v : Word}
    (h : readWord c ea s = .ok (v, t)) :
    ∃ l u h', read8 (byteAddr c ea 0) s = .ok (l, u) ∧ read8 (byteAddr c ea 1) u = .ok (h', t)
      ∧ v = mkWord l h' := by
  obtain ⟨⟨l, u⟩, h1, h⟩ := Except.bind_ok.1 h
  obtain ⟨⟨h', t'⟩, h2, h⟩ := Except.bind_ok.1 h
  cases h
  exact ⟨l, u, h', h1, h2, rfl⟩

theorem readWord_reads {c : Wrap} {ea : Addr} {s t : State} {v : Word}
    (h : readWord c ea s = .ok (v, t)) : Reads s t := by
  obtain ⟨_, _, _, h1, h2, -⟩ := readWord_ok h
  exact (read8_reads h1).trans (read8_reads h2)

theorem readLong_reads {c : Wrap} {ea : Addr} {s t : State} {v : Addr}
    (h : readLong c ea s = .ok (v, t)) : Reads s t := by
  obtain ⟨⟨w, u⟩, h1, h⟩ := Except.bind_ok.1 h
  obtain ⟨⟨b, t'⟩, h2, h⟩ := Except.bind_ok.1 h
  cases h
  exact (readWord_reads h1).trans (read8_reads h2)

theorem readData_reads {w : Width} {c : Wrap} {ea : Addr} {s t : State} {v : Word}
    (h : readData w c ea s = .ok (v, t)) : Reads s t := by
  cases w with
  | w8 =>
    obtain ⟨⟨l, u⟩, h1, h⟩ := Except.bind_ok.1 h
    cases h
    exact read8_reads h1
  | w16 => exact readWord_reads h

/-- A wide datum that `peek` sees is read whole, with no effect. -/
theorem readWord_of_peek {c : Wrap} {ea : Addr} {s : State} {l h : Byte}
    (h0 : peek s (byteAddr c ea 0) = some l) (h1 : peek s (byteAddr c ea 1) = some h) :
    readWord c ea s = .ok (mkWord l h, s) := by
  simp [readWord, read8_of_peek h0, read8_of_peek h1]

theorem readLong_of_peek {c : Wrap} {ea : Addr} {s : State} {l h b : Byte}
    (h0 : peek s (byteAddr c ea 0) = some l) (h1 : peek s (byteAddr c ea 1) = some h)
    (h2 : peek s (byteAddr c ea 2) = some b) :
    readLong c ea s = .ok (mkAddr b (mkWord l h), s) := by
  simp [readLong, readWord_of_peek h0 h1, read8_of_peek h2]

/-- What a change to memory keeps: the form of the stores, and every byte under another name than those
of `at`. -/
structure Stored (slots : List Addr) (s t : State) : Prop where
  bus : Bus s t
  wf : s.StoresWf → t.StoresWf
  frame : ∀ a, (∀ b ∈ slots, cellAt s.params a ≠ cellAt s.params b) → peek t a = peek s a

theorem Stored.refl (s : State) : Stored [] s s := ⟨Bus.refl s, id, fun _ _ => rfl⟩

theorem Stored.trans {l m : List Addr} {s t u : State} (h : Stored l s t) (k : Stored m t u) :
    Stored (l ++ m) s u where
  bus := h.bus.trans k.bus
  wf := k.wf ∘ h.wf
  frame := fun a ha => by
    rw [k.frame a fun b hb => by rw [h.bus.params]; exact ha b (List.mem_append_right _ hb),
      h.frame a fun b hb => ha b (List.mem_append_left _ hb)]

theorem Reads.stored {s t : State} (h : Reads s t) : Stored [] s t :=
  ⟨h.bus, h.storesWf, fun a _ => h.peek a⟩

theorem write8_stored {a : Addr} {v : Byte} {s t : State} (h : write8 a v s = .ok t) :
    Stored [a] s t :=
  ⟨write8_bus h, write8_storesWf h, fun _ hb => write8_peek_ne h (hb a (List.mem_singleton.2 rfl))⟩

/-- The addresses of a datum, in address order. -/
def dataSlots (w : Width) (c : Wrap) (ea : Addr) : List Addr :=
  (List.range w.bytes).map (byteAddr c ea)

theorem writeData_stored {w : Width} {c : Wrap} {ea : Addr} {v : Word} {s t : State}
    (h : writeData w c ea v s = .ok t) : Stored (dataSlots w c ea) s t := by
  cases w with
  | w8 => exact write8_stored h
  | w16 =>
    obtain ⟨u, h1, h2⟩ := Except.bind_ok.1 h
    exact (write8_stored h1).trans (write8_stored h2)

theorem writeBack_stored {w : Width} {c : Wrap} {ea : Addr} {v : Word} {s t : State}
    (h : writeBack w c ea v s = .ok t) : Stored (dataSlots w c ea) s t := by
  cases w with
  | w8 => exact write8_stored h
  | w16 =>
    obtain ⟨u, h1, h2⟩ := Except.bind_ok.1 h
    have := (write8_stored h1).trans (write8_stored h2)
    exact ⟨this.bus, this.wf, fun a ha => this.frame a fun b hb => ha b (by
      simp only [List.mem_append, List.mem_singleton] at hb
      rcases hb with rfl | rfl
      · exact List.mem_map_of_mem (a := 1) (by decide)
      · exact List.mem_map_of_mem (a := 0) (by decide))⟩

theorem outside_iff {p : Params} {w : Width} {c : Wrap} {ea a : Addr} :
    Outside p c ea w.bytes a ↔ ∀ b ∈ dataSlots w c ea, cellAt p a ≠ cellAt p b := by
  simp [Outside, dataSlots]

theorem writeData_of_writable {w : Width} {c : Wrap} {ea : Addr} (v : Word) {s : State}
    (h : ∀ k, k < w.bytes → writable s.params (byteAddr c ea k) = true) :
    ∃ t, writeData w c ea v s = .ok t := by
  cases w with
  | w8 => exact write8_of_writable _ (h 0 (by decide))
  | w16 =>
    obtain ⟨u, hu⟩ := write8_of_writable (loByte v) (h 0 (by decide))
    obtain ⟨t, ht⟩ := write8_of_writable (s := u) (hiByte v) (by
      rw [(write8_bus hu).params]; exact h 1 (by decide))
    exact ⟨t, by simp [writeData, hu, ht]⟩

theorem writeBack_of_writable {w : Width} {c : Wrap} {ea : Addr} (v : Word) {s : State}
    (h : ∀ k, k < w.bytes → writable s.params (byteAddr c ea k) = true) :
    ∃ t, writeBack w c ea v s = .ok t := by
  cases w with
  | w8 => exact write8_of_writable _ (h 0 (by decide))
  | w16 =>
    obtain ⟨u, hu⟩ := write8_of_writable (hiByte v) (h 1 (by decide))
    obtain ⟨t, ht⟩ := write8_of_writable (s := u) (loByte v) (by
      rw [(write8_bus hu).params]; exact h 0 (by decide))
    exact ⟨t, by simp [writeBack, hu, ht]⟩

/-! ### The stack -/

/-- `n` bytes were pushed: the stack pointer is `n` lower, and only the mapper has changed beside it. -/
structure Pushed (n : Nat) (s t : State) : Prop where
  bus : Bus { s with sp := stackDown s.e n s.sp } t
  wf : s.StoresWf → t.StoresWf
  frame : ∀ a, OffStack s n a → peek t a = peek s a

theorem stackDown_add (e : Bool) (m n : Nat) (sp : Word) :
    stackDown e n (stackDown e m sp) = stackDown e (m + n) sp := by
  induction m generalizing sp with
  | zero => simp [stackDown]
  | succ m ih => rw [Nat.succ_add, stackDown, stackDown, ih]

theorem Pushed.e {n : Nat} {s t : State} (h : Pushed n s t) : t.e = s.e := by
  obtain ⟨_, _, _, _, _, rfl⟩ := h.bus; rfl

theorem Pushed.sp {n : Nat} {s t : State} (h : Pushed n s t) : t.sp = stackDown s.e n s.sp := by
  obtain ⟨_, _, _, _, _, rfl⟩ := h.bus; rfl

theorem Pushed.params {n : Nat} {s t : State} (h : Pushed n s t) : t.params = s.params := by
  obtain ⟨_, _, _, _, _, rfl⟩ := h.bus; rfl

theorem Pushed.slot {n : Nat} {s t : State} (h : Pushed n s t) (k : Nat) :
    t.pushSlot k = s.pushSlot (n + k) := by
  rw [State.pushSlot, State.pushSlot, h.e, h.sp, stackDown_add]

theorem Pushed.trans {m n : Nat} {s t u : State} (h : Pushed m s t) (k : Pushed n t u) :
    Pushed (m + n) s u where
  bus := by
    have hb := k.bus
    rw [h.e, h.sp, stackDown_add] at hb
    obtain ⟨_, _, _, l, a, rfl⟩ := h.bus
    obtain ⟨w, m', r, l', b, rfl⟩ := hb
    exact ⟨w, m', r, l ++ l', a + b, by simp [Nat.add_assoc]⟩
  wf := k.wf ∘ h.wf
  frame := fun a ha => by
    rw [k.frame a fun j hj => by
        rw [h.params, h.slot]; exact ha (m + j) (by omega),
      h.frame a fun j hj => ha j (by omega)]

theorem push8_ok {v : Byte} {s t : State} (h : push8 v s = .ok t) :
    ∃ u, write8 (s.pushSlot 0) v s = .ok u ∧ t = { u with sp := stackWrap s.e (s.sp - 1) } := by
  obtain ⟨u, h1, h⟩ := Except.bind_ok.1 h
  cases h
  refine ⟨u, h1, ?_⟩
  obtain ⟨_, _, _, _, _, rfl⟩ := write8_bus h1
  rfl

theorem push8_pushed {v : Byte} {s t : State} (h : push8 v s = .ok t) : Pushed 1 s t := by
  obtain ⟨u, h1, rfl⟩ := push8_ok h
  have hs := write8_stored h1
  refine ⟨?_, fun w => hs.wf w, fun a ha => ?_⟩
  · obtain ⟨w, m, r, l, k, rfl⟩ := hs.bus
    exact ⟨w, m, r, l, k, rfl⟩
  · rw [← hs.frame a fun b hb => by rw [List.mem_singleton.1 hb]; exact ha 0 (by decide)]
    exact peek_congr rfl rfl rfl a

theorem push16_pushed {v : Word} {s t : State} (h : push16 v s = .ok t) : Pushed 2 s t := by
  obtain ⟨u, h1, h2⟩ := Except.bind_ok.1 h
  exact (push8_pushed h1).trans (push8_pushed h2)

theorem pushW_pushed {w : Width} {v : Word} {s t : State} (h : pushW w v s = .ok t) :
    Pushed w.bytes s t := by
  cases w with
  | w8 => exact push8_pushed h
  | w16 => exact push16_pushed h

theorem push8_of_writable (v : Byte) {s : State} (h : writable s.params (s.pushSlot 0) = true) :
    ∃ t, push8 v s = .ok t := by
  obtain ⟨u, hu⟩ := write8_of_writable v h
  exact ⟨{ u with sp := stackWrap u.e (u.sp - 1) }, by
    unfold push8
    rw [show mkAddr 0 s.sp = s.pushSlot 0 from rfl, hu]; rfl⟩

theorem push16_of_writable (v : Word) {s : State}
    (h : ∀ k, k < 2 → writable s.params (s.pushSlot k) = true) : ∃ t, push16 v s = .ok t := by
  obtain ⟨u, hu⟩ := push8_of_writable (hiByte v) (h 0 (by decide))
  have hp := push8_pushed hu
  obtain ⟨t, ht⟩ := push8_of_writable (s := u) (loByte v) (by
    rw [hp.params, hp.slot]; exact h 1 (by decide))
  exact ⟨t, by simp [push16, hu, ht]⟩

theorem pushW_of_writable (w : Width) (v : Word) {s : State}
    (h : ∀ k, k < w.bytes → writable s.params (s.pushSlot k) = true) : ∃ t, pushW w v s = .ok t := by
  cases w with
  | w8 => exact push8_of_writable _ (h 0 (by decide))
  | w16 => exact push16_of_writable _ h

/-- `n` bytes were pulled: the stack pointer is `n` higher, and only reads were made. -/
def PulledN (n : Nat) (s t : State) : Prop := Reads { s with sp := stackUp s.e n s.sp } t

theorem stackUp_add (e : Bool) (m n : Nat) (sp : Word) :
    stackUp e n (stackUp e m sp) = stackUp e (m + n) sp := by
  induction m generalizing sp with
  | zero => simp [stackUp]
  | succ m ih => rw [Nat.succ_add, stackUp, stackUp, ih]

theorem PulledN.trans {m n : Nat} {s t u : State} (h : PulledN m s t) (k : PulledN n t u) :
    PulledN (m + n) s u := by
  obtain ⟨l, a, rfl⟩ := h
  obtain ⟨l', b, rfl⟩ := k
  refine ⟨l ++ l', a + b, ?_⟩
  simp [stackUp_add, Nat.add_assoc]

theorem pull8_pulled {v : Byte} {s t : State} (h : pull8 s = .ok (v, t)) : PulledN 1 s t :=
  read8_reads h

theorem pull16_pulled {v : Word} {s t : State} (h : pull16 s = .ok (v, t)) : PulledN 2 s t := by
  obtain ⟨⟨l, u⟩, h1, h⟩ := Except.bind_ok.1 h
  obtain ⟨⟨h', t'⟩, h2, h⟩ := Except.bind_ok.1 h
  cases h
  exact (pull8_pulled h1).trans (pull8_pulled h2)

theorem pullW_pulled {w : Width} {v : Word} {s t : State} (h : pullW w s = .ok (v, t)) :
    PulledN w.bytes s t := by
  cases w with
  | w8 =>
    obtain ⟨⟨l, u⟩, h1, h⟩ := Except.bind_ok.1 h
    cases h
    exact pull8_pulled h1
  | w16 => exact pull16_pulled h

theorem pull8_of_peek {v : Byte} {s : State} (h : peek s (s.pullSlot 0) = some v) :
    pull8 s = .ok (v, { s with sp := stackUp s.e 1 s.sp }) :=
  read8_of_peek (by rw [← h]; exact peek_congr rfl rfl rfl _)

theorem pull16_of_peek {l h : Byte} {s : State} (h0 : peek s (s.pullSlot 0) = some l)
    (h1 : peek s (s.pullSlot 1) = some h) :
    pull16 s = .ok (mkWord l h, { s with sp := stackUp s.e 2 s.sp }) := by
  unfold pull16
  rw [pull8_of_peek h0, Except.ok_bind]
  dsimp only
  rw [pull8_of_peek (s := { s with sp := stackUp s.e 1 s.sp }) (v := h)
    (by rw [← h1]; exact peek_congr rfl rfl rfl _)]
  rfl

/-! ### The operand forms -/

theorem resolve_reads {f : Form} {s t : State} {o : Operand} (h : resolve f s = .ok (o, t)) :
    Reads s t := by
  unfold resolve at h
  split at h
  all_goals first
    | (cases h; exact Reads.refl _)
    | (obtain ⟨⟨p, u⟩, h1, h⟩ := Except.bind_ok.1 h; cases h
       first | exact readWord_reads h1 | exact readLong_reads h1)

theorem load_reads {o : Operand} {w : Width} {s t : State} {v : Word} (h : load o w s = .ok (v, t)) :
    Reads s t := by
  unfold load at h
  split at h
  · cases h; exact Reads.refl _
  · cases h; exact Reads.refl _
  · exact readData_reads h
  · cases h; exact Reads.refl _

/-- Reading a source operand: it is resolved and loaded, and the index penalty is charged. -/
theorem readOperand_ok {f : Form} {w : Width} {s t : State} {v : Word}
    (h : readOperand f w s = .ok (v, t)) :
    ∃ o u r, resolve f s = .ok (o, u) ∧ load o w u = .ok (v, r)
      ∧ t = r.charge (indexPenalty f (r.flag .x) o.crossed) := by
  obtain ⟨⟨o, u⟩, h1, h⟩ := Except.bind_ok.1 h
  obtain ⟨⟨v', r⟩, h2, h⟩ := Except.bind_ok.1 h
  cases h
  exact ⟨o, u, r, h1, h2, rfl⟩

theorem readOperand_of {f : Form} {w : Width} {s u r : State} {o : Operand} {v : Word}
    (h1 : resolve f s = .ok (o, u)) (h2 : load o w u = .ok (v, r)) :
    readOperand f w s = .ok (v, r.charge (indexPenalty f (r.flag .x) o.crossed)) := by
  simp [readOperand, h1, h2]

theorem storeOperand_of {f : Form} {w : Width} {v : Word} {s u t : State} {ea : Addr} {c : Wrap} {b : Bool}
    (h1 : resolve f s = .ok (.mem ea c b, u)) (h2 : writeData w c ea v u = .ok t) :
    storeOperand f w v s = .ok t := by
  simp [storeOperand, h1, store, h2]

theorem storeOperand_ok {f : Form} {w : Width} {v : Word} {s t : State}
    (h : storeOperand f w v s = .ok t) :
    ∃ o u, resolve f s = .ok (o, u) ∧ store o w v u = .ok t := by
  obtain ⟨⟨o, u⟩, h1, h2⟩ := Except.bind_ok.1 h
  exact ⟨o, u, h1, h2⟩

theorem store_stored {o : Operand} {w : Width} {v : Word} {s t : State} (h : store o w v s = .ok t) :
    ∃ l, Stored l s t := by
  unfold store at h
  split at h
  · exact ⟨_, writeData_stored h⟩
  · cases h; exact ⟨_, Stored.refl s⟩
  · cases h; exact ⟨_, Stored.refl s⟩
  · cases h; exact ⟨_, Stored.refl s⟩

/-- What a read-modify-write at a place does: it leaves memory and the accumulator as its form says, and
`P` is what the computation gives for the old value. -/
theorem modifyAt_ok {o : Operand} {f : Width → Word → Byte → Word × Byte} {s t : State}
    (h : modifyAt o f s = .ok t) :
    (∃ ea c b old r u, o = .mem ea c b ∧ readData s.wM c ea s = .ok (old, r)
      ∧ writeBack s.wM c ea (f s.wM old s.p).1 r = .ok u ∧ t = { u with p := (f s.wM old s.p).2 }) ∨
    (o = .acc ∧ t = { s.putA s.wM (f s.wM (truncate s.wM s.a) s.p).1 with
      p := (f s.wM (truncate s.wM s.a) s.p).2 }) ∨
    ((∃ v, o = .imm v) ∨ o = .none) ∧ t = s := by
  unfold modifyAt at h
  split at h
  · next ea c b =>
    obtain ⟨⟨old, r⟩, h1, h⟩ := Except.bind_ok.1 h
    obtain ⟨u, h2, h⟩ := Except.bind_ok.1 h
    cases h
    have hr := readData_reads h1
    refine .inl ⟨ea, c, b, old, r, u, rfl, h1, ?_, ?_⟩
    · obtain ⟨l, a, rfl⟩ := hr; exact h2
    · obtain ⟨l, a, rfl⟩ := hr; rfl
  · cases h; exact .inr (.inl ⟨rfl, rfl⟩)
  · cases h; exact .inr (.inr ⟨.inl ⟨_, rfl⟩, rfl⟩)
  · cases h; exact .inr (.inr ⟨.inr rfl, rfl⟩)

theorem modify_ok {f : Form} {op : Width → Word → Byte → Word × Byte} {s t : State}
    (h : modify f op s = .ok t) :
    ∃ o u r, resolve f s = .ok (o, u) ∧ modifyAt o op u = .ok r
      ∧ t = r.charge (if u.flag .m then 0 else modifyPenalty o) := by
  obtain ⟨⟨o, u⟩, h1, h⟩ := Except.bind_ok.1 h
  obtain ⟨r, h2, h⟩ := Except.bind_ok.1 h
  cases h
  exact ⟨o, u, r, h1, h2, rfl⟩

/-! ### Entry and return -/

/-- The entry of an interrupt in emulation mode: three bytes pushed, then the vector. -/
theorem enterEmulation_ok {k : IntKind} {ret : Word} {s t : State}
    (h : enterEmulation k ret s = .ok t) :
    ∃ u, Pushed 3 s u ∧ t = u.atVector (s.params.vecE.entry k) := by
  obtain ⟨u, h1, h⟩ := Except.bind_ok.1 h
  obtain ⟨r, h2, h⟩ := Except.bind_ok.1 h
  cases h
  have hp := (push16_pushed h1).trans (push8_pushed h2)
  exact ⟨r, hp, by rw [hp.params]⟩

/-- The entry of an interrupt in native mode: four bytes pushed, then the vector. -/
theorem enterNative_ok {k : IntKind} {ret : Word} {s t : State} (h : enterNative k ret s = .ok t) :
    ∃ u, Pushed 4 s u ∧ t = u.atVector (s.params.vecN.entry k) := by
  obtain ⟨q, h0, h⟩ := Except.bind_ok.1 h
  obtain ⟨u, h1, h⟩ := Except.bind_ok.1 h
  obtain ⟨r, h2, h⟩ := Except.bind_ok.1 h
  cases h
  have hp := ((push8_pushed h0).trans (push16_pushed h1)).trans (push8_pushed h2)
  exact ⟨r, hp, by rw [hp.params]⟩

/-- The entry of an interrupt: the bytes the mode pushes, then the mode's vector. -/
theorem enter_ok {k : IntKind} {ret : Word} {s t : State} (h : enter k ret s = .ok t) :
    ∃ u, Pushed (if s.e then 3 else 4) s u ∧
      t = u.atVector (if s.e then s.params.vecE.entry k else s.params.vecN.entry k) := by
  unfold enter at h
  split at h
  · next he => rw [if_pos he, if_pos he]; exact enterEmulation_ok h
  · next he => rw [if_neg he, if_neg he]; exact enterNative_ok h

/-- The pulls of RTI (45_flags_mode_system.md R344): `P` first, then `PC` under the stack rule of the
mode, then `PBR` in native mode. -/
theorem leave_ok {s t : State} (h : leave s = .ok t) :
    ∃ p u pc v, pull8 s = .ok (p, u) ∧ pull16 { u with p := p }.normalize = .ok (pc, v) ∧
      ((v.e = true ∧ t = { v with pc := pc }) ∨
       (v.e = false ∧ ∃ b w, pull8 { v with pc := pc } = .ok (b, w) ∧ t = { w with pbr := b })) := by
  obtain ⟨⟨p, u⟩, h1, h⟩ := Except.bind_ok.1 h
  obtain ⟨⟨pc, v⟩, h2, h⟩ := Except.bind_ok.1 h
  refine ⟨p, u, pc, v, h1, h2, ?_⟩
  dsimp only at h
  split at h
  · next he => cases h; exact .inl ⟨he, rfl⟩
  · next he =>
    obtain ⟨⟨b, w⟩, h3, h⟩ := Except.bind_ok.1 h
    cases h
    exact .inr ⟨by simpa using he, b, w, h3, rfl⟩

end Sys2Proof.Machine
end

