-- ==== Sys2Proof/Laws/Cells.lean ====
section
/-! SUPPORT. Which addresses are which bytes of RAM, so that the bytes of one datum, and those of one push,
are different bytes. -/

namespace Sys2Proof.Machine

/-- Where WRAM is: the low 8 KiB of the system banks, and the two RAM banks (20_memory.md R79, R81). -/
theorem route_wram {p : Params} {b o i : Nat} (h : route p b o = .ok (.wram i)) :
    (i = o ∧ o ≤ 0x1FFF) ∨ ((b = 0x7E ∨ b = 0x7F) ∧ i = (b - 0x7E) * 0x10000 + o) := by
  unfold route at h
  split at h
  · exact .inl (routeSystem_wram h)
  · exact absurd h (routeRom_ne_wram _ _ _ _)
  · next hk =>
    injection h with h; injection h with h
    exact .inr ⟨bankClass_ram hk, h.symm⟩

theorem routeUpperRom_ne_sram (p : Params) (b o i : Nat) : routeUpperRom p b o ≠ .ok (.sram i) := by
  unfold routeUpperRom
  split <;> simp

theorem routeRom_sram {p : Params} {b o i : Nat} (h : routeRom p b o = .ok (.sram i)) :
    sramIndex p b o = some i := by
  unfold routeRom at h
  split at h
  · next hw => rw [hw]; cases h; rfl
  · exact absurd h (routeUpperRom_ne_sram p b o i)

theorem routeExpansion_sram {p : Params} {b o i : Nat} (h : routeExpansion p b o = .ok (.sram i)) :
    sramIndex p b o = some i := by
  unfold routeExpansion at h
  split at h
  · cases h
  all_goals
    split at h
    · next hw => rw [hw]; cases h; rfl
    · cases h

/-- Where save RAM is: its window, at the index of that window (20_memory.md R89 to R91). -/
theorem route_sram {p : Params} {b o i : Nat} (h : route p b o = .ok (.sram i)) :
    sramIndex p b o = some i := by
  unfold route at h
  split at h
  · unfold routeSystem at h
    by_cases h1 : o ≤ 0x1FFF
    · rw [if_pos h1] at h; simp at h
    · rw [if_neg h1] at h
      repeat' split at h
      all_goals first
        | exact routeExpansion_sram h
        | exact absurd h (routeUpperRom_ne_sram _ _ _ _)
        | simp at h
  · exact routeRom_sram h
  · simp at h

theorem windowAt_some {ws : List Window} {b o : Nat} {w : Window} (h : windowAt ws b o = some w) :
    w ∈ ws ∧ w.holds b o = true := by
  unfold windowAt at h
  exact ⟨List.mem_of_find?_eq_some h, by simpa using List.find?_some h⟩

/-- Two windows overlap when some address is in both. -/
theorem Window.overlaps_iff {v w : Window} :
    v.overlaps w = true ↔ ∃ b o, v.holds b o = true ∧ w.holds b o = true := by
  simp only [Window.overlaps, Window.holds, Bool.and_eq_true, decide_eq_true_eq]
  constructor
  · intro ⟨h1, h2⟩
    exact ⟨max v.bankLo w.bankLo, max v.offsetLo w.offsetLo, by omega, by omega⟩
  · rintro ⟨b, o, h1, h2⟩
    omega

/-- No address is in two windows of a disjoint list. -/
theorem disjoint_iff {ws : List Window} :
    disjoint ws = true ↔
      ws.Pairwise fun v w => ∀ b o, ¬(v.holds b o = true ∧ w.holds b o = true) := by
  induction ws with
  | nil => simp [disjoint]
  | cons w ws ih =>
    simp only [disjoint, Bool.and_eq_true, List.all_eq_true, Bool.not_eq_true', List.pairwise_cons, ih]
    refine and_congr_left fun _ => forall_congr' fun v => imp_congr_right fun _ => ?_
    rw [← Bool.not_eq_true, Window.overlaps_iff]
    exact ⟨fun h b o hh => h ⟨b, o, hh⟩, fun h ⟨b, o, hh⟩ => h b o hh⟩

/-- In a disjoint list the window that holds an address is the one that translates it. -/
theorem windowAt_of_mem {ws : List Window} {b o : Nat} {w : Window} (hd : disjoint ws = true)
    (hm : w ∈ ws) (hh : w.holds b o = true) : windowAt ws b o = some w := by
  induction ws with
  | nil => cases hm
  | cons v ws ih =>
    have hp := List.pairwise_cons.1 (disjoint_iff.1 hd)
    unfold windowAt
    rcases List.mem_cons.1 hm with rfl | hm
    · exact List.find?_cons_of_pos hh
    · have hv : ¬v.holds b o = true := fun hv => hp.1 w hm b o ⟨hv, hh⟩
      simpa [windowAt, hv] using ih (disjoint_iff.2 hp.2) hm

/-- What a well formed geometry is. -/
theorem geometryWf_iff {p : Params} :
    p.geometryWf = true ↔ (∀ w ∈ p.hiRomMirrors ++ p.sramLoRom ++ p.sramHiRom, w.wf = true) ∧
      disjoint p.sramLoRom = true ∧ disjoint (p.hiRomMirrors ++ p.sramHiRom) = true := by
  simp only [Params.geometryWf, Bool.and_eq_true, List.all_eq_true, and_assoc]

/-- The windows of the session's mode are among those of the geometry. -/
theorem wf_of_sramWindows {p : Params} {w : Window} (hp : p.geometryWf = true)
    (h : w ∈ p.sramWindows) : w.wf = true := by
  refine (geometryWf_iff.1 hp).1 w ?_
  unfold Params.sramWindows at h
  split at h
  · simp [h]
  · simp [h]
  · cases h

/-- A well formed window keeps the low byte of the offset. -/
theorem Window.index_mod {w : Window} {b o : Nat} (hw : w.wf = true) (ho : w.offsetLo ≤ o) :
    w.index b o % 0x100 = o % 0x100 := by
  simp only [Window.wf, Bool.and_eq_true, decide_eq_true_eq] at hw
  obtain ⟨⟨⟨⟨-, h1⟩, h2⟩, h3⟩, h4⟩ := hw
  have hd : 0x100 ∣ w.page := Nat.dvd_of_mod_eq_zero h3
  unfold Window.index
  rw [Nat.add_mod, Nat.mul_mod, h3, Nat.mul_zero, Nat.zero_mod, Nat.mod_mod_of_dvd _ hd]
  omega

/-- Save RAM keeps the low byte of the offset, so that bytes whose offsets differ there are different
bytes. -/
theorem route_sram_mod {p : Params} {b o i : Nat} (hp : p.geometryWf = true)
    (h : route p b o = .ok (.sram i)) : i % 0x100 = o % 0x100 := by
  have h := route_sram h
  unfold sramIndex at h
  split at h
  · obtain ⟨w, hw, rfl⟩ := Option.map_eq_some_iff.1 h
    obtain ⟨hm, hh⟩ := windowAt_some hw
    refine Window.index_mod (wf_of_sramWindows hp hm) ?_
    simp only [Window.holds, Bool.and_eq_true, decide_eq_true_eq] at hh
    omega
  · cases h

theorem isRam_cases {p : Params} {a : Addr} (h : isRam p a = true) :
    (∃ i, cellAt p a = some (.wram i)) ∨ ∃ i, cellAt p a = some (.sram i) := by
  unfold isRam at h
  split at h
  · next hc => exact .inl ⟨_, hc⟩
  · next hc => exact .inr ⟨_, hc⟩
  all_goals cases h

/-- Addresses of RAM whose offsets differ in the low byte, in whatever banks, are different bytes where
they are save RAM. -/
theorem sram_cell_ne {p : Params} {a b : Addr} {i : Nat} (hp : p.geometryWf = true)
    (h : cellAt p a = some (.sram i)) (hne : a.toNat % 0x100 ≠ b.toNat % 0x100) :
    cellAt p a ≠ cellAt p b := by
  intro he
  have h1 := route_sram_mod hp (route_of_cellAt h)
  have h2 := route_sram_mod hp (route_of_cellAt (he ▸ h))
  rw [toNat_offsetOf] at h1 h2
  omega

/-- The two bytes of a word in RAM are different bytes. -/
theorem byteAddr_cell_ne {p : Params} {c : Wrap} {ea : Addr} (hp : p.geometryWf = true)
    (h : isRam p (byteAddr c ea 0) = true ∨ isRam p (byteAddr c ea 1) = true) :
    cellAt p (byteAddr c ea 0) ≠ cellAt p (byteAddr c ea 1) := by
  intro he
  have hr : isRam p (byteAddr c ea 0) = true := by
    rcases h with h | h
    · exact h
    · unfold isRam at *; rw [he]; exact h
  have h0 : byteAddr c ea 0 = ea := by cases c <;> simp [byteAddr]
  rw [h0] at he hr
  have hb : (byteAddr c ea 1).toNat = match c with
      | .l24 => (ea.toNat + 1) % 16777216
      | .bank => ea.toNat / 65536 * 65536 + (ea.toNat % 65536 + 1) % 65536 := by
    cases c <;> simp [byteAddr]
  have hl := ea.isLt
  obtain ⟨i, hi⟩ | ⟨i, hi⟩ := isRam_cases hr
  · have r1 := route_wram (route_of_cellAt hi)
    have r2 := route_wram (route_of_cellAt (he ▸ hi))
    simp only [toNat_bankOf, toNat_offsetOf, hb] at r1 r2
    cases c <;> simp only at r2 <;> omega
  · refine sram_cell_ne hp hi ?_ he
    rw [hb]
    cases c <;> simp only <;> omega

/-- In bank 0, offsets of RAM that differ in the low byte are different bytes. -/
theorem bank0_cell_ne {p : Params} {o q : Word} (hp : p.geometryWf = true)
    (h : isRam p (mkAddr 0 o) = true) (hne : o.toNat % 0x100 ≠ q.toNat % 0x100) :
    cellAt p (mkAddr 0 o) ≠ cellAt p (mkAddr 0 q) := by
  intro he
  obtain ⟨i, hi⟩ | ⟨i, hi⟩ := isRam_cases h
  · have r1 := route_wram (route_of_cellAt hi)
    have r2 := route_wram (route_of_cellAt (he ▸ hi))
    simp only [bankOf_mkAddr, offsetOf_mkAddr] at r1 r2
    simp at r1 r2
    omega
  · refine sram_cell_ne hp hi ?_ he
    simpa using hne

/-! ### The bytes of a push -/

/-- Bytes pushed one after the other. -/
def pushAll : List Byte → State → Except Raise State
  | [], s => .ok s
  | b :: bs, s => push8 b s >>= pushAll bs

theorem push16_eq (v : Word) (s : State) : push16 v s = pushAll (pushOrder v) s := by
  show (push8 (hiByte v) s >>= push8 (loByte v)) = (push8 (hiByte v) s >>= fun u => push8 (loByte v) u >>= pushAll [])
  congr 1; funext u
  cases push8 (loByte v) u <;> rfl

theorem pushAll_append (bs cs : List Byte) (s : State) :
    pushAll (bs ++ cs) s = (pushAll bs s >>= pushAll cs) := by
  induction bs generalizing s with
  | nil => rfl
  | cons b bs ih =>
    rw [List.cons_append, pushAll, pushAll]
    cases push8 b s with
    | error e => rfl
    | ok u => exact ih u

theorem loByte_stackDown (e : Bool) (n : Nat) (sp : Word) :
    loByte (stackDown e n sp) = loByte sp - BitVec.ofNat 8 n := by
  induction n generalizing sp with
  | zero => simp [stackDown]
  | succ n ih =>
    rw [stackDown, ih]
    have h : loByte (stackWrap e (sp - 1)) = loByte (sp - 1) := by
      cases e
      · rfl
      · exact loByte_pageOne _
    rw [h]
    apply BitVec.eq_of_toNat_eq
    have h1 : (1 : Word).toNat = 1 := rfl
    simp only [BitVec.toNat_sub, toNat_loByte, BitVec.toNat_ofNat, h1]
    omega

/-- Within 256 bytes, the slots of a push are different offsets. -/
theorem stackDown_ne (e : Bool) {j k : Nat} (sp : Word) (h : j < k) (hk : k < 256) :
    (stackDown e j sp).toNat % 0x100 ≠ (stackDown e k sp).toNat % 0x100 := by
  intro he
  have h1 := congrArg BitVec.toNat (loByte_stackDown e j sp)
  have h2 := congrArg BitVec.toNat (loByte_stackDown e k sp)
  simp only [BitVec.toNat_sub, toNat_loByte, BitVec.toNat_ofNat] at h1 h2
  omega

theorem pushAll_pushed {bs : List Byte} {s t : State} (h : pushAll bs s = .ok t) :
    Pushed bs.length s t := by
  induction bs generalizing s with
  | nil =>
    cases h
    exact ⟨Bus.refl _, id, fun _ _ => rfl⟩
  | cons b bs ih =>
    obtain ⟨u, h1, h2⟩ := Except.bind_ok.1 h
    have := (push8_pushed h1).trans (ih h2)
    rwa [Nat.add_comm] at this

/-- Bytes pushed to RAM stand in their slots. -/
theorem pushAll_peek {bs : List Byte} {s t : State} (h : pushAll bs s = .ok t) (w : s.StoresWf)
    (hl : bs.length ≤ 256) {k : Nat} {b : Byte} (hk : bs[k]? = some b)
    (hr : isRam s.params (s.pushSlot k) = true) : peek t (s.pushSlot k) = some b := by
  induction bs generalizing s k with
  | nil => simp at hk
  | cons c bs ih =>
    obtain ⟨u, h1, h2⟩ := Except.bind_ok.1 h
    have hp := push8_pushed h1
    simp only [List.length_cons] at hl
    cases k with
    | zero =>
      cases hk
      rw [(pushAll_pushed h2).frame (s.pushSlot 0) fun j hj => ?_]
      · obtain ⟨v, h3, h4⟩ := Except.bind_ok.1 h1
        cases h4
        rw [← write8_peek_ram h3 w hr]
        exact peek_congr rfl rfl rfl _
      · rw [hp.params, hp.slot]
        exact bank0_cell_ne w.2.2.2 hr (stackDown_ne s.e (j := 0) s.sp (by omega) (by omega))
    | succ k =>
      rw [Nat.add_comm k 1, ← hp.slot] at hr ⊢
      exact ih h2 (hp.wf w) (by omega) hk (by rw [hp.params]; exact hr)

/-- A push to slots that accept a byte is made. -/
theorem pushAll_of_writable (bs : List Byte) {s : State} (h : s.CanPush bs.length) :
    ∃ t, pushAll bs s = .ok t := by
  induction bs generalizing s with
  | nil => exact ⟨s, rfl⟩
  | cons b bs ih =>
    simp only [State.CanPush, List.length_cons] at h
    obtain ⟨u, hu⟩ := push8_of_writable b (h 0 (Nat.succ_pos _))
    have hp := push8_pushed hu
    have hw : u.CanPush bs.length := fun k hk => by
      rw [hp.params, hp.slot, Nat.add_comm]
      exact h (k + 1) (Nat.succ_lt_succ hk)
    obtain ⟨t, ht⟩ := ih hw
    exact ⟨t, by rw [pushAll, hu, Except.ok_bind, ht]⟩

end Sys2Proof.Machine
end

