-- ==== Sys2Proof/Laws/Exec.lean ====
section
/-! SUPPORT. The meanings of the 256 rows by mnemonic and format: `exec` runs the handler of an instruction's
mnemonic on its format, so that one lemma per handler serves every row. -/

namespace Sys2Proof.Machine

/-- The first byte field of a format that has one. -/
def Form.byteField : Form → Byte
  | .imm8 v | .rel8 v | .dpInd v | .blk v _ => v
  | _ => 0

/-- The second byte field of a block move. -/
def Form.secondByte : Form → Byte
  | .blk _ v => v
  | _ => 0

/-- The word field of a format that has one. -/
def Form.wordField : Form → Word
  | .imm16 v | .rel16 v => v
  | _ => 0

/-- The address field of a format that has one. -/
def Form.addrField : Form → Addr
  | .long a => a
  | _ => 0

/-- JMP by format (43_control_transfer.md R281). -/
def jmpForm (f : Form) (s : State) : Except Raise State :=
  match f with
  | .abs a => .ok (jmpAbs a s)
  | .absInd a => jmpInd a s
  | .absIndX a => jmpIndX a s
  | _ => .ok s

/-- JML by format (43_control_transfer.md R282). -/
def jmlForm (f : Form) (s : State) : Except Raise State :=
  match f with
  | .long a => .ok (jmlLong a s)
  | .absIndLong a => jmlInd a s
  | _ => .ok s

/-- JSR by format (43_control_transfer.md R283). -/
def jsrForm (f : Form) (s : State) : Except Raise State :=
  match f with
  | .abs a => jsrAbs a s
  | .absIndX a => jsrIndX a s
  | _ => .ok s

/-- The handler of a mnemonic on a format (40_engine_addressing.md R153). -/
def handler (f : Form) (s : State) : Mnemonic → Except Raise State
  | .lda => lda f s
  | .ldx => ldx f s
  | .ldy => ldy f s
  | .sta => sta f s
  | .stx => stx f s
  | .sty => sty f s
  | .stz => stz f s
  | .adc => adc f s
  | .sbc => sbc f s
  | .cmp => cmp f s
  | .cpx => cpx f s
  | .cpy => cpy f s
  | .inc => inc f s
  | .dec => dec f s
  | .and => andA f s
  | .ora => oraA f s
  | .eor => eorA f s
  | .bit => bitTest (Form.isImmM f) f s
  | .tsb => tsb f s
  | .trb => trb f s
  | .asl => asl f s
  | .lsr => lsr f s
  | .rol => rol f s
  | .ror => ror f s
  | .bpl => .ok (branchOn .n false (Form.byteField f) s)
  | .bmi => .ok (branchOn .n true (Form.byteField f) s)
  | .bvc => .ok (branchOn .v false (Form.byteField f) s)
  | .bvs => .ok (branchOn .v true (Form.byteField f) s)
  | .bcc => .ok (branchOn .c false (Form.byteField f) s)
  | .bcs => .ok (branchOn .c true (Form.byteField f) s)
  | .bne => .ok (branchOn .z false (Form.byteField f) s)
  | .beq => .ok (branchOn .z true (Form.byteField f) s)
  | .bra => .ok (branchTo (Form.byteField f) s)
  | .brl => .ok (Machine.brl (Form.wordField f) s)
  | .jmp => jmpForm f s
  | .jml => jmlForm f s
  | .jsr => jsrForm f s
  | .jsl => jslLong (Form.addrField f) s
  | .rts => Machine.rts s
  | .rtl => Machine.rtl s
  | .pea => push16 (Form.wordField f) s
  | .pei => Machine.pei (Form.byteField f) s
  | .per => Machine.per (Form.wordField f) s
  | .rep => .ok (Machine.rep (Form.byteField f) s)
  | .sep => .ok (Machine.sep (Form.byteField f) s)
  | .wdm => .ok (Machine.nop s)
  | .brk => softInterrupt .brk s
  | .cop => softInterrupt .cop s
  | .rti => Machine.rti s
  | .mvn => blockMove 1 (Form.byteField f) (Form.secondByte f) s
  | .mvp => blockMove (-1) (Form.byteField f) (Form.secondByte f) s
  | .tax => .ok (Machine.tax s)
  | .tay => .ok (Machine.tay s)
  | .txa => .ok (Machine.txa s)
  | .tya => .ok (Machine.tya s)
  | .tsx => .ok (Machine.tsx s)
  | .txs => .ok (Machine.txs s)
  | .tdc => .ok (Machine.tdc s)
  | .tcd => .ok (Machine.tcd s)
  | .tsc => .ok (Machine.tsc s)
  | .tcs => .ok (Machine.tcs s)
  | .xba => .ok (Machine.xba s)
  | .txy => .ok (Machine.txy s)
  | .tyx => .ok (Machine.tyx s)
  | .inx => .ok (Machine.inx s)
  | .iny => .ok (Machine.iny s)
  | .dex => .ok (Machine.dex s)
  | .dey => .ok (Machine.dey s)
  | .pha => Machine.pha s
  | .phx => Machine.phx s
  | .phy => Machine.phy s
  | .phb => Machine.phb s
  | .phd => Machine.phd s
  | .phk => Machine.phk s
  | .php => Machine.php s
  | .pla => Machine.pla s
  | .plx => Machine.plx s
  | .ply => Machine.ply s
  | .plb => Machine.plb s
  | .pld => Machine.pld s
  | .plp => Machine.plp s
  | .clc => .ok (s.setFlag .c false)
  | .cld => .ok (s.setFlag .d false)
  | .cli => .ok (s.setFlag .i false)
  | .clv => .ok (s.setFlag .v false)
  | .sec => .ok (s.setFlag .c true)
  | .sed => .ok (s.setFlag .d true)
  | .sei => .ok (s.setFlag .i true)
  | .nop => .ok (Machine.nop s)
  | .xce => .ok (Machine.xce s)
  | .wai => .ok (Machine.wai s)
  | .stp => .ok (Machine.stp s)

/-- Every row runs its mnemonic's handler on its format. -/
theorem exec_eq (i : Instr) (s : State) :
    exec i s = perform i (fun t => handler i.form t i.mnemonic) s := by
  cases i <;> rfl

/-- What an instruction that completes has done: its handler answered, and `Normalize` followed. -/
theorem exec_next {i : Instr} {s t : State} (h : exec i s = .next t) :
    ∃ u, handler i.form (s.begin i) i.mnemonic = .ok u ∧ t = u.normalize := by
  rw [exec_eq, perform] at h
  split at h
  · next u hu => cases h; exact ⟨u, hu, rfl⟩
  · cases h

/-- An instruction completes when its handler answers. -/
theorem exec_of_handler {i : Instr} {s u : State}
    (h : handler i.form (s.begin i) i.mnemonic = .ok u) : exec i s = .next u.normalize := by
  rw [exec_eq, perform, h]

/-- An instruction never answers a refusal. -/
theorem exec_not_refused (i : Instr) (s : State) (r : Refusal) : exec i s ≠ .refused r := by
  rw [exec_eq, perform]; split <;> simp

end Sys2Proof.Machine
end

