-- ==== Sys2Proof/Laws/Effects.lean ====
section
/-! SUPPORT. What the handler of each mnemonic can change, said once: an `Effect` bounds the registers, the
flags, the stores and the control state a handler may write. -/

namespace Sys2Proof.Machine

/-- A bound on what a handler may write. -/
structure Scope where
  regs : List Reg
  flags : List Flag
  /-- Memory and the internal registers may change. -/
  stores : Bool
  /-- `PC` may leave `PC_next`. -/
  transfers : Bool
  /-- `E` may change. -/
  mode : Bool
  /-- `run` may change. -/
  runs : Bool
  deriving DecidableEq, Repr

/-- The change from one state to another stays within a bound. -/
structure Effect (k : Scope) (s t : State) : Prop where
  reg : ∀ r, r ∉ k.regs → t.reg r = s.reg r
  flag : KeepsFlags k.flags s.p t.p
  mem : k.stores = false → t.wram = s.wram ∧ t.sram = s.sram ∧ t.intRegs = s.intRegs
  pc : k.transfers = false → t.pc = s.pc
  e : k.mode = false → t.e = s.e
  run : k.runs = false → t.run = s.run
  outside : t.params = s.params ∧ t.inputs = s.inputs ∧ t.nmiPending = s.nmiPending ∧ t.irqLine = s.irqLine
  wf : s.StoresWf → t.StoresWf
  log : ∃ l, t.ioLog = s.ioLog ++ l

variable {k : Scope} {s t u : State}

theorem Effect.refl (k : Scope) (s : State) : Effect k s s :=
  ⟨fun _ _ => rfl, .refl _ _, fun _ => ⟨rfl, rfl, rfl⟩, fun _ => rfl, fun _ => rfl, fun _ => rfl,
    ⟨rfl, rfl, rfl, rfl⟩, id, [], by simp⟩

theorem Effect.trans (h : Effect k s t) (g : Effect k t u) : Effect k s u where
  reg := fun r hr => (g.reg r hr).trans (h.reg r hr)
  flag := h.flag.trans g.flag
  mem := fun hs => ⟨(g.mem hs).1.trans (h.mem hs).1, (g.mem hs).2.1.trans (h.mem hs).2.1,
    (g.mem hs).2.2.trans (h.mem hs).2.2⟩
  pc := fun hp => (g.pc hp).trans (h.pc hp)
  e := fun he => (g.e he).trans (h.e he)
  run := fun hr => (g.run hr).trans (h.run hr)
  outside := ⟨g.outside.1.trans h.outside.1, g.outside.2.1.trans h.outside.2.1,
    g.outside.2.2.1.trans h.outside.2.2.1, g.outside.2.2.2.trans h.outside.2.2.2⟩
  wf := g.wf ∘ h.wf
  log := by
    obtain ⟨l, hl⟩ := h.log; obtain ⟨m, hm⟩ := g.log
    exact ⟨l ++ m, by rw [hm, hl, List.append_assoc]⟩

/-! ### The effects of the shared operations -/

theorem Effect.reads (h : Reads s t) : Effect k s t := by
  obtain ⟨l, n, rfl⟩ := h
  exact ⟨fun r _ => by cases r <;> rfl, .refl _ _, fun _ => ⟨rfl, rfl, rfl⟩, fun _ => rfl, fun _ => rfl,
    fun _ => rfl, ⟨rfl, rfl, rfl, rfl⟩, id, l, rfl⟩

theorem Effect.charge (n : Nat) : Effect k s (s.charge n) :=
  ⟨fun r _ => by cases r <;> rfl, .refl _ _, fun _ => ⟨rfl, rfl, rfl⟩, fun _ => rfl, fun _ => rfl,
    fun _ => rfl, ⟨rfl, rfl, rfl, rfl⟩, id, [], by simp⟩

/-- Writing registers within the bound, and nothing else. -/
theorem Effect.regs (a x y sp d : Word) (pbr dbr : Byte)
    (ha : a = s.a ∨ .a ∈ k.regs) (hx : x = s.x ∨ .x ∈ k.regs) (hy : y = s.y ∨ .y ∈ k.regs)
    (hs : sp = s.sp ∨ .sp ∈ k.regs) (hd : d = s.d ∨ .d ∈ k.regs) (hp : pbr = s.pbr ∨ .pbr ∈ k.regs)
    (hb : dbr = s.dbr ∨ .dbr ∈ k.regs) :
    Effect k s { s with a := a, x := x, y := y, sp := sp, d := d, pbr := pbr, dbr := dbr } where
  reg := fun r hr => by
    cases r
    · exact ha.resolve_right hr
    · exact hx.resolve_right hr
    · exact hy.resolve_right hr
    · exact hs.resolve_right hr
    · exact hd.resolve_right hr
    · exact congrArg zextByte (hp.resolve_right hr)
    · exact congrArg zextByte (hb.resolve_right hr)
  flag := .refl _ _
  mem := fun _ => ⟨rfl, rfl, rfl⟩
  pc := fun _ => rfl
  e := fun _ => rfl
  run := fun _ => rfl
  outside := ⟨rfl, rfl, rfl, rfl⟩
  wf := id
  log := ⟨[], by simp⟩

theorem Effect.a (v : Word) (h : .a ∈ k.regs) : Effect k s { s with a := v } :=
  .regs v s.x s.y s.sp s.d s.pbr s.dbr (.inr h) (.inl rfl) (.inl rfl) (.inl rfl) (.inl rfl) (.inl rfl) (.inl rfl)
theorem Effect.x (v : Word) (h : .x ∈ k.regs) : Effect k s { s with x := v } :=
  .regs s.a v s.y s.sp s.d s.pbr s.dbr (.inl rfl) (.inr h) (.inl rfl) (.inl rfl) (.inl rfl) (.inl rfl) (.inl rfl)
theorem Effect.y (v : Word) (h : .y ∈ k.regs) : Effect k s { s with y := v } :=
  .regs s.a s.x v s.sp s.d s.pbr s.dbr (.inl rfl) (.inl rfl) (.inr h) (.inl rfl) (.inl rfl) (.inl rfl) (.inl rfl)
theorem Effect.sp (v : Word) (h : .sp ∈ k.regs) : Effect k s { s with sp := v } :=
  .regs s.a s.x s.y v s.d s.pbr s.dbr (.inl rfl) (.inl rfl) (.inl rfl) (.inr h) (.inl rfl) (.inl rfl) (.inl rfl)
theorem Effect.d (v : Word) (h : .d ∈ k.regs) : Effect k s { s with d := v } :=
  .regs s.a s.x s.y s.sp v s.pbr s.dbr (.inl rfl) (.inl rfl) (.inl rfl) (.inl rfl) (.inr h) (.inl rfl) (.inl rfl)
theorem Effect.pbr (v : Byte) (h : .pbr ∈ k.regs) : Effect k s { s with pbr := v } :=
  .regs s.a s.x s.y s.sp s.d v s.dbr (.inl rfl) (.inl rfl) (.inl rfl) (.inl rfl) (.inl rfl) (.inr h) (.inl rfl)
theorem Effect.dbr (v : Byte) (h : .dbr ∈ k.regs) : Effect k s { s with dbr := v } :=
  .regs s.a s.x s.y s.sp s.d s.pbr v (.inl rfl) (.inl rfl) (.inl rfl) (.inl rfl) (.inl rfl) (.inl rfl) (.inr h)

/-- Writing flags within the bound. -/
theorem Effect.p {q : Byte} (h : KeepsFlags k.flags s.p q) : Effect k s { s with p := q } :=
  ⟨fun r _ => by cases r <;> rfl, h, fun _ => ⟨rfl, rfl, rfl⟩, fun _ => rfl, fun _ => rfl, fun _ => rfl,
    ⟨rfl, rfl, rfl, rfl⟩, id, [], by simp⟩

theorem Effect.goPc (v : Word) (h : k.transfers = true) : Effect k s { s with pc := v } :=
  ⟨fun r _ => by cases r <;> rfl, .refl _ _, fun _ => ⟨rfl, rfl, rfl⟩, fun hp => absurd hp (by simp [h]),
    fun _ => rfl, fun _ => rfl, ⟨rfl, rfl, rfl, rfl⟩, id, [], by simp⟩

theorem Effect.goRun (v : RunState) (h : k.runs = true) : Effect k s { s with run := v } :=
  ⟨fun r _ => by cases r <;> rfl, .refl _ _, fun _ => ⟨rfl, rfl, rfl⟩, fun _ => rfl, fun _ => rfl,
    fun hr => absurd hr (by simp [h]), ⟨rfl, rfl, rfl, rfl⟩, id, [], by simp⟩

theorem Effect.goE (v : Bool) (h : k.mode = true) : Effect k s { s with e := v } :=
  ⟨fun r _ => by cases r <;> rfl, .refl _ _, fun _ => ⟨rfl, rfl, rfl⟩, fun _ => rfl,
    fun he => absurd he (by simp [h]), fun _ => rfl, ⟨rfl, rfl, rfl, rfl⟩, id, [], by simp⟩

theorem Effect.goto (a : Addr) (hp : .pbr ∈ k.regs) (ht : k.transfers = true) : Effect k s (s.goto a) :=
  (Effect.pbr (bankOf a) hp).trans (.goPc (offsetOf a) ht)

theorem Effect.putA (w : Width) (v : Word) (h : .a ∈ k.regs) : Effect k s (s.putA w v) := .a _ h

theorem Effect.setNZ (w : Width) (v : Word) (hn : .n ∈ k.flags) (hz : .z ∈ k.flags) :
    Effect k s (s.setNZ w v) := .p (.setNZ w v s.p hn hz)

theorem Effect.setFlag (f : Flag) (b : Bool) (h : f ∈ k.flags) : Effect k s (s.setFlag f b) :=
  .p (.putFlag s.p b h)

/-- Stores to memory within the bound. -/
theorem Effect.stored {l : List Addr} (h : Stored l s t) (hk : k.stores = true) : Effect k s t := by
  obtain ⟨hb, hw, -⟩ := h
  obtain ⟨w, m, r, l, n, rfl⟩ := hb
  exact ⟨fun r _ => by cases r <;> rfl, .refl _ _, fun hs => absurd hs (by simp [hk]), fun _ => rfl,
    fun _ => rfl, fun _ => rfl, ⟨rfl, rfl, rfl, rfl⟩, hw, l, rfl⟩

theorem Effect.pushed {n : Nat} (h : Pushed n s t) (hk : k.stores = true) (hs : .sp ∈ k.regs) :
    Effect k s t := by
  obtain ⟨hb, hw, -⟩ := h
  obtain ⟨w, m, r, l, n, rfl⟩ := hb
  refine ⟨fun r hr => ?_, .refl _ _, fun h => absurd h (by simp [hk]), fun _ => rfl,
    fun _ => rfl, fun _ => rfl, ⟨rfl, rfl, rfl, rfl⟩, hw, l, rfl⟩
  cases r
  case sp => exact absurd hs hr
  all_goals rfl

theorem Effect.pulled {n : Nat} (h : PulledN n s t) (hs : .sp ∈ k.regs) : Effect k s t :=
  (Effect.sp _ hs).trans (.reads h)

theorem Effect.normalize (hx : .x ∈ k.regs) (hy : .y ∈ k.regs) (hs : .sp ∈ k.regs)
    (hf : ∀ f, f ∈ k.flags) : Effect k s s.normalize := by
  refine ⟨fun r hr => ?_, fun f h => absurd (hf f) h, fun _ => ⟨by simp, by simp, by simp⟩,
    fun _ => by simp, fun _ => by simp, fun _ => by simp, ⟨by simp, by simp, by simp, by simp⟩,
    fun w => ?_, [], by simp⟩
  · cases r
    case x => exact absurd hx hr
    case y => exact absurd hy hr
    case sp => exact absurd hs hr
    all_goals simp [State.reg]
  · simpa [State.StoresWf] using w

theorem readOperand_effect {f : Form} {w : Width} {v : Word} (h : readOperand f w s = .ok (v, t)) :
    Effect k s t := by
  obtain ⟨o, u, r, h1, h2, rfl⟩ := readOperand_ok h
  exact ((Effect.reads (resolve_reads h1)).trans (.reads (load_reads h2))).trans (.charge _)

theorem storeOperand_effect {f : Form} {w : Width} {v : Word} (h : storeOperand f w v s = .ok t)
    (hk : k.stores = true) : Effect k s t := by
  obtain ⟨o, u, h1, h2⟩ := storeOperand_ok h
  obtain ⟨l, h2⟩ := store_stored h2
  exact (Effect.reads (resolve_reads h1)).trans (.stored h2 hk)

/-- Only the accumulator format resolves to the accumulator. -/
theorem resolve_acc {f : Form} (h : resolve f s = .ok (.acc, t)) : f = .acc := by
  unfold resolve at h
  split at h
  all_goals first
    | rfl
    | cases h
    | (obtain ⟨⟨p, u⟩, -, h⟩ := Except.bind_ok.1 h; cases h)

theorem modify_effect {f : Form} {op : Width → Word → Byte → Word × Byte} (h : modify f op s = .ok t)
    (hop : ∀ w v p, KeepsFlags k.flags p (op w v p).2) (hk : f = .acc ∨ k.stores = true)
    (ha : f = .acc → .a ∈ k.regs) : Effect k s t := by
  obtain ⟨o, u, r, h1, h2, rfl⟩ := modify_ok h
  refine ((Effect.reads (resolve_reads h1)).trans ?_).trans (.charge _)
  obtain ⟨ea, c, b, old, q, w, rfl, h3, h4, rfl⟩ | ⟨rfl, rfl⟩ | ⟨-, rfl⟩ := modifyAt_ok h2
  · rcases hk with rfl | hk
    · cases h1
    · have hw := writeBack_stored h4
      refine ((Effect.reads (readData_reads h3)).trans (.stored hw hk)).trans (.p ?_)
      obtain ⟨l, n, rfl⟩ := readData_reads h3
      obtain ⟨_, _, _, _, _, rfl⟩ := hw.bus
      exact hop _ _ _
  · exact (Effect.putA _ _ (ha (resolve_acc h1))).trans (.p (hop _ _ _))
  · exact .refl _ _

theorem combineA_effect {f : Form} {op : Width → Word → Word → Byte → Word × Byte}
    (h : combineA f op s = .ok t) (hop : ∀ w a b p, KeepsFlags k.flags p (op w a b p).2)
    (ha : .a ∈ k.regs) : Effect k s t := by
  obtain ⟨⟨b, r⟩, h1, h⟩ := Except.bind_ok.1 h
  cases h
  exact (((readOperand_effect h1).trans (.charge _)).trans (.putA _ _ ha)).trans (.p (hop _ _ _ _))

theorem enter_effect {i : IntKind} {ret : Word} (h : enter i ret s = .ok t) (hk : k.stores = true)
    (hs : .sp ∈ k.regs) (hp : .pbr ∈ k.regs) (ht : k.transfers = true) (hr : k.runs = true)
    (hd : .d ∈ k.flags) (hi : .i ∈ k.flags) : Effect k s t := by
  obtain ⟨u, hu, rfl⟩ := enter_ok h
  refine (Effect.pushed hu hk hs).trans ?_
  refine (((Effect.p (q := putFlag (putFlag u.p .i true) .d false) ?_).trans (.pbr 0 hp)).trans
    (.goPc (if s.e then s.params.vecE.entry i else s.params.vecN.entry i) ht)).trans (.goRun .running hr)
  exact (KeepsFlags.putFlag _ _ hi).trans (.putFlag _ _ hd)

/-! ### The handlers -/

/-- The bound the spec gives a mnemonic on a format (30_encoding.md R126, 10_state.md). -/
def scopeOf (f : Form) (m : Mnemonic) : Scope where
  regs := Mnemonic.writes (f == .acc) m
  flags := Mnemonic.flagSet (Form.isImmM f) m
  stores := Mnemonic.stores (f == .acc) m
  transfers := Mnemonic.transfers m
  mode := m == .xce
  runs := m == .wai || m == .stp || m == .brk || m == .cop

variable {f : Form}

theorem lda_effect (h : handler f s .lda = .ok t) : Effect (scopeOf f .lda) s t := by
  obtain ⟨⟨v, r⟩, h1, h⟩ := Except.bind_ok.1 h
  cases h
  exact (((readOperand_effect h1).trans (.charge _)).trans (.putA _ _ (of_decide_eq_true rfl))).trans
    (.setNZ _ _ (of_decide_eq_true rfl) (of_decide_eq_true rfl))

theorem ldx_effect (h : handler f s .ldx = .ok t) : Effect (scopeOf f .ldx) s t := by
  obtain ⟨⟨v, r⟩, h1, h⟩ := Except.bind_ok.1 h
  cases h
  exact (((readOperand_effect h1).trans (.charge _)).trans (.x _ (of_decide_eq_true rfl))).trans
    (.setNZ _ _ (of_decide_eq_true rfl) (of_decide_eq_true rfl))

theorem ldy_effect (h : handler f s .ldy = .ok t) : Effect (scopeOf f .ldy) s t := by
  obtain ⟨⟨v, r⟩, h1, h⟩ := Except.bind_ok.1 h
  cases h
  exact (((readOperand_effect h1).trans (.charge _)).trans (.y _ (of_decide_eq_true rfl))).trans
    (.setNZ _ _ (of_decide_eq_true rfl) (of_decide_eq_true rfl))

theorem sta_effect (h : handler f s .sta = .ok t) : Effect (scopeOf f .sta) s t := by
  obtain ⟨r, h1, h⟩ := Except.bind_ok.1 h
  cases h
  exact (storeOperand_effect h1 rfl).trans (.charge _)

theorem stx_effect (h : handler f s .stx = .ok t) : Effect (scopeOf f .stx) s t := by
  obtain ⟨r, h1, h⟩ := Except.bind_ok.1 h
  cases h
  exact (storeOperand_effect h1 rfl).trans (.charge _)

theorem sty_effect (h : handler f s .sty = .ok t) : Effect (scopeOf f .sty) s t := by
  obtain ⟨r, h1, h⟩ := Except.bind_ok.1 h
  cases h
  exact (storeOperand_effect h1 rfl).trans (.charge _)

theorem stz_effect (h : handler f s .stz = .ok t) : Effect (scopeOf f .stz) s t := by
  obtain ⟨r, h1, h⟩ := Except.bind_ok.1 h
  cases h
  exact (storeOperand_effect h1 rfl).trans (.charge _)

theorem tax_effect (h : handler f s .tax = .ok t) : Effect (scopeOf f .tax) s t := by
  cases h
  exact (Effect.x _ (of_decide_eq_true rfl)).trans (.setNZ _ _ (of_decide_eq_true rfl) (of_decide_eq_true rfl))

theorem tay_effect (h : handler f s .tay = .ok t) : Effect (scopeOf f .tay) s t := by
  cases h
  exact (Effect.y _ (of_decide_eq_true rfl)).trans (.setNZ _ _ (of_decide_eq_true rfl) (of_decide_eq_true rfl))

theorem tsx_effect (h : handler f s .tsx = .ok t) : Effect (scopeOf f .tsx) s t := by
  cases h
  exact (Effect.x _ (of_decide_eq_true rfl)).trans (.setNZ _ _ (of_decide_eq_true rfl) (of_decide_eq_true rfl))

theorem txy_effect (h : handler f s .txy = .ok t) : Effect (scopeOf f .txy) s t := by
  cases h
  exact (Effect.y _ (of_decide_eq_true rfl)).trans (.setNZ _ _ (of_decide_eq_true rfl) (of_decide_eq_true rfl))

theorem tyx_effect (h : handler f s .tyx = .ok t) : Effect (scopeOf f .tyx) s t := by
  cases h
  exact (Effect.x _ (of_decide_eq_true rfl)).trans (.setNZ _ _ (of_decide_eq_true rfl) (of_decide_eq_true rfl))

theorem inx_effect (h : handler f s .inx = .ok t) : Effect (scopeOf f .inx) s t := by
  cases h
  exact (Effect.x _ (of_decide_eq_true rfl)).trans (.setNZ _ _ (of_decide_eq_true rfl) (of_decide_eq_true rfl))

theorem iny_effect (h : handler f s .iny = .ok t) : Effect (scopeOf f .iny) s t := by
  cases h
  exact (Effect.y _ (of_decide_eq_true rfl)).trans (.setNZ _ _ (of_decide_eq_true rfl) (of_decide_eq_true rfl))

theorem dex_effect (h : handler f s .dex = .ok t) : Effect (scopeOf f .dex) s t := by
  cases h
  exact (Effect.x _ (of_decide_eq_true rfl)).trans (.setNZ _ _ (of_decide_eq_true rfl) (of_decide_eq_true rfl))

theorem dey_effect (h : handler f s .dey = .ok t) : Effect (scopeOf f .dey) s t := by
  cases h
  exact (Effect.y _ (of_decide_eq_true rfl)).trans (.setNZ _ _ (of_decide_eq_true rfl) (of_decide_eq_true rfl))

theorem tdc_effect (h : handler f s .tdc = .ok t) : Effect (scopeOf f .tdc) s t := by
  cases h
  exact (Effect.a _ (of_decide_eq_true rfl)).trans (.setNZ _ _ (of_decide_eq_true rfl) (of_decide_eq_true rfl))

theorem tcd_effect (h : handler f s .tcd = .ok t) : Effect (scopeOf f .tcd) s t := by
  cases h
  exact (Effect.d _ (of_decide_eq_true rfl)).trans (.setNZ _ _ (of_decide_eq_true rfl) (of_decide_eq_true rfl))

theorem tsc_effect (h : handler f s .tsc = .ok t) : Effect (scopeOf f .tsc) s t := by
  cases h
  exact (Effect.a _ (of_decide_eq_true rfl)).trans (.setNZ _ _ (of_decide_eq_true rfl) (of_decide_eq_true rfl))

theorem xba_effect (h : handler f s .xba = .ok t) : Effect (scopeOf f .xba) s t := by
  cases h
  exact (Effect.a _ (of_decide_eq_true rfl)).trans (.setNZ _ _ (of_decide_eq_true rfl) (of_decide_eq_true rfl))

theorem txa_effect (h : handler f s .txa = .ok t) : Effect (scopeOf f .txa) s t := by
  cases h
  exact (Effect.putA _ _ (of_decide_eq_true rfl)).trans (.setNZ _ _ (of_decide_eq_true rfl) (of_decide_eq_true rfl))

theorem tya_effect (h : handler f s .tya = .ok t) : Effect (scopeOf f .tya) s t := by
  cases h
  exact (Effect.putA _ _ (of_decide_eq_true rfl)).trans (.setNZ _ _ (of_decide_eq_true rfl) (of_decide_eq_true rfl))

theorem txs_effect (h : handler f s .txs = .ok t) : Effect (scopeOf f .txs) s t := by
  cases h
  exact Effect.sp _ (of_decide_eq_true rfl)

theorem tcs_effect (h : handler f s .tcs = .ok t) : Effect (scopeOf f .tcs) s t := by
  cases h
  exact Effect.sp _ (of_decide_eq_true rfl)

theorem adc_effect (h : handler f s .adc = .ok t) : Effect (scopeOf f .adc) s t := by
  obtain ⟨r, h1, h⟩ := Except.bind_ok.1 h
  cases h
  exact (combineA_effect h1 addWithCarry_keeps (of_decide_eq_true rfl)).trans (.charge _)

theorem sbc_effect (h : handler f s .sbc = .ok t) : Effect (scopeOf f .sbc) s t := by
  exact combineA_effect h subWithBorrow_keeps (of_decide_eq_true rfl)

theorem and_effect (h : handler f s .and = .ok t) : Effect (scopeOf f .and) s t := by
  change andA f s = .ok t at h
  unfold andA at h
  exact combineA_effect h (fun w _ _ p => withNZ_keeps w _ p) (of_decide_eq_true rfl)

theorem ora_effect (h : handler f s .ora = .ok t) : Effect (scopeOf f .ora) s t := by
  change oraA f s = .ok t at h
  unfold oraA at h
  exact combineA_effect h (fun w _ _ p => withNZ_keeps w _ p) (of_decide_eq_true rfl)

theorem eor_effect (h : handler f s .eor = .ok t) : Effect (scopeOf f .eor) s t := by
  change eorA f s = .ok t at h
  unfold eorA at h
  exact combineA_effect h (fun w _ _ p => withNZ_keeps w _ p) (of_decide_eq_true rfl)

theorem cmp_effect (h : handler f s .cmp = .ok t) : Effect (scopeOf f .cmp) s t := by
  obtain ⟨⟨v, r⟩, h1, h⟩ := Except.bind_ok.1 h
  cases h
  exact ((readOperand_effect h1).trans (.charge _)).trans (.p (compareFlags_keeps _ _ _ _))

theorem cpx_effect (h : handler f s .cpx = .ok t) : Effect (scopeOf f .cpx) s t := by
  obtain ⟨⟨v, r⟩, h1, h⟩ := Except.bind_ok.1 h
  cases h
  exact ((readOperand_effect h1).trans (.charge _)).trans (.p (compareFlags_keeps _ _ _ _))

theorem cpy_effect (h : handler f s .cpy = .ok t) : Effect (scopeOf f .cpy) s t := by
  obtain ⟨⟨v, r⟩, h1, h⟩ := Except.bind_ok.1 h
  cases h
  exact ((readOperand_effect h1).trans (.charge _)).trans (.p (compareFlags_keeps _ _ _ _))

theorem bit_effect (h : handler f s .bit = .ok t) : Effect (scopeOf f .bit) s t := by
  obtain ⟨⟨v, r⟩, h1, h⟩ := Except.bind_ok.1 h
  cases h
  refine ((readOperand_effect h1).trans (.charge _)).trans (.p ?_)
  show KeepsFlags (Mnemonic.flagSet (Form.isImmM f) .bit) _ _
  cases Form.isImmM f
  · exact bitFlags_keeps _ _ _ _
  · exact testZ_keeps _ _ _ _

theorem inc_effect (h : handler f s .inc = .ok t) : Effect (scopeOf f .inc) s t := by
  refine modify_effect h (fun w v p => withNZ_keeps w (v + 1) p) ?_ ?_
  · by_cases hf : f = .acc
    · exact .inl hf
    · exact .inr (by simp [scopeOf, Mnemonic.stores, hf])
  · rintro rfl; decide

theorem dec_effect (h : handler f s .dec = .ok t) : Effect (scopeOf f .dec) s t := by
  refine modify_effect h (fun w v p => withNZ_keeps w (v - 1) p) ?_ ?_
  · by_cases hf : f = .acc
    · exact .inl hf
    · exact .inr (by simp [scopeOf, Mnemonic.stores, hf])
  · rintro rfl; decide

theorem asl_effect (h : handler f s .asl = .ok t) : Effect (scopeOf f .asl) s t := by
  refine modify_effect h (fun w _ p => withNZ_carry_keeps w _ p _) ?_ ?_
  · by_cases hf : f = .acc
    · exact .inl hf
    · exact .inr (by simp [scopeOf, Mnemonic.stores, hf])
  · rintro rfl; decide

theorem lsr_effect (h : handler f s .lsr = .ok t) : Effect (scopeOf f .lsr) s t := by
  refine modify_effect h (fun w _ p => withNZ_carry_keeps w _ p _) ?_ ?_
  · by_cases hf : f = .acc
    · exact .inl hf
    · exact .inr (by simp [scopeOf, Mnemonic.stores, hf])
  · rintro rfl; decide

theorem rol_effect (h : handler f s .rol = .ok t) : Effect (scopeOf f .rol) s t := by
  refine modify_effect h (fun w _ p => withNZ_carry_keeps w _ p _) ?_ ?_
  · by_cases hf : f = .acc
    · exact .inl hf
    · exact .inr (by simp [scopeOf, Mnemonic.stores, hf])
  · rintro rfl; decide

theorem ror_effect (h : handler f s .ror = .ok t) : Effect (scopeOf f .ror) s t := by
  refine modify_effect h (fun w _ p => withNZ_carry_keeps w _ p _) ?_ ?_
  · by_cases hf : f = .acc
    · exact .inl hf
    · exact .inr (by simp [scopeOf, Mnemonic.stores, hf])
  · rintro rfl; decide

theorem tsb_effect (hf : f ≠ .acc) (h : handler f s .tsb = .ok t) : Effect (scopeOf f .tsb) s t := by
  refine modify_effect h (fun w v p => testZ_keeps w _ v p) (.inr rfl) ?_
  exact fun h => absurd h hf

theorem trb_effect (hf : f ≠ .acc) (h : handler f s .trb = .ok t) : Effect (scopeOf f .trb) s t := by
  refine modify_effect h (fun w v p => testZ_keeps w _ v p) (.inr rfl) ?_
  exact fun h => absurd h hf

theorem bpl_effect (h : handler f s .bpl = .ok t) : Effect (scopeOf f .bpl) s t := by
  cases h
  unfold branchOn
  split
  · exact (Effect.goPc _ rfl).trans (.charge _)
  · exact .refl _ _

theorem bmi_effect (h : handler f s .bmi = .ok t) : Effect (scopeOf f .bmi) s t := by
  cases h
  unfold branchOn
  split
  · exact (Effect.goPc _ rfl).trans (.charge _)
  · exact .refl _ _

theorem bvc_effect (h : handler f s .bvc = .ok t) : Effect (scopeOf f .bvc) s t := by
  cases h
  unfold branchOn
  split
  · exact (Effect.goPc _ rfl).trans (.charge _)
  · exact .refl _ _

theorem bvs_effect (h : handler f s .bvs = .ok t) : Effect (scopeOf f .bvs) s t := by
  cases h
  unfold branchOn
  split
  · exact (Effect.goPc _ rfl).trans (.charge _)
  · exact .refl _ _

theorem bcc_effect (h : handler f s .bcc = .ok t) : Effect (scopeOf f .bcc) s t := by
  cases h
  unfold branchOn
  split
  · exact (Effect.goPc _ rfl).trans (.charge _)
  · exact .refl _ _

theorem bcs_effect (h : handler f s .bcs = .ok t) : Effect (scopeOf f .bcs) s t := by
  cases h
  unfold branchOn
  split
  · exact (Effect.goPc _ rfl).trans (.charge _)
  · exact .refl _ _

theorem bne_effect (h : handler f s .bne = .ok t) : Effect (scopeOf f .bne) s t := by
  cases h
  unfold branchOn
  split
  · exact (Effect.goPc _ rfl).trans (.charge _)
  · exact .refl _ _

theorem beq_effect (h : handler f s .beq = .ok t) : Effect (scopeOf f .beq) s t := by
  cases h
  unfold branchOn
  split
  · exact (Effect.goPc _ rfl).trans (.charge _)
  · exact .refl _ _

theorem bra_effect (h : handler f s .bra = .ok t) : Effect (scopeOf f .bra) s t := by
  cases h
  exact (Effect.goPc _ rfl).trans (.charge _)

theorem brl_effect (h : handler f s .brl = .ok t) : Effect (scopeOf f .brl) s t := by
  cases h
  exact Effect.goPc _ rfl

theorem jmp_effect (h : handler f s .jmp = .ok t) : Effect (scopeOf f .jmp) s t := by
  change jmpForm f s = .ok t at h
  unfold jmpForm at h
  split at h
  · cases h; exact Effect.goPc _ rfl
  · obtain ⟨⟨p, u⟩, h1, h⟩ := Except.bind_ok.1 h
    cases h
    exact (Effect.reads (readWord_reads h1)).trans (.goPc _ rfl)
  · obtain ⟨⟨p, u⟩, h1, h⟩ := Except.bind_ok.1 h
    cases h
    exact (Effect.reads (readWord_reads h1)).trans (.goPc _ rfl)
  · cases h; exact .refl _ _

theorem jml_effect (h : handler f s .jml = .ok t) : Effect (scopeOf f .jml) s t := by
  change jmlForm f s = .ok t at h
  unfold jmlForm at h
  split at h
  · cases h; exact Effect.goto _ (of_decide_eq_true rfl) rfl
  · obtain ⟨⟨p, u⟩, h1, h⟩ := Except.bind_ok.1 h
    cases h
    exact (Effect.reads (readLong_reads h1)).trans (.goto _ (of_decide_eq_true rfl) rfl)
  · cases h; exact .refl _ _

theorem jsr_effect (h : handler f s .jsr = .ok t) : Effect (scopeOf f .jsr) s t := by
  change jsrForm f s = .ok t at h
  unfold jsrForm at h
  split at h
  · obtain ⟨u, h1, h⟩ := Except.bind_ok.1 h
    cases h
    exact (Effect.pushed (push16_pushed h1) rfl (of_decide_eq_true rfl)).trans (.goPc _ rfl)
  · obtain ⟨u, h1, h⟩ := Except.bind_ok.1 h
    obtain ⟨⟨p, r⟩, h2, h⟩ := Except.bind_ok.1 h
    cases h
    exact ((Effect.pushed (push16_pushed h1) rfl (of_decide_eq_true rfl)).trans (.reads (readWord_reads h2))).trans
      (.goPc _ rfl)
  · cases h; exact .refl _ _

theorem jsl_effect (h : handler f s .jsl = .ok t) : Effect (scopeOf f .jsl) s t := by
  obtain ⟨u, h1, h⟩ := Except.bind_ok.1 h
  obtain ⟨r, h2, h⟩ := Except.bind_ok.1 h
  cases h
  exact ((Effect.pushed (push8_pushed h1) rfl (of_decide_eq_true rfl)).trans
    (.pushed (push16_pushed h2) rfl (of_decide_eq_true rfl))).trans (.goto _ (of_decide_eq_true rfl) rfl)

theorem rts_effect (h : handler f s .rts = .ok t) : Effect (scopeOf f .rts) s t := by
  obtain ⟨⟨v, u⟩, h1, h⟩ := Except.bind_ok.1 h
  cases h
  exact (Effect.pulled (pull16_pulled h1) (of_decide_eq_true rfl)).trans (.goPc _ rfl)

theorem rtl_effect (h : handler f s .rtl = .ok t) : Effect (scopeOf f .rtl) s t := by
  obtain ⟨⟨v, u⟩, h1, h⟩ := Except.bind_ok.1 h
  obtain ⟨⟨b, r⟩, h2, h⟩ := Except.bind_ok.1 h
  cases h
  exact (((Effect.pulled (pull16_pulled h1) (of_decide_eq_true rfl)).trans
    (.pulled (pull8_pulled h2) (of_decide_eq_true rfl))).trans (.goPc (v + 1) rfl)).trans (.pbr b (of_decide_eq_true rfl))

theorem pha_effect (h : handler f s .pha = .ok t) : Effect (scopeOf f .pha) s t := by
  obtain ⟨u, h1, h⟩ := Except.bind_ok.1 h
  cases h
  exact (Effect.pushed (pushW_pushed h1) rfl (of_decide_eq_true rfl)).trans (.charge _)

theorem phx_effect (h : handler f s .phx = .ok t) : Effect (scopeOf f .phx) s t := by
  obtain ⟨u, h1, h⟩ := Except.bind_ok.1 h
  cases h
  exact (Effect.pushed (pushW_pushed h1) rfl (of_decide_eq_true rfl)).trans (.charge _)

theorem phy_effect (h : handler f s .phy = .ok t) : Effect (scopeOf f .phy) s t := by
  obtain ⟨u, h1, h⟩ := Except.bind_ok.1 h
  cases h
  exact (Effect.pushed (pushW_pushed h1) rfl (of_decide_eq_true rfl)).trans (.charge _)

theorem phb_effect (h : handler f s .phb = .ok t) : Effect (scopeOf f .phb) s t := by
  exact Effect.pushed (push8_pushed h) rfl (of_decide_eq_true rfl)

theorem phk_effect (h : handler f s .phk = .ok t) : Effect (scopeOf f .phk) s t := by
  exact Effect.pushed (push8_pushed h) rfl (of_decide_eq_true rfl)

theorem php_effect (h : handler f s .php = .ok t) : Effect (scopeOf f .php) s t := by
  exact Effect.pushed (push8_pushed h) rfl (of_decide_eq_true rfl)

theorem phd_effect (h : handler f s .phd = .ok t) : Effect (scopeOf f .phd) s t := by
  exact Effect.pushed (push16_pushed h) rfl (of_decide_eq_true rfl)

theorem pea_effect (h : handler f s .pea = .ok t) : Effect (scopeOf f .pea) s t := by
  exact Effect.pushed (push16_pushed h) rfl (of_decide_eq_true rfl)

theorem per_effect (h : handler f s .per = .ok t) : Effect (scopeOf f .per) s t := by
  exact Effect.pushed (push16_pushed h) rfl (of_decide_eq_true rfl)

theorem pei_effect (h : handler f s .pei = .ok t) : Effect (scopeOf f .pei) s t := by
  obtain ⟨⟨v, u⟩, h1, h⟩ := Except.bind_ok.1 h
  exact (Effect.reads (readWord_reads h1)).trans (.pushed (push16_pushed h) rfl (of_decide_eq_true rfl))

theorem pla_effect (h : handler f s .pla = .ok t) : Effect (scopeOf f .pla) s t := by
  obtain ⟨⟨v, u⟩, h1, h⟩ := Except.bind_ok.1 h
  cases h
  exact (((Effect.pulled (pullW_pulled h1) (of_decide_eq_true rfl)).trans (.charge _)).trans
    (.putA _ _ (of_decide_eq_true rfl))).trans (.setNZ _ _ (of_decide_eq_true rfl) (of_decide_eq_true rfl))

theorem plx_effect (h : handler f s .plx = .ok t) : Effect (scopeOf f .plx) s t := by
  obtain ⟨⟨v, u⟩, h1, h⟩ := Except.bind_ok.1 h
  cases h
  exact (((Effect.pulled (pullW_pulled h1) (of_decide_eq_true rfl)).trans (.charge _)).trans
    (.x _ (of_decide_eq_true rfl))).trans (.setNZ _ _ (of_decide_eq_true rfl) (of_decide_eq_true rfl))

theorem ply_effect (h : handler f s .ply = .ok t) : Effect (scopeOf f .ply) s t := by
  obtain ⟨⟨v, u⟩, h1, h⟩ := Except.bind_ok.1 h
  cases h
  exact (((Effect.pulled (pullW_pulled h1) (of_decide_eq_true rfl)).trans (.charge _)).trans
    (.y _ (of_decide_eq_true rfl))).trans (.setNZ _ _ (of_decide_eq_true rfl) (of_decide_eq_true rfl))

theorem plb_effect (h : handler f s .plb = .ok t) : Effect (scopeOf f .plb) s t := by
  obtain ⟨⟨v, u⟩, h1, h⟩ := Except.bind_ok.1 h
  cases h
  exact ((Effect.pulled (pull8_pulled h1) (of_decide_eq_true rfl)).trans (.dbr _ (of_decide_eq_true rfl))).trans
    (.setNZ _ _ (of_decide_eq_true rfl) (of_decide_eq_true rfl))

theorem pld_effect (h : handler f s .pld = .ok t) : Effect (scopeOf f .pld) s t := by
  obtain ⟨⟨v, u⟩, h1, h⟩ := Except.bind_ok.1 h
  cases h
  exact ((Effect.pulled (pull16_pulled h1) (of_decide_eq_true rfl)).trans (.d _ (of_decide_eq_true rfl))).trans
    (.setNZ _ _ (of_decide_eq_true rfl) (of_decide_eq_true rfl))

theorem plp_effect (h : handler f s .plp = .ok t) : Effect (scopeOf f .plp) s t := by
  obtain ⟨⟨v, u⟩, h1, h⟩ := Except.bind_ok.1 h
  cases h
  exact (Effect.pulled (pull8_pulled h1) (of_decide_eq_true rfl)).trans (.p fun g hg => absurd (by cases g <;> exact of_decide_eq_true rfl) hg)

theorem clc_effect (h : handler f s .clc = .ok t) : Effect (scopeOf f .clc) s t := by
  cases h
  exact Effect.setFlag _ _ (of_decide_eq_true rfl)

theorem cld_effect (h : handler f s .cld = .ok t) : Effect (scopeOf f .cld) s t := by
  cases h
  exact Effect.setFlag _ _ (of_decide_eq_true rfl)

theorem cli_effect (h : handler f s .cli = .ok t) : Effect (scopeOf f .cli) s t := by
  cases h
  exact Effect.setFlag _ _ (of_decide_eq_true rfl)

theorem clv_effect (h : handler f s .clv = .ok t) : Effect (scopeOf f .clv) s t := by
  cases h
  exact Effect.setFlag _ _ (of_decide_eq_true rfl)

theorem sec_effect (h : handler f s .sec = .ok t) : Effect (scopeOf f .sec) s t := by
  cases h
  exact Effect.setFlag _ _ (of_decide_eq_true rfl)

theorem sed_effect (h : handler f s .sed = .ok t) : Effect (scopeOf f .sed) s t := by
  cases h
  exact Effect.setFlag _ _ (of_decide_eq_true rfl)

theorem sei_effect (h : handler f s .sei = .ok t) : Effect (scopeOf f .sei) s t := by
  cases h
  exact Effect.setFlag _ _ (of_decide_eq_true rfl)

theorem rep_effect (h : handler f s .rep = .ok t) : Effect (scopeOf f .rep) s t := by
  cases h
  exact Effect.p fun g hg => absurd (by cases g <;> exact of_decide_eq_true rfl) hg

theorem sep_effect (h : handler f s .sep = .ok t) : Effect (scopeOf f .sep) s t := by
  cases h
  exact Effect.p fun g hg => absurd (by cases g <;> exact of_decide_eq_true rfl) hg

theorem nop_effect (h : handler f s .nop = .ok t) : Effect (scopeOf f .nop) s t := by
  cases h
  exact .refl _ _

theorem wdm_effect (h : handler f s .wdm = .ok t) : Effect (scopeOf f .wdm) s t := by
  cases h
  exact .refl _ _

theorem xce_effect (h : handler f s .xce = .ok t) : Effect (scopeOf f .xce) s t := by
  cases h
  exact (Effect.setFlag .c s.e (of_decide_eq_true rfl)).trans (.goE (s.flag .c) rfl)

theorem brk_effect (h : handler f s .brk = .ok t) : Effect (scopeOf f .brk) s t := by
  obtain ⟨u, h1, h⟩ := Except.bind_ok.1 h
  cases h
  exact (enter_effect h1 rfl (of_decide_eq_true rfl) (of_decide_eq_true rfl) rfl rfl (of_decide_eq_true rfl) (of_decide_eq_true rfl)).trans (.charge _)

theorem cop_effect (h : handler f s .cop = .ok t) : Effect (scopeOf f .cop) s t := by
  obtain ⟨u, h1, h⟩ := Except.bind_ok.1 h
  cases h
  exact (enter_effect h1 rfl (of_decide_eq_true rfl) (of_decide_eq_true rfl) rfl rfl (of_decide_eq_true rfl) (of_decide_eq_true rfl)).trans (.charge _)

theorem rti_effect (h : handler f s .rti = .ok t) : Effect (scopeOf f .rti) s t := by
  obtain ⟨r, h1, h⟩ := Except.bind_ok.1 h
  cases h
  refine Effect.trans ?_ (.charge _)
  obtain ⟨p, u, pc, v, h1, h2, h3⟩ := leave_ok h1
  have hv : Effect (scopeOf f .rti) s v :=
    (((Effect.pulled (pull8_pulled h1) (of_decide_eq_true rfl)).trans
      (.p fun g hg => absurd (by cases g <;> exact of_decide_eq_true rfl) hg)).trans
      (.normalize (of_decide_eq_true rfl) (of_decide_eq_true rfl) (of_decide_eq_true rfl) fun g => by cases g <;> exact of_decide_eq_true rfl)).trans
      (.pulled (pull16_pulled h2) (of_decide_eq_true rfl))
  obtain ⟨-, rfl⟩ | ⟨-, b, w, h4, rfl⟩ := h3
  · exact hv.trans (.goPc _ rfl)
  · exact ((hv.trans (.goPc _ rfl)).trans (.pulled (pull8_pulled h4) (of_decide_eq_true rfl))).trans
      (.pbr _ (of_decide_eq_true rfl))

theorem wai_effect (h : handler f s .wai = .ok t) : Effect (scopeOf f .wai) s t := by
  cases h
  exact Effect.goRun _ rfl

theorem stp_effect (h : handler f s .stp = .ok t) : Effect (scopeOf f .stp) s t := by
  cases h
  exact Effect.goRun _ rfl

theorem mvn_effect (h : handler f s .mvn = .ok t) : Effect (scopeOf f .mvn) s t := by
  obtain ⟨⟨v, u⟩, h1, h⟩ := Except.bind_ok.1 h
  obtain ⟨r, h2, h⟩ := Except.bind_ok.1 h
  cases h
  exact (((Effect.reads (read8_reads h1)).trans (.stored (write8_stored h2) rfl)).trans
    (.regs _ _ _ r.sp r.d r.pbr _ (.inr (of_decide_eq_true rfl)) (.inr (of_decide_eq_true rfl)) (.inr (of_decide_eq_true rfl)) (.inl rfl) (.inl rfl)
      (.inl rfl) (.inr (of_decide_eq_true rfl)))).trans (.goPc (if r.a - 1 = 0xFFFF then r.pc else r.pc - 3) rfl)

theorem mvp_effect (h : handler f s .mvp = .ok t) : Effect (scopeOf f .mvp) s t := by
  obtain ⟨⟨v, u⟩, h1, h⟩ := Except.bind_ok.1 h
  obtain ⟨r, h2, h⟩ := Except.bind_ok.1 h
  cases h
  exact (((Effect.reads (read8_reads h1)).trans (.stored (write8_stored h2) rfl)).trans
    (.regs _ _ _ r.sp r.d r.pbr _ (.inr (of_decide_eq_true rfl)) (.inr (of_decide_eq_true rfl)) (.inr (of_decide_eq_true rfl)) (.inl rfl) (.inl rfl)
      (.inl rfl) (.inr (of_decide_eq_true rfl)))).trans (.goPc (if r.a - 1 = 0xFFFF then r.pc else r.pc - 3) rfl)

theorem tsb_form {i : Instr} (h : i.mnemonic = .tsb ∨ i.mnemonic = .trb) : i.form ≠ .acc := by
  cases i <;> simp [Instr.mnemonic, Instr.form] at h ⊢

/-- A handler stays within the bound its descriptor and its rule give it. -/
theorem handler_effect (i : Instr) (h : handler i.form s i.mnemonic = .ok t) :
    Effect (scopeOf i.form i.mnemonic) s t := by
  cases hm : i.mnemonic <;> rw [hm] at h
  case lda => exact lda_effect h
  case ldx => exact ldx_effect h
  case ldy => exact ldy_effect h
  case sta => exact sta_effect h
  case stx => exact stx_effect h
  case sty => exact sty_effect h
  case stz => exact stz_effect h
  case adc => exact adc_effect h
  case sbc => exact sbc_effect h
  case cmp => exact cmp_effect h
  case cpx => exact cpx_effect h
  case cpy => exact cpy_effect h
  case inc => exact inc_effect h
  case dec => exact dec_effect h
  case and => exact and_effect h
  case ora => exact ora_effect h
  case eor => exact eor_effect h
  case bit => exact bit_effect h
  case tsb => exact tsb_effect (tsb_form (.inl hm)) h
  case trb => exact trb_effect (tsb_form (.inr hm)) h
  case asl => exact asl_effect h
  case lsr => exact lsr_effect h
  case rol => exact rol_effect h
  case ror => exact ror_effect h
  case bpl => exact bpl_effect h
  case bmi => exact bmi_effect h
  case bvc => exact bvc_effect h
  case bvs => exact bvs_effect h
  case bcc => exact bcc_effect h
  case bcs => exact bcs_effect h
  case bne => exact bne_effect h
  case beq => exact beq_effect h
  case bra => exact bra_effect h
  case brl => exact brl_effect h
  case jmp => exact jmp_effect h
  case jml => exact jml_effect h
  case jsr => exact jsr_effect h
  case jsl => exact jsl_effect h
  case rts => exact rts_effect h
  case rtl => exact rtl_effect h
  case pea => exact pea_effect h
  case pei => exact pei_effect h
  case per => exact per_effect h
  case rep => exact rep_effect h
  case sep => exact sep_effect h
  case wdm => exact wdm_effect h
  case brk => exact brk_effect h
  case cop => exact cop_effect h
  case rti => exact rti_effect h
  case mvn => exact mvn_effect h
  case mvp => exact mvp_effect h
  case tax => exact tax_effect h
  case tay => exact tay_effect h
  case txa => exact txa_effect h
  case tya => exact tya_effect h
  case tsx => exact tsx_effect h
  case txs => exact txs_effect h
  case tdc => exact tdc_effect h
  case tcd => exact tcd_effect h
  case tsc => exact tsc_effect h
  case tcs => exact tcs_effect h
  case xba => exact xba_effect h
  case txy => exact txy_effect h
  case tyx => exact tyx_effect h
  case inx => exact inx_effect h
  case iny => exact iny_effect h
  case dex => exact dex_effect h
  case dey => exact dey_effect h
  case pha => exact pha_effect h
  case phx => exact phx_effect h
  case phy => exact phy_effect h
  case phb => exact phb_effect h
  case phd => exact phd_effect h
  case phk => exact phk_effect h
  case php => exact php_effect h
  case pla => exact pla_effect h
  case plx => exact plx_effect h
  case ply => exact ply_effect h
  case plb => exact plb_effect h
  case pld => exact pld_effect h
  case plp => exact plp_effect h
  case clc => exact clc_effect h
  case cld => exact cld_effect h
  case cli => exact cli_effect h
  case clv => exact clv_effect h
  case sec => exact sec_effect h
  case sed => exact sed_effect h
  case sei => exact sei_effect h
  case nop => exact nop_effect h
  case xce => exact xce_effect h
  case wai => exact wai_effect h
  case stp => exact stp_effect h

end Sys2Proof.Machine
end

