-- ==== Sys2Proof/Laws/PerInstr.lean ====
section
/-! SUPPORT. Statements made per instruction: the length of an instruction's encoding is the one the length
rule of 30_encoding.md R125 gives its opcode under the width flags. -/

namespace Sys2Proof.Laws.EncodedLength

/-- Under the flags that make it well formed, an instruction is as long as its opcode's row says
(30_encoding.md R122, R125). -/
def Statement (i : Instr) : Prop :=
  ∀ m x : Bool, i.wellFormed m x = true → (encode i).length = 1 + operandCount m x i.opcode

/-- An accumulator-sized immediate that fits the flag has the row's size. -/
theorem imm_length (n : Bool) (v : Imm) (h : v.fits n = true) :
    (Form.immM v).operandBytes.length = (if n then 1 else 2) ∧
    (Form.immX v).operandBytes.length = (if n then 1 else 2) := by
  cases v <;> cases n <;> first | exact ⟨rfl, rfl⟩ | exact absurd h (by simp [Imm.fits])

theorem ldaDpIndX (d : Byte) : Statement (.ldaDpIndX d) := fun _ _ _ => rfl
theorem ldaSr (d : Byte) : Statement (.ldaSr d) := fun _ _ _ => rfl
theorem ldaDp (d : Byte) : Statement (.ldaDp d) := fun _ _ _ => rfl
theorem ldaDpIndLong (d : Byte) : Statement (.ldaDpIndLong d) := fun _ _ _ => rfl
theorem ldaImm (v : Imm) : Statement (.ldaImm v) := fun m _ h => by
  show _ + 1 = 1 + (if m then 1 else 2)
  rw [Nat.add_comm]; exact congrArg (1 + ·) (imm_length m v h).1
theorem ldaAbs (a : Word) : Statement (.ldaAbs a) := fun _ _ _ => rfl
theorem ldaLong (a : Addr) : Statement (.ldaLong a) := fun _ _ _ => rfl
theorem ldaDpIndY (d : Byte) : Statement (.ldaDpIndY d) := fun _ _ _ => rfl
theorem ldaDpInd (d : Byte) : Statement (.ldaDpInd d) := fun _ _ _ => rfl
theorem ldaSrIndY (d : Byte) : Statement (.ldaSrIndY d) := fun _ _ _ => rfl
theorem ldaDpX (d : Byte) : Statement (.ldaDpX d) := fun _ _ _ => rfl
theorem ldaDpIndLongY (d : Byte) : Statement (.ldaDpIndLongY d) := fun _ _ _ => rfl
theorem ldaAbsY (a : Word) : Statement (.ldaAbsY a) := fun _ _ _ => rfl
theorem ldaAbsX (a : Word) : Statement (.ldaAbsX a) := fun _ _ _ => rfl
theorem ldaLongX (a : Addr) : Statement (.ldaLongX a) := fun _ _ _ => rfl
theorem ldxImm (v : Imm) : Statement (.ldxImm v) := fun _ x h => by
  show _ + 1 = 1 + (if x then 1 else 2)
  rw [Nat.add_comm]; exact congrArg (1 + ·) (imm_length x v h).2
theorem ldxDp (d : Byte) : Statement (.ldxDp d) := fun _ _ _ => rfl
theorem ldxAbs (a : Word) : Statement (.ldxAbs a) := fun _ _ _ => rfl
theorem ldxDpY (d : Byte) : Statement (.ldxDpY d) := fun _ _ _ => rfl
theorem ldxAbsY (a : Word) : Statement (.ldxAbsY a) := fun _ _ _ => rfl
theorem ldyImm (v : Imm) : Statement (.ldyImm v) := fun _ x h => by
  show _ + 1 = 1 + (if x then 1 else 2)
  rw [Nat.add_comm]; exact congrArg (1 + ·) (imm_length x v h).2
theorem ldyDp (d : Byte) : Statement (.ldyDp d) := fun _ _ _ => rfl
theorem ldyAbs (a : Word) : Statement (.ldyAbs a) := fun _ _ _ => rfl
theorem ldyDpX (d : Byte) : Statement (.ldyDpX d) := fun _ _ _ => rfl
theorem ldyAbsX (a : Word) : Statement (.ldyAbsX a) := fun _ _ _ => rfl
theorem staDpIndX (d : Byte) : Statement (.staDpIndX d) := fun _ _ _ => rfl
theorem staSr (d : Byte) : Statement (.staSr d) := fun _ _ _ => rfl
theorem staDp (d : Byte) : Statement (.staDp d) := fun _ _ _ => rfl
theorem staDpIndLong (d : Byte) : Statement (.staDpIndLong d) := fun _ _ _ => rfl
theorem staAbs (a : Word) : Statement (.staAbs a) := fun _ _ _ => rfl
theorem staLong (a : Addr) : Statement (.staLong a) := fun _ _ _ => rfl
theorem staDpIndY (d : Byte) : Statement (.staDpIndY d) := fun _ _ _ => rfl
theorem staDpInd (d : Byte) : Statement (.staDpInd d) := fun _ _ _ => rfl
theorem staSrIndY (d : Byte) : Statement (.staSrIndY d) := fun _ _ _ => rfl
theorem staDpX (d : Byte) : Statement (.staDpX d) := fun _ _ _ => rfl
theorem staDpIndLongY (d : Byte) : Statement (.staDpIndLongY d) := fun _ _ _ => rfl
theorem staAbsY (a : Word) : Statement (.staAbsY a) := fun _ _ _ => rfl
theorem staAbsX (a : Word) : Statement (.staAbsX a) := fun _ _ _ => rfl
theorem staLongX (a : Addr) : Statement (.staLongX a) := fun _ _ _ => rfl
theorem stxDp (d : Byte) : Statement (.stxDp d) := fun _ _ _ => rfl
theorem stxAbs (a : Word) : Statement (.stxAbs a) := fun _ _ _ => rfl
theorem stxDpY (d : Byte) : Statement (.stxDpY d) := fun _ _ _ => rfl
theorem styDp (d : Byte) : Statement (.styDp d) := fun _ _ _ => rfl
theorem styAbs (a : Word) : Statement (.styAbs a) := fun _ _ _ => rfl
theorem styDpX (d : Byte) : Statement (.styDpX d) := fun _ _ _ => rfl
theorem stzDp (d : Byte) : Statement (.stzDp d) := fun _ _ _ => rfl
theorem stzDpX (d : Byte) : Statement (.stzDpX d) := fun _ _ _ => rfl
theorem stzAbs (a : Word) : Statement (.stzAbs a) := fun _ _ _ => rfl
theorem stzAbsX (a : Word) : Statement (.stzAbsX a) := fun _ _ _ => rfl
theorem adcDpIndX (d : Byte) : Statement (.adcDpIndX d) := fun _ _ _ => rfl
theorem adcSr (d : Byte) : Statement (.adcSr d) := fun _ _ _ => rfl
theorem adcDp (d : Byte) : Statement (.adcDp d) := fun _ _ _ => rfl
theorem adcDpIndLong (d : Byte) : Statement (.adcDpIndLong d) := fun _ _ _ => rfl
theorem adcImm (v : Imm) : Statement (.adcImm v) := fun m _ h => by
  show _ + 1 = 1 + (if m then 1 else 2)
  rw [Nat.add_comm]; exact congrArg (1 + ·) (imm_length m v h).1
theorem adcAbs (a : Word) : Statement (.adcAbs a) := fun _ _ _ => rfl
theorem adcLong (a : Addr) : Statement (.adcLong a) := fun _ _ _ => rfl
theorem adcDpIndY (d : Byte) : Statement (.adcDpIndY d) := fun _ _ _ => rfl
theorem adcDpInd (d : Byte) : Statement (.adcDpInd d) := fun _ _ _ => rfl
theorem adcSrIndY (d : Byte) : Statement (.adcSrIndY d) := fun _ _ _ => rfl
theorem adcDpX (d : Byte) : Statement (.adcDpX d) := fun _ _ _ => rfl
theorem adcDpIndLongY (d : Byte) : Statement (.adcDpIndLongY d) := fun _ _ _ => rfl
theorem adcAbsY (a : Word) : Statement (.adcAbsY a) := fun _ _ _ => rfl
theorem adcAbsX (a : Word) : Statement (.adcAbsX a) := fun _ _ _ => rfl
theorem adcLongX (a : Addr) : Statement (.adcLongX a) := fun _ _ _ => rfl
theorem sbcDpIndX (d : Byte) : Statement (.sbcDpIndX d) := fun _ _ _ => rfl
theorem sbcSr (d : Byte) : Statement (.sbcSr d) := fun _ _ _ => rfl
theorem sbcDp (d : Byte) : Statement (.sbcDp d) := fun _ _ _ => rfl
theorem sbcDpIndLong (d : Byte) : Statement (.sbcDpIndLong d) := fun _ _ _ => rfl
theorem sbcImm (v : Imm) : Statement (.sbcImm v) := fun m _ h => by
  show _ + 1 = 1 + (if m then 1 else 2)
  rw [Nat.add_comm]; exact congrArg (1 + ·) (imm_length m v h).1
theorem sbcAbs (a : Word) : Statement (.sbcAbs a) := fun _ _ _ => rfl
theorem sbcLong (a : Addr) : Statement (.sbcLong a) := fun _ _ _ => rfl
theorem sbcDpIndY (d : Byte) : Statement (.sbcDpIndY d) := fun _ _ _ => rfl
theorem sbcDpInd (d : Byte) : Statement (.sbcDpInd d) := fun _ _ _ => rfl
theorem sbcSrIndY (d : Byte) : Statement (.sbcSrIndY d) := fun _ _ _ => rfl
theorem sbcDpX (d : Byte) : Statement (.sbcDpX d) := fun _ _ _ => rfl
theorem sbcDpIndLongY (d : Byte) : Statement (.sbcDpIndLongY d) := fun _ _ _ => rfl
theorem sbcAbsY (a : Word) : Statement (.sbcAbsY a) := fun _ _ _ => rfl
theorem sbcAbsX (a : Word) : Statement (.sbcAbsX a) := fun _ _ _ => rfl
theorem sbcLongX (a : Addr) : Statement (.sbcLongX a) := fun _ _ _ => rfl
theorem cmpDpIndX (d : Byte) : Statement (.cmpDpIndX d) := fun _ _ _ => rfl
theorem cmpSr (d : Byte) : Statement (.cmpSr d) := fun _ _ _ => rfl
theorem cmpDp (d : Byte) : Statement (.cmpDp d) := fun _ _ _ => rfl
theorem cmpDpIndLong (d : Byte) : Statement (.cmpDpIndLong d) := fun _ _ _ => rfl
theorem cmpImm (v : Imm) : Statement (.cmpImm v) := fun m _ h => by
  show _ + 1 = 1 + (if m then 1 else 2)
  rw [Nat.add_comm]; exact congrArg (1 + ·) (imm_length m v h).1
theorem cmpAbs (a : Word) : Statement (.cmpAbs a) := fun _ _ _ => rfl
theorem cmpLong (a : Addr) : Statement (.cmpLong a) := fun _ _ _ => rfl
theorem cmpDpIndY (d : Byte) : Statement (.cmpDpIndY d) := fun _ _ _ => rfl
theorem cmpDpInd (d : Byte) : Statement (.cmpDpInd d) := fun _ _ _ => rfl
theorem cmpSrIndY (d : Byte) : Statement (.cmpSrIndY d) := fun _ _ _ => rfl
theorem cmpDpX (d : Byte) : Statement (.cmpDpX d) := fun _ _ _ => rfl
theorem cmpDpIndLongY (d : Byte) : Statement (.cmpDpIndLongY d) := fun _ _ _ => rfl
theorem cmpAbsY (a : Word) : Statement (.cmpAbsY a) := fun _ _ _ => rfl
theorem cmpAbsX (a : Word) : Statement (.cmpAbsX a) := fun _ _ _ => rfl
theorem cmpLongX (a : Addr) : Statement (.cmpLongX a) := fun _ _ _ => rfl
theorem cpxImm (v : Imm) : Statement (.cpxImm v) := fun _ x h => by
  show _ + 1 = 1 + (if x then 1 else 2)
  rw [Nat.add_comm]; exact congrArg (1 + ·) (imm_length x v h).2
theorem cpxDp (d : Byte) : Statement (.cpxDp d) := fun _ _ _ => rfl
theorem cpxAbs (a : Word) : Statement (.cpxAbs a) := fun _ _ _ => rfl
theorem cpyImm (v : Imm) : Statement (.cpyImm v) := fun _ x h => by
  show _ + 1 = 1 + (if x then 1 else 2)
  rw [Nat.add_comm]; exact congrArg (1 + ·) (imm_length x v h).2
theorem cpyDp (d : Byte) : Statement (.cpyDp d) := fun _ _ _ => rfl
theorem cpyAbs (a : Word) : Statement (.cpyAbs a) := fun _ _ _ => rfl
theorem incAcc : Statement .incAcc := fun _ _ _ => rfl
theorem incDp (d : Byte) : Statement (.incDp d) := fun _ _ _ => rfl
theorem incAbs (a : Word) : Statement (.incAbs a) := fun _ _ _ => rfl
theorem incDpX (d : Byte) : Statement (.incDpX d) := fun _ _ _ => rfl
theorem incAbsX (a : Word) : Statement (.incAbsX a) := fun _ _ _ => rfl
theorem decAcc : Statement .decAcc := fun _ _ _ => rfl
theorem decDp (d : Byte) : Statement (.decDp d) := fun _ _ _ => rfl
theorem decAbs (a : Word) : Statement (.decAbs a) := fun _ _ _ => rfl
theorem decDpX (d : Byte) : Statement (.decDpX d) := fun _ _ _ => rfl
theorem decAbsX (a : Word) : Statement (.decAbsX a) := fun _ _ _ => rfl
theorem andDpIndX (d : Byte) : Statement (.andDpIndX d) := fun _ _ _ => rfl
theorem andSr (d : Byte) : Statement (.andSr d) := fun _ _ _ => rfl
theorem andDp (d : Byte) : Statement (.andDp d) := fun _ _ _ => rfl
theorem andDpIndLong (d : Byte) : Statement (.andDpIndLong d) := fun _ _ _ => rfl
theorem andImm (v : Imm) : Statement (.andImm v) := fun m _ h => by
  show _ + 1 = 1 + (if m then 1 else 2)
  rw [Nat.add_comm]; exact congrArg (1 + ·) (imm_length m v h).1
theorem andAbs (a : Word) : Statement (.andAbs a) := fun _ _ _ => rfl
theorem andLong (a : Addr) : Statement (.andLong a) := fun _ _ _ => rfl
theorem andDpIndY (d : Byte) : Statement (.andDpIndY d) := fun _ _ _ => rfl
theorem andDpInd (d : Byte) : Statement (.andDpInd d) := fun _ _ _ => rfl
theorem andSrIndY (d : Byte) : Statement (.andSrIndY d) := fun _ _ _ => rfl
theorem andDpX (d : Byte) : Statement (.andDpX d) := fun _ _ _ => rfl
theorem andDpIndLongY (d : Byte) : Statement (.andDpIndLongY d) := fun _ _ _ => rfl
theorem andAbsY (a : Word) : Statement (.andAbsY a) := fun _ _ _ => rfl
theorem andAbsX (a : Word) : Statement (.andAbsX a) := fun _ _ _ => rfl
theorem andLongX (a : Addr) : Statement (.andLongX a) := fun _ _ _ => rfl
theorem oraDpIndX (d : Byte) : Statement (.oraDpIndX d) := fun _ _ _ => rfl
theorem oraSr (d : Byte) : Statement (.oraSr d) := fun _ _ _ => rfl
theorem oraDp (d : Byte) : Statement (.oraDp d) := fun _ _ _ => rfl
theorem oraDpIndLong (d : Byte) : Statement (.oraDpIndLong d) := fun _ _ _ => rfl
theorem oraImm (v : Imm) : Statement (.oraImm v) := fun m _ h => by
  show _ + 1 = 1 + (if m then 1 else 2)
  rw [Nat.add_comm]; exact congrArg (1 + ·) (imm_length m v h).1
theorem oraAbs (a : Word) : Statement (.oraAbs a) := fun _ _ _ => rfl
theorem oraLong (a : Addr) : Statement (.oraLong a) := fun _ _ _ => rfl
theorem oraDpIndY (d : Byte) : Statement (.oraDpIndY d) := fun _ _ _ => rfl
theorem oraDpInd (d : Byte) : Statement (.oraDpInd d) := fun _ _ _ => rfl
theorem oraSrIndY (d : Byte) : Statement (.oraSrIndY d) := fun _ _ _ => rfl
theorem oraDpX (d : Byte) : Statement (.oraDpX d) := fun _ _ _ => rfl
theorem oraDpIndLongY (d : Byte) : Statement (.oraDpIndLongY d) := fun _ _ _ => rfl
theorem oraAbsY (a : Word) : Statement (.oraAbsY a) := fun _ _ _ => rfl
theorem oraAbsX (a : Word) : Statement (.oraAbsX a) := fun _ _ _ => rfl
theorem oraLongX (a : Addr) : Statement (.oraLongX a) := fun _ _ _ => rfl
theorem eorDpIndX (d : Byte) : Statement (.eorDpIndX d) := fun _ _ _ => rfl
theorem eorSr (d : Byte) : Statement (.eorSr d) := fun _ _ _ => rfl
theorem eorDp (d : Byte) : Statement (.eorDp d) := fun _ _ _ => rfl
theorem eorDpIndLong (d : Byte) : Statement (.eorDpIndLong d) := fun _ _ _ => rfl
theorem eorImm (v : Imm) : Statement (.eorImm v) := fun m _ h => by
  show _ + 1 = 1 + (if m then 1 else 2)
  rw [Nat.add_comm]; exact congrArg (1 + ·) (imm_length m v h).1
theorem eorAbs (a : Word) : Statement (.eorAbs a) := fun _ _ _ => rfl
theorem eorLong (a : Addr) : Statement (.eorLong a) := fun _ _ _ => rfl
theorem eorDpIndY (d : Byte) : Statement (.eorDpIndY d) := fun _ _ _ => rfl
theorem eorDpInd (d : Byte) : Statement (.eorDpInd d) := fun _ _ _ => rfl
theorem eorSrIndY (d : Byte) : Statement (.eorSrIndY d) := fun _ _ _ => rfl
theorem eorDpX (d : Byte) : Statement (.eorDpX d) := fun _ _ _ => rfl
theorem eorDpIndLongY (d : Byte) : Statement (.eorDpIndLongY d) := fun _ _ _ => rfl
theorem eorAbsY (a : Word) : Statement (.eorAbsY a) := fun _ _ _ => rfl
theorem eorAbsX (a : Word) : Statement (.eorAbsX a) := fun _ _ _ => rfl
theorem eorLongX (a : Addr) : Statement (.eorLongX a) := fun _ _ _ => rfl
theorem bitDp (d : Byte) : Statement (.bitDp d) := fun _ _ _ => rfl
theorem bitAbs (a : Word) : Statement (.bitAbs a) := fun _ _ _ => rfl
theorem bitDpX (d : Byte) : Statement (.bitDpX d) := fun _ _ _ => rfl
theorem bitAbsX (a : Word) : Statement (.bitAbsX a) := fun _ _ _ => rfl
theorem bitImm (v : Imm) : Statement (.bitImm v) := fun m _ h => by
  show _ + 1 = 1 + (if m then 1 else 2)
  rw [Nat.add_comm]; exact congrArg (1 + ·) (imm_length m v h).1
theorem tsbDp (d : Byte) : Statement (.tsbDp d) := fun _ _ _ => rfl
theorem tsbAbs (a : Word) : Statement (.tsbAbs a) := fun _ _ _ => rfl
theorem trbDp (d : Byte) : Statement (.trbDp d) := fun _ _ _ => rfl
theorem trbAbs (a : Word) : Statement (.trbAbs a) := fun _ _ _ => rfl
theorem aslDp (d : Byte) : Statement (.aslDp d) := fun _ _ _ => rfl
theorem aslAcc : Statement .aslAcc := fun _ _ _ => rfl
theorem aslAbs (a : Word) : Statement (.aslAbs a) := fun _ _ _ => rfl
theorem aslDpX (d : Byte) : Statement (.aslDpX d) := fun _ _ _ => rfl
theorem aslAbsX (a : Word) : Statement (.aslAbsX a) := fun _ _ _ => rfl
theorem lsrDp (d : Byte) : Statement (.lsrDp d) := fun _ _ _ => rfl
theorem lsrAcc : Statement .lsrAcc := fun _ _ _ => rfl
theorem lsrAbs (a : Word) : Statement (.lsrAbs a) := fun _ _ _ => rfl
theorem lsrDpX (d : Byte) : Statement (.lsrDpX d) := fun _ _ _ => rfl
theorem lsrAbsX (a : Word) : Statement (.lsrAbsX a) := fun _ _ _ => rfl
theorem rolDp (d : Byte) : Statement (.rolDp d) := fun _ _ _ => rfl
theorem rolAcc : Statement .rolAcc := fun _ _ _ => rfl
theorem rolAbs (a : Word) : Statement (.rolAbs a) := fun _ _ _ => rfl
theorem rolDpX (d : Byte) : Statement (.rolDpX d) := fun _ _ _ => rfl
theorem rolAbsX (a : Word) : Statement (.rolAbsX a) := fun _ _ _ => rfl
theorem rorDp (d : Byte) : Statement (.rorDp d) := fun _ _ _ => rfl
theorem rorAcc : Statement .rorAcc := fun _ _ _ => rfl
theorem rorAbs (a : Word) : Statement (.rorAbs a) := fun _ _ _ => rfl
theorem rorDpX (d : Byte) : Statement (.rorDpX d) := fun _ _ _ => rfl
theorem rorAbsX (a : Word) : Statement (.rorAbsX a) := fun _ _ _ => rfl
theorem bpl (r : Byte) : Statement (.bpl r) := fun _ _ _ => rfl
theorem bmi (r : Byte) : Statement (.bmi r) := fun _ _ _ => rfl
theorem bvc (r : Byte) : Statement (.bvc r) := fun _ _ _ => rfl
theorem bvs (r : Byte) : Statement (.bvs r) := fun _ _ _ => rfl
theorem bcc (r : Byte) : Statement (.bcc r) := fun _ _ _ => rfl
theorem bcs (r : Byte) : Statement (.bcs r) := fun _ _ _ => rfl
theorem bne (r : Byte) : Statement (.bne r) := fun _ _ _ => rfl
theorem beq (r : Byte) : Statement (.beq r) := fun _ _ _ => rfl
theorem bra (r : Byte) : Statement (.bra r) := fun _ _ _ => rfl
theorem brl (r : Word) : Statement (.brl r) := fun _ _ _ => rfl
theorem jmpAbs (a : Word) : Statement (.jmpAbs a) := fun _ _ _ => rfl
theorem jmpAbsInd (a : Word) : Statement (.jmpAbsInd a) := fun _ _ _ => rfl
theorem jmpAbsIndX (a : Word) : Statement (.jmpAbsIndX a) := fun _ _ _ => rfl
theorem jmlLong (a : Addr) : Statement (.jmlLong a) := fun _ _ _ => rfl
theorem jmlAbsIndLong (a : Word) : Statement (.jmlAbsIndLong a) := fun _ _ _ => rfl
theorem jsrAbs (a : Word) : Statement (.jsrAbs a) := fun _ _ _ => rfl
theorem jsrAbsIndX (a : Word) : Statement (.jsrAbsIndX a) := fun _ _ _ => rfl
theorem jsl (a : Addr) : Statement (.jsl a) := fun _ _ _ => rfl
theorem rts : Statement .rts := fun _ _ _ => rfl
theorem rtl : Statement .rtl := fun _ _ _ => rfl
theorem pea (v : Word) : Statement (.pea v) := fun _ _ _ => rfl
theorem pei (d : Byte) : Statement (.pei d) := fun _ _ _ => rfl
theorem per (r : Word) : Statement (.per r) := fun _ _ _ => rfl
theorem rep (v : Byte) : Statement (.rep v) := fun _ _ _ => rfl
theorem sep (v : Byte) : Statement (.sep v) := fun _ _ _ => rfl
theorem wdm (v : Byte) : Statement (.wdm v) := fun _ _ _ => rfl
theorem brk (v : Byte) : Statement (.brk v) := fun _ _ _ => rfl
theorem cop (v : Byte) : Statement (.cop v) := fun _ _ _ => rfl
theorem rti : Statement .rti := fun _ _ _ => rfl
theorem mvn (dd : Byte) (ss : Byte) : Statement (.mvn dd ss) := fun _ _ _ => rfl
theorem mvp (dd : Byte) (ss : Byte) : Statement (.mvp dd ss) := fun _ _ _ => rfl
theorem tax : Statement .tax := fun _ _ _ => rfl
theorem tay : Statement .tay := fun _ _ _ => rfl
theorem txa : Statement .txa := fun _ _ _ => rfl
theorem tya : Statement .tya := fun _ _ _ => rfl
theorem tsx : Statement .tsx := fun _ _ _ => rfl
theorem txs : Statement .txs := fun _ _ _ => rfl
theorem tdc : Statement .tdc := fun _ _ _ => rfl
theorem tcd : Statement .tcd := fun _ _ _ => rfl
theorem tsc : Statement .tsc := fun _ _ _ => rfl
theorem tcs : Statement .tcs := fun _ _ _ => rfl
theorem xba : Statement .xba := fun _ _ _ => rfl
theorem txy : Statement .txy := fun _ _ _ => rfl
theorem tyx : Statement .tyx := fun _ _ _ => rfl
theorem inx : Statement .inx := fun _ _ _ => rfl
theorem iny : Statement .iny := fun _ _ _ => rfl
theorem dex : Statement .dex := fun _ _ _ => rfl
theorem dey : Statement .dey := fun _ _ _ => rfl
theorem pha : Statement .pha := fun _ _ _ => rfl
theorem phx : Statement .phx := fun _ _ _ => rfl
theorem phy : Statement .phy := fun _ _ _ => rfl
theorem phb : Statement .phb := fun _ _ _ => rfl
theorem phd : Statement .phd := fun _ _ _ => rfl
theorem phk : Statement .phk := fun _ _ _ => rfl
theorem php : Statement .php := fun _ _ _ => rfl
theorem pla : Statement .pla := fun _ _ _ => rfl
theorem plx : Statement .plx := fun _ _ _ => rfl
theorem ply : Statement .ply := fun _ _ _ => rfl
theorem plb : Statement .plb := fun _ _ _ => rfl
theorem pld : Statement .pld := fun _ _ _ => rfl
theorem plp : Statement .plp := fun _ _ _ => rfl
theorem clc : Statement .clc := fun _ _ _ => rfl
theorem cld : Statement .cld := fun _ _ _ => rfl
theorem cli : Statement .cli := fun _ _ _ => rfl
theorem clv : Statement .clv := fun _ _ _ => rfl
theorem sec : Statement .sec := fun _ _ _ => rfl
theorem sed : Statement .sed := fun _ _ _ => rfl
theorem sei : Statement .sei := fun _ _ _ => rfl
theorem nop : Statement .nop := fun _ _ _ => rfl
theorem xce : Statement .xce := fun _ _ _ => rfl
theorem wai : Statement .wai := fun _ _ _ => rfl
theorem stp : Statement .stp := fun _ _ _ => rfl

end Sys2Proof.Laws.EncodedLength
end

