-- ==== Sys2Proof/Laws/Raises.lean ====
section
/-! SUPPORT. What every operation leaves, whether it answers or raises: the parameters, the form of the
stores, and a log that only grows. One lemma per shared operation, one for every handler, and from them what
a step that ends in a fault leaves (40_engine_addressing.md R155). -/

namespace Sys2Proof.Machine

/-- What no operation undoes. -/
structure Kept (s t : State) : Prop where
  params : t.params = s.params
  wf : s.StoresWf → t.StoresWf
  log : ∃ l, t.ioLog = s.ioLog ++ l

/-- What an operation from `s` can do: it answers, and `st` is the state after it, or it raises an error
that carries what the mapper holds at that moment. -/
structure Runs {α : Type} (s : State) (x : Except Raise α) (st : α → State) : Prop where
  answers : ∀ a, x = .ok a → Kept s (st a)
  raises : ∀ e, x = .error e → ∃ t, Kept s t ∧ ∀ loc, (e loc).left = t.remains

variable {α β : Type} {s t u : State}

/-- Registers, flags, cycles and inputs may change. -/
theorem Kept.same (h : t.remains = s.remains) (hp : t.params = s.params) : Kept s t := by
  simp only [State.remains, Remains.mk.injEq] at h
  obtain ⟨hw, hm, -, hl⟩ := h
  exact ⟨hp, fun w => by simpa only [State.StoresWf, hw, hm, hp] using w, [], by simp [hl]⟩

theorem Kept.refl (s : State) : Kept s s := .same rfl rfl

theorem Kept.trans (h : Kept s t) (g : Kept t u) : Kept s u where
  params := g.params.trans h.params
  wf := g.wf ∘ h.wf
  log := by
    obtain ⟨l, hl⟩ := h.log; obtain ⟨m, hm⟩ := g.log
    exact ⟨l ++ m, by rw [hm, hl, List.append_assoc]⟩

theorem Effect.kept {k : Scope} (h : Effect k s t) : Kept s t := ⟨h.outside.1, h.wf, h.log⟩

theorem Reads.kept (h : Reads s t) : Kept s t := by
  obtain ⟨l, n, rfl⟩ := h; exact ⟨rfl, id, l, rfl⟩

theorem Stored.kept {l : List Addr} (h : Stored l s t) : Kept s t := by
  obtain ⟨hb, hw, -⟩ := h
  obtain ⟨_, _, _, l, _, rfl⟩ := hb
  exact ⟨rfl, hw, l, rfl⟩

theorem Kept.normalize (s : State) : Kept s s.normalize := .same (by simp [State.remains]) (by simp)

theorem Runs.ok {a : α} {st : α → State} (h : Kept s (st a)) : Runs s (.ok a) st :=
  ⟨fun _ h' => by cases h'; exact h, fun _ h' => nomatch h'⟩

/-- An error raised at once carries what the mapper holds now. -/
theorem Runs.error {e : Raise} {st : α → State} (h : ∀ loc, (e loc).left = s.remains) :
    Runs s (.error e) st :=
  ⟨fun _ h' => (nomatch h'), fun _ h' => by cases h'; exact ⟨s, .refl s, h⟩⟩

theorem Runs.bind {x : Except Raise α} {f : α → Except Raise β} {st : α → State} {st' : β → State}
    (h : Runs s x st) (g : ∀ a, Runs (st a) (f a) st') : Runs s (x >>= f) st' := by
  constructor
  · intro b hb
    obtain ⟨a, ha, hb⟩ := Except.bind_ok.1 hb
    exact (h.answers a ha).trans ((g a).answers b hb)
  · intro e he
    cases hx : x with
    | error e' =>
      rw [hx] at he
      have he : e' = e := Except.error.inj he
      exact h.raises e (he ▸ hx)
    | ok a =>
      rw [hx] at he
      obtain ⟨t, ht, hl⟩ := (g a).raises e he
      exact ⟨t, (h.answers a hx).trans ht, hl⟩

/-- Registers may change before an operation. -/
theorem Runs.after {x : Except Raise α} {st : α → State} (h : Kept s t) (g : Runs t x st) : Runs s x st :=
  ⟨fun a ha => h.trans (g.answers a ha), fun e he => by
    obtain ⟨u, hu, hl⟩ := g.raises e he; exact ⟨u, h.trans hu, hl⟩⟩

/-! ### The mapper -/

theorem route_left {p : Params} {b o : Nat} {e : Raising} (h : route p b o = .error e) (r : Remains)
    (loc : Addr) : (e r loc).left = r := by
  unfold route at h
  split at h
  · unfold routeSystem routeExpansion routeUpperRom at h
    repeat' split at h
    all_goals first | (cases h; rfl) | cases h
  · unfold routeRom routeUpperRom at h
    repeat' split at h
    all_goals first | (cases h; rfl) | cases h
  · cases h

theorem locate_runs (b o : Nat) (s : State) : Runs s (locate b o s) (fun _ => s) := by
  unfold locate
  split
  · next h =>
    unfold rangeCheck at h
    repeat' split at h
    all_goals first | (cases h; exact .error fun _ => rfl) | cases h
  · split
    · next h => exact .error fun loc => route_left h _ loc
    · exact .ok (.refl s)

theorem accessRead_runs (b o : Nat) (s : State) : Runs s (accessRead b o s) (·.2) := by
  refine (locate_runs b o s).bind fun r => ⟨fun _ h => (readRoute_reads h).kept, fun e h => ⟨s, .refl s, ?_⟩⟩
  cases r <;> simp only [readRoute, readFacade, readIntReg] at h
  all_goals
    repeat' split at h
    all_goals first | (cases h; exact fun _ => rfl) | cases h

theorem accessWrite_runs (b o : Nat) (v : Byte) (s : State) : Runs s (accessWrite b o v s) id := by
  refine ⟨fun t h => ?_, fun e h => ?_⟩
  · refine ⟨(accessWrite_bus h).params, accessWrite_storesWf h, ?_⟩
    obtain ⟨_, _, _, l, _, rfl⟩ := accessWrite_bus h
    exact ⟨l, rfl⟩
  · cases hr : locate b o s with
    | error e' =>
      rw [accessWrite, hr] at h
      have h : e' = e := Except.error.inj h
      exact (locate_runs b o s).raises e (h ▸ hr)
    | ok r =>
      rw [accessWrite, hr, Except.ok_bind] at h
      refine ⟨s, .refl s, ?_⟩
      cases r <;> simp only [writeRoute, writeFacade, writeIntReg] at h
      all_goals
        repeat' split at h
        all_goals first | (cases h; exact fun _ => rfl) | cases h

theorem read8_runs (a : Addr) (s : State) : Runs s (read8 a s) (·.2) := accessRead_runs _ _ s

theorem write8_runs (a : Addr) (v : Byte) (s : State) : Runs s (write8 a v s) id := accessWrite_runs _ _ v s

theorem readWord_runs (c : Wrap) (ea : Addr) (s : State) : Runs s (readWord c ea s) (·.2) :=
  (read8_runs _ s).bind fun p => (read8_runs _ p.2).bind fun _ => .ok (.refl _)

theorem readLong_runs (c : Wrap) (ea : Addr) (s : State) : Runs s (readLong c ea s) (·.2) :=
  (readWord_runs c ea s).bind fun p => (read8_runs _ p.2).bind fun _ => .ok (.refl _)

theorem readData_runs (w : Width) (c : Wrap) (ea : Addr) (s : State) : Runs s (readData w c ea s) (·.2) := by
  cases w with
  | w8 => exact (read8_runs _ s).bind fun _ => .ok (.refl _)
  | w16 => exact readWord_runs c ea s

theorem writeData_runs (w : Width) (c : Wrap) (ea : Addr) (v : Word) (s : State) :
    Runs s (writeData w c ea v s) id := by
  cases w with
  | w8 => exact write8_runs _ _ s
  | w16 => exact (write8_runs _ _ s).bind fun t => write8_runs _ _ t

theorem writeBack_runs (w : Width) (c : Wrap) (ea : Addr) (v : Word) (s : State) :
    Runs s (writeBack w c ea v s) id := by
  cases w with
  | w8 => exact write8_runs _ _ s
  | w16 => exact (write8_runs _ _ s).bind fun t => write8_runs _ _ t

/-! ### The stack, and entry and return -/

theorem push8_runs (v : Byte) (s : State) : Runs s (push8 v s) id :=
  (write8_runs _ v s).bind fun _ => .ok (.same rfl rfl)

theorem pull8_runs (s : State) : Runs s (pull8 s) (·.2) :=
  .after (t := { s with sp := stackWrap s.e (s.sp + 1) }) (.same rfl rfl) (read8_runs _ _)

theorem push16_runs (v : Word) (s : State) : Runs s (push16 v s) id :=
  (push8_runs _ s).bind fun t => push8_runs _ t

theorem pull16_runs (s : State) : Runs s (pull16 s) (·.2) :=
  (pull8_runs s).bind fun p => (pull8_runs p.2).bind fun _ => .ok (.refl _)

theorem pushW_runs (w : Width) (v : Word) (s : State) : Runs s (pushW w v s) id := by
  cases w with
  | w8 => exact push8_runs _ s
  | w16 => exact push16_runs v s

theorem pullW_runs (w : Width) (s : State) : Runs s (pullW w s) (·.2) := by
  cases w with
  | w8 => exact (pull8_runs s).bind fun _ => .ok (.refl _)
  | w16 => exact pull16_runs s

theorem enter_runs (k : IntKind) (ret : Word) (s : State) : Runs s (enter k ret s) id := by
  unfold enter
  split
  · exact (push16_runs ret s).bind fun t => (push8_runs _ t).bind fun _ => .ok (.same rfl rfl)
  · exact (push8_runs _ s).bind fun t => (push16_runs ret t).bind fun u =>
      (push8_runs _ u).bind fun _ => .ok (.same rfl rfl)

theorem leave_runs (s : State) : Runs s (leave s) id := by
  refine (pull8_runs s).bind fun ⟨p, t⟩ => ?_
  have hn : Kept t { t with p := p }.normalize := .trans (t := { t with p := p }) (.same rfl rfl) (.normalize _)
  refine ((pull16_runs _).after hn).bind fun ⟨pc, u⟩ => ?_
  dsimp only
  split
  · exact .ok (.same rfl rfl)
  · exact Runs.after (t := { u with pc := pc }) (.same rfl rfl)
      ((pull8_runs _).bind fun _ => .ok (.same rfl rfl))

/-! ### The operand forms -/

theorem resolve_runs (f : Form) (s : State) : Runs s (resolve f s) (·.2) := by
  unfold resolve
  split
  all_goals first
    | exact .ok (.refl s)
    | exact (readWord_runs _ _ s).bind fun _ => .ok (.refl _)
    | exact (readLong_runs _ _ s).bind fun _ => .ok (.refl _)

theorem load_runs (o : Operand) (w : Width) (s : State) : Runs s (load o w s) (·.2) := by
  unfold load
  split
  · exact .ok (.refl s)
  · exact .ok (.refl s)
  · exact readData_runs _ _ _ s
  · exact .ok (.refl s)

theorem store_runs (o : Operand) (w : Width) (v : Word) (s : State) : Runs s (store o w v s) id := by
  unfold store
  split
  · exact writeData_runs _ _ _ _ s
  all_goals exact .ok (.refl s)

theorem readOperand_runs (f : Form) (w : Width) (s : State) : Runs s (readOperand f w s) (·.2) :=
  (resolve_runs f s).bind fun p => (load_runs p.1 w p.2).bind fun _ => .ok (.same rfl rfl)

theorem storeOperand_runs (f : Form) (w : Width) (v : Word) (s : State) :
    Runs s (storeOperand f w v s) id :=
  (resolve_runs f s).bind fun p => store_runs p.1 w v p.2

theorem modify_runs (f : Form) (op : Width → Word → Byte → Word × Byte) (s : State) :
    Runs s (modify f op s) id := by
  refine (resolve_runs f s).bind fun p => Runs.bind (st := id) ?_ fun _ => .ok (.same rfl rfl)
  unfold modifyAt
  split
  · exact (readData_runs _ _ _ _).bind fun q => (writeBack_runs _ _ _ _ q.2).bind fun _ =>
      .ok (.same rfl rfl)
  all_goals exact .ok (.same rfl rfl)

/-! ### The handlers -/

/-- A source operand, and then only registers, flags and cycles. -/
theorem Runs.operand {f : Form} {w : Width} {g : Word × State → State}
    (h : ∀ p, (g p).remains = p.2.remains ∧ (g p).params = p.2.params) :
    Runs s (readOperand f w s >>= fun p => .ok (g p)) id :=
  (readOperand_runs f w s).bind fun p => .ok (.same (h p).1 (h p).2)

theorem combineA_runs (f : Form) (op : Width → Word → Word → Byte → Word × Byte) (s : State) :
    Runs s (combineA f op s) id := Runs.operand fun _ => ⟨rfl, rfl⟩

theorem handler_runs (f : Form) (s : State) (m : Mnemonic) : Runs s (handler f s m) id := by
  cases m
  case lda | ldx | ldy | sbc | cmp | cpx | cpy | and | ora | eor =>
    exact Runs.operand fun _ => ⟨rfl, rfl⟩
  case adc => exact (combineA_runs f _ s).bind fun _ => .ok (.same rfl rfl)
  case bit => exact Runs.operand fun _ => ⟨rfl, rfl⟩
  case sta | stx | sty | stz => exact (storeOperand_runs _ _ _ s).bind fun _ => .ok (.same rfl rfl)
  case inc | dec | asl | lsr | rol | ror | tsb | trb => exact modify_runs _ _ s
  case jmp =>
    simp only [handler, jmpForm]
    split
    · exact .ok (.same rfl rfl)
    · exact (readWord_runs _ _ s).bind fun _ => .ok (.same rfl rfl)
    · exact (readWord_runs _ _ s).bind fun _ => .ok (.same rfl rfl)
    · exact .ok (.refl s)
  case jml =>
    simp only [handler, jmlForm]
    split
    · exact .ok (.same rfl rfl)
    · exact (readLong_runs _ _ s).bind fun _ => .ok (.same rfl rfl)
    · exact .ok (.refl s)
  case jsr =>
    simp only [handler, jsrForm]
    split
    · exact (push16_runs _ s).bind fun _ => .ok (.same rfl rfl)
    · exact (push16_runs _ s).bind fun t => (readWord_runs _ _ t).bind fun _ => .ok (.same rfl rfl)
    · exact .ok (.refl s)
  case jsl =>
    exact (push8_runs _ s).bind fun t => (push16_runs _ t).bind fun _ => .ok (.same rfl rfl)
  case rts => exact (pull16_runs s).bind fun _ => .ok (.same rfl rfl)
  case rtl => exact (pull16_runs s).bind fun p => (pull8_runs p.2).bind fun _ => .ok (.same rfl rfl)
  case pea | per | phd => exact push16_runs _ s
  case pei => exact (readWord_runs _ _ s).bind fun p => push16_runs _ p.2
  case phb | phk | php => exact push8_runs _ s
  case pha | phx | phy => exact (pushW_runs _ _ s).bind fun _ => .ok (.same rfl rfl)
  case pla | plx | ply => exact (pullW_runs _ s).bind fun _ => .ok (.same rfl rfl)
  case plb | plp => exact (pull8_runs s).bind fun _ => .ok (.same rfl rfl)
  case pld => exact (pull16_runs s).bind fun _ => .ok (.same rfl rfl)
  case brk | cop => exact (enter_runs _ _ s).bind fun _ => .ok (.same rfl rfl)
  case rti => exact (leave_runs s).bind fun _ => .ok (.same rfl rfl)
  case mvn | mvp =>
    exact (read8_runs _ s).bind fun p => (write8_runs _ _ p.2).bind fun _ => .ok (.same rfl rfl)
  case bpl | bmi | bvc | bvs | bcc | bcs | bne | beq =>
    refine .ok ?_
    unfold branchOn
    split
    · exact .same rfl rfl
    · exact .refl s
  all_goals exact .ok (.same rfl rfl)

/-- What an instruction that ends in a fault leaves. -/
theorem exec_fault {i : Instr} {f : Fault} (h : exec i s = .fault f) :
    ∃ t, Kept s t ∧ f.left = t.remains := by
  rw [exec_eq, perform] at h
  split at h
  · cases h
  · next e he =>
    cases h
    obtain ⟨t, ht, hl⟩ := ((handler_runs i.form (s.begin i) i.mnemonic).after
      (Kept.same rfl rfl : Kept s (s.begin i))).raises e he
    exact ⟨t, ht, hl _⟩

/-! ### A step -/

theorem fetchBytes_runs (k n : Nat) (s : State) : Runs s (fetchBytes k n s) (·.2) := by
  induction n generalizing k s with
  | zero => exact .ok (.refl s)
  | succ n ih => exact (read8_runs _ s).bind fun p => (ih (k + 1) p.2).bind fun _ => .ok (.refl _)

theorem fetchInstr_runs (s : State) : Runs s (fetchInstr s) (·.2) := by
  refine (read8_runs _ s).bind fun p => ?_
  dsimp only
  split
  · exact .error fun _ => rfl
  · exact (fetchBytes_runs _ _ _).bind fun _ => .ok (.refl _)

theorem serveAll_runs (rs : List BusRequest) (s : State) : Runs s (serveAll rs s) id := by
  induction rs generalizing s with
  | nil => exact .ok (.refl s)
  | cons r rest ih =>
    refine Runs.bind (st := id) ?_ ih
    cases r with
    | read b o =>
      have h := accessRead_runs b o s
      cases hx : accessRead b o s with
      | ok p => rw [serve, hx]; exact .ok (h.answers p hx)
      | error e => rw [serve, hx]; exact ⟨fun _ h' => (nomatch h'), fun e' h' => by cases h'; exact h.raises e hx⟩
    | write b o v => exact accessWrite_runs b o v s

theorem sampleInputs_runs (s : State) : Runs s (sampleInputs s) id := by
  unfold sampleInputs
  split
  · exact .ok (.refl s)
  · next b rest _ =>
    refine Runs.after (t := { s with inputs := rest }) (.same rfl rfl)
      ((serveAll_runs _ _).bind fun t => .ok ?_)
    unfold State.sampleLines
    dsimp only
    split <;> exact .same rfl rfl

end Sys2Proof.Machine
end

