-- ==== Sys2Proof/Laws/Values.lean ====
section
/-! SUPPORT. The values of the statements are those the model computes: `dual`, `low`, `sign` and `HasNZ`
against the widths, and what `Normalize` leaves of a handler's result. -/

namespace Sys2Proof.Machine

theorem loByte_and_low (v : Word) : loByte (v &&& 0x00FF) = loByte v := by
  apply BitVec.eq_of_toNat_eq
  have h : (v &&& 0x00FF).toNat = v.toNat % 2 ^ 8 := by
    rw [BitVec.toNat_and]; exact Nat.and_two_pow_sub_one_eq_mod v.toNat 8
  rw [toNat_loByte, toNat_loByte, h]; omega

theorem and_low (v : Word) : v &&& 0x00FF = mkWord (loByte v) 0 :=
  word_ext (by rw [loByte_mkWord, loByte_and_low]) (by rw [hiByte_mkWord, hiByte_and_low])

theorem pageOne_eq (v : Word) : pageOne v = mkWord (loByte v) 0x01 :=
  word_ext (by rw [loByte_mkWord, loByte_pageOne]) (by rw [hiByte_mkWord, hiByte_pageOne])

theorem truncate_widthOf (b : Bool) (v : Word) : truncate (widthOf b) v = low b v := by
  cases b
  · rfl
  · exact and_low v

theorem mergeLow_widthOf (b : Bool) (o v : Word) : mergeLow (widthOf b) o v = dual b o v := by
  cases b
  · rfl
  · apply word_ext <;>
    · simp only [dual, if_true, loByte_mkWord, hiByte_mkWord]
      ext i hi
      simp only [widthOf, mergeLow, loByte, hiByte, if_true, ← BitVec.getLsbD_eq_getElem]
      interval_cases i <;> simp

theorem msb_widthOf (b : Bool) (v : Word) : msb (widthOf b) v = sign b v := by
  cases b <;> rfl

theorem dual_low (b : Bool) (o v : Word) : dual b o (low b v) = dual b o v := by
  cases b <;> simp [dual, low]

theorem low_low (b : Bool) (v : Word) : low b (low b v) = low b v := by
  cases b <;> simp [low]

theorem low_dual (b : Bool) (o v : Word) : low b (dual b o v) = low b v := by
  cases b <;> simp [dual, low]

theorem toNat_low (b : Bool) (v : Word) : (low b v).toNat = v.toNat % modulus b := by
  cases b
  · simp [low, modulus, Nat.mod_eq_of_lt v.isLt]
  · simp [low, modulus]

theorem sign_low (b : Bool) (v : Word) : sign b (low b v) = sign b v := by
  rw [← msb_widthOf, ← truncate_widthOf, ← msb_widthOf]
  cases b <;> simp [widthOf, truncate, msb, Width.bits, Width.bytes]

/-- `setNZ` done last gives the flags of the value. -/
theorem hasNZ_setNZ (s : State) (b : Bool) (v : Word) : (s.setNZ (widthOf b) v).HasNZ b v := by
  simp [State.HasNZ, State.flag, State.setNZ, msb_widthOf, truncate_widthOf, Bool.beq_eq_decide_eq]

theorem hasNZ_low {t : State} {b : Bool} {v : Word} : t.HasNZ b (low b v) ↔ t.HasNZ b v := by
  simp [State.HasNZ, sign_low, low_low]

/-- `Normalize` keeps every flag but `M` and `X`. -/
theorem normalize_flag (s : State) {f : Flag} (hm : f ≠ .m) (hx : f ≠ .x) :
    s.normalize.flag f = s.flag f := by
  simp only [State.flag, State.normalize_p]
  split
  · rw [getFlag_putFlag, getFlag_putFlag, if_neg (Ne.symm hx), if_neg (Ne.symm hm)]
  · rfl

theorem normalize_hasNZ {s : State} {b : Bool} {v : Word} : s.normalize.HasNZ b v ↔ s.HasNZ b v := by
  simp [State.HasNZ, normalize_flag]

/-- `Normalize` leaves `M` and `X` where emulation mode already has them set. -/
theorem normalize_flag_of {s : State} (h : s.e = true → s.flag .m = true ∧ s.flag .x = true) (f : Flag) :
    s.normalize.flag f = s.flag f := by
  simp only [State.flag, State.normalize_p] at *
  split
  · next he =>
    rw [getFlag_putFlag, getFlag_putFlag]
    split
    · next hf => rw [← hf, (h he).2]
    · split
      · next hf => rw [← hf, (h he).1]
      · rfl
  · rfl

theorem normalize_x_of {s : State} (h : s.e = true → s.flag .m = true ∧ s.flag .x = true) :
    s.normalize.x = low (s.flag .x) s.x ∧ s.normalize.y = low (s.flag .x) s.y := by
  rw [State.normalize_x, State.normalize_y, normalize_flag_of h]
  cases s.flag .x
  · exact ⟨rfl, rfl⟩
  · exact ⟨and_low _, and_low _⟩

theorem normalize_sp_eq (s : State) :
    s.normalize.sp = if s.e then mkWord (loByte s.sp) 0x01 else s.sp := by
  rw [State.normalize_sp]; split
  · exact pageOne_eq _
  · rfl

theorem putFlag_mx (p : Byte) : putFlag (putFlag p .m true) .x true = p ||| 0x30 := by
  show p ||| 0x20 ||| 0x10 = p ||| 0x30
  rw [BitVec.or_assoc]; rfl

theorem normalize_p_eq (s : State) : s.normalize.p = if s.e then s.p ||| 0x30 else s.p := by
  rw [State.normalize_p, putFlag_mx]

/-- After `Normalize` an index register fits the width its flag gives. -/
theorem normalize_x_low (s : State) : s.normalize.x = low (s.normalize.flag .x) s.x := by
  rw [State.normalize_x]
  cases s.normalize.flag .x
  · rfl
  · exact and_low _

theorem normalize_y_low (s : State) : s.normalize.y = low (s.normalize.flag .x) s.y := by
  rw [State.normalize_y]
  cases s.normalize.flag .x
  · rfl
  · exact and_low _

theorem begin_wM (s : State) (i : Instr) : (s.begin i).wM = s.wM := rfl
theorem begin_wX (s : State) (i : Instr) : (s.begin i).wX = s.wX := rfl

end Sys2Proof.Machine
end

