-- ==== Sys2Proof/Machine/Disasm.lean ====
section
/-! DEFINITION. The disassembly hook: the text of a decoded instruction (30_encoding.md R132, R134). It is
observational: nothing of the machine depends on it. -/

namespace Sys2Proof.Machine

/-- A hexadecimal digit. -/
def hexDigit (n : Nat) : Char := if n < 10 then Char.ofNat (48 + n) else Char.ofNat (55 + n)

/-- The last `k` hexadecimal digits of a number, most significant first. -/
def hexDigits : Nat → Nat → List Char
  | 0, _ => []
  | k + 1, n => hexDigits k (n / 16) ++ [hexDigit (n % 16)]

/-- A number as `$` and `k` hexadecimal digits. -/
def hexText (k n : Nat) : String := "$" ++ String.ofList (hexDigits k n)

/-- The name of a mnemonic, as the opcode listing writes it (30_encoding.md R126). -/
def Mnemonic.name : Mnemonic → String
  | .lda => "LDA" | .ldx => "LDX" | .ldy => "LDY" | .sta => "STA" | .stx => "STX"
  | .sty => "STY" | .stz => "STZ" | .adc => "ADC" | .sbc => "SBC" | .cmp => "CMP"
  | .cpx => "CPX" | .cpy => "CPY" | .inc => "INC" | .dec => "DEC" | .and => "AND"
  | .ora => "ORA" | .eor => "EOR" | .bit => "BIT" | .tsb => "TSB" | .trb => "TRB"
  | .asl => "ASL" | .lsr => "LSR" | .rol => "ROL" | .ror => "ROR" | .bpl => "BPL"
  | .bmi => "BMI" | .bvc => "BVC" | .bvs => "BVS" | .bcc => "BCC" | .bcs => "BCS"
  | .bne => "BNE" | .beq => "BEQ" | .bra => "BRA" | .brl => "BRL" | .jmp => "JMP"
  | .jml => "JML" | .jsr => "JSR" | .jsl => "JSL" | .rts => "RTS" | .rtl => "RTL"
  | .pea => "PEA" | .pei => "PEI" | .per => "PER" | .rep => "REP" | .sep => "SEP"
  | .wdm => "WDM" | .brk => "BRK" | .cop => "COP" | .rti => "RTI" | .mvn => "MVN"
  | .mvp => "MVP" | .tax => "TAX" | .tay => "TAY" | .txa => "TXA" | .tya => "TYA"
  | .tsx => "TSX" | .txs => "TXS" | .tdc => "TDC" | .tcd => "TCD" | .tsc => "TSC"
  | .tcs => "TCS" | .xba => "XBA" | .txy => "TXY" | .tyx => "TYX" | .inx => "INX"
  | .iny => "INY" | .dex => "DEX" | .dey => "DEY" | .pha => "PHA" | .phx => "PHX"
  | .phy => "PHY" | .phb => "PHB" | .phd => "PHD" | .phk => "PHK" | .php => "PHP"
  | .pla => "PLA" | .plx => "PLX" | .ply => "PLY" | .plb => "PLB" | .pld => "PLD"
  | .plp => "PLP" | .clc => "CLC" | .cld => "CLD" | .cli => "CLI" | .clv => "CLV"
  | .sec => "SEC" | .sed => "SED" | .sei => "SEI" | .nop => "NOP" | .xce => "XCE"
  | .wai => "WAI" | .stp => "STP"

/-- An immediate, whose digits show its size. -/
def Imm.text : Imm → String
  | .byte v => "#" ++ hexText 2 v.toNat
  | .word v => "#" ++ hexText 4 v.toNat

/-- The operand text of a format (the syntax column of 30_encoding.md R122). `next` is the offset after
the instruction, from which a relative format's target is counted; a block move names its source bank
first. -/
def Form.text (next : Word) : Form → String
  | .imp | .stk => ""
  | .acc => " A"
  | .immM v | .immX v => " " ++ Imm.text v
  | .imm8 v => " #" ++ hexText 2 v.toNat
  | .imm16 v => " " ++ hexText 4 v.toNat
  | .abs a => " " ++ hexText 4 a.toNat
  | .absX a => " " ++ hexText 4 a.toNat ++ ",X"
  | .absY a => " " ++ hexText 4 a.toNat ++ ",Y"
  | .absInd a => " (" ++ hexText 4 a.toNat ++ ")"
  | .absIndX a => " (" ++ hexText 4 a.toNat ++ ",X)"
  | .absIndLong a => " [" ++ hexText 4 a.toNat ++ "]"
  | .long a => " " ++ hexText 6 a.toNat
  | .longX a => " " ++ hexText 6 a.toNat ++ ",X"
  | .dp d => " " ++ hexText 2 d.toNat
  | .dpX d => " " ++ hexText 2 d.toNat ++ ",X"
  | .dpY d => " " ++ hexText 2 d.toNat ++ ",Y"
  | .dpInd d => " (" ++ hexText 2 d.toNat ++ ")"
  | .dpIndX d => " (" ++ hexText 2 d.toNat ++ ",X)"
  | .dpIndY d => " (" ++ hexText 2 d.toNat ++ "),Y"
  | .dpIndLong d => " [" ++ hexText 2 d.toNat ++ "]"
  | .dpIndLongY d => " [" ++ hexText 2 d.toNat ++ "],Y"
  | .sr d => " " ++ hexText 2 d.toNat ++ ",S"
  | .srIndY d => " (" ++ hexText 2 d.toNat ++ ",S),Y"
  | .rel8 r => " " ++ hexText 4 (next + sextByte r).toNat
  | .rel16 r => " " ++ hexText 4 (next + r).toNat
  | .blk dd ss => " " ++ hexText 2 ss.toNat ++ "," ++ hexText 2 dd.toNat

/-- The text of an instruction whose opcode is at offset `pc` (30_encoding.md R132, R134). -/
def Instr.text (pc : Word) (i : Instr) : String :=
  Mnemonic.name i.mnemonic ++ Form.text (pc + BitVec.ofNat 16 i.form.length) i.form

end Sys2Proof.Machine
end

