-- ==== Sys2Proof/Tests/Slice0.lean ====
section
/-! SUPPORT. Tests: ill-formed terms refused, words of the spec's tables decoded, one step on a small state
with results from 95_test_vectors.md or worked from the rules, and for each statement with hypotheses a
state that meets them. -/

namespace Sys2Proof.Tests

open Sys2Proof.Machine

/-- Whether an outcome is a next state with a property. -/
def nextIs (o : Host.Outcome State Fault Refusal) (f : State → Bool) : Bool :=
  match o with
  | .next t => f t
  | .fault _ | .refused _ => false

/-- Whether an outcome is a fault. -/
def faultIs (o : Host.Outcome State Fault Refusal) (f : Fault) : Bool :=
  match o with
  | .fault g => g == f
  | .next _ | .refused _ => false

/-- Bytes written to a store. -/
def bytesAt : List (Nat × Byte) → Memory
  | [] => []
  | (i, v) :: rest => Memory.write (bytesAt rest) i v

/-- The setup of 95_test_vectors.md section 0: code at `0x00:8000`, bytes of WRAM. -/
def cpu (e : Bool) (p : Byte) (code : List Byte) (wram : List (Nat × Byte)) : State :=
  { State.reset with
    e := e, p := p, wram := bytesAt wram
    params := { Params.standard with rom := Memory.ofBytes 0 code } }

/-! ### Ill-formed terms -/

theorem test_wf_immM_refused : (Instr.ldaImm (.word 0x1234)).wellFormed true true = false := by decide
theorem test_wf_immM_narrow_refused : (Instr.ldaImm (.byte 0x12)).wellFormed false true = false := by decide
theorem test_wf_immX_refused : (Instr.ldxImm (.word 0x1234)).wellFormed false true = false := by decide
theorem test_wf_immX_narrow_refused : (Instr.cpyImm (.byte 0x12)).wellFormed true false = false := by decide
theorem test_wf_immX_accepted : (Instr.ldxImm (.word 0x1234)).wellFormed true false = true := by decide
theorem test_wf_plain_accepted : (Instr.rep 0x30).wellFormed false false = true := by decide

/-! ### Decoding: every row of the table of 30_encoding.md R126, with operand bytes 0x12, 0x34, 0x56

The words are the table's: the opcode in bits 7..0, then the operand bytes of R122 and R124, low byte first;
after reset both width flags are 1, so IMM_M and IMM_X have one byte (R123). -/

/-- The instructions of a list of words of three operand bytes each. -/
def decoded (opcodes : List Nat) : List (Option Instr) :=
  opcodes.map fun k => decodeTableWord 32 (0x56341200 + k)

theorem test_decode_row0 :
    decoded [0x00, 0x01, 0x02, 0x03, 0x04, 0x05, 0x06, 0x07,
      0x08, 0x09, 0x0A, 0x0B, 0x0C, 0x0D, 0x0E, 0x0F] =
    [.brk 0x12, .oraDpIndX 0x12, .cop 0x12, .oraSr 0x12,
      .tsbDp 0x12, .oraDp 0x12, .aslDp 0x12, .oraDpIndLong 0x12,
      .php, .oraImm (.byte 0x12), .aslAcc, .phd,
      .tsbAbs 0x3412, .oraAbs 0x3412, .aslAbs 0x3412, .oraLong 0x563412].map some := by decide

theorem test_decode_row1 :
    decoded [0x10, 0x11, 0x12, 0x13, 0x14, 0x15, 0x16, 0x17,
      0x18, 0x19, 0x1A, 0x1B, 0x1C, 0x1D, 0x1E, 0x1F] =
    [.bpl 0x12, .oraDpIndY 0x12, .oraDpInd 0x12, .oraSrIndY 0x12,
      .trbDp 0x12, .oraDpX 0x12, .aslDpX 0x12, .oraDpIndLongY 0x12,
      .clc, .oraAbsY 0x3412, .incAcc, .tcs,
      .trbAbs 0x3412, .oraAbsX 0x3412, .aslAbsX 0x3412, .oraLongX 0x563412].map some := by decide

theorem test_decode_row2 :
    decoded [0x20, 0x21, 0x22, 0x23, 0x24, 0x25, 0x26, 0x27,
      0x28, 0x29, 0x2A, 0x2B, 0x2C, 0x2D, 0x2E, 0x2F] =
    [.jsrAbs 0x3412, .andDpIndX 0x12, .jsl 0x563412, .andSr 0x12,
      .bitDp 0x12, .andDp 0x12, .rolDp 0x12, .andDpIndLong 0x12,
      .plp, .andImm (.byte 0x12), .rolAcc, .pld,
      .bitAbs 0x3412, .andAbs 0x3412, .rolAbs 0x3412, .andLong 0x563412].map some := by decide

theorem test_decode_row3 :
    decoded [0x30, 0x31, 0x32, 0x33, 0x34, 0x35, 0x36, 0x37,
      0x38, 0x39, 0x3A, 0x3B, 0x3C, 0x3D, 0x3E, 0x3F] =
    [.bmi 0x12, .andDpIndY 0x12, .andDpInd 0x12, .andSrIndY 0x12,
      .bitDpX 0x12, .andDpX 0x12, .rolDpX 0x12, .andDpIndLongY 0x12,
      .sec, .andAbsY 0x3412, .decAcc, .tsc,
      .bitAbsX 0x3412, .andAbsX 0x3412, .rolAbsX 0x3412, .andLongX 0x563412].map some := by decide

theorem test_decode_row4 :
    decoded [0x40, 0x41, 0x42, 0x43, 0x44, 0x45, 0x46, 0x47,
      0x48, 0x49, 0x4A, 0x4B, 0x4C, 0x4D, 0x4E, 0x4F] =
    [.rti, .eorDpIndX 0x12, .wdm 0x12, .eorSr 0x12,
      .mvp 0x12 0x34, .eorDp 0x12, .lsrDp 0x12, .eorDpIndLong 0x12,
      .pha, .eorImm (.byte 0x12), .lsrAcc, .phk,
      .jmpAbs 0x3412, .eorAbs 0x3412, .lsrAbs 0x3412, .eorLong 0x563412].map some := by decide

theorem test_decode_row5 :
    decoded [0x50, 0x51, 0x52, 0x53, 0x54, 0x55, 0x56, 0x57,
      0x58, 0x59, 0x5A, 0x5B, 0x5C, 0x5D, 0x5E, 0x5F] =
    [.bvc 0x12, .eorDpIndY 0x12, .eorDpInd 0x12, .eorSrIndY 0x12,
      .mvn 0x12 0x34, .eorDpX 0x12, .lsrDpX 0x12, .eorDpIndLongY 0x12,
      .cli, .eorAbsY 0x3412, .phy, .tcd,
      .jmlLong 0x563412, .eorAbsX 0x3412, .lsrAbsX 0x3412, .eorLongX 0x563412].map some := by decide

theorem test_decode_row6 :
    decoded [0x60, 0x61, 0x62, 0x63, 0x64, 0x65, 0x66, 0x67,
      0x68, 0x69, 0x6A, 0x6B, 0x6C, 0x6D, 0x6E, 0x6F] =
    [.rts, .adcDpIndX 0x12, .per 0x3412, .adcSr 0x12,
      .stzDp 0x12, .adcDp 0x12, .rorDp 0x12, .adcDpIndLong 0x12,
      .pla, .adcImm (.byte 0x12), .rorAcc, .rtl,
      .jmpAbsInd 0x3412, .adcAbs 0x3412, .rorAbs 0x3412, .adcLong 0x563412].map some := by decide

theorem test_decode_row7 :
    decoded [0x70, 0x71, 0x72, 0x73, 0x74, 0x75, 0x76, 0x77,
      0x78, 0x79, 0x7A, 0x7B, 0x7C, 0x7D, 0x7E, 0x7F] =
    [.bvs 0x12, .adcDpIndY 0x12, .adcDpInd 0x12, .adcSrIndY 0x12,
      .stzDpX 0x12, .adcDpX 0x12, .rorDpX 0x12, .adcDpIndLongY 0x12,
      .sei, .adcAbsY 0x3412, .ply, .tdc,
      .jmpAbsIndX 0x3412, .adcAbsX 0x3412, .rorAbsX 0x3412, .adcLongX 0x563412].map some := by decide

theorem test_decode_row8 :
    decoded [0x80, 0x81, 0x82, 0x83, 0x84, 0x85, 0x86, 0x87,
      0x88, 0x89, 0x8A, 0x8B, 0x8C, 0x8D, 0x8E, 0x8F] =
    [.bra 0x12, .staDpIndX 0x12, .brl 0x3412, .staSr 0x12,
      .styDp 0x12, .staDp 0x12, .stxDp 0x12, .staDpIndLong 0x12,
      .dey, .bitImm (.byte 0x12), .txa, .phb,
      .styAbs 0x3412, .staAbs 0x3412, .stxAbs 0x3412, .staLong 0x563412].map some := by decide

theorem test_decode_row9 :
    decoded [0x90, 0x91, 0x92, 0x93, 0x94, 0x95, 0x96, 0x97,
      0x98, 0x99, 0x9A, 0x9B, 0x9C, 0x9D, 0x9E, 0x9F] =
    [.bcc 0x12, .staDpIndY 0x12, .staDpInd 0x12, .staSrIndY 0x12,
      .styDpX 0x12, .staDpX 0x12, .stxDpY 0x12, .staDpIndLongY 0x12,
      .tya, .staAbsY 0x3412, .txs, .txy,
      .stzAbs 0x3412, .staAbsX 0x3412, .stzAbsX 0x3412, .staLongX 0x563412].map some := by decide

theorem test_decode_rowA :
    decoded [0xA0, 0xA1, 0xA2, 0xA3, 0xA4, 0xA5, 0xA6, 0xA7,
      0xA8, 0xA9, 0xAA, 0xAB, 0xAC, 0xAD, 0xAE, 0xAF] =
    [.ldyImm (.byte 0x12), .ldaDpIndX 0x12, .ldxImm (.byte 0x12), .ldaSr 0x12,
      .ldyDp 0x12, .ldaDp 0x12, .ldxDp 0x12, .ldaDpIndLong 0x12,
      .tay, .ldaImm (.byte 0x12), .tax, .plb,
      .ldyAbs 0x3412, .ldaAbs 0x3412, .ldxAbs 0x3412, .ldaLong 0x563412].map some := by decide

theorem test_decode_rowB :
    decoded [0xB0, 0xB1, 0xB2, 0xB3, 0xB4, 0xB5, 0xB6, 0xB7,
      0xB8, 0xB9, 0xBA, 0xBB, 0xBC, 0xBD, 0xBE, 0xBF] =
    [.bcs 0x12, .ldaDpIndY 0x12, .ldaDpInd 0x12, .ldaSrIndY 0x12,
      .ldyDpX 0x12, .ldaDpX 0x12, .ldxDpY 0x12, .ldaDpIndLongY 0x12,
      .clv, .ldaAbsY 0x3412, .tsx, .tyx,
      .ldyAbsX 0x3412, .ldaAbsX 0x3412, .ldxAbsY 0x3412, .ldaLongX 0x563412].map some := by decide

theorem test_decode_rowC :
    decoded [0xC0, 0xC1, 0xC2, 0xC3, 0xC4, 0xC5, 0xC6, 0xC7,
      0xC8, 0xC9, 0xCA, 0xCB, 0xCC, 0xCD, 0xCE, 0xCF] =
    [.cpyImm (.byte 0x12), .cmpDpIndX 0x12, .rep 0x12, .cmpSr 0x12,
      .cpyDp 0x12, .cmpDp 0x12, .decDp 0x12, .cmpDpIndLong 0x12,
      .iny, .cmpImm (.byte 0x12), .dex, .wai,
      .cpyAbs 0x3412, .cmpAbs 0x3412, .decAbs 0x3412, .cmpLong 0x563412].map some := by decide

theorem test_decode_rowD :
    decoded [0xD0, 0xD1, 0xD2, 0xD3, 0xD4, 0xD5, 0xD6, 0xD7,
      0xD8, 0xD9, 0xDA, 0xDB, 0xDC, 0xDD, 0xDE, 0xDF] =
    [.bne 0x12, .cmpDpIndY 0x12, .cmpDpInd 0x12, .cmpSrIndY 0x12,
      .pei 0x12, .cmpDpX 0x12, .decDpX 0x12, .cmpDpIndLongY 0x12,
      .cld, .cmpAbsY 0x3412, .phx, .stp,
      .jmlAbsIndLong 0x3412, .cmpAbsX 0x3412, .decAbsX 0x3412, .cmpLongX 0x563412].map some := by decide

theorem test_decode_rowE :
    decoded [0xE0, 0xE1, 0xE2, 0xE3, 0xE4, 0xE5, 0xE6, 0xE7,
      0xE8, 0xE9, 0xEA, 0xEB, 0xEC, 0xED, 0xEE, 0xEF] =
    [.cpxImm (.byte 0x12), .sbcDpIndX 0x12, .sep 0x12, .sbcSr 0x12,
      .cpxDp 0x12, .sbcDp 0x12, .incDp 0x12, .sbcDpIndLong 0x12,
      .inx, .sbcImm (.byte 0x12), .nop, .xba,
      .cpxAbs 0x3412, .sbcAbs 0x3412, .incAbs 0x3412, .sbcLong 0x563412].map some := by decide

theorem test_decode_rowF :
    decoded [0xF0, 0xF1, 0xF2, 0xF3, 0xF4, 0xF5, 0xF6, 0xF7,
      0xF8, 0xF9, 0xFA, 0xFB, 0xFC, 0xFD, 0xFE, 0xFF] =
    [.beq 0x12, .sbcDpIndY 0x12, .sbcDpInd 0x12, .sbcSrIndY 0x12,
      .pea 0x3412, .sbcDpX 0x12, .incDpX 0x12, .sbcDpIndLongY 0x12,
      .sed, .sbcAbsY 0x3412, .plx, .xce,
      .jsrAbsIndX 0x3412, .sbcAbsX 0x3412, .incAbsX 0x3412, .sbcLongX 0x563412].map some := by decide

/-- Words written out bit by bit: LDA #, STA a, TAX, ADC al,X, ASL d, BNE, JSR (a,X), PER, MVN and CLC. -/
theorem test_decode_bits :
    decodeTableWord 16 0b01000010_10101001 = some (.ldaImm (.byte 0x42)) ∧
    decodeTableWord 24 0b00100000_00000000_10001101 = some (.staAbs 0x2000) ∧
    decodeTableWord 8 0b10101010 = some .tax ∧
    decodeTableWord 32 0b00010010_00110100_01010110_01111111 = some (.adcLongX 0x123456) ∧
    decodeTableWord 16 0b00010000_00000110 = some (.aslDp 0x10) ∧
    decodeTableWord 16 0b11111110_11010000 = some (.bne 0xFE) ∧
    decodeTableWord 24 0b00010010_00110100_11111100 = some (.jsrAbsIndX 0x1234) ∧
    decodeTableWord 24 0b11111111_11111101_01100010 = some (.per 0xFFFD) ∧
    decodeTableWord 24 0b01111110_01111111_01010100 = some (.mvn 0x7F 0x7E) ∧
    decodeTableWord 8 0b00011000 = some .clc := by decide

/-- Where the width flags are 0 an IMM_M and an IMM_X operand have two bytes (30_encoding.md R123). -/
theorem test_decode_wide :
    decode false true [0xA9, 0x34, 0x12] = .ok (.ldaImm (.word 0x1234), []) ∧
    decode true false [0xA2, 0x34, 0x12] = .ok (.ldxImm (.word 0x1234), []) := ⟨rfl, rfl⟩

/-- Too few bytes are rejected by name. -/
theorem test_decode_truncated :
    decode true true [0x8D, 0x00] = .error (.truncated 0x8D) ∧ decode true true [] = .error .noBytes :=
  ⟨rfl, rfl⟩

/-! ### One step -/

/-- ADC: vector A1 of 95_test_vectors.md. -/
theorem test_adc_A1 : nextIs (step { cpu true 0x30 [0x69, 0x01] [] with a := 0x007F })
    (fun t => t.a == 0x0080 && t.p == 0xF0 && t.cycles == 2) = true := by decide

/-- ADC: vector A2 of 95_test_vectors.md. -/
theorem test_adc_A2 : nextIs (step { cpu false 0x00 [0x69, 0x01, 0x00] [] with a := 0xFFFF })
    (fun t => t.a == 0x0000 && t.p == 0x03 && t.cycles == 3) = true := by decide

/-- AND: vector A24 of 95_test_vectors.md. -/
theorem test_and_A24 : nextIs (step { cpu true 0x30 [0x29, 0x0F] [] with a := 0x003C })
    (fun t => t.a == 0x000C && t.p == 0x30 && t.cycles == 2) = true := by decide

/-- ASL: vector A32 of 95_test_vectors.md. -/
theorem test_asl_A32 : nextIs (step { cpu true 0x30 [0x0A] [] with a := 0x0080 })
    (fun t => t.a == 0x0000 && t.p == 0x33 && t.cycles == 2) = true := by decide

/-- ASL: vector A36 of 95_test_vectors.md. -/
theorem test_asl_A36 : nextIs (step (cpu false 0x00 [0x06, 0x10] [(0x0010, 0x01), (0x0011, 0x80)]))
    (fun t => t.p == 0x01 && Memory.read t.wram 0x0010 == 0x02 && Memory.read t.wram 0x0011 == 0x00
      && t.cycles == 7) = true := by decide

/-- BCS: vector B23 of 95_test_vectors.md. -/
theorem test_bcs_B23 : nextIs (step (cpu true 0x31 [0xB0, 0xFB] []))
    (fun t => t.pc == 0x7FFD && t.cycles == 4) = true := by decide

/-- BEQ: vector B24 of 95_test_vectors.md. -/
theorem test_beq_B24 : nextIs (step (cpu true 0x32 [0xF0, 0x00] []))
    (fun t => t.pc == 0x8002 && t.cycles == 3) = true := by decide

/-- BIT: vector A27 of 95_test_vectors.md. -/
theorem test_bit_A27 : nextIs (step { cpu true 0xF0 [0x89, 0xC0] [] with a := 0x000F })
    (fun t => t.p == 0xF2 && t.cycles == 2) = true := by decide

/-- BIT: vector A28 of 95_test_vectors.md. -/
theorem test_bit_A28 : nextIs (step { cpu true 0x30 [0x24, 0x10] [(0x0010, 0xC1)] with a := 0x0001 })
    (fun t => t.p == 0xF0 && t.cycles == 3) = true := by decide

/-- BMI: vector B6 of 95_test_vectors.md. -/
theorem test_bmi_B6 : nextIs (step (cpu true 0xB0 [0x30, 0x80] []))
    (fun t => t.pc == 0x7F82 && t.cycles == 4) = true := by decide

/-- BNE: vector B1 of 95_test_vectors.md. -/
theorem test_bne_B1 : nextIs (step (cpu true 0x30 [0xD0, 0x10] []))
    (fun t => t.pc == 0x8012 && t.cycles == 3) = true := by decide

/-- BNE: vector B4 of 95_test_vectors.md. -/
theorem test_bne_B4 : nextIs (step (cpu true 0x32 [0xD0, 0x10] []))
    (fun t => t.pc == 0x8002 && t.cycles == 2) = true := by decide

/-- BPL: vector B25 of 95_test_vectors.md. -/
theorem test_bpl_B25 : nextIs (step (cpu true 0x30 [0x10, 0x7F] []))
    (fun t => t.pc == 0x8081 && t.cycles == 3) = true := by decide

/-- BRA: vector B5 of 95_test_vectors.md. -/
theorem test_bra_B5 : nextIs (step (cpu true 0x30 [0x80, 0xFE] []))
    (fun t => t.pc == 0x8000 && t.cycles == 3) = true := by decide

/-- BRK: vector M15 of 95_test_vectors.md. -/
theorem test_brk_M15 : nextIs (step (cpu true 0x30 [0x00, 0x00] []))
    (fun t => t.sp == 0x01FC && t.pc == 0xB000 && t.p == 0x34 && Memory.read t.wram 0x01FF == 0x80
      && Memory.read t.wram 0x01FE == 0x02 && Memory.read t.wram 0x01FD == 0x30
      && t.cycles == 7) = true := by decide

/-- BRL: vector B8 of 95_test_vectors.md. -/
theorem test_brl_B8 : nextIs (step (cpu true 0x30 [0x82, 0xFD, 0xFF] []))
    (fun t => t.pc == 0x8000 && t.cycles == 4) = true := by decide

/-- BRL: vector B9 of 95_test_vectors.md. -/
theorem test_brl_B9 : nextIs (step (cpu true 0x30 [0x82, 0x00, 0x80] []))
    (fun t => t.pc == 0x0003 && t.cycles == 4) = true := by decide

/-- BVC: vector B22 of 95_test_vectors.md. -/
theorem test_bvc_B22 : nextIs (step (cpu true 0x30 [0x50, 0x05] []))
    (fun t => t.pc == 0x8007 && t.cycles == 3) = true := by decide

/-- BVS: vector B21 of 95_test_vectors.md. -/
theorem test_bvs_B21 : nextIs (step (cpu true 0x30 [0x70, 0x05] []))
    (fun t => t.pc == 0x8002 && t.cycles == 2) = true := by decide

/-- CLI: vector M9 of 95_test_vectors.md. -/
theorem test_cli_M9 : nextIs (step (cpu true 0x34 [0x58] []))
    (fun t => t.p == 0x30 && t.cycles == 2) = true := by decide

/-- CLV: vector M10 of 95_test_vectors.md. -/
theorem test_clv_M10 : nextIs (step (cpu true 0x70 [0xB8] []))
    (fun t => t.p == 0x30 && t.cycles == 2) = true := by decide

/-- CMP: vector A12 of 95_test_vectors.md. -/
theorem test_cmp_A12 : nextIs (step { cpu true 0x30 [0xC9, 0x40] [] with a := 0x0040 })
    (fun t => t.p == 0x33 && t.cycles == 2) = true := by decide

/-- CMP: vector A13 of 95_test_vectors.md. -/
theorem test_cmp_A13 : nextIs (step { cpu true 0x30 [0xC9, 0x41] [] with a := 0x0040 })
    (fun t => t.p == 0xB0 && t.cycles == 2) = true := by decide

/-- COP: vector M16 of 95_test_vectors.md. -/
theorem test_cop_M16 : nextIs (step (cpu true 0x30 [0x02, 0x00] []))
    (fun t => t.pc == 0xB100 && t.cycles == 7) = true := by decide

/-- COP: vector M17 of 95_test_vectors.md. -/
theorem test_cop_M17 : nextIs (step { cpu false 0x08 [0x02, 0xFF] [] with sp := 0x1FFF })
    (fun t => t.sp == 0x1FFB && t.pc == 0xA100 && t.p == 0x04 && Memory.read t.wram 0x1FFF == 0x00
      && Memory.read t.wram 0x1FFE == 0x80 && Memory.read t.wram 0x1FFD == 0x02
      && Memory.read t.wram 0x1FFC == 0x08 && t.cycles == 8) = true := by decide

/-- CPX: vector A15 of 95_test_vectors.md. -/
theorem test_cpx_A15 : nextIs (step { cpu false 0x20 [0xE0, 0x00, 0x80] [] with x := 0x7FFF })
    (fun t => t.p == 0xA0 && t.cycles == 3) = true := by decide

/-- CPY: vector A16 of 95_test_vectors.md. -/
theorem test_cpy_A16 : nextIs (step { cpu true 0x30 [0xC0, 0x10] [] with y := 0x0010 })
    (fun t => t.p == 0x33 && t.cycles == 2) = true := by decide

/-- DEC: vector A18 of 95_test_vectors.md. -/
theorem test_dec_A18 : nextIs (step (cpu false 0x00 [0xC6, 0x10] [(0x0010, 0x00), (0x0011, 0x00)]))
    (fun t => t.p == 0x80 && Memory.read t.wram 0x0010 == 0xFF && Memory.read t.wram 0x0011 == 0xFF
      && t.cycles == 7) = true := by decide

/-- DEX: vector A23 of 95_test_vectors.md. -/
theorem test_dex_A23 : nextIs (step { cpu true 0x30 [0xCA] [] with x := 0x0001 })
    (fun t => t.x == 0x0000 && t.p == 0x32 && t.cycles == 2) = true := by decide

/-- DEY: vector A21 of 95_test_vectors.md. -/
theorem test_dey_A21 : nextIs (step (cpu false 0x00 [0x88] []))
    (fun t => t.y == 0xFFFF && t.p == 0x80 && t.cycles == 2) = true := by decide

/-- EOR: vector A26 of 95_test_vectors.md. -/
theorem test_eor_A26 : nextIs (step { cpu true 0x30 [0x49, 0xFF] [] with a := 0x00FF })
    (fun t => t.a == 0x0000 && t.p == 0x32 && t.cycles == 2) = true := by decide

/-- INC: vector A17 of 95_test_vectors.md. -/
theorem test_inc_A17 : nextIs (step { cpu true 0x31 [0x1A] [] with a := 0x12FF })
    (fun t => t.a == 0x1200 && t.p == 0x33 && t.cycles == 2) = true := by decide

/-- INC: vector A19 of 95_test_vectors.md. -/
theorem test_inc_A19 : nextIs (step (cpu true 0x30 [0xEE, 0x00, 0x01] [(0x0100, 0x7F)]))
    (fun t => t.p == 0xB0 && Memory.read t.wram 0x0100 == 0x80 && t.cycles == 6) = true := by decide

/-- INX: vector A20 of 95_test_vectors.md. -/
theorem test_inx_A20 : nextIs (step { cpu true 0x30 [0xE8] [] with x := 0x00FF })
    (fun t => t.x == 0x0000 && t.p == 0x32 && t.cycles == 2) = true := by decide

/-- INY: vector A22 of 95_test_vectors.md. -/
theorem test_iny_A22 : nextIs (step { cpu false 0x00 [0xC8] [] with y := 0x7FFF })
    (fun t => t.y == 0x8000 && t.p == 0x80 && t.cycles == 2) = true := by decide

/-- JML: vector B13 of 95_test_vectors.md. -/
theorem test_jml_B13 : nextIs (step (cpu true 0x30 [0x5C, 0x00, 0x80, 0x01] []))
    (fun t => t.pbr == 0x01 && t.pc == 0x8000 && t.cycles == 4) = true := by decide

/-- JML: vector B14 of 95_test_vectors.md. -/
theorem test_jml_B14 : nextIs (step (cpu true 0x30 [0xDC, 0x00, 0x01] [(0x0100, 0x00), (0x0101, 0x80),
      (0x0102, 0x02)]))
    (fun t => t.pbr == 0x02 && t.pc == 0x8000 && t.cycles == 6) = true := by decide

/-- JMP: vector B10 of 95_test_vectors.md. -/
theorem test_jmp_B10 : nextIs (step (cpu true 0x30 [0x4C, 0x34, 0x92] []))
    (fun t => t.pc == 0x9234 && t.cycles == 3) = true := by decide

/-- JMP: vector B11 of 95_test_vectors.md. -/
theorem test_jmp_B11 : nextIs (step (cpu true 0x30 [0x6C, 0x00, 0x01] [(0x0100, 0x00), (0x0101, 0x90)]))
    (fun t => t.pc == 0x9000 && t.cycles == 5) = true := by decide

/-- JSL: vector B17 of 95_test_vectors.md. -/
theorem test_jsl_B17 : nextIs (step { cpu false 0x30 [0x22, 0x00, 0x80, 0x01] [] with sp := 0x1FFF })
    (fun t => t.sp == 0x1FFC && t.pbr == 0x01 && t.pc == 0x8000 && Memory.read t.wram 0x1FFF == 0x00
      && Memory.read t.wram 0x1FFE == 0x80 && Memory.read t.wram 0x1FFD == 0x03
      && t.cycles == 8) = true := by decide

/-- JSR: vector B15 of 95_test_vectors.md. -/
theorem test_jsr_B15 : nextIs (step (cpu true 0x30 [0x20, 0x00, 0x90] []))
    (fun t => t.sp == 0x01FD && t.pc == 0x9000 && Memory.read t.wram 0x01FF == 0x80
      && Memory.read t.wram 0x01FE == 0x02 && t.cycles == 6) = true := by decide

/-- LDA: vector L1 of 95_test_vectors.md. -/
theorem test_lda_L1 : nextIs (step { cpu true 0x30 [0xA9, 0x00] [] with a := 0x1234 })
    (fun t => t.a == 0x1200 && t.p == 0x32 && t.cycles == 2) = true := by decide

/-- LDA: vector L2 of 95_test_vectors.md. -/
theorem test_lda_L2 : nextIs (step (cpu false 0x00 [0xA9, 0x00, 0x80] []))
    (fun t => t.a == 0x8000 && t.p == 0x80 && t.pc == 0x8003 && t.cycles == 3) = true := by decide

/-- LDX: vector L19 of 95_test_vectors.md. -/
theorem test_ldx_L19 : nextIs (step { cpu true 0x30 [0xB6, 0xF0] [(0x0110, 0x80)] with y := 0x0020 })
    (fun t => t.x == 0x0080 && t.p == 0xB0 && t.cycles == 4) = true := by decide

/-- LSR: vector A33 of 95_test_vectors.md. -/
theorem test_lsr_A33 : nextIs (step { cpu true 0x30 [0x4A] [] with a := 0x0001 })
    (fun t => t.a == 0x0000 && t.p == 0x33 && t.cycles == 2) = true := by decide

/-- LSR: vector A38 of 95_test_vectors.md. -/
theorem test_lsr_A38 : nextIs (step { cpu false 0x00 [0x4A] [] with a := 0x8001 })
    (fun t => t.a == 0x4000 && t.p == 0x01 && t.cycles == 2) = true := by decide

/-- MVN: vector M24 of 95_test_vectors.md. -/
theorem test_mvn_M24 : nextIs (step { cpu false 0x00 [0x54, 0x7F, 0x7E] [(0x1000, 0xAA), (0x1001, 0xBB)] with
      a := 0x0001, x := 0x1000, y := 0x2000 })
    (fun t => t.x == 0x1001 && t.y == 0x2001 && t.a == 0x0000 && t.dbr == 0x7F && t.pc == 0x8000
      && Memory.read t.wram 0x12000 == 0xAA && t.cycles == 7) = true := by decide

/-- MVN: vector M27 of 95_test_vectors.md. -/
theorem test_mvn_M27 : nextIs (step { cpu false 0x10 [0x54, 0x00, 0x00] [(0x00FF, 0x11)] with
      x := 0x00FF, y := 0x0010 })
    (fun t => t.x == 0x0000 && t.y == 0x0011 && t.a == 0xFFFF && Memory.read t.wram 0x0010 == 0x11
      && t.cycles == 7) = true := by decide

/-- MVP: vector M26 of 95_test_vectors.md. -/
theorem test_mvp_M26 : nextIs (step { cpu false 0x00 [0x44, 0x00, 0x00] [(0x10FF, 0x5C)] with
      x := 0x10FF, y := 0x1200 })
    (fun t => t.x == 0x10FE && t.y == 0x11FF && t.a == 0xFFFF && t.dbr == 0x00 && t.pc == 0x8003
      && Memory.read t.wram 0x1200 == 0x5C && t.cycles == 7) = true := by decide

/-- NOP: vector M11 of 95_test_vectors.md. -/
theorem test_nop_M11 : nextIs (step (cpu true 0x30 [0xEA] []))
    (fun t => t.pc == 0x8001 && t.cycles == 2) = true := by decide

/-- ORA: vector A25 of 95_test_vectors.md. -/
theorem test_ora_A25 : nextIs (step { cpu true 0x30 [0x09, 0x80] [] with a := 0x0001 })
    (fun t => t.a == 0x0081 && t.p == 0xB0 && t.cycles == 2) = true := by decide

/-- PEA: vector K15 of 95_test_vectors.md. -/
theorem test_pea_K15 : nextIs (step { cpu false 0x30 [0xF4, 0x34, 0x12] [] with sp := 0x1FFF })
    (fun t => t.sp == 0x1FFD && Memory.read t.wram 0x1FFF == 0x12 && Memory.read t.wram 0x1FFE == 0x34
      && t.cycles == 5) = true := by decide

/-- PEI: vector K16 of 95_test_vectors.md. -/
theorem test_pei_K16 : nextIs (step { cpu false 0x30 [0xD4, 0x10] [(0x0010, 0x00), (0x0011, 0x90)] with
      sp := 0x1FFF })
    (fun t => t.sp == 0x1FFD && Memory.read t.wram 0x1FFF == 0x90 && Memory.read t.wram 0x1FFE == 0x00
      && t.cycles == 6) = true := by decide

/-- PER: vector K17 of 95_test_vectors.md. -/
theorem test_per_K17 : nextIs (step { cpu false 0x30 [0x62, 0x00, 0x10] [] with sp := 0x1FFF })
    (fun t => Memory.read t.wram 0x1FFF == 0x90 && Memory.read t.wram 0x1FFE == 0x03
      && t.cycles == 6) = true := by decide

/-- PHA: vector K1 of 95_test_vectors.md. -/
theorem test_pha_K1 : nextIs (step { cpu true 0x30 [0x48] [] with a := 0x0055, sp := 0x0100 })
    (fun t => t.sp == 0x01FF && Memory.read t.wram 0x0100 == 0x55 && t.cycles == 3) = true := by decide

/-- PHA: vector K3 of 95_test_vectors.md. -/
theorem test_pha_K3 : nextIs (step { cpu false 0x00 [0x48] [] with a := 0x1234, sp := 0x1FFF })
    (fun t => t.sp == 0x1FFD && Memory.read t.wram 0x1FFF == 0x12 && Memory.read t.wram 0x1FFE == 0x34
      && t.cycles == 4) = true := by decide

/-- PHB: vector K7 of 95_test_vectors.md. -/
theorem test_phb_K7 : nextIs (step { cpu true 0x30 [0x8B] [] with dbr := 0x7E })
    (fun t => t.sp == 0x01FE && Memory.read t.wram 0x01FF == 0x7E && t.cycles == 3) = true := by decide

/-- PHD: vector K9 of 95_test_vectors.md. -/
theorem test_phd_K9 : nextIs (step { cpu true 0x30 [0x0B] [] with sp := 0x0100, d := 0x1234 })
    (fun t => t.sp == 0x01FE && Memory.read t.wram 0x0100 == 0x12 && Memory.read t.wram 0x01FF == 0x34
      && t.cycles == 4) = true := by decide

/-- PHK: vector K11 of 95_test_vectors.md. -/
theorem test_phk_K11 : nextIs (step (cpu true 0x30 [0x4B] []))
    (fun t => t.sp == 0x01FE && Memory.read t.wram 0x01FF == 0x00 && t.cycles == 3) = true := by decide

/-- PHP: vector K12 of 95_test_vectors.md. -/
theorem test_php_K12 : nextIs (step (cpu true 0xB3 [0x08] []))
    (fun t => t.sp == 0x01FE && Memory.read t.wram 0x01FF == 0xB3 && t.cycles == 3) = true := by decide

/-- PHX: vector K5 of 95_test_vectors.md. -/
theorem test_phx_K5 : nextIs (step { cpu true 0x30 [0xDA] [] with x := 0x0012 })
    (fun t => t.sp == 0x01FE && Memory.read t.wram 0x01FF == 0x12 && t.cycles == 3) = true := by decide

/-- PLA: vector K2 of 95_test_vectors.md. -/
theorem test_pla_K2 : nextIs (step (cpu true 0x30 [0x68] [(0x0100, 0x80)]))
    (fun t => t.sp == 0x0100 && t.a == 0x0080 && t.p == 0xB0 && t.cycles == 4) = true := by decide

/-- PLA: vector K4 of 95_test_vectors.md. -/
theorem test_pla_K4 : nextIs (step { cpu false 0x00 [0x68] [(0x1FFE, 0x00), (0x1FFF, 0x80)] with
      sp := 0x1FFD })
    (fun t => t.a == 0x8000 && t.p == 0x80 && t.sp == 0x1FFF && t.cycles == 5) = true := by decide

/-- PLB: vector K8 of 95_test_vectors.md. -/
theorem test_plb_K8 : nextIs (step { cpu true 0x30 [0xAB] [(0x01FF, 0x80)] with sp := 0x01FE })
    (fun t => t.dbr == 0x80 && t.p == 0xB0 && t.cycles == 4) = true := by decide

/-- PLD: vector K10 of 95_test_vectors.md. -/
theorem test_pld_K10 : nextIs (step { cpu false 0x30 [0x2B] [(0x1FFE, 0x00), (0x1FFF, 0x00)] with
      sp := 0x1FFD })
    (fun t => t.d == 0x0000 && t.p == 0x32 && t.cycles == 5) = true := by decide

/-- PLP: vector K13 of 95_test_vectors.md. -/
theorem test_plp_K13 : nextIs (step { cpu false 0x00 [0x28] [(0x1FFF, 0x10)] with
      x := 0x1234, y := 0xABCD, sp := 0x1FFE })
    (fun t => t.p == 0x10 && t.x == 0x0034 && t.y == 0x00CD && t.cycles == 4) = true := by decide

/-- PLP: vector K14 of 95_test_vectors.md. -/
theorem test_plp_K14 : nextIs (step { cpu true 0x30 [0x28] [(0x01FF, 0x00)] with sp := 0x01FE })
    (fun t => t.p == 0x30 && t.cycles == 4) = true := by decide

/-- PLY: vector K6 of 95_test_vectors.md. -/
theorem test_ply_K6 : nextIs (step { cpu false 0x20 [0x7A] [(0x1FFE, 0x00), (0x1FFF, 0x00)] with
      y := 0x5555, sp := 0x1FFD })
    (fun t => t.y == 0x0000 && t.p == 0x22 && t.sp == 0x1FFF && t.cycles == 5) = true := by decide

/-- REP: vector M1 of 95_test_vectors.md. -/
theorem test_rep_M1 : nextIs (step (cpu true 0xF3 [0xC2, 0x30] []))
    (fun t => t.p == 0xF3 && t.cycles == 3) = true := by decide

/-- REP: vector M2 of 95_test_vectors.md. -/
theorem test_rep_M2 : nextIs (step (cpu false 0x30 [0xC2, 0x30] []))
    (fun t => t.p == 0x00 && t.cycles == 3) = true := by decide

/-- ROL: vector A34 of 95_test_vectors.md. -/
theorem test_rol_A34 : nextIs (step { cpu true 0x31 [0x2A] [] with a := 0x0080 })
    (fun t => t.a == 0x0001 && t.p == 0x31 && t.cycles == 2) = true := by decide

/-- ROR: vector A35 of 95_test_vectors.md. -/
theorem test_ror_A35 : nextIs (step { cpu true 0x31 [0x6A] [] with a := 0x0001 })
    (fun t => t.a == 0x0080 && t.p == 0xB1 && t.cycles == 2) = true := by decide

/-- ROR: vector A37 of 95_test_vectors.md. -/
theorem test_ror_A37 : nextIs (step (cpu false 0x00 [0x6E, 0x00, 0x01] [(0x0100, 0x01), (0x0101, 0x00)]))
    (fun t => t.p == 0x03 && Memory.read t.wram 0x0100 == 0x00 && Memory.read t.wram 0x0101 == 0x00
      && t.cycles == 8) = true := by decide

/-- RTI: vector M18 of 95_test_vectors.md. -/
theorem test_rti_M18 : nextIs (step { cpu false 0x04 [0x40] [(0x1FFC, 0x00), (0x1FFD, 0x02), (0x1FFE, 0x80), (0x1FFF, 0x01)] with
      sp := 0x1FFB })
    (fun t => t.p == 0x00 && t.pbr == 0x01 && t.pc == 0x8002 && t.sp == 0x1FFF
      && t.cycles == 7) = true := by decide

/-- RTI: vector M19 of 95_test_vectors.md. -/
theorem test_rti_M19 : nextIs (step { cpu true 0x34 [0x40] [(0x01FD, 0x00), (0x01FE, 0x02), (0x01FF, 0x80)] with
      sp := 0x01FC })
    (fun t => t.p == 0x30 && t.pc == 0x8002 && t.sp == 0x01FF && t.cycles == 6) = true := by decide

/-- RTL: vector B19 of 95_test_vectors.md. -/
theorem test_rtl_B19 : nextIs (step { cpu false 0x30 [0x6B] [(0x1FFD, 0x03), (0x1FFE, 0x80), (0x1FFF, 0x00)] with
      sp := 0x1FFC })
    (fun t => t.pbr == 0x00 && t.pc == 0x8004 && t.sp == 0x1FFF && t.cycles == 6) = true := by decide

/-- RTS: vector B18 of 95_test_vectors.md. -/
theorem test_rts_B18 : nextIs (step { cpu true 0x30 [0x60] [(0x01FE, 0x02), (0x01FF, 0x80)] with
      sp := 0x01FD })
    (fun t => t.pc == 0x8003 && t.sp == 0x01FF && t.cycles == 6) = true := by decide

/-- RTS: vector B20 of 95_test_vectors.md. -/
theorem test_rts_B20 : nextIs (step { cpu true 0x30 [0x60] [(0x01FE, 0xFF), (0x01FF, 0xFF)] with
      sp := 0x01FD })
    (fun t => t.pc == 0x0000 && t.cycles == 6) = true := by decide

/-- SBC: vector A7 of 95_test_vectors.md. -/
theorem test_sbc_A7 : nextIs (step { cpu true 0x31 [0xE9, 0x06] [] with a := 0x0005 })
    (fun t => t.a == 0x00FF && t.p == 0xB0 && t.cycles == 2) = true := by decide

/-- SBC: vector A8 of 95_test_vectors.md. -/
theorem test_sbc_A8 : nextIs (step (cpu true 0x39 [0xE9, 0x01] []))
    (fun t => t.a == 0x0099 && t.p == 0xB8 && t.cycles == 2) = true := by decide

/-- SED: vector M8 of 95_test_vectors.md. -/
theorem test_sed_M8 : nextIs (step (cpu true 0x30 [0xF8] []))
    (fun t => t.p == 0x38 && t.cycles == 2) = true := by decide

/-- SEP: vector M3 of 95_test_vectors.md. -/
theorem test_sep_M3 : nextIs (step { cpu false 0x00 [0xE2, 0x10] [] with x := 0x1234, y := 0xFFFF })
    (fun t => t.p == 0x10 && t.x == 0x0034 && t.y == 0x00FF && t.cycles == 3) = true := by decide

/-- SEP: vector M4 of 95_test_vectors.md. -/
theorem test_sep_M4 : nextIs (step { cpu false 0x00 [0xE2, 0x20] [] with a := 0x1234 })
    (fun t => t.p == 0x20 && t.a == 0x1234 && t.cycles == 3) = true := by decide

/-- STA: vector L21 of 95_test_vectors.md. -/
theorem test_sta_L21 : nextIs (step { cpu true 0x30 [0x81, 0x10] [(0x0012, 0x00), (0x0013, 0x03)] with
      a := 0x0099, x := 0x0002 })
    (fun t => Memory.read t.wram 0x0300 == 0x99 && t.cycles == 6) = true := by decide

/-- STP: vector M22 of 95_test_vectors.md. -/
theorem test_stp_M22 : nextIs (step (cpu true 0x30 [0xDB] []))
    (fun t => t.run == .stopped && t.pc == 0x8001 && t.cycles == 3) = true := by decide

/-- STZ: vector L8 of 95_test_vectors.md. -/
theorem test_stz_L8 : nextIs (step (cpu false 0x00 [0x9C, 0x00, 0x00] [(0x0000, 0xAA), (0x0001, 0xBB)]))
    (fun t => Memory.read t.wram 0x0000 == 0x00 && Memory.read t.wram 0x0001 == 0x00
      && t.cycles == 5) = true := by decide

/-- TAX: vector L11 of 95_test_vectors.md. -/
theorem test_tax_L11 : nextIs (step { cpu false 0x20 [0xAA] [] with a := 0x1234 })
    (fun t => t.x == 0x1234 && t.p == 0x20 && t.cycles == 2) = true := by decide

/-- TCD: vector L16 of 95_test_vectors.md. -/
theorem test_tcd_L16 : nextIs (step { cpu true 0x30 [0x5B] [] with d := 0x1234 })
    (fun t => t.d == 0x0000 && t.p == 0x32 && t.cycles == 2) = true := by decide

/-- TCS: vector L17 of 95_test_vectors.md. -/
theorem test_tcs_L17 : nextIs (step { cpu false 0x30 [0x1B] [] with a := 0x1FF0 })
    (fun t => t.sp == 0x1FF0 && t.cycles == 2) = true := by decide

/-- TRB: vector A31 of 95_test_vectors.md. -/
theorem test_trb_A31 : nextIs (step { cpu true 0x30 [0x14, 0x10] [(0x0010, 0xFF)] with a := 0x000F })
    (fun t => t.p == 0x30 && Memory.read t.wram 0x0010 == 0xF0 && t.cycles == 5) = true := by decide

/-- TSB: vector A30 of 95_test_vectors.md. -/
theorem test_tsb_A30 : nextIs (step { cpu true 0x30 [0x04, 0x10] [(0x0010, 0xF0)] with a := 0x000F })
    (fun t => t.p == 0x32 && Memory.read t.wram 0x0010 == 0xFF && t.cycles == 5) = true := by decide

/-- TSC: vector L18 of 95_test_vectors.md. -/
theorem test_tsc_L18 : nextIs (step { cpu true 0x30 [0x3B] [] with a := 0xFFFF, sp := 0x01F0 })
    (fun t => t.a == 0x01F0 && t.p == 0x30 && t.cycles == 2) = true := by decide

/-- TSX: vector L14 of 95_test_vectors.md. -/
theorem test_tsx_L14 : nextIs (step { cpu true 0x30 [0xBA] [] with sp := 0x0180 })
    (fun t => t.x == 0x0080 && t.p == 0xB0 && t.cycles == 2) = true := by decide

/-- TXA: vector L12 of 95_test_vectors.md. -/
theorem test_txa_L12 : nextIs (step { cpu false 0x20 [0x8A] [] with a := 0xFFFF, x := 0x1234 })
    (fun t => t.a == 0xFF34 && t.cycles == 2) = true := by decide

/-- TXS: vector L13 of 95_test_vectors.md. -/
theorem test_txs_L13 : nextIs (step { cpu true 0x30 [0x9A] [] with x := 0x00AB })
    (fun t => t.sp == 0x01AB && t.cycles == 2) = true := by decide

/-- WAI: vector M20 of 95_test_vectors.md. -/
theorem test_wai_M20 : nextIs (step (cpu true 0x30 [0xCB] []))
    (fun t => t.run == .waiting && t.pc == 0x8001 && t.cycles == 3) = true := by decide

/-- WDM: vector M13 of 95_test_vectors.md. -/
theorem test_wdm_M13 : nextIs (step (cpu true 0x30 [0x42, 0x00] []))
    (fun t => t.pc == 0x8002 && t.cycles == 2) = true := by decide

/-- XBA: vector L15 of 95_test_vectors.md. -/
theorem test_xba_L15 : nextIs (step { cpu true 0x30 [0xEB] [] with a := 0x1234 })
    (fun t => t.a == 0x3412 && t.p == 0x30 && t.cycles == 3) = true := by decide

/-- XCE: vector M6 of 95_test_vectors.md. -/
theorem test_xce_M6 : nextIs (step { cpu false 0x00 [0xFB] [] with x := 0x1234 })
    (fun t => t.e == false && t.cycles == 2) = true := by decide

/-- CLC, from 45_flags_mode_system.md R330. -/
theorem test_clc : nextIs (step (cpu true 0x31 [0x18] []))
    (fun t => t.p == 0x30 && t.cycles == 2) = true := by decide

/-- SEC, from 45_flags_mode_system.md R334. -/
theorem test_sec : nextIs (step (cpu true 0x30 [0x38] []))
    (fun t => t.p == 0x31 && t.cycles == 2) = true := by decide

/-- SEI, from 45_flags_mode_system.md R336. -/
theorem test_sei : nextIs (step (cpu true 0x30 [0x78] []))
    (fun t => t.p == 0x34 && t.cycles == 2) = true := by decide

/-- CLD, from 45_flags_mode_system.md R331. -/
theorem test_cld : nextIs (step (cpu true 0x38 [0xD8] []))
    (fun t => t.p == 0x30 && t.cycles == 2) = true := by decide

/-- BCC taken backwards, from 43_control_transfer.md R275. -/
theorem test_bcc_taken : nextIs (step (cpu false 0x30 [0x90, 0xFE] []))
    (fun t => t.pc == 0x8000 && t.cycles == 3) = true := by decide

/-- BCC not taken, from 43_control_transfer.md R275. -/
theorem test_bcc_not_taken : nextIs (step (cpu false 0x31 [0x90, 0xFE] []))
    (fun t => t.pc == 0x8002 && t.cycles == 2) = true := by decide

/-- LDY of a two-byte immediate, from 41_load_store_transfer.md R203. -/
theorem test_ldy_imm16 : nextIs (step (cpu false 0x20 [0xA0, 0x00, 0x80] []))
    (fun t => t.y == 0x8000 && t.p == 0xA0 && t.pc == 0x8003 && t.cycles == 3) = true := by decide

/-- LDY a,X with an 8-bit index, from 41_load_store_transfer.md R203. -/
theorem test_ldy_absX : nextIs (step { cpu true 0x30 [0xBC, 0xFF, 0x00] [(0x0101, 0x42)] with x := 0x02 })
    (fun t => t.y == 0x42 && t.p == 0x30 && t.cycles == 5) = true := by decide

/-- PHY at two bytes, from 44_stack.md R306. -/
theorem test_phy_native : nextIs (step { cpu false 0x20 [0x5A] [] with y := 0x1234 })
    (fun t => Memory.read t.wram 0x01FF == 0x12 && Memory.read t.wram 0x01FE == 0x34 && t.sp == 0x01FD
      && t.cycles == 4) = true := by decide

/-- PLX at one byte in page 1, from 44_stack.md R301 and R312. -/
theorem test_plx_emulation : nextIs (step { cpu true 0x30 [0xFA] [(0x0100, 0x80)] with x := 0x0055 })
    (fun t => t.x == 0x0080 && t.sp == 0x0100 && t.p == 0xB0 && t.cycles == 4) = true := by decide

/-- STX d,Y at two bytes, from 41_load_store_transfer.md R205. -/
theorem test_stx_dpY : nextIs (step { cpu false 0x20 [0x96, 0x10] [] with x := 0xABCD, y := 0x0001 })
    (fun t => Memory.read t.wram 0x0011 == 0xCD && Memory.read t.wram 0x0012 == 0xAB
      && t.cycles == 5) = true := by decide

/-- STY a at one byte, from 41_load_store_transfer.md R206. -/
theorem test_sty_abs : nextIs (step { cpu true 0x30 [0x8C, 0x00, 0x10] [] with y := 0x0077 })
    (fun t => Memory.read t.wram 0x1000 == 0x77 && Memory.read t.wram 0x1001 == 0x00 && t.p == 0x30
      && t.cycles == 4) = true := by decide

/-- TAY with X = 1 drops B, from 41_load_store_transfer.md R209. -/
theorem test_tay_narrow : nextIs (step { cpu false 0x10 [0xA8] [] with a := 0x8001 })
    (fun t => t.y == 0x0001 && t.p == 0x10 && t.cycles == 2) = true := by decide

/-- TDC is 16 bits wide whatever M is, from 41_load_store_transfer.md R214. -/
theorem test_tdc : nextIs (step { cpu true 0x30 [0x7B] [] with d := 0x8001, a := 0x1234 })
    (fun t => t.a == 0x8001 && t.p == 0xB0 && t.cycles == 2) = true := by decide

/-- TXY, from 41_load_store_transfer.md R219. -/
theorem test_txy : nextIs (step { cpu false 0x20 [0x9B] [] with x := 0x8000, y := 0x1234 })
    (fun t => t.y == 0x8000 && t.p == 0xA0 && t.cycles == 2) = true := by decide

/-- TYX, from 41_load_store_transfer.md R220. -/
theorem test_tyx : nextIs (step { cpu true 0x30 [0xBB] [] with x := 0x0012, y := 0x0000 })
    (fun t => t.x == 0x0000 && t.p == 0x32 && t.cycles == 2) = true := by decide

/-- TYA with M = 1 keeps B, from 41_load_store_transfer.md R211. -/
theorem test_tya_narrow : nextIs (step { cpu false 0x20 [0x98] [] with a := 0x1234, y := 0xAB80 })
    (fun t => t.a == 0x1280 && t.p == 0xA0 && t.cycles == 2) = true := by decide

/-- JSR (a,X): vector B16 of 95_test_vectors.md. -/
theorem test_jsr_absIndX : nextIs (step { cpu false 0x00 [0xFC, 0x00, 0x90] [] with
      sp := 0x1FFF, x := 0x0002, params := { Params.standard with
        rom := bytesAt [(0, 0xFC), (2, 0x90), (0x1003, 0xA0)] } })
    (fun t => Memory.read t.wram 0x1FFF == 0x80 && Memory.read t.wram 0x1FFE == 0x02 && t.sp == 0x1FFD
      && t.pc == 0xA000 && t.cycles == 8) = true := by decide

/-- A store to ROM: vector L10 of 95_test_vectors.md. -/
theorem test_rom_write :
    let s := cpu true 0x30 [0x8D, 0x00, 0x80] []
    faultIs (step s) (.romWrite 0x00 0x8000 s.remains 0x008000) = true := by
  decide

/-- A store to an unmapped offset: vector L9 of 95_test_vectors.md. -/
theorem test_unmapped :
    let s := cpu true 0x30 [0x8D, 0x00, 0x20] []
    faultIs (step s) (.unmappedRegion 0x00 0x2000 s.remains 0x008000) = true := by
  decide

/-- The write before an error stays made, from 40_engine_addressing.md R155: STA a of two bytes whose second
byte is past low RAM. -/
theorem test_fault_keeps_write :
    let s := { cpu false 0x00 [0x8D, 0xFF, 0x1F] [] with a := 0x1234 }
    faultIs (step s)
      (.unmappedRegion 0x00 0x2000 { s.remains with wram := [(0x1FFF, 0x34)] } 0x008000) = true := by
  decide

/-- A window whose pages are no whole blocks of 256 bytes is refused (notes/assumptions/12.md). -/
theorem test_window_refused :
    Window.wf ⟨0x70, 0x7D, 0x0000, 0xFFFF, 0x70, 0, 0x80⟩ = false ∧
    Window.wf ⟨0x30, 0x3F, 0x6000, 0x7FFF, 0x31, 0x6000, 0x2000⟩ = false ∧
    (Params.standard).geometryWf = true := by decide

/-- Windows of one mode must not overlap, from 20_memory.md R76: two save-RAM windows that share bank 0x7D, a
mirror over a save-RAM window of HiROM; the same two lists apart are accepted, and lists of two modes may
share addresses. -/
theorem test_overlap_refused :
    { Params.standard with sramLoRom :=
      [⟨0x70, 0x7D, 0, 0xFFFF, 0x70, 0, 0x8000⟩, ⟨0x7D, 0x7D, 0xFFFF, 0xFFFF, 0x7D, 0, 0x8000⟩] }.geometryWf
      = false ∧
    { Params.standard with hiRomMirrors := [⟨0x00, 0x3F, 0x7F00, 0xFFFF, 0, 0, 0x8000⟩] }.geometryWf = false ∧
    { Params.standard with sramLoRom := [⟨0x30, 0x3F, 0x6000, 0x7FFF, 0x30, 0x6000, 0x2000⟩] }.geometryWf
      = true := by decide

/-- A write to ROM is the error of 20_memory.md R83 before any translation, also where no mirror holds the
address. -/
theorem test_write_outside_mirrors :
    let p := { Params.standard with mapMode := .hiRom, hiRomMirrors := [] }
    let s : State := { cpu true 0x30 [] [] with params := p }
    (match accessWrite 0 0x8000 1 s with | .error e => e 0 == .romWrite 0 0x8000 s.remains 0 | .ok _ => false)
      = true ∧
    (match accessRead 0 0x8000 s with | .error e => e 0 == .unmappedRegion 0 0x8000 s.remains 0 | .ok _ => false)
      = true := by decide

/-- `HIROM_MIRRORS` and `SRAM_WINDOW` are arguments (00_scope.md R8): other windows, other bytes. -/
theorem test_geometry_is_a_parameter :
    let p := { Params.standard with
      mapMode := .hiRom
      hiRomMirrors := [⟨0x00, 0x3F, 0x8000, 0xFFFF, 0, 0, 0x10000⟩]
      sramHiRom := [⟨0x20, 0x3F, 0x6000, 0x7FFF, 0x20, 0x6000, 0x2000⟩] }
    p.geometryWf = true ∧ romIndex p 0x01 0x8000 = some 0x18000 ∧ romIndex p 0x40 0x8000 = none ∧
    sramIndex p 0x21 0x6010 = some 0x2010 ∧ sramIndex p 0x1F 0x6010 = none := by decide
/-! ### Witnesses: for each statement with hypotheses, a state and operands that meet all of them -/

/-- Native mode, every register 16 bits wide, an 8 KiB stack, bytes in low WRAM. -/
def wide (wram : List (Nat × Byte)) : State :=
  { cpu false 0x00 [0xEA] wram with a := 0x1234, x := 0x0002, y := 0x0003, sp := 0x1FF0, dbr := 0x7E }

/-- Emulation mode after reset, bytes in low WRAM. -/
def narrow (wram : List (Nat × Byte)) : State :=
  { cpu true 0x30 [0xEA] wram with a := 0x1234, x := 0x0002, y := 0x0003 }

/-- HiROM with save RAM. -/
def hiRom : State := { State.reset with params := { Params.standard with mapMode := .hiRom } }

/-- ExHiROM. -/
def exHiRom : State := { State.reset with params := { Params.standard with mapMode := .exHiRom } }

/-- One mirror window in HiROM, and no save RAM below bank 0x38. -/
def otherHiRom : State :=
  { State.reset with params := { Params.standard with
      mapMode := .hiRom
      hiRomMirrors := [⟨0x00, 0x3F, 0x8000, 0xFFFF, 0x00, 0, 0x8000⟩]
      sramHiRom := [⟨0x38, 0x3F, 0x6000, 0x7FFF, 0x38, 0x6000, 0x2000⟩] } }

/-- Parameters that PowerOnState accepts, and one of each kind that it refuses. -/
theorem witness_PowerOnState :
    let apart := fun ws : List Window => ws.Pairwise fun u v =>
      ∀ bank offset, ¬(u.holds bank offset = true ∧ v.holds bank offset = true)
    let p : Params := { Params.standard with sramSize := 1 }
    let q : Params := { p with sramHiRom := [⟨0x80, 0x80, 0x7000, 0x8000, 0x80, 0, 0x8000⟩] }
    (([0x12] : List Byte).length = p.sramSize ∧
      (∀ u ∈ p.hiRomMirrors ++ p.sramLoRom ++ p.sramHiRom, u.wf = true) ∧
      apart p.sramLoRom ∧ apart (p.hiRomMirrors ++ p.sramHiRom)) ∧
    ([] : List Byte).length ≠ p.sramSize ∧
    (∃ u ∈ { p with hiRomMirrors := [⟨0, 0x3F, 0x8000, 0xFFFF, 0, 0, 0x80⟩] }.hiRomMirrors, u.wf = false) ∧
    ¬apart (q.hiRomMirrors ++ q.sramHiRom) := by
  refine ⟨⟨rfl, by decide, disjoint_iff.1 (by decide), disjoint_iff.1 (by decide)⟩, by decide, by decide,
    fun h => ?_⟩
  exact absurd (disjoint_iff.2 h) (by decide)

/-- A boundary with an access from outside and RESET. -/
theorem witness_ResetSignal :
    let b : Boundary :=
      { accesses := [.write 0x7E 0x0010 0x55, .read 0 0x8000], nmiEdge := true, irqLine := true, reset := true }
    let s : State := { State.reset with run := .stopped, inputs := [b] }
    (∀ f, s.run ≠ .faulted f) ∧ s.inputs = b :: [] ∧ b.reset = true ∧
    ∃ t, serveAll b.accesses { s with inputs := [] } = .ok t := by
  intro b s
  exact ⟨fun _ h => (nomatch h), rfl, rfl, _, rfl⟩

theorem witness_StepKeepsModeInvariants :
    ∃ t, (wide []).ModeInv ∧ step (wide []) = .next t := ⟨_, by decide, rfl⟩

theorem witness_StepKeepsModeInvariants_emulation :
    ∃ t, (narrow []).ModeInv ∧ step (narrow []) = .next t := ⟨_, by decide, rfl⟩

theorem witness_StepKeepsStores :
    ∃ t, (wide [(0x10, 0xFF)]).StoresWf ∧ step (wide [(0x10, 0xFF)]) = .next t := ⟨_, by decide, rfl⟩

/-- A step that writes a byte and then ends in a fault. -/
def midStoreFault : State := { cpu false 0x00 [0x8D, 0xFF, 0x1F] [] with a := 0x1234 }

theorem witness_StepKeepsStores_fault :
    ∃ f, midStoreFault.StoresWf ∧ (∀ g, midStoreFault.run ≠ .faulted g) ∧ step midStoreFault = .fault f :=
  ⟨_, by decide, fun _ h => (nomatch h), rfl⟩

theorem witness_StepKeepsParameters : ∃ t, step State.reset = .next t := ⟨_, rfl⟩

theorem witness_StepKeepsParameters_fault :
    ∃ f, (∀ g, midStoreFault.run ≠ .faulted g) ∧ step midStoreFault = .fault f :=
  ⟨_, fun _ h => (nomatch h), rfl⟩

theorem witness_CanonicalStores :
    Memory.wf 4 [(3, 5)] = true ∧ ∀ i, i < 4 → Memory.read [(3, 5)] i = Memory.read [(3, 5)] i :=
  ⟨by decide, fun _ _ => rfl⟩

theorem witness_WriteThenRead :
    State.reset.StoresWf ∧ isRam Params.standard 0x001FFF = true ∧ isRam Params.standard 0x7FFFFF = true ∧
    isRam Params.standard 0x700000 = true := by decide

theorem witness_WramAccess :
    (0x3F ≤ 0x3F ∨ 0x80 ≤ 0x3F ∧ 0x3F ≤ 0xBF) ∧ (0x80 ≤ 0x80 ∧ 0x80 ≤ 0xBF) ∧ 0x1FFF ≤ 0x1FFF ∧
    (0x7E = 0x7E ∨ 0x7E = 0x7F) ∧ (0x7F = 0x7E ∨ 0x7F = 0x7F) := by decide

/-- The clauses of RomAccess over any geometry: LoROM, HiROM's primary region, and a mirror that is not the
default. -/
theorem witness_RomAccess_windows :
    (State.reset.params.mapMode = .loRom ∧
      ∀ w ∈ State.reset.params.sramWindows, w.holds 0x6F 0x8000 = false) ∧
    (otherHiRom.params.mapMode = .hiRom ∧ 0xC0 ≤ 0xC0 ∧
      ∀ w ∈ otherHiRom.params.sramWindows, w.holds 0xC0 0 = false) ∧
    (0x3F < 0xC0 ∧ 0x8000 ≤ 0xFFFF ∧ otherHiRom.params.geometryWf = true ∧
      ∃ w ∈ otherHiRom.params.hiRomMirrors, w.holds 0x3F 0xFFFF = true) ∧
    (otherHiRom.params.mapMode ≠ .exHiRom ∧ 0x8000 ≤ 0x8000) := by decide

/-- The four clauses of RomAccess over the default geometry: a system bank and a ROM bank, in LoROM and in
HiROM. -/
theorem witness_RomAccess :
    (State.reset.params.hiRomMirrors = Window.hiRomDefault ∧
      State.reset.params.sramLoRom = Window.sramLoRomDefault ∧
      State.reset.params.sramHiRom = Window.sramHiRomDefault) ∧
    (hiRom.params.hiRomMirrors = Window.hiRomDefault ∧ hiRom.params.sramLoRom = Window.sramLoRomDefault ∧
      hiRom.params.sramHiRom = Window.sramHiRomDefault) ∧
    (State.reset.params.mapMode = .loRom ∧ 0x8000 ≤ 0xFFFF ∧ 0x7FFF = 0 * 0x8000 + 0xFFFF % 0x8000) ∧
    (State.reset.params.mapMode = .loRom ∧
      ¬(0 < State.reset.params.sramSize ∧ 0x70 ≤ 0x6F % 0x80 ∧ 0x6F % 0x80 ≤ 0x7D)) ∧
    (hiRom.params.mapMode = .hiRom ∧ 0x8000 ≤ 0x8000) ∧
    (hiRom.params.mapMode = .hiRom ∧ ¬(0x7D = 0x7E ∨ 0x7D = 0x7F)) := by decide

/-- The clause of SaveRamAccess over any geometry, at the start of a window that is not the default, and in a
ROM bank. -/
theorem witness_SaveRamAccess_windows :
    (0 < otherHiRom.params.sramSize ∧ otherHiRom.params.geometryWf = true ∧
      ∃ w ∈ otherHiRom.params.sramWindows, w.holds 0x38 0x6000 = true) ∧
    (0 < State.reset.params.sramSize ∧ ¬(0xFD = 0x7E ∨ 0xFD = 0x7F) ∧
      State.reset.params.geometryWf = true ∧
      ∃ w ∈ State.reset.params.sramWindows, w.holds 0xFD 0xFFFF = true) := by decide

/-- The two clauses of SaveRamAccess over the default geometry, each at the ends of its window. -/
theorem witness_SaveRamAccess :
    (State.reset.params.mapMode = .loRom ∧ 0 < State.reset.params.sramSize ∧ 0x70 ≤ 0x70 % 0x80 ∧
      0xFD % 0x80 ≤ 0x7D) ∧
    (hiRom.params.mapMode = .hiRom ∧ 0 < hiRom.params.sramSize ∧ 0x30 ≤ 0x30 % 0x80 ∧ 0xBF % 0x80 ≤ 0x3F ∧
      0x6000 ≤ 0x6000 ∧ 0x7FFF ≤ 0x7FFF) := by decide

/-- The clauses of UnroutedAccess, each range at its ends. -/
theorem witness_UnroutedAccess :
    (0x00 ≤ 0x3F ∧ 0x2000 ≤ 0x2000 ∧ 0x20FF ≤ 0x20FF ∧ 0x2184 ≤ 0x2184 ∧ 0x3FFF ≤ 0x3FFF ∧
      0x4400 ≤ 0x4400 ∧ 0x5FFF ≤ 0x5FFF) ∧
    (0x6000 ≤ 0x6000 ∧ 0x6000 ≤ 0x7FFF ∧ State.reset.params.mapMode = .loRom) ∧
    (State.reset.params.mapMode ≠ .exHiRom ∧
      ∀ w ∈ State.reset.params.sramWindows, w.holds 0x3F 0x7FFF = false) ∧
    (0x7FFF ≤ 0x7FFF ∧ hiRom.params.mapMode = .hiRom ∧ 0x2F % 0x80 < 0x30) ∧
    (otherHiRom.params.mapMode = .hiRom ∧ 0x80 < 0xC0 ∧ 0x8000 ≤ 0x8000 ∧
      (∀ w ∈ otherHiRom.params.hiRomMirrors, w.holds 0x80 0x8000 = false) ∧
      (∀ w ∈ otherHiRom.params.hiRomMirrors, w.holds 0x40 0xFFFF = false) ∧
      ∀ w ∈ otherHiRom.params.sramWindows, w.holds 0x40 0xFFFF = false) ∧
    (exHiRom.params.mapMode = .exHiRom ∧ 0x6000 ≤ 0x6000) ∧ (0x7D ≠ 0x7E ∧ 0x7D ≠ 0x7F) := by decide

theorem witness_InternalRegisterAccess :
    wRegTable[0]? = some .nmitimen ∧ wRegTable[13]? = some .memsel ∧ rRegTable[0]? = some .rdnmi ∧
    rRegTable[15]? = some .joy4h ∧ (0x420E ≤ 0x420E ∧ 0x420F ≤ 0x420F) ∧
    (0x4220 ≤ 0x4220 ∧ 0x42FF ≤ 0x42FF) := by decide

/-- The five windows of FacadeAccess at their ends, and offsets that are valid and that are not. -/
theorem witness_FacadeAccess :
    (0x2100 ≤ 0x2100 ∧ 0x213F ≤ 0x213F) ∧ (0x2140 ≤ 0x2140 ∧ 0x217F ≤ 0x217F) ∧
    (0x2180 ≤ 0x2180 ∧ 0x2183 ≤ 0x2183) ∧ (0x4000 ≤ 0x4000 ∧ 0x41FF ≤ 0x41FF) ∧
    (0x4300 ≤ 0x4300 ∧ 0x43FF ≤ 0x43FF) ∧
    BitVec.ofNat 16 0x2100 ∉ State.reset.params.facadeInvalid ∧
    BitVec.ofNat 16 0x2100 ∈ { Params.standard with facadeInvalid := [0x2100] }.facadeInvalid := by decide

theorem witness_AccessRange :
    0xFF < 0x100 ∧ (0xFF ≤ 0xFF ∧ 0xFFFF < 0x10000) ∧ ∃ e, read8 0x002000 State.reset = .error e :=
  ⟨by decide, by decide, _, rfl⟩

theorem witness_StackIdentity :
    let s : State := { narrow [] with sp := 0x0100 }
    s.StoresWf ∧ s.I1 ∧ isRam s.params (mkAddr 0 s.sp) = true ∧ isRam s.params (s.pushSlot 0) = true ∧
    isRam s.params (s.pushSlot 1) = true := by decide

theorem witness_StackIdentity_native :
    let s : State := { wide [] with sp := 0x0000 + 0x1FFF }
    s.StoresWf ∧ s.I1 ∧ isRam s.params (s.pushSlot 0) = true ∧ isRam s.params (s.pushSlot 1) = true := by
  decide

/-- The three clauses of IndirectAddresses, the pointer at the end of low RAM. -/
theorem witness_IndirectAddresses :
    let s := wide [(0x1FFD, 0x11), (0x1FFE, 0x22), (0x1FFF, 0x33)]
    (peek s (mkAddr 0 (BitVec.ofNat 16 (0x1FFD + 0))) = some 0x11 ∧
      peek s (mkAddr 0 (BitVec.ofNat 16 (0x1FFD + 1))) = some 0x22 ∧
      peek s (mkAddr 0 (BitVec.ofNat 16 (0x1FFD + 2))) = some 0x33) ∧
    (0x1FFD : Word) = BitVec.ofNat 16 ({ s with d := 0x1FED }.d.toNat + (0x10 : Byte).toNat) ∧
    (0x1FFD : Word) = BitVec.ofNat 16 ({ s with d := 0x1FEB }.d.toNat + (0x10 : Byte).toNat + s.x.toNat) ∧
    (0x1FFD : Word) = BitVec.ofNat 16 (s.sp.toNat + (0x0D : Byte).toNat) := by decide

theorem witness_DataBytes :
    let s := wide [(0x1FFFF, 0x12), (0x0, 0x34), (0xFF, 0x56)]
    peek s (byteAddr .l24 0x7FFFFF 0) = some 0x12 ∧ peek s (byteAddr .l24 0x7FFFFF 1) = some 0x34 ∧
    peek s (byteAddr .bank 0x0000FF 0) = some 0x56 := by decide

theorem witness_DecodeEncode :
    (Instr.ldaImm (.word 0xFFFF)).wellFormed false true = true ∧
    (Instr.ldaImm (.byte 0xFF)).wellFormed true true = true ∧
    (Instr.cpxImm (.word 0x8000)).wellFormed true false = true ∧ (Instr.nop).wellFormed true true = true := by
  decide

theorem witness_EncodeDecode :
    operandCount true true 0xEA ≤ ([] : List Byte).length ∧
    operandCount true true 0xFF ≤ ([0x01, 0x02, 0x03] : List Byte).length ∧
    operandCount false true 0xA9 ≤ ([0x01, 0x02] : List Byte).length := by decide

/-- The bytes of STA a at the end of the first bank, in RAM. -/
theorem witness_StepRunsInstruction :
    let s : State := { narrow [] with
      pbr := 0x7E, pc := 0xFFFF, wram := bytesAt [(0xFFFF, 0x8D), (0x0000, 0x34), (0x0001, 0x12)] }
    s.Quiet ∧ s.Holds (.staAbs 0x1234) ∧
    (Instr.staAbs 0x1234).wellFormed (s.flag .m) (s.flag .x) = true ∧
    (Instr.staAbs 0x1234).opcode ∉ s.params.unimplemented := by
  refine ⟨⟨rfl, rfl, rfl, .inl rfl⟩, fun k b h => ?_, by decide, by decide⟩
  match k, h with
  | 0, h => cases h; decide
  | 1, h => cases h; decide
  | 2, h => cases h; decide
  | k + 3, h => cases h

theorem witness_UnimplementedOpcode :
    let s : State := { narrow [] with params := { (narrow []).params with unimplemented := [0xEA] } }
    s.Quiet ∧ peek s (mkAddr s.pbr s.pc) = some 0xEA ∧ (0xEA : Byte) ∈ s.params.unimplemented := by
  refine ⟨⟨rfl, rfl, rfl, .inl rfl⟩, by decide, by decide⟩

theorem canPush_narrow : (narrow []).CanPush 3 := by unfold State.CanPush; decide
theorem canPush_wide : (wide []).CanPush 4 := by unfold State.CanPush; decide

theorem witness_NmiEntry :
    let s : State := { wide [] with nmiPending := true, run := .waiting }
    s.ModeInv ∧ s.StoresWf ∧ (s.run = .running ∨ s.run = .waiting) ∧ s.inputs = [] ∧ s.nmiPending = true ∧
    s.CanPush (if s.e then 3 else 4) :=
  ⟨by decide, by decide, .inr rfl, rfl, rfl, canPush_wide⟩

theorem witness_NmiEntry_emulation :
    let s : State := { narrow [] with nmiPending := true }
    s.ModeInv ∧ s.StoresWf ∧ (s.run = .running ∨ s.run = .waiting) ∧ s.inputs = [] ∧ s.nmiPending = true ∧
    s.CanPush (if s.e then 3 else 4) :=
  ⟨by decide, by decide, .inl rfl, rfl, rfl, canPush_narrow⟩

theorem witness_IrqEntry :
    let s : State := { wide [] with irqLine := true }
    s.inputs = [] ∧ s.nmiPending = false ∧ s.irqLine = true ∧ s.ModeInv ∧ s.StoresWf ∧
    (s.run = .running ∨ s.run = .waiting) ∧ s.flag .i = false ∧ s.CanPush (if s.e then 3 else 4) :=
  ⟨rfl, rfl, rfl, by decide, by decide, .inl rfl, rfl, canPush_wide⟩

theorem witness_IrqEntry_masked :
    let s : State := { State.reset with irqLine := true }
    s.inputs = [] ∧ s.nmiPending = false ∧ s.irqLine = true ∧ s.run = .running ∧ s.flag .i = true := by
  decide

/-- The six clauses of RunStates. -/
theorem witness_RunStates :
    let f : Fault := .romWrite 0 0x8000 State.reset.remains 0x008000
    let b : Boundary := { accesses := [.read 0 0], nmiEdge := true, irqLine := false, reset := false }
    let c : Boundary := { b with accesses := [.write 0 0 1, .read 0x100 0] }
    (State.reset.faultedWith f).run = .faulted f ∧
    ((∀ g, State.reset.run ≠ .faulted g) ∧ { State.reset with inputs := [b] }.inputs = b :: [] ∧
      (∃ t, serveAll b.accesses State.reset = .ok t) ∧ b.reset = false ∧
      { State.reset with inputs := [c] }.inputs = c :: [] ∧
      ∃ e, serveAll c.accesses State.reset = .error e) ∧
    ((∃ v t, accessRead 0 0 State.reset = .ok (v, t)) ∧ (∃ e, accessRead 0x100 0 State.reset = .error e) ∧
      (∃ t, accessWrite 0 0 1 State.reset = .ok t) ∧ ∃ e, accessWrite 0 0x8000 1 State.reset = .error e) ∧
    (State.reset.inputs = [] ∧ { State.reset with run := .stopped }.run = .stopped) ∧
    ({ State.reset with run := .waiting }.run = .waiting ∧ State.reset.nmiPending = false ∧
      State.reset.irqLine = false) ∧
    ({ State.reset with irqLine := true }.irqLine = true ∧ State.reset.flag .i = true) ∧
    State.reset.run = .running := by
  intro f b c
  exact ⟨rfl, ⟨fun _ h => (nomatch h), rfl, ⟨_, rfl⟩, rfl, rfl, _, rfl⟩,
    ⟨⟨_, _, rfl⟩, ⟨_, rfl⟩, ⟨_, rfl⟩, _, rfl⟩, ⟨rfl, rfl⟩, ⟨rfl, rfl, rfl⟩, ⟨rfl, rfl⟩, rfl⟩

theorem witness_FlagFrame :
    ∃ t, (wide []).ModeInv ∧ exec .clc (wide []) = .next t ∧ Flag.v ∉ Instr.flagSet .clc :=
  ⟨_, by decide, rfl, by decide⟩

theorem witness_RegisterFrame :
    ∃ t, (narrow []).ModeInv ∧ exec (.ldaImm (.byte 0x56)) (narrow []) = .next t ∧
      Reg.x ∉ Instr.writes (.ldaImm (.byte 0x56)) ∧ (narrow []).flag .m = true ∧
      (Instr.ldaImm (.byte 0x56)).mnemonic ∉ [.xba, .tdc, .tsc, .mvn, .mvp] :=
  ⟨_, by decide, rfl, by decide, by decide, by decide⟩

theorem witness_ControlFrame :
    ∃ t, exec .tax (wide []) = .next t ∧ (Instr.tax).mnemonic ≠ .xce ∧
      (Instr.tax).mnemonic ∉ [.wai, .stp, .brk, .cop] := ⟨_, rfl, by decide, by decide⟩

theorem witness_MemoryFrame :
    ∃ t, exec (.cmpDp 0x10) (wide [(0x10, 0x34)]) = .next t ∧ Instr.stores (.cmpDp 0x10) = false :=
  ⟨_, rfl, by decide⟩

theorem witness_SequentialPc :
    ∃ t, exec (.staAbs 0x1234) { wide [] with pc := 0xFFFE } = .next t ∧
      Mnemonic.transfers (Instr.staAbs 0x1234).mnemonic = false := ⟨_, rfl, by decide⟩

theorem witness_StepCycles : ∃ t, exec (.adcAbsX 0x00FF) (wide [(0x0101, 0x01)]) = .next t := ⟨_, rfl⟩

theorem witness_LoadAccumulator :
    ∃ o u r v, (Instr.ldaDpIndY 0x10).mnemonic = .lda ∧
      resolve (Instr.ldaDpIndY 0x10).form ((wide [(0x11, 0x20)]).begin (.ldaDpIndY 0x10)) = .ok (o, u) ∧
      load o (wide [(0x11, 0x20)]).wM u = .ok (v, r) := ⟨_, _, _, _, rfl, rfl, rfl⟩

theorem witness_LoadIndex :
    ∃ o u r v o' u' r' v', (wide [(0x12, 0x99)]).ModeInv ∧
      resolve (Instr.ldxDpY 0x10).form ((wide [(0x12, 0x99)]).begin (.ldxDpY 0x10)) = .ok (o, u) ∧
      load o (wide [(0x12, 0x99)]).wX u = .ok (v, r) ∧ (Instr.ldxDpY 0x10).mnemonic = .ldx ∧
      resolve (Instr.ldyDpX 0x10).form ((wide [(0x12, 0x99)]).begin (.ldyDpX 0x10)) = .ok (o', u') ∧
      load o' (wide [(0x12, 0x99)]).wX u' = .ok (v', r') ∧ (Instr.ldyDpX 0x10).mnemonic = .ldy :=
  ⟨_, _, _, _, _, _, _, _, by decide, rfl, rfl, rfl, rfl, rfl, rfl⟩

/-- The four clauses of StoreRegister, STA at the last RAM byte and its wrap into low RAM. -/
theorem witness_StoreRegister :
    (wide []).StoresWf ∧ (Instr.staLong 0x7FFFFF).mnemonic = .sta ∧
    (∃ u, resolve (Instr.staLong 0x7FFFFF).form ((wide []).begin (.staLong 0x7FFFFF)) =
      .ok (.mem 0x7FFFFF .l24 false, u)) ∧
    (∀ k, k < 2 → writable (wide []).params (byteAddr .l24 0x7FFFFF k) = true) ∧
    (∀ k, k < 2 → isRam (wide []).params (byteAddr .l24 0x7FFFFF k) = true) ∧
    (Instr.stxDp 0xFF).mnemonic = .stx ∧ (Instr.styDp 0xFF).mnemonic = .sty ∧
    (Instr.stzDp 0xFF).mnemonic = .stz ∧
    (∃ u, resolve (Instr.stzDp 0xFF).form ((wide []).begin (.stzDp 0xFF)) =
      .ok (.mem 0x0000FF .bank false, u)) ∧
    ∀ k, k < 2 → writable (wide []).params (byteAddr .bank 0x0000FF k) = true :=
  ⟨by decide, rfl, ⟨_, rfl⟩, by decide, by decide, rfl, rfl, rfl, ⟨_, rfl⟩, by decide⟩

/-- The clause of StoreRegister where the second byte raises an error. -/
theorem witness_StoreRegister_fault :
    let s := midStoreFault
    s.StoresWf ∧ (Instr.staAbs 0x1FFF).mnemonic = .sta ∧ s.flag .m = false ∧
    ∃ u t e, resolve (Instr.staAbs 0x1FFF).form (s.begin (.staAbs 0x1FFF)) =
        .ok (.mem 0x001FFF .l24 false, u) ∧
      write8 (byteAddr .l24 0x001FFF 0) (loByte s.a) u = .ok t ∧
      write8 (byteAddr .l24 0x001FFF 1) (hiByte s.a) t = .error e :=
  ⟨by decide, rfl, rfl, _, _, _, rfl, rfl, rfl⟩

theorem witness_TransferRegister : (wide []).ModeInv ∧ (narrow []).ModeInv := by decide

theorem witness_AddBinary :
    ∃ o u r b, (Instr.adcDp 0x10).mnemonic = .adc ∧ (wide [(0x11, 0x80)]).flag .d = false ∧
      resolve (Instr.adcDp 0x10).form ((wide [(0x11, 0x80)]).begin (.adcDp 0x10)) = .ok (o, u) ∧
      load o (wide [(0x11, 0x80)]).wM u = .ok (b, r) := ⟨_, _, _, _, rfl, rfl, rfl, rfl⟩

theorem witness_AddDecimal :
    ∃ o u r b, (Instr.adcImm (.byte 0x99)).mnemonic = .adc ∧
      { narrow [] with p := 0x39 }.flag .d = true ∧
      resolve (Instr.adcImm (.byte 0x99)).form
        ({ narrow [] with p := 0x39 }.begin (.adcImm (.byte 0x99))) = .ok (o, u) ∧
      load o { narrow [] with p := 0x39 }.wM u = .ok (b, r) := ⟨_, _, _, _, rfl, rfl, rfl, rfl⟩

theorem witness_SubtractBinary :
    ∃ o u r b, (Instr.sbcDp 0x10).mnemonic = .sbc ∧ (wide [(0x11, 0x80)]).flag .d = false ∧
      resolve (Instr.sbcDp 0x10).form ((wide [(0x11, 0x80)]).begin (.sbcDp 0x10)) = .ok (o, u) ∧
      load o (wide [(0x11, 0x80)]).wM u = .ok (b, r) := ⟨_, _, _, _, rfl, rfl, rfl, rfl⟩

theorem witness_SubtractDecimal :
    ∃ o u r b, (Instr.sbcImm (.byte 0x99)).mnemonic = .sbc ∧
      { narrow [] with p := 0x38 }.flag .d = true ∧
      resolve (Instr.sbcImm (.byte 0x99)).form
        ({ narrow [] with p := 0x38 }.begin (.sbcImm (.byte 0x99))) = .ok (o, u) ∧
      load o { narrow [] with p := 0x38 }.wM u = .ok (b, r) := ⟨_, _, _, _, rfl, rfl, rfl, rfl⟩

theorem witness_DecimalIsBcd :
    (0x0099 : Word).toNat < 16 ^ (2 * Width.w8.bytes) ∧ isBcd (2 * Width.w8.bytes) (0x0099 : Word).toNat ∧
    (0x9999 : Word).toNat < 16 ^ (2 * Width.w16.bytes) ∧ isBcd (2 * Width.w16.bytes) (0x9999 : Word).toNat := by
  unfold isBcd; decide

/-- The three clauses of Compare. -/
theorem witness_Compare :
    (∃ o u r b, resolve (Instr.cmpDp 0x10).form ((wide []).begin (.cmpDp 0x10)) = .ok (o, u) ∧
      (Instr.cmpDp 0x10).mnemonic = .cmp ∧ load o (wide []).wM u = .ok (b, r)) ∧
    (∃ o u r b, resolve (Instr.cpxImm (.word 0x8000)).form ((wide []).begin (.cpxImm (.word 0x8000))) =
      .ok (o, u) ∧ (Instr.cpxImm (.word 0x8000)).mnemonic = .cpx ∧ load o (wide []).wX u = .ok (b, r)) ∧
    ∃ o u r b, resolve (Instr.cpyAbs 0x1FFE).form ((wide []).begin (.cpyAbs 0x1FFE)) = .ok (o, u) ∧
      (Instr.cpyAbs 0x1FFE).mnemonic = .cpy ∧ load o (wide []).wX u = .ok (b, r) :=
  ⟨⟨_, _, _, _, rfl, rfl, rfl⟩, ⟨_, _, _, _, rfl, rfl, rfl⟩, _, _, _, _, rfl, rfl, rfl⟩

theorem witness_ModifyAccumulator :
    (Instr.rorAcc).form = .acc ∧ rmwCarry false 0x0001 (Instr.rorAcc).mnemonic = some true ∧
    (Instr.incAcc).form = .acc := by decide

theorem witness_ModifyMemory :
    ∃ u r old, (wide []).StoresWf ∧
      (Instr.tsbDp 0xFF).mnemonic ∈ [.inc, .dec, .asl, .lsr, .rol, .ror, .tsb, .trb] ∧
      resolve (Instr.tsbDp 0xFF).form ((wide []).begin (.tsbDp 0xFF)) = .ok (.mem 0x0000FF .bank false, u) ∧
      readData (wide []).wM .bank 0x0000FF u = .ok (old, r) ∧
      (∀ k, k < (wide []).wM.bytes → writable (wide []).params (byteAddr .bank 0x0000FF k) = true) ∧
      (∀ k, k < 2 → isRam (wide []).params (byteAddr .bank 0x0000FF k) = true) :=
  ⟨_, _, _, by decide, by decide, rfl, rfl, by decide, by decide⟩

theorem witness_ModifyMemory_shift :
    ∃ u r old, (narrow []).StoresWf ∧
      (Instr.aslAbs 0x1FFF).mnemonic ∈ [.inc, .dec, .asl, .lsr, .rol, .ror, .tsb, .trb] ∧
      resolve (Instr.aslAbs 0x1FFF).form ((narrow []).begin (.aslAbs 0x1FFF)) =
        .ok (.mem 0x001FFF .l24 false, u) ∧
      readData (narrow []).wM .l24 0x001FFF u = .ok (old, r) ∧
      (∀ k, k < (narrow []).wM.bytes → writable (narrow []).params (byteAddr .l24 0x001FFF k) = true) ∧
      rmwCarry true 0x0080 (Instr.aslAbs 0x1FFF).mnemonic = some true :=
  ⟨_, _, _, by decide, by decide, rfl, rfl, by decide, by decide⟩

theorem witness_IndexStep : (wide []).ModeInv ∧ { narrow [] with x := 0x00FF }.ModeInv := by decide

/-- The three clauses of Logic. -/
theorem witness_Logic :
    ∃ o u r v, resolve (Instr.andDp 0x10).form ((wide []).begin (.andDp 0x10)) = .ok (o, u) ∧
      load o (wide []).wM u = .ok (v, r) ∧ (Instr.andDp 0x10).mnemonic = .and ∧
      (Instr.oraDp 0x10).mnemonic = .ora ∧ (Instr.eorDp 0x10).mnemonic = .eor :=
  ⟨_, _, _, _, rfl, rfl, rfl, rfl, rfl⟩

theorem witness_BitTest :
    ∃ o u r v o' u' r' v', (Instr.bitDp 0x10).mnemonic = .bit ∧
      resolve (Instr.bitDp 0x10).form ((wide []).begin (.bitDp 0x10)) = .ok (o, u) ∧
      load o (wide []).wM u = .ok (v, r) ∧ (Instr.bitImm (.word 0xC000)).mnemonic = .bit ∧
      resolve (Instr.bitImm (.word 0xC000)).form ((wide []).begin (.bitImm (.word 0xC000))) = .ok (o', u') ∧
      load o' (wide []).wM u' = .ok (v', r') := ⟨_, _, _, _, _, _, _, _, rfl, rfl, rfl, rfl, rfl, rfl⟩

/-- The pointer clauses of Jumps. -/
theorem witness_Jumps :
    (∃ p u, readWord .bank (mkAddr 0 0x1FFE) ((wide []).begin (.jmpAbsInd 0x1FFE)) = .ok (p, u)) ∧
    (∃ p u, readWord .bank (mkAddr (wide []).pbr (0x1000 + (wide []).x))
      ((wide []).begin (.jmpAbsIndX 0x1000)) = .ok (p, u)) ∧
    ∃ l u, readLong .bank (mkAddr 0 0x1FFD) ((wide []).begin (.jmlAbsIndLong 0x1FFD)) = .ok (l, u) :=
  ⟨⟨_, _, rfl⟩, ⟨_, _, rfl⟩, _, _, rfl⟩

/-- The three clauses of Calls. -/
theorem witness_Calls :
    (wide []).StoresWf ∧ (wide []).CanPush 2 ∧ (wide []).CanPush 3 ∧
    ∃ u p w, push16 ((wide []).pc + 2) ((wide []).begin (.jsrAbsIndX 0x1000)) = .ok u ∧
      readWord .bank (mkAddr (wide []).pbr (0x1000 + (wide []).x)) u = .ok (p, w) :=
  ⟨by decide, fun k h => canPush_wide k (by omega), fun k h => canPush_wide k (by omega), _, _, _, rfl, rfl⟩

theorem witness_Returns :
    (∃ v u, pull16 ((wide []).begin .rts) = .ok (v, u)) ∧
    ∃ v u b w, pull16 ((wide []).begin .rtl) = .ok (v, u) ∧ pull8 u = .ok (b, w) :=
  ⟨⟨_, _, rfl⟩, _, _, _, _, rfl, rfl⟩

theorem witness_Pushes :
    (wide []).StoresWf ∧ (wide []).CanPush (pushOrder 0x1234).length ∧ (narrow []).CanPush [(0x12 : Byte)].length ∧
    ∃ p u, readWord .bank (mkAddr 0 (BitVec.ofNat 16 ((wide []).d.toNat + (0xFF : Byte).toNat)))
      ((wide []).begin (.pei 0xFF)) = .ok (p, u) :=
  ⟨by decide, fun k h => canPush_wide k (Nat.lt_of_lt_of_le h (by decide)),
    fun k h => canPush_narrow k (Nat.lt_of_lt_of_le h (by decide)), _, _, rfl⟩

/-- The six clauses of Pulls, and the one-byte forms in emulation mode. -/
theorem witness_Pulls :
    (wide []).ModeInv ∧ (narrow []).ModeInv ∧
    (∃ v u, pullW (wide []).wM ((wide []).begin .pla) = .ok (v, u)) ∧
    (∃ v u, pullW (wide []).wX ((wide []).begin .plx) = .ok (v, u)) ∧
    (∃ v u, pullW (narrow []).wX ((narrow []).begin .ply) = .ok (v, u)) ∧
    (∃ b u, pull8 ((wide []).begin .plb) = .ok (b, u)) ∧
    (∃ v u, pull16 ((wide []).begin .pld) = .ok (v, u)) ∧
    ∃ b u, pull8 ((narrow []).begin .plp) = .ok (b, u) :=
  ⟨by decide, by decide, ⟨_, _, rfl⟩, ⟨_, _, rfl⟩, ⟨_, _, rfl⟩, ⟨_, _, rfl⟩, ⟨_, _, rfl⟩, _, _, rfl⟩

theorem witness_StatusInstructions : (wide []).ModeInv ∧ (narrow []).ModeInv := by decide

/-- The two clauses of ExchangeCarry. -/
theorem witness_ExchangeCarry :
    { wide [] with p := 0x01 }.ModeInv ∧ { wide [] with p := 0x01 }.flag .c = true ∧
    (narrow []).ModeInv ∧ (narrow []).flag .c = false := by decide

theorem witness_NoOperationWaitStop : (wide []).ModeInv ∧ (narrow []).ModeInv := by decide

theorem witness_SoftwareInterrupt :
    (wide []).ModeInv ∧ (wide []).StoresWf ∧ (wide []).CanPush (if (wide []).e then 3 else 4) ∧
    (narrow []).ModeInv ∧ (narrow []).StoresWf ∧ (narrow []).CanPush (if (narrow []).e then 3 else 4) :=
  ⟨by decide, by decide, canPush_wide, by decide, by decide, canPush_narrow⟩

theorem witness_ReturnFromInterrupt :
    (wide []).ModeInv ∧ (∀ k, k < 4 → readable (wide []).params ((wide []).pullSlot k) = true) ∧
    (narrow []).ModeInv ∧ (∀ k, k < 3 → readable (narrow []).params ((narrow []).pullSlot k) = true) ∧
    (∃ p, peek (wide []) ((wide []).pullSlot 0) = some p) ∧ (∃ l, peek (wide []) ((wide []).pullSlot 1) = some l) ∧
    (∃ h, peek (wide []) ((wide []).pullSlot 2) = some h) ∧ ∃ b, peek (wide []) ((wide []).pullSlot 3) = some b :=
  ⟨by decide, by decide, by decide, by decide, ⟨_, rfl⟩, ⟨_, rfl⟩, ⟨_, rfl⟩, _, rfl⟩

/-- The two clauses of BlockMove, at the end of a RAM bank. -/
theorem witness_BlockMove :
    let s : State := { wide [(0x10000, 0xAA)] with x := 0x0000, y := 0xFFFF, a := 0x0000 }
    s.ModeInv ∧ s.StoresWf ∧ writable s.params (mkAddr 0x7E s.y) = true ∧
    isRam s.params (mkAddr 0x7E s.y) = true ∧
    (∃ v u, read8 (mkAddr 0x7F s.x) (s.begin (.mvn 0x7E 0x7F)) = .ok (v, u)) ∧
    ∃ v u, read8 (mkAddr 0x7F s.x) (s.begin (.mvp 0x7E 0x7F)) = .ok (v, u) :=
  ⟨by decide, by decide, by decide, by decide, ⟨_, _, rfl⟩, _, _, rfl⟩

end Sys2Proof.Tests
end

