-- ==== Sys2Proof/Proofs/Scope.lean ====
section
/-! The statements of 00_scope.md: no step changes a parameter or takes an event back, and data is
little-endian. -/

namespace Sys2Proof.Machine

/-! ### What a step keeps -/

/-- What a step, or a part of one, from `s` can do: it goes on in a state that keeps what `Kept` names, or
it ends in a fault that carries what the mapper holds in such a state. -/
structure Steps (s : State) (o : Host.Outcome State Fault Refusal) : Prop where
  next : ∀ t, o = .next t → Kept s t
  fault : ∀ f, o = .fault f → ∃ t, Kept s t ∧ f.left = t.remains

variable {s t : State}

theorem Steps.ofKept (h : Kept s t) : Steps s (.next t) :=
  ⟨fun _ ht => by cases ht; exact h, fun _ hf => nomatch hf⟩

/-- An error that an operation raised, turned into a fault. -/
theorem Steps.ofRaise {α : Type} {x : Except Raise α} {st : α → State} {e : Raise} (h : Runs s x st)
    (he : x = .error e) (loc : Addr) : Steps s (.fault (e loc)) := by
  refine ⟨fun _ ht => (nomatch ht), fun f hf => ?_⟩
  cases hf
  obtain ⟨t, ht, hl⟩ := h.raises e he
  exact ⟨t, ht, hl loc⟩

theorem Steps.refused (r : Refusal) : Steps s (.refused r) :=
  ⟨fun _ ht => (nomatch ht), fun _ hf => nomatch hf⟩

theorem Steps.after {o : Host.Outcome State Fault Refusal} (h : Kept s t) (g : Steps t o) :
    Steps s o :=
  ⟨fun u hu => h.trans (g.next u hu), fun f hf => by
    obtain ⟨u, hu, hl⟩ := g.fault f hf; exact ⟨u, h.trans hu, hl⟩⟩

theorem exec_steps (i : Instr) (s : State) : Steps s (exec i s) := by
  refine ⟨fun t h => ?_, fun f h => exec_fault h⟩
  obtain ⟨u, hu, rfl⟩ := exec_next h
  have hb : Kept s (s.begin i) := .same rfl rfl
  exact (hb.trans ((handler_runs _ _ _).answers u hu)).trans (.normalize u)

theorem takeInterrupt_steps (k : IntKind) (s : State) : Steps s (takeInterrupt k s) := by
  unfold takeInterrupt
  extract_lets t
  have ht : Kept s t := .same rfl rfl
  clear_value t
  refine .after ht ?_
  split
  · next u hu => exact .ofKept (((enter_runs _ _ t).answers u hu).trans (.normalize u))
  · next e he => exact .ofRaise (enter_runs _ _ t) he _

theorem stepInstr_steps (s : State) : Steps s (stepInstr s) := by
  unfold stepInstr
  split
  · next e he => exact .ofRaise (fetchInstr_runs s) he _
  · next bs t ht =>
    refine .after ((fetchInstr_runs s).answers (bs, t) ht) ?_
    split
    · exact exec_steps _ t
    · exact .refused _

theorem stepRunning_steps (s : State) : Steps s (stepRunning s) := by
  unfold stepRunning
  split
  · exact takeInterrupt_steps .nmi s
  · split
    · exact takeInterrupt_steps .irq s
    · exact stepInstr_steps s

theorem stepRun_steps (h : ∀ g, s.run ≠ .faulted g) : Steps s (stepRun s) := by
  have idle : Steps s (stepIdle s) := .ofKept (.same rfl rfl)
  unfold stepRun
  split
  · next g hg => exact absurd hg (h g)
  · exact idle
  · split
    · exact .after (t := { s with run := .running }) (.same rfl rfl) (stepRunning_steps _)
    · exact idle
  · exact stepRunning_steps s

/-! ### The boundary does not fault a machine -/

theorem serve_bus {r : BusRequest} (h : serve r s = .ok t) : Bus s t := by
  cases r with
  | read b o =>
    rw [serve] at h
    cases hx : accessRead b o s with
    | error e => rw [hx] at h; cases h
    | ok p => rw [hx] at h; cases h; exact (accessRead_reads hx).bus
  | write b o v => exact accessWrite_bus h

theorem serveAll_bus {rs : List BusRequest} (h : serveAll rs s = .ok t) : Bus s t := by
  induction rs generalizing s with
  | nil => cases h; exact .refl _
  | cons r rest ih =>
    obtain ⟨u, hu, h⟩ := Except.bind_ok.1 h
    exact (serve_bus hu).trans (ih h)

theorem sampleLines_run (s : State) (b : Boundary) :
    (s.sampleLines b).run = s.run ∨ (s.sampleLines b).run = .running := by
  unfold State.sampleLines
  dsimp only
  split
  · exact .inr (State.resetSignal_run _)
  · exact .inl rfl

/-- The inputs of a boundary leave the run state, or start the machine by RESET. -/
theorem sampleInputs_run (h : sampleInputs s = .ok t) : t.run = s.run ∨ t.run = .running := by
  unfold sampleInputs at h
  split at h
  · cases h; exact .inl rfl
  · next b rest _ =>
    obtain ⟨u, hu, h⟩ := Except.bind_ok.1 h
    cases h
    obtain ⟨w, m, r, l, k, rfl⟩ := serveAll_bus hu
    exact sampleLines_run _ b

theorem sampleInputs_not_faulted (ht : sampleInputs s = .ok t) (h : ∀ g, s.run ≠ .faulted g) (g : Fault) :
    t.run ≠ .faulted g := by
  rcases sampleInputs_run ht with hr | hr
  · rw [hr]; exact h g
  · rw [hr]; exact nofun

theorem step_of_faulted {f : Fault} (h : s.run = .faulted f) : step s = .fault f := by
  rw [step, h]

/-- A step of a machine that is not faulted, as a whole: the boundary, then the step by its run state. -/
theorem step_steps (h : ∀ g, s.run ≠ .faulted g) : Steps s (step s) := by
  unfold step
  split
  · next g hg => exact absurd hg (h g)
  all_goals
    split
    · next e he => exact .ofRaise (sampleInputs_runs s) he _
    · next t ht =>
      exact .after ((sampleInputs_runs s).answers t ht) (stepRun_steps (sampleInputs_not_faulted ht h))

/-- Settles O6: a step of a machine that is not faulted keeps the parameters and only appends to the log,
in the state it goes on in and in what its fault leaves; a faulted machine has no next state. -/
theorem stepKeepsParameters : Obligations.StepKeepsParameters := by
  intro s
  refine ⟨fun t ht => ?_, fun hn f hf => ?_⟩
  · have hk : Kept s t := (step_steps fun g hg => by rw [step_of_faulted hg] at ht; cases ht).next t ht
    exact ⟨hk.params, hk.log⟩
  · obtain ⟨t, ht, hl⟩ := (step_steps hn).fault f hf
    rw [hl]
    exact ht.log

/-! ### Little-endian data (00_scope.md R12) -/

theorem byteAddr_l24 (ea : Addr) (k : Nat) : byteAddr .l24 ea k = BitVec.ofNat 24 (ea.toNat + k) := by
  rw [byteAddr, BitVec.ofNat_add, BitVec.ofNat_toNat, BitVec.setWidth_eq]

theorem bankOf_eq_ofNat (a : Addr) : bankOf a = BitVec.ofNat 8 (a.toNat / 0x10000) := by
  rw [← toNat_bankOf, BitVec.ofNat_toNat, BitVec.setWidth_eq]

theorem offsetOf_eq_ofNat (a : Addr) : offsetOf a = BitVec.ofNat 16 (a.toNat % 0x10000) := by
  rw [← toNat_offsetOf, BitVec.ofNat_toNat, BitVec.setWidth_eq]

theorem byteAddr_bank (ea : Addr) (k : Nat) :
    byteAddr .bank ea k =
      mkAddr (BitVec.ofNat 8 (ea.toNat / 0x10000)) (BitVec.ofNat 16 (ea.toNat % 0x10000 + k)) := by
  rw [byteAddr, BitVec.ofNat_add, bankOf_eq_ofNat, offsetOf_eq_ofNat]

theorem readData_w8_of_peek {c : Wrap} {ea : Addr} {l : Byte} (hl : peek s (byteAddr c ea 0) = some l) :
    readData .w8 c ea s = .ok (mkWord l 0, s) := by
  simp [readData, read8_of_peek hl]

/-- Settles O19: the two wrap classes by arithmetic on the address, and the bytes of a datum read in order
without a change of state. -/
theorem dataBytes : Obligations.DataBytes := by
  intro s ea l h
  refine ⟨fun k => ⟨byteAddr_l24 ea k, byteAddr_bank ea k⟩, fun c hl => ⟨readData_w8_of_peek hl,
    fun hh => ⟨readWord_of_peek hl hh, ?_⟩⟩⟩
  rw [toNat_mkWord]
  omega

end Sys2Proof.Machine
end

