-- ==== Sys2Proof/Proofs/State.lean ====
section
/-! The statements of 10_state.md: the mode invariants at every step boundary, the canonical form of the
stores, and what an instruction leaves of the registers and of the control state. -/

namespace Sys2Proof.Machine

variable {s t u : State}

/-! ### `Normalize`, and the invariants at a step boundary (10_state.md R42) -/

theorem normalize_flag_x (s : State) : s.normalize.flag .x = (s.e || s.flag .x) := by
  simp only [State.flag, normalize_p_eq]
  cases s.e <;> simp [getFlag, Flag.bit]

/-- `Normalize` writes `P`, `S`, `X` and `Y` only. -/
theorem normalize_eq (s : State) : s.normalize =
    { s with p := s.normalize.p, sp := s.normalize.sp, x := s.normalize.x, y := s.normalize.y } := by
  unfold State.normalize State.normalizeX State.normalizeE
  split <;> split <;> rfl

theorem resetSignal_modeInv (s : State) : s.resetSignal.ModeInv := by
  refine ⟨fun _ => ?_, fun _ => ⟨hiByte_and_low _, hiByte_and_low _⟩⟩
  simp [State.flag, getFlag_putFlag]

theorem Bus.modeInv (hb : Bus s t) (h : s.ModeInv) : t.ModeInv := by
  obtain ⟨_, _, _, _, _, rfl⟩ := hb
  exact h

theorem sampleLines_modeInv (b : Boundary) (h : s.ModeInv) : (s.sampleLines b).ModeInv := by
  unfold State.sampleLines
  dsimp only
  split
  · exact resetSignal_modeInv _
  · exact h

theorem sampleInputs_modeInv (ht : sampleInputs s = .ok t) (h : s.ModeInv) : t.ModeInv := by
  unfold sampleInputs at ht
  split at ht
  · cases ht; exact h
  · next b rest _ =>
    obtain ⟨u, hu, ht⟩ := Except.bind_ok.1 ht
    cases ht
    exact sampleLines_modeInv b ((serveAll_bus hu).modeInv h)

theorem exec_modeInv {i : Instr} (h : exec i s = .next t) : t.ModeInv := by
  obtain ⟨u, -, rfl⟩ := exec_next h
  exact normalize_modeInv u

theorem takeInterrupt_modeInv {k : IntKind} (h : takeInterrupt k s = .next t) : t.ModeInv := by
  unfold takeInterrupt at h
  dsimp only at h
  split at h
  · cases h; exact normalize_modeInv _
  · cases h

theorem stepInstr_modeInv (h : stepInstr s = .next t) : t.ModeInv := by
  unfold stepInstr at h
  split at h
  · cases h
  · split at h
    · exact exec_modeInv h
    · cases h

/-- A step that takes an interrupt or runs an instruction ends with `Normalize`, so it establishes the
invariants whatever it starts from. -/
theorem stepRunning_modeInv (h : stepRunning s = .next t) : t.ModeInv := by
  unfold stepRunning at h
  split at h
  · exact takeInterrupt_modeInv h
  · split at h
    · exact takeInterrupt_modeInv h
    · exact stepInstr_modeInv h

theorem stepIdle_modeInv (ht : stepIdle s = .next t) (h : s.ModeInv) : t.ModeInv := by
  cases ht
  exact h

theorem stepRun_modeInv (ht : stepRun s = .next t) (h : s.ModeInv) : t.ModeInv := by
  unfold stepRun at ht
  split at ht
  · cases ht
  · exact stepIdle_modeInv ht h
  · split at ht
    · exact stepRunning_modeInv ht
    · exact stepIdle_modeInv ht h
  · exact stepRunning_modeInv ht

theorem step_modeInv (ht : step s = .next t) (h : s.ModeInv) : t.ModeInv := by
  unfold step at ht
  split at ht
  · cases ht
  all_goals
    split at ht
    · cases ht
    · next u hu => exact stepRun_modeInv ht (sampleInputs_modeInv hu h)

/-- Settles O4: `Normalize` field by field, and the invariants through the boundary's inputs, the idle step
and the `Normalize` that ends every other step. -/
theorem stepKeepsModeInvariants : Obligations.StepKeepsModeInvariants := by
  refine ⟨fun s => ?_, fun s t h ht => step_modeInv ht h⟩
  rw [normalize_eq, normalize_p_eq, normalize_sp_eq, normalize_x_low, normalize_y_low, normalize_flag_x]
  rfl

/-! ### Canonical stores (10_state.md R45) -/

/-- A store that reads at the first index of another as that one does begins no later. -/
theorem Memory.le_head {size lo j k : Nat} {v : Byte} {m n : Memory}
    (hm : Memory.wfFrom size lo ((k, v) :: m) = true) (hn : Memory.wfFrom size j n = true)
    (h : Memory.read ((k, v) :: m) k = Memory.read n k) : j ≤ k := by
  obtain ⟨-, -, hv, -⟩ := Memory.wfFrom_cons.1 hm
  by_contra hlt
  rw [Memory.read, if_pos rfl, Memory.read_below hn (by omega)] at h
  exact hv h

/-- Canonical stores are determined by what they read as. -/
theorem Memory.ext_of_wfFrom {size lo : Nat} {m n : Memory} (hm : Memory.wfFrom size lo m = true)
    (hn : Memory.wfFrom size lo n = true) (h : ∀ i, i < size → Memory.read m i = Memory.read n i) :
    m = n := by
  induction m generalizing lo n with
  | nil =>
    cases n with
    | nil => rfl
    | cons c n =>
      obtain ⟨-, hk, -, -⟩ := Memory.wfFrom_cons.1 hn
      exact absurd (Memory.le_head (j := c.1 + 1) hn rfl (h c.1 hk).symm) (by omega)
  | cons c m ih =>
    obtain ⟨k, v⟩ := c
    obtain ⟨-, hk, hv, hm'⟩ := Memory.wfFrom_cons.1 hm
    cases n with
    | nil => exact absurd (Memory.le_head (j := k + 1) hm rfl (h k hk)) (by omega)
    | cons d n =>
      obtain ⟨j, u⟩ := d
      obtain ⟨-, hj, hu, hn'⟩ := Memory.wfFrom_cons.1 hn
      have hjk : j ≤ k := Memory.le_head hm (Memory.wfFrom_cons.2 ⟨le_rfl, hj, hu, hn'⟩) (h k hk)
      have hkj : k ≤ j := Memory.le_head hn (Memory.wfFrom_cons.2 ⟨le_rfl, hk, hv, hm'⟩) (h j hj).symm
      obtain rfl : k = j := le_antisymm hkj hjk
      have hvu : v = u := by simpa [Memory.read] using h k hk
      have htail : ∀ i, i < size → Memory.read m i = Memory.read n i := fun i hi => by
        by_cases hik : i = k
        · rw [hik, Memory.read_below hm' (by omega), Memory.read_below hn' (by omega)]
        · simpa [Memory.read, Ne.symm hik] using h i hi
      rw [hvu, ih hm' hn' htail]

/-- Settles O7, by the extensionality of the canonical form from index 0 on. -/
theorem canonicalStores : Obligations.CanonicalStores :=
  fun _ _ _ hm hn h => Memory.ext_of_wfFrom hm hn h

/-! ### The frame of the control state -/

/-- What an instruction that completes has done: its handler stayed within the bound of its row, and
`Normalize` followed. -/
theorem exec_effect {i : Instr} (h : exec i s = .next t) :
    ∃ u, Effect (scopeOf i.form i.mnemonic) (s.begin i) u ∧ t = u.normalize := by
  obtain ⟨u, hu, rfl⟩ := exec_next h
  exact ⟨u, handler_effect i hu, rfl⟩

/-- Settles O30: the bound of every row on the control state, which `Normalize` leaves alone. -/
theorem controlFrame : Obligations.ControlFrame := by
  intro i s t h
  obtain ⟨u, hu, rfl⟩ := exec_effect h
  obtain ⟨hparams, hinputs, hnmi, hirq⟩ := hu.outside
  simp only [State.normalize_e, State.normalize_run, State.normalize_nmiPending, State.normalize_irqLine,
    State.normalize_inputs, State.normalize_params, State.normalize_ioLog]
  refine ⟨fun hm => hu.e ?_, fun hm => hu.run ?_, hnmi, hirq, hinputs, hparams, hu.log⟩
  · simp [scopeOf, hm]
  · simpa [scopeOf, and_assoc] using hm

/-! ### The register frame: `Normalize` after an operation that leaves a register -/

/-- From a state with I1, `Normalize` leaves the stack pointer to an operation that wrote neither it nor `E`. -/
theorem normalize_sp_kept (hs : s.I1) (he : u.e = s.e) (h : u.sp = s.sp) : u.normalize.sp = s.sp := by
  rw [State.normalize_sp]
  split
  · next hu => rw [h, pageOne_of_hiByte (hs (he ▸ hu)).2.2]
  · exact h

/-- From a state with both invariants, an operation that leaves `E` and does not set `X` leaves `Normalize`
no index register to clear. -/
theorem normalize_index_kept (hs : s.ModeInv) (he : u.e = s.e)
    (hx : u.flag .x = true → s.flag .x = true) :
    (u.x = s.x → u.normalize.x = s.x) ∧ (u.y = s.y → u.normalize.y = s.y) := by
  have hflag : u.normalize.flag .x = true → s.flag .x = true := by
    rw [normalize_flag_x, Bool.or_eq_true, he]
    exact fun h => h.elim (fun h => (hs.1 h).2.1) hx
  rw [State.normalize_x, State.normalize_y]
  split
  · next h =>
    obtain ⟨hX, hY⟩ := hs.2 (hflag h)
    exact ⟨fun hu => by rw [hu, hiByte_eq_zero.1 hX], fun hu => by rw [hu, hiByte_eq_zero.1 hY]⟩
  · exact ⟨id, id⟩

/-- The rules that may set `P.X` name both index registers; REP, which names none, only clears flags. -/
theorem Mnemonic.writes_index_of_flag_x {onA imm : Bool} {m : Mnemonic} (hm : m ≠ .rep)
    (h : .x ∈ Mnemonic.flagSet imm m) : .x ∈ Mnemonic.writes onA m ∧ .y ∈ Mnemonic.writes onA m := by
  cases m
  case rep => exact absurd rfl hm
  case bit => cases imm <;> exact absurd h (by decide)
  case plp | rti | sep | xce => exact ⟨of_decide_eq_true rfl, of_decide_eq_true rfl⟩
  all_goals exact absurd h (of_decide_eq_true rfl)

theorem Mnemonic.ne_xce_of_writes {onA : Bool} {m : Mnemonic} {r : Reg} (hr : r ∉ Mnemonic.writes onA m)
    (h : r = .x ∨ r = .y ∨ r = .sp) : m ≠ .xce := by
  rintro rfl
  rcases h with rfl | rfl | rfl <;> exact hr (of_decide_eq_true rfl)

/-- A handler that does not write both index registers does not set `X`. -/
theorem handler_flag_x {i : Instr} (h : handler i.form s i.mnemonic = .ok t)
    (hr : .x ∉ Instr.writes i ∨ .y ∉ Instr.writes i) (ht : t.flag .x = true) : s.flag .x = true := by
  by_cases hm : i.mnemonic = .rep
  · rw [hm] at h
    cases h
    rw [State.flag, Machine.rep, getFlag_and, Bool.and_eq_true] at ht
    exact ht.1
  · have hx : .x ∉ (scopeOf i.form i.mnemonic).flags := fun hx => by
      obtain ⟨h1, h2⟩ := Mnemonic.writes_index_of_flag_x (onA := i.form == .acc) hm hx
      exact hr.elim (absurd h1) (absurd h2)
    rwa [State.flag, (handler_effect i h).flag .x hx] at ht

/-- A handler leaves `E` where it does not write every register that a change of the mode writes. -/
theorem handler_e {i : Instr} {r : Reg} (h : handler i.form s i.mnemonic = .ok t)
    (hr : r ∉ Instr.writes i) (hm : r = .x ∨ r = .y ∨ r = .sp) : t.e = s.e :=
  (handler_effect i h).e (beq_false_of_ne (Mnemonic.ne_xce_of_writes hr hm))

/-- The register frame: what an instruction's rule does not name is as before (10_state.md section 1). -/
theorem exec_reg {i : Instr} (hs : s.ModeInv) (h : exec i s = .next t) {r : Reg}
    (hr : r ∉ Instr.writes i) : t.reg r = s.reg r := by
  obtain ⟨u, hu, rfl⟩ := exec_next h
  have hb : (s.begin i).ModeInv := hs
  have hreg : u.reg r = (s.begin i).reg r := (handler_effect i hu).reg r hr
  cases r
  case a | d | pbr | dbr => simpa [State.reg] using hreg
  case sp => exact normalize_sp_kept (s := s.begin i) hb.1 (handler_e hu hr (by decide)) hreg
  case x =>
    exact (normalize_index_kept hb (handler_e hu hr (by decide)) (handler_flag_x hu (.inl hr))).1 hreg
  case y =>
    exact (normalize_index_kept hb (handler_e hu hr (by decide)) (handler_flag_x hu (.inr hr))).2 hreg

/-! ### The high byte of the accumulator (10_state.md R31) -/

/-- Writing the accumulator at its width, where `M = 1` and after a change that left `A` and `M`, keeps the
high byte. -/
theorem Effect.putA_hiByte {k : Scope} (h : Effect k s u) (ha : .a ∉ k.regs) (hf : .m ∉ k.flags)
    (hm : s.flag .m = true) (v : Word) : hiByte (u.putA u.wM v).a = hiByte s.a := by
  have hA : u.a = s.a := h.reg .a ha
  have hM : u.flag .m = true := (h.flag .m hf).trans hm
  rw [State.putA_a, State.wM, hM, mergeLow_widthOf, hA]
  exact hiByte_mkWord _ _

/-- The bound of an operation that writes memory and the stack pointer at most. -/
def busScope : Scope :=
  { regs := [.sp], flags := [], stores := true, transfers := false, mode := false, runs := false }

theorem combineA_hiByte {f : Form} {op : Width → Word → Word → Byte → Word × Byte}
    (h : combineA f op s = .ok t) (hm : s.flag .m = true) : hiByte t.a = hiByte s.a := by
  obtain ⟨⟨b, r⟩, h1, h⟩ := Except.bind_ok.1 h
  cases h
  exact (readOperand_effect (k := busScope) h1).putA_hiByte (by decide) (by decide) hm _

theorem modify_hiByte {f : Form} {op : Width → Word → Byte → Word × Byte}
    (h : modify f op s = .ok t) (hm : s.flag .m = true) : hiByte t.a = hiByte s.a := by
  obtain ⟨o, u, r, h1, h2, rfl⟩ := modify_ok h
  have hu : Effect busScope s u := .reads (resolve_reads h1)
  obtain ⟨ea, c, b, old, q, w, rfl, h3, h4, rfl⟩ | ⟨rfl, rfl⟩ | ⟨-, rfl⟩ := modifyAt_ok h2
  · have hw : Effect busScope s w :=
      (hu.trans (.reads (readData_reads h3))).trans (.stored (writeBack_stored h4) rfl)
    exact congrArg hiByte (hw.reg .a (by decide))
  · exact hu.putA_hiByte (by decide) (by decide) hm _
  · exact congrArg hiByte (hu.reg .a (by decide))

/-- Where `M = 1`, a handler that writes `A`, other than XBA, TDC, TSC and the block moves, writes its low
byte only. -/
theorem handler_hiByte_a {f : Form} {m : Mnemonic} (h : handler f s m = .ok t)
    (ha : .a ∈ Mnemonic.writes (f == .acc) m) (hn : m ∉ [.xba, .tdc, .tsc, .mvn, .mvp])
    (hm : s.flag .m = true) : hiByte t.a = hiByte s.a := by
  cases m
  case lda =>
    obtain ⟨⟨v, r⟩, h1, h⟩ := Except.bind_ok.1 h
    cases h
    exact (readOperand_effect (k := busScope) h1).putA_hiByte (by decide) (by decide) hm v
  case pla =>
    obtain ⟨⟨v, r⟩, h1, h⟩ := Except.bind_ok.1 h
    cases h
    exact (Effect.pulled (k := busScope) (pullW_pulled h1) (by decide)).putA_hiByte (by decide) (by decide) hm v
  case txa | tya =>
    cases h
    exact (Effect.refl busScope s).putA_hiByte (by decide) (by decide) hm _
  case adc =>
    obtain ⟨r, h1, h⟩ := Except.bind_ok.1 h
    cases h
    exact combineA_hiByte (t := r) h1 hm
  case sbc => exact combineA_hiByte h hm
  case and => exact combineA_hiByte (show andA f s = .ok t from h) hm
  case ora => exact combineA_hiByte (show oraA f s = .ok t from h) hm
  case eor => exact combineA_hiByte (show eorA f s = .ok t from h) hm
  case inc | dec | asl | lsr | rol | ror => exact modify_hiByte h hm
  case xba | tdc | tsc | mvn | mvp => exact absurd (by decide) hn
  all_goals exact absurd ha (of_decide_eq_true rfl)

/-- Settles O29: the frame of every register, and the high byte of `A` by whether the rule names `A`. -/
theorem registerFrame : Obligations.RegisterFrame := by
  refine fun i s t hs h => ⟨fun r hr => exec_reg hs h hr, fun hm hn => ?_⟩
  by_cases ha : .a ∈ Instr.writes i
  · obtain ⟨u, hu, rfl⟩ := exec_next h
    rw [State.normalize_a, handler_hiByte_a hu ha hn hm]
    rfl
  · exact congrArg hiByte (exec_reg hs h ha)

end Sys2Proof.Machine
end

