-- ==== Sys2Proof/Proofs/Memory.lean ====
section
/-! The statements of 20_memory.md. First where the region table sends an address, one lemma per region, and
which errors an access in range raises; from them, what an access answers at every place, and that an
instruction whose form stores nothing leaves memory alone. -/

namespace Sys2Proof.Machine

variable {p : Params} {s : State} {b o i : Nat} {v : Byte} {w : Window}

/-! ### An access and its route -/

theorem accessRead_of_route {r : Route} (hb : b ≤ 0xFF) (ho : o ≤ 0xFFFF)
    (h : route s.params b o = .ok r) : accessRead b o s = readRoute r b o s := by
  rw [accessRead, locate_ok.2 ⟨⟨hb, ho⟩, h⟩, Except.ok_bind]

theorem accessWrite_of_route {r : Route} (v : Byte) (hb : b ≤ 0xFF) (ho : o ≤ 0xFFFF)
    (h : route s.params b o = .ok r) : accessWrite b o v s = writeRoute r b o v s := by
  rw [accessWrite, locate_ok.2 ⟨⟨hb, ho⟩, h⟩, Except.ok_bind]

/-- Where no place is reached, both accesses raise the error of the search for it. -/
theorem access_of_locate_error {e : Raise} (v : Byte) (h : locate b o s = .error e) :
    accessRead b o s = .error e ∧ accessWrite b o v s = .error e := by
  rw [accessRead, accessWrite, h]
  exact ⟨rfl, rfl⟩

theorem access_of_route_error {e : Raising} (v : Byte) (hb : b ≤ 0xFF) (ho : o ≤ 0xFFFF)
    (h : route s.params b o = .error e) :
    accessRead b o s = .error (e s.remains) ∧ accessWrite b o v s = .error (e s.remains) :=
  access_of_locate_error v (by rw [locate_eq s hb ho, h])

/-! ### The bank classes (20_memory.md R77) -/

/-- The banks of class System. -/
abbrev SystemBank (b : Nat) : Prop := b ≤ 0x3F ∨ (0x80 ≤ b ∧ b ≤ 0xBF)

/-- The banks of class RAM. -/
abbrev RamBank (b : Nat) : Prop := b = 0x7E ∨ b = 0x7F

theorem route_of_system (p : Params) (o : Nat) (h : SystemBank b) : route p b o = routeSystem p b o := by
  rw [route, bankClass, if_pos (by simpa using h)]

theorem route_of_rom (p : Params) (o : Nat) (hs : ¬SystemBank b) (hr : ¬RamBank b) :
    route p b o = routeRom p b o := by
  rw [route, bankClass, if_neg (by simpa using hs), if_neg (by simpa using hr)]

theorem route_of_ram (p : Params) (o : Nat) (h : RamBank b) :
    route p b o = .ok (.wram ((b - 0x7E) * 0x10000 + o)) := by
  have hs : ¬SystemBank b := by omega
  rw [route, bankClass, if_neg (by simpa using hs), if_pos (by simpa using h)]

/-! ### The offsets of a system bank (20_memory.md R78) -/

theorem routeSystem_low (p : Params) (b : Nat) (h : o ≤ 0x1FFF) : routeSystem p b o = .ok (.wram o) := by
  rw [routeSystem, if_pos h]

/-- The façade windows of a system bank (20_memory.md R96). -/
abbrev FacadeWindow (dev : Device) (o : Nat) : Prop :=
  (dev = .ppu ∧ 0x2100 ≤ o ∧ o ≤ 0x213F) ∨
    (dev = .apu ∧ 0x2140 ≤ o ∧ o ≤ 0x217F) ∨
    (dev = .wramPort ∧ 0x2180 ≤ o ∧ o ≤ 0x2183) ∨
    (dev = .ctrl ∧ 0x4000 ≤ o ∧ o ≤ 0x41FF) ∨
    (dev = .dma ∧ 0x4300 ≤ o ∧ o ≤ 0x43FF)

theorem routeSystem_facade (p : Params) (b : Nat) {dev : Device} (h : FacadeWindow dev o) :
    routeSystem p b o = .ok (.facade dev) := by
  rcases h with ⟨rfl, h⟩ | ⟨rfl, h⟩ | ⟨rfl, h⟩ | ⟨rfl, h⟩ | ⟨rfl, h⟩ <;>
    simp (disch := omega) only [routeSystem, if_neg, if_pos]

theorem routeSystem_intReg (p : Params) (b : Nat) (h : 0x4200 ≤ o ∧ o ≤ 0x42FF) :
    routeSystem p b o = .ok .intReg := by
  simp (disch := omega) only [routeSystem, if_neg, if_pos]

theorem routeSystem_expansion (p : Params) (b : Nat) (h : 0x6000 ≤ o ∧ o ≤ 0x7FFF) :
    routeSystem p b o = routeExpansion p b o := by
  simp (disch := omega) only [routeSystem, if_neg, if_pos]

theorem routeSystem_upper (p : Params) (b : Nat) (h : 0x8000 ≤ o) :
    routeSystem p b o = routeUpperRom p b o := by
  simp (disch := omega) only [routeSystem, if_neg, if_pos]

/-- The offsets of a system bank below the expansion region that no region claims (20_memory.md R80). -/
theorem routeSystem_gap (p : Params) (b : Nat)
    (h : (0x2000 ≤ o ∧ o ≤ 0x20FF) ∨ (0x2184 ≤ o ∧ o ≤ 0x3FFF) ∨ (0x4400 ≤ o ∧ o ≤ 0x5FFF)) :
    routeSystem p b o = .error (Fault.unmappedRegion (BitVec.ofNat 8 b) (BitVec.ofNat 16 o)) := by
  simp (disch := omega) only [routeSystem, if_neg]

/-! ### The window that translates an address -/

theorem windowAt_eq_none {ws : List Window} : windowAt ws b o = none ↔ ∀ w ∈ ws, w.holds b o = false := by
  simp [windowAt, List.find?_eq_none]

theorem disjoint_of_append_left {vs ws : List Window} (h : disjoint (vs ++ ws) = true) :
    disjoint vs = true :=
  disjoint_iff.2 (List.pairwise_append.1 (disjoint_iff.1 h)).1

theorem disjoint_of_append_right {vs ws : List Window} (h : disjoint (vs ++ ws) = true) :
    disjoint ws = true :=
  disjoint_iff.2 (List.pairwise_append.1 (disjoint_iff.1 h)).2.1

theorem hiRomMirrors_disjoint (h : p.geometryWf = true) : disjoint p.hiRomMirrors = true :=
  disjoint_of_append_left (geometryWf_iff.1 h).2.2

theorem sramWindows_disjoint (h : p.geometryWf = true) : disjoint p.sramWindows = true := by
  obtain ⟨-, hlo, hhi⟩ := geometryWf_iff.1 h
  unfold Params.sramWindows
  split
  · exact hlo
  · exact disjoint_of_append_right hhi
  · rfl

/-- No save RAM answers at an address. -/
abbrev NoSaveRam (p : Params) (b o : Nat) : Prop :=
  p.sramSize = 0 ∨ ∀ w ∈ p.sramWindows, w.holds b o = false

theorem sramIndex_eq_none (h : NoSaveRam p b o) : sramIndex p b o = none := by
  rcases h with h | h
  · rw [sramIndex, if_neg (by omega)]
  · rw [sramIndex, windowAt_eq_none.2 h, Option.map_none, ite_self]

theorem sramIndex_of_mem (hz : 0 < p.sramSize) (hd : disjoint p.sramWindows = true)
    (hw : w ∈ p.sramWindows) (hh : w.holds b o = true) (hi : w.index b o = i) :
    sramIndex p b o = some i := by
  rw [sramIndex, if_pos hz, windowAt_of_mem hd hw hh, Option.map_some, hi]

theorem sramWindows_loRom (h : p.mapMode = .loRom) : p.sramWindows = p.sramLoRom := by
  rw [Params.sramWindows, h]

theorem sramWindows_hiRom (h : p.mapMode = .hiRom) : p.sramWindows = p.sramHiRom := by
  rw [Params.sramWindows, h]

/-- ExHiROM has no save-RAM window (20_memory.md R88). -/
theorem sramIndex_exHiRom (h : p.mapMode = .exHiRom) : sramIndex p b o = none :=
  sramIndex_eq_none (.inr (by simp [Params.sramWindows, h]))

theorem mapMode_of_sramIndex (h : sramIndex p b o = some i) : p.mapMode ≠ .exHiRom := fun hm => by
  rw [sramIndex_exHiRom hm] at h
  cases h

theorem romIndex_loRom (h : p.mapMode = .loRom) :
    romIndex p b o = some (b % 0x80 * 0x8000 + o % 0x8000) := by
  rw [romIndex, h]

theorem romIndex_primary (h : p.mapMode = .hiRom) (hb : 0xC0 ≤ b) :
    romIndex p b o = some ((b - 0xC0) * 0x10000 + o) := by
  rw [romIndex, h]
  exact if_pos hb

theorem romIndex_below (h : p.mapMode = .hiRom) (hb : b < 0xC0) :
    romIndex p b o = (windowAt p.hiRomMirrors b o).map fun w => w.index b o := by
  rw [romIndex, h]
  exact if_neg (by omega)

theorem romIndex_mirror (h : p.mapMode = .hiRom) (hb : b < 0xC0) (hd : disjoint p.hiRomMirrors = true)
    (hw : w ∈ p.hiRomMirrors) (hh : w.holds b o = true) (hi : w.index b o = i) :
    romIndex p b o = some i := by
  rw [romIndex_below h hb, windowAt_of_mem hd hw hh, Option.map_some, hi]

/-! ### The addresses of ROM and of save RAM -/

/-- The addresses that need the translation of ROM: the upper half of a system bank, and a ROM bank outside
the save-RAM window (20_memory.md R78, R82). -/
abbrev RomPlace (p : Params) (b o : Nat) : Prop :=
  if SystemBank b then 0x8000 ≤ o else ¬RamBank b ∧ NoSaveRam p b o

/-- The addresses where a save-RAM window can be (20_memory.md R76): the expansion region of a system bank,
and a ROM bank. -/
abbrev SramPlace (b o : Nat) : Prop :=
  if SystemBank b then 0x6000 ≤ o ∧ o ≤ 0x7FFF else ¬RamBank b

theorem route_romPlace (h : RomPlace p b o) : route p b o = routeUpperRom p b o := by
  unfold RomPlace at h
  split at h
  · next hs => rw [route_of_system p o hs, routeSystem_upper p b h]
  · next hs => rw [route_of_rom p o hs h.1, routeRom, sramIndex_eq_none h.2]

theorem routeUpperRom_supported (b o : Nat) (hm : p.mapMode ≠ .exHiRom) :
    routeUpperRom p b o = .ok (.rom (romIndex p b o)) := by
  unfold routeUpperRom
  split
  · contradiction
  all_goals rfl

theorem routeUpperRom_exHiRom (b o : Nat) (hm : p.mapMode = .exHiRom) :
    routeUpperRom p b o = .error (Fault.unsupportedMapping (BitVec.ofNat 8 b) (BitVec.ofNat 16 o)) := by
  rw [routeUpperRom, hm]

theorem routeExpansion_exHiRom (b o : Nat) (hm : p.mapMode = .exHiRom) :
    routeExpansion p b o = .error (Fault.unsupportedMapping (BitVec.ofNat 8 b) (BitVec.ofNat 16 o)) := by
  rw [routeExpansion, hm]

theorem routeExpansion_sramIndex (h : sramIndex p b o = some i) : routeExpansion p b o = .ok (.sram i) := by
  have hm := mapMode_of_sramIndex h
  unfold routeExpansion
  split
  · contradiction
  all_goals rw [h]

theorem routeExpansion_unmapped (hm : p.mapMode ≠ .exHiRom) (h : NoSaveRam p b o) :
    routeExpansion p b o = .error (Fault.unmappedRegion (BitVec.ofNat 8 b) (BitVec.ofNat 16 o)) := by
  unfold routeExpansion
  split
  · contradiction
  all_goals rw [sramIndex_eq_none h]

theorem route_sramPlace (h : SramPlace b o) (hi : sramIndex p b o = some i) :
    route p b o = .ok (.sram i) := by
  unfold SramPlace at h
  split at h
  · next hs => rw [route_of_system p o hs, routeSystem_expansion p b h, routeExpansion_sramIndex hi]
  · next hs => rw [route_of_rom p o hs h, routeRom, hi]

/-- ExHiROM supports no access that needs ROM or save RAM (20_memory.md R88). -/
theorem route_exHiRom (hm : p.mapMode = .exHiRom) (h : if SystemBank b then 0x6000 ≤ o else ¬RamBank b) :
    route p b o = .error (Fault.unsupportedMapping (BitVec.ofNat 8 b) (BitVec.ofNat 16 o)) := by
  split at h
  · next hs =>
    rw [route_of_system p o hs]
    by_cases ho : o ≤ 0x7FFF
    · rw [routeSystem_expansion p b ⟨h, ho⟩, routeExpansion_exHiRom b o hm]
    · rw [routeSystem_upper p b (by omega), routeUpperRom_exHiRom b o hm]
  · next hs => rw [route_of_rom p o hs h, routeRom, sramIndex_exHiRom hm, routeUpperRom_exHiRom b o hm]

/-! ### The registers of the internal block (20_memory.md R93) -/

theorem intRegAt_w {k : Nat} {r : WReg} (h : wRegTable[k]? = some r) :
    intRegAt (0x4200 + k) = some (.w r) ∧ k < 14 := by
  obtain ⟨hk, -⟩ := List.getElem?_eq_some_iff.1 h
  change k < 14 at hk
  refine ⟨?_, hk⟩
  rw [intRegAt, if_pos (by omega), Nat.add_sub_cancel_left, h, Option.map_some]

theorem intRegAt_r {k : Nat} {r : RReg} (h : rRegTable[k]? = some r) :
    intRegAt (0x4210 + k) = some (.r r) ∧ k < 16 := by
  obtain ⟨hk, -⟩ := List.getElem?_eq_some_iff.1 h
  change k < 16 at hk
  refine ⟨?_, hk⟩
  rw [intRegAt, if_neg (by omega), Nat.add_sub_cancel_left, h, Option.map_some]

theorem intRegAt_none (h : (0x420E ≤ o ∧ o ≤ 0x420F) ∨ (0x4220 ≤ o ∧ o ≤ 0x42FF)) :
    intRegAt o = none := by
  unfold intRegAt
  split
  · rw [List.getElem?_eq_none (show 14 ≤ o - 0x4200 by omega), Option.map_none]
  · rw [List.getElem?_eq_none (show 16 ≤ o - 0x4210 by omega), Option.map_none]

/-- Writing a cell is read back, and leaves every other cell alone. -/
theorem IntRegs.get_set (c : IntRegs) (q r : WReg) (v : Byte) :
    (c.set q v).get r = if r = q then v else c.get r := by
  cases q <;> cases r <;> rfl

/-! ### The errors of an access in range -/

theorem routeUpperRom_error {e : Raising} (h : routeUpperRom p b o = .error e) :
    e = Fault.unsupportedMapping (BitVec.ofNat 8 b) (BitVec.ofNat 16 o) := by
  unfold routeUpperRom at h
  split at h <;> cases h
  rfl

theorem routeExpansion_error {e : Raising} (h : routeExpansion p b o = .error e) :
    e = Fault.unsupportedMapping (BitVec.ofNat 8 b) (BitVec.ofNat 16 o) ∨
      e = Fault.unmappedRegion (BitVec.ofNat 8 b) (BitVec.ofNat 16 o) := by
  unfold routeExpansion at h
  split at h
  · cases h; exact .inl rfl
  all_goals
    split at h <;> cases h
    exact .inr rfl

/-- The errors of the region table (20_memory.md R80, R88). -/
theorem route_error {e : Raising} (h : route p b o = .error e) :
    e = Fault.unsupportedMapping (BitVec.ofNat 8 b) (BitVec.ofNat 16 o) ∨
      e = Fault.unmappedRegion (BitVec.ofNat 8 b) (BitVec.ofNat 16 o) := by
  unfold route at h
  split at h
  · unfold routeSystem at h
    repeat' split at h
    all_goals first
      | exact routeExpansion_error h
      | exact .inl (routeUpperRom_error h)
      | (cases h; exact .inr rfl)
      | cases h
  · unfold routeRom at h
    split at h
    · cases h
    · exact .inl (routeUpperRom_error h)
  · cases h

/-- An error that does not say that an argument is out of range (20_memory.md R74). -/
def InRange (e : Raise) : Prop :=
  ∀ place which b o r l, e place ≠ .addressRange which b o r l

theorem route_inRange {e : Raising} (h : route p b o = .error e) (r : Remains) : InRange (e r) := by
  rcases route_error h with rfl | rfl
  all_goals nofun

theorem readRoute_inRange {r : Route} {e : Raise} (h : readRoute r b o s = .error e) : InRange e := by
  unfold readRoute at h
  split at h
  · cases h
  · split at h <;> cases h; nofun
  · cases h; nofun
  · split at h <;> cases h; nofun
  · unfold readFacade at h
    split at h <;> cases h; nofun
  · unfold readIntReg at h
    split at h <;> cases h <;> nofun

theorem writeRoute_inRange {r : Route} {e : Raise} (h : writeRoute r b o v s = .error e) :
    InRange e := by
  unfold writeRoute at h
  split at h
  · cases h
  · split at h <;> cases h; nofun
  · cases h; nofun
  · unfold writeFacade at h
    split at h <;> cases h; nofun
  · unfold writeIntReg at h
    split at h <;> cases h <;> nofun

/-- A 24-bit address is in range, so what an access there raises is another error
(40_engine_addressing.md R178). -/
theorem locate_bind_inRange {α : Type} {f : Route → Except Raise α} {a : Addr} {e : Raise}
    (hf : ∀ r e, f r = .error e → InRange e)
    (h : (locate (bankOf a).toNat (offsetOf a).toNat s >>= f) = .error e) : InRange e := by
  rw [locate_addr] at h
  cases hr : route s.params (bankOf a).toNat (offsetOf a).toNat with
  | error e' =>
    rw [hr] at h
    cases h
    exact route_inRange hr _
  | ok r =>
    rw [hr, Except.ok_bind] at h
    exact hf r e h

theorem read8_inRange {a : Addr} {e : Raise} (h : read8 a s = .error e) : InRange e :=
  locate_bind_inRange (fun _ _ => readRoute_inRange) h

theorem write8_inRange {a : Addr} {e : Raise} (h : write8 a v s = .error e) : InRange e :=
  locate_bind_inRange (fun _ _ => writeRoute_inRange) h

/-! ### WRAM, and RAM as a whole (20_memory.md R79, R81, R100, R103) -/

/-- Settles O8: a byte of RAM is writable, `peek` sees it afterwards, and where `peek` sees a byte a read
answers it. -/
theorem writeThenRead : Obligations.WriteThenRead := by
  intro s a v hwf hram
  obtain ⟨t, ht⟩ := write8_of_writable v (writable_of_isRam hram)
  exact ⟨t, ht, read8_of_peek (write8_peek_ram ht hwf hram), fun b hb => write8_peek_ne ht hb⟩

/-- Settles O9, by the route of each region of WRAM. -/
theorem wramAccess : Obligations.WramAccess := by
  intro s b o v hb ho
  refine ⟨fun hs h => ?_, fun hr => ?_⟩
  · have hroute := (route_of_system s.params o hs).trans (routeSystem_low s.params b h)
    exact ⟨accessRead_of_route hb ho hroute, accessWrite_of_route v hb ho hroute⟩
  · have hroute := route_of_ram s.params o hr
    exact ⟨accessRead_of_route hb ho hroute, accessWrite_of_route v hb ho hroute⟩

/-! ### ROM (20_memory.md R83, R85 to R87) -/

theorem route_rom (h : RomPlace s.params b o) (hm : s.params.mapMode ≠ .exHiRom) :
    route s.params b o = .ok (.rom (romIndex s.params b o)) :=
  (route_romPlace h).trans (routeUpperRom_supported b o hm)

/-- A write to ROM is an error, whatever the address translates to. -/
theorem accessWrite_rom (v : Byte) (hb : b ≤ 0xFF) (ho : o ≤ 0xFFFF) (h : RomPlace s.params b o)
    (hm : s.params.mapMode ≠ .exHiRom) :
    accessWrite b o v s = .error (Fault.romWrite (BitVec.ofNat 8 b) (BitVec.ofNat 16 o) s.remains) :=
  accessWrite_of_route v hb ho (route_rom h hm)

theorem mapMode_of_romIndex (h : romIndex p b o = some i) : p.mapMode ≠ .exHiRom := fun hm => by
  rw [romIndex, hm] at h
  cases h

/-- What both accesses answer where an address translates to an index of ROM. -/
theorem access_rom (v : Byte) (hb : b ≤ 0xFF) (ho : o ≤ 0xFFFF) (h : RomPlace s.params b o)
    (hi : romIndex s.params b o = some i) :
    accessRead b o s =
      (if i < s.params.romSize then .ok (Memory.read s.params.rom i, s)
       else .error (Fault.romRange (BitVec.ofNat 8 b) (BitVec.ofNat 16 o) i s.remains)) ∧
    accessWrite b o v s =
      .error (Fault.romWrite (BitVec.ofNat 8 b) (BitVec.ofNat 16 o) s.remains) := by
  have hm := mapMode_of_romIndex hi
  refine ⟨?_, accessWrite_rom v hb ho h hm⟩
  rw [accessRead_of_route hb ho (route_rom h hm), hi]
  rfl

/-- The index of R87 in the default mirrors. -/
theorem romIndex_hiRomDefault (hm : p.mapMode = .hiRom)
    (hd : p.hiRomMirrors = Window.hiRomDefault) (hb : b ≤ 0xFF) (ho : o ≤ 0xFFFF) (hr : ¬RamBank b)
    (hs : SystemBank b → 0x8000 ≤ o) :
    romIndex p b o = some (if 0xC0 ≤ b then (b - 0xC0) * 0x10000 + o
      else if b ≤ 0x3F then b * 0x8000 + o % 0x8000
      else (b - 0x40) % 0x80 * 0x8000 + o % 0x8000) := by
  have hdis : disjoint p.hiRomMirrors = true := by rw [hd]; decide
  split
  · next h => exact romIndex_primary hm h
  · next h =>
    have hlt : b < 0xC0 := by omega
    split
    · exact romIndex_mirror (w := ⟨0x00, 0x3F, 0x8000, 0xFFFF, 0x00, 0, 0x8000⟩) hm hlt hdis
        (by simp [hd, Window.hiRomDefault]) (by simp [Window.holds]; omega) (by simp [Window.index]; omega)
    · by_cases hx : b ≤ 0x7D
      · exact romIndex_mirror (w := ⟨0x40, 0x7D, 0x0000, 0xFFFF, 0x40, 0, 0x8000⟩) hm hlt hdis
          (by simp [hd, Window.hiRomDefault]) (by simp [Window.holds]; omega) (by simp [Window.index])
      · exact romIndex_mirror (w := ⟨0x80, 0xBF, 0x8000, 0xFFFF, 0x40, 0, 0x8000⟩) hm hlt hdis
          (by simp [hd, Window.hiRomDefault]) (by simp [Window.holds]; omega) (by simp [Window.index])

/-- Outside the banks 0x70–0x7D and their copy, the default geometry of LoROM has no save RAM (20_memory.md
R89). -/
theorem noSaveRam_loRomDefault (hm : p.mapMode = .loRom)
    (hd : p.sramLoRom = Window.sramLoRomDefault)
    (h : ¬(0 < p.sramSize ∧ 0x70 ≤ b % 0x80 ∧ b % 0x80 ≤ 0x7D)) : NoSaveRam p b o := by
  by_cases hz : p.sramSize = 0
  · exact .inl hz
  · right
    rw [sramWindows_loRom hm, hd]
    simp [Window.sramLoRomDefault, Window.holds]
    omega

/-- Outside the system banks 0x30–0x3F and their copy, the default geometry of HiROM has no save RAM
(20_memory.md R90). -/
theorem noSaveRam_hiRomDefault (hm : p.mapMode = .hiRom)
    (hd : p.sramHiRom = Window.sramHiRomDefault)
    (h : ¬(0 < p.sramSize ∧ SystemBank b ∧ 0x30 ≤ b % 0x80)) : NoSaveRam p b o := by
  by_cases hz : p.sramSize = 0
  · exact .inl hz
  · right
    rw [sramWindows_hiRom hm, hd]
    simp [Window.sramHiRomDefault, Window.holds]
    omega

/-- Settles O10: each address is one of ROM, and its index is that of the mode: the formula of LoROM, the
primary region of HiROM, or the one mirror that holds the address. -/
theorem romAccess : Obligations.RomAccess := by
  intro s b o idx v hb ho
  refine ⟨fun hmir hlo hhi h => ?_, fun hp hm => accessWrite_rom v hb ho hp hm, fun hp h => ?_⟩
  · rcases h with ⟨hm, hp, rfl⟩ | ⟨hm, hp, rfl⟩
    all_goals obtain ⟨hs, hn⟩ := ite_prop_iff_and.1 hp
    · exact access_rom v hb ho
        (ite_prop_iff_and.2 ⟨hs, fun h => ⟨(hn h).1, noSaveRam_loRomDefault hm hlo (hn h).2⟩⟩)
        (romIndex_loRom hm)
    · have hr : ¬RamBank b := fun h => hn (by omega) h
      exact access_rom v hb ho
        (ite_prop_iff_and.2 ⟨hs, fun h => ⟨hr, noSaveRam_hiRomDefault hm hhi fun hw => h hw.2.1⟩⟩)
        (romIndex_hiRomDefault hm hmir hb ho hr hs)
  · refine access_rom v hb ho hp ?_
    obtain ⟨hm, rfl⟩ | ⟨hm, hc, rfl⟩ | ⟨hm, hc, hg, w, hw, hh, rfl⟩ := h
    · exact romIndex_loRom hm
    · exact romIndex_primary hm hc
    · exact romIndex_mirror hm hc (hiRomMirrors_disjoint hg) hw hh rfl

/-! ### Save RAM (20_memory.md R89 to R91) -/

/-- What both accesses answer where an address translates to an index of save RAM. -/
theorem access_sram (v : Byte) (hb : b ≤ 0xFF) (ho : o ≤ 0xFFFF) (h : SramPlace b o)
    (hi : sramIndex s.params b o = some i) :
    accessRead b o s =
      (if i < s.params.sramSize then .ok (Memory.read s.sram i, s)
       else .error (Fault.sramRange (BitVec.ofNat 8 b) (BitVec.ofNat 16 o) i s.remains)) ∧
    accessWrite b o v s =
      (if i < s.params.sramSize then .ok { s with sram := Memory.write s.sram i v }
       else .error (Fault.sramRange (BitVec.ofNat 8 b) (BitVec.ofNat 16 o) i s.remains)) :=
  ⟨accessRead_of_route hb ho (route_sramPlace h hi), accessWrite_of_route v hb ho (route_sramPlace h hi)⟩

/-- The index of R91 in the default windows of LoROM. -/
theorem sramIndex_loRomDefault (hz : 0 < p.sramSize) (hm : p.mapMode = .loRom)
    (hd : p.sramLoRom = Window.sramLoRomDefault) (hb : b ≤ 0xFF) (ho : o ≤ 0xFFFF)
    (h : 0x70 ≤ b % 0x80 ∧ b % 0x80 ≤ 0x7D) :
    sramIndex p b o = some ((b % 0x80 - 0x70) * 0x8000 + o % 0x8000) := by
  have hws : p.sramWindows = Window.sramLoRomDefault := by rw [sramWindows_loRom hm, hd]
  have hdis : disjoint p.sramWindows = true := by rw [hws]; decide
  by_cases hx : b ≤ 0x7D
  · exact sramIndex_of_mem (w := ⟨0x70, 0x7D, 0x0000, 0xFFFF, 0x70, 0, 0x8000⟩) hz hdis
      (by simp [hws, Window.sramLoRomDefault]) (by simp [Window.holds]; omega) (by simp [Window.index]; omega)
  · exact sramIndex_of_mem (w := ⟨0xF0, 0xFD, 0x0000, 0xFFFF, 0x70, 0, 0x8000⟩) hz hdis
      (by simp [hws, Window.sramLoRomDefault]) (by simp [Window.holds]; omega) (by simp [Window.index]; omega)

/-- The index of R91 in the default windows of HiROM. -/
theorem sramIndex_hiRomDefault (hz : 0 < p.sramSize) (hm : p.mapMode = .hiRom)
    (hd : p.sramHiRom = Window.sramHiRomDefault) (hb : b ≤ 0xFF)
    (h : 0x30 ≤ b % 0x80 ∧ b % 0x80 ≤ 0x3F) (ho : 0x6000 ≤ o ∧ o ≤ 0x7FFF) :
    sramIndex p b o = some ((b % 0x80 - 0x30) * 0x2000 + (o - 0x6000)) := by
  have hws : p.sramWindows = Window.sramHiRomDefault := by rw [sramWindows_hiRom hm, hd]
  have hdis : disjoint p.sramWindows = true := by rw [hws]; decide
  by_cases hx : b ≤ 0x3F
  · exact sramIndex_of_mem (w := ⟨0x30, 0x3F, 0x6000, 0x7FFF, 0x30, 0x6000, 0x2000⟩) hz hdis
      (by simp [hws, Window.sramHiRomDefault]) (by simp [Window.holds]; omega) (by simp [Window.index]; omega)
  · exact sramIndex_of_mem (w := ⟨0xB0, 0xBF, 0x6000, 0x7FFF, 0x30, 0x6000, 0x2000⟩) hz hdis
      (by simp [hws, Window.sramHiRomDefault]) (by simp [Window.holds]; omega) (by simp [Window.index]; omega)

/-- Settles O11: an address in a window is one where save RAM can be, and the window, the only one that holds
it, gives its index. -/
theorem saveRamAccess : Obligations.SaveRamAccess := by
  intro s b o idx v hb ho hz
  refine ⟨fun hlo hhi h => ?_, fun hg w hw hh hp hidx => ?_⟩
  · rcases h with ⟨hm, h1, h2, rfl⟩ | ⟨hm, h1, h2, h3, h4, hi⟩
    · have hs : ¬SystemBank b := by omega
      have hr : ¬RamBank b := by omega
      have hp : SramPlace b o := ite_prop_iff_and.2 ⟨fun h => absurd h hs, fun _ => hr⟩
      exact access_sram v hb ho hp (sramIndex_loRomDefault hz hm hlo hb ho ⟨h1, h2⟩)
    · have hs : SystemBank b := by omega
      have hp : SramPlace b o := ite_prop_iff_and.2 ⟨fun _ => ⟨h3, h4⟩, fun h => absurd hs h⟩
      have hidx := sramIndex_hiRomDefault hz hm hhi hb ⟨h1, h2⟩ ⟨h3, h4⟩
      rw [← hi] at hidx
      exact access_sram v hb ho hp hidx
  · exact access_sram v hb ho hp (sramIndex_of_mem hz (sramWindows_disjoint hg) hw hh hidx.symm)

/-! ### Places that no region claims, and ExHiROM (20_memory.md R80, R88) -/

/-- Where the expansion region of a system bank holds no save RAM, no region claims it. -/
theorem route_expansion_unmapped (hs : SystemBank b) (ho : 0x6000 ≤ o ∧ o ≤ 0x7FFF)
    (hm : p.mapMode ≠ .exHiRom) (h : NoSaveRam p b o) :
    route p b o = .error (Fault.unmappedRegion (BitVec.ofNat 8 b) (BitVec.ofNat 16 o)) := by
  rw [route_of_system p o hs, routeSystem_expansion p b ho, routeExpansion_unmapped hm h]

theorem route_gap (p : Params) (hs : SystemBank b)
    (h : (0x2000 ≤ o ∧ o ≤ 0x20FF) ∨ (0x2184 ≤ o ∧ o ≤ 0x3FFF) ∨ (0x4400 ≤ o ∧ o ≤ 0x5FFF)) :
    route p b o = .error (Fault.unmappedRegion (BitVec.ofNat 8 b) (BitVec.ofNat 16 o)) := by
  rw [route_of_system p o hs, routeSystem_gap p b h]

/-- Settles O12: the route of each gap, of the expansion region without save RAM and of ExHiROM is an error,
and a ROM address that no mirror holds has no index. -/
theorem unroutedAccess : Obligations.UnroutedAccess := by
  intro s b o v hb ho
  refine ⟨fun ⟨hs, h⟩ => access_of_route_error v hb ho ?_,
    fun hlo hhi hs h1 h2 h => access_of_route_error v hb ho ?_,
    fun hm hc hp hw => ?_, fun hm h => access_of_route_error v hb ho (route_exHiRom hm h)⟩
  · rcases h with h | h | h | ⟨h1, h2, hm, hn⟩
    · exact route_gap _ hs (.inl h)
    · exact route_gap _ hs (.inr (.inl h))
    · exact route_gap _ hs (.inr (.inr h))
    · exact route_expansion_unmapped hs ⟨h1, h2⟩ hm hn
  · rcases h with hm | ⟨hm, h⟩
    · exact route_expansion_unmapped hs ⟨h1, h2⟩ (by simp [hm])
        (noSaveRam_loRomDefault hm hlo (by omega))
    · exact route_expansion_unmapped hs ⟨h1, h2⟩ (by simp [hm])
        (noSaveRam_hiRomDefault hm hhi (by omega))
  · have hi : romIndex s.params b o = none := by
      rw [romIndex_below hm hc, windowAt_eq_none.2 hw, Option.map_none]
    rw [accessRead_of_route hb ho (route_rom hp (by simp [hm])), hi]
    rfl

/-! ### Register blocks (20_memory.md R93 to R97) -/

theorem accessRead_intReg (hs : SystemBank b) (ho : 0x4200 ≤ o ∧ o ≤ 0x42FF) :
    accessRead b o s = readIntReg b o s :=
  accessRead_of_route (by omega) (by omega)
    ((route_of_system s.params o hs).trans (routeSystem_intReg s.params b ho))

theorem accessWrite_intReg (v : Byte) (hs : SystemBank b) (ho : 0x4200 ≤ o ∧ o ≤ 0x42FF) :
    accessWrite b o v s = writeIntReg b o v s :=
  accessWrite_of_route v (by omega) (by omega)
    ((route_of_system s.params o hs).trans (routeSystem_intReg s.params b ho))

/-- Settles O13, by what `INTREG_TABLE` has at each offset. -/
theorem internalRegisterAccess : Obligations.InternalRegisterAccess := by
  intro s b k v hs
  refine ⟨fun r hr => ?_, fun r hr => ?_, fun o ho => ?_, fun c q r => IntRegs.get_set c q r v⟩
  · obtain ⟨hreg, hk⟩ := intRegAt_w hr
    rw [accessRead_intReg hs (by omega), accessWrite_intReg v hs (by omega), readIntReg, writeIntReg, hreg]
    exact ⟨rfl, rfl⟩
  · obtain ⟨hreg, hk⟩ := intRegAt_r hr
    rw [accessRead_intReg hs (by omega), accessWrite_intReg v hs (by omega), readIntReg, writeIntReg, hreg]
    exact ⟨rfl, rfl⟩
  · rw [accessRead_intReg hs (by omega), accessWrite_intReg v hs (by omega), readIntReg, writeIntReg,
      intRegAt_none ho]
    exact ⟨rfl, rfl⟩

/-- Settles O14: the façade of a window answers both accesses, by whether it rejects the offset. -/
theorem facadeAccess : Obligations.FacadeAccess := by
  intro s b o dev v hs h
  have hb : b ≤ 0xFF := by omega
  have ho : o ≤ 0xFFFF := by omega
  have hroute := (route_of_system s.params o hs).trans (routeSystem_facade s.params b h)
  rw [accessRead_of_route hb ho hroute, accessWrite_of_route v hb ho hroute, readRoute, writeRoute,
    readFacade, writeFacade]
  refine ⟨fun hv => ?_, fun hv => ?_⟩
  · rw [if_pos hv, if_pos hv]
    exact ⟨rfl, rfl⟩
  · rw [if_neg hv, if_neg hv]
    exact ⟨rfl, rfl⟩

/-! ### The range check (20_memory.md R74) -/

/-- Settles O15: the range check is the first part of both accesses, and the errors of the parts after it are
others. -/
theorem accessRange : Obligations.AccessRange := by
  refine ⟨fun s b o v => ⟨fun hb => ?_, fun hb ho => ?_⟩, fun s a v e place which b o r l h => ?_⟩
  · exact access_of_locate_error v (by rw [locate, rangeCheck, if_pos hb])
  · exact access_of_locate_error v (by rw [locate, rangeCheck, if_neg (by omega), if_pos ho])
  · exact h.elim (fun h => read8_inRange h _ _ _ _ _ _) (fun h => write8_inRange h _ _ _ _ _ _)

/-! ### The memory frame (20_memory.md R103, 41_load_store_transfer.md R200) -/

/-- Settles O31: the bound of a form that stores nothing keeps the stores and the cells, which `Normalize`
leaves alone. -/
theorem memoryFrame : Obligations.MemoryFrame := by
  intro i s t h hstores
  obtain ⟨u, hu, rfl⟩ := exec_effect h
  obtain ⟨hwram, hsram, hregs⟩ := hu.mem hstores
  refine ⟨fun a => peek_congr ?_ ?_ ?_ a, ?_⟩
  · rw [State.normalize_wram, hwram, State.begin_wram]
  · rw [State.normalize_sram, hsram, State.begin_sram]
  · rw [State.normalize_params, hu.outside.1, State.begin_params]
  · rw [State.normalize_intRegs, hregs, State.begin_intRegs]

end Sys2Proof.Machine
end

