-- ==== Sys2Proof/Proofs/Encoding.lean ====
section
/-! The statements of 30_encoding.md: what each row of the opcode table makes of the bytes after the opcode,
and the fetch of an opcode outside `IMPLEMENTED`. -/

namespace Sys2Proof

/-! ### The operand fields (30_encoding.md R121, R123) -/

theorem takeByte_of_length {bs : List Byte} (h : 1 ≤ bs.length) :
    ∃ v tail, takeByte bs = some (v, tail) ∧ v :: tail = bs := by
  match bs, h with
  | v :: tail, _ => exact ⟨v, tail, rfl, rfl⟩

theorem takeWord_of_length {bs : List Byte} (h : 2 ≤ bs.length) :
    ∃ v tail, takeWord bs = some (v, tail) ∧ loByte v :: hiByte v :: tail = bs := by
  match bs, h with
  | l :: h :: tail, _ => exact ⟨mkWord l h, tail, rfl, by simp⟩

theorem takeAddr_of_length {bs : List Byte} (h : 3 ≤ bs.length) :
    ∃ v tail, takeAddr bs = some (v, tail) ∧
      loByte (offsetOf v) :: hiByte (offsetOf v) :: bankOf v :: tail = bs := by
  match bs, h with
  | l :: h :: b :: tail, _ => exact ⟨mkAddr b (mkWord l h), tail, rfl, by simp⟩

/-- The two formats with a flag-sized immediate have the same operand field. -/
theorem operandBytes_immX (v : Imm) : (Form.immX v).operandBytes = (Form.immM v).operandBytes := by
  cases v <;> rfl

theorem takeImm_of_length {n : Bool} {bs : List Byte} (h : (if n then 1 else 2) ≤ bs.length) :
    ∃ v tail, takeImm n bs = some (v, tail) ∧ v.fits n = true ∧ (Form.immM v).operandBytes ++ tail = bs := by
  cases n with
  | true =>
    obtain ⟨v, tail, ht, rfl⟩ := takeByte_of_length h
    exact ⟨.byte v, tail, by simp [takeImm, ht], rfl, rfl⟩
  | false =>
    obtain ⟨v, tail, ht, rfl⟩ := takeWord_of_length h
    exact ⟨.word v, tail, by simp [takeImm, ht], rfl, rfl⟩

/-! ### The rows of the opcode table (30_encoding.md R122, R126) -/

/-- A row stands at its own opcode: each instruction it makes is encoded as that opcode and the operand
field the row reads, and is well formed where that field has the size of the flags. -/
def Shape.StandsAt (op : Byte) : Shape → Prop
  | .fixed i => encode i = [op] ∧ ∀ m x, i.wellFormed m x = true
  | .byte mk => (∀ v, encode (mk v) = [op, v]) ∧ ∀ v m x, (mk v).wellFormed m x = true
  | .word mk =>
    (∀ v, encode (mk v) = [op, loByte v, hiByte v]) ∧ ∀ v m x, (mk v).wellFormed m x = true
  | .long mk =>
    (∀ v, encode (mk v) = [op, loByte (offsetOf v), hiByte (offsetOf v), bankOf v]) ∧
      ∀ v m x, (mk v).wellFormed m x = true
  | .immM mk =>
    (∀ v, encode (mk v) = op :: (Form.immM v).operandBytes) ∧
      ∀ v m x, (mk v).wellFormed m x = v.fits m
  | .immX mk =>
    (∀ v, encode (mk v) = op :: (Form.immX v).operandBytes) ∧
      ∀ v m x, (mk v).wellFormed m x = v.fits x
  | .blk mk => (∀ dd ss, encode (mk dd ss) = [op, dd, ss]) ∧ ∀ dd ss m x, (mk dd ss).wellFormed m x = true

/-- A row reads an instruction from as many bytes as it asks for, and encoding it gives those bytes back. -/
theorem Shape.StandsAt.read {op : Byte} {r : Shape} (h : r.StandsAt op) (m x : Bool) {bs : List Byte}
    (hl : r.operandBytes m x ≤ bs.length) :
    ∃ i tail, r.read m x bs = some (i, tail) ∧ i.wellFormed m x = true ∧ encode i ++ tail = op :: bs ∧
      (encode i).length = 1 + r.operandBytes m x := by
  cases r with
  | fixed i =>
    obtain ⟨he, hw⟩ := h
    exact ⟨i, bs, rfl, hw m x, by rw [he]; rfl, by rw [he]; rfl⟩
  | byte mk =>
    obtain ⟨he, hw⟩ := h
    obtain ⟨v, tail, ht, rfl⟩ := takeByte_of_length hl
    exact ⟨mk v, tail, by simp [Shape.read, ht], hw v m x, by rw [he]; rfl, by rw [he]; rfl⟩
  | word mk =>
    obtain ⟨he, hw⟩ := h
    obtain ⟨v, tail, ht, rfl⟩ := takeWord_of_length hl
    exact ⟨mk v, tail, by simp [Shape.read, ht], hw v m x, by rw [he]; rfl, by rw [he]; rfl⟩
  | long mk =>
    obtain ⟨he, hw⟩ := h
    obtain ⟨v, tail, ht, rfl⟩ := takeAddr_of_length hl
    exact ⟨mk v, tail, by simp [Shape.read, ht], hw v m x, by rw [he]; rfl, by rw [he]; rfl⟩
  | immM mk =>
    obtain ⟨he, hw⟩ := h
    obtain ⟨v, tail, ht, hf, rfl⟩ := takeImm_of_length hl
    refine ⟨mk v, tail, by simp [Shape.read, ht], (hw v m x).trans hf, by rw [he]; rfl, ?_⟩
    rw [he, List.length_cons, (Laws.EncodedLength.imm_length m v hf).1, Nat.add_comm, Shape.operandBytes]
  | immX mk =>
    obtain ⟨he, hw⟩ := h
    obtain ⟨v, tail, ht, hf, rfl⟩ := takeImm_of_length hl
    refine ⟨mk v, tail, by simp [Shape.read, ht], (hw v m x).trans hf,
      by rw [he, operandBytes_immX]; rfl, ?_⟩
    rw [he, List.length_cons, (Laws.EncodedLength.imm_length x v hf).2, Nat.add_comm, Shape.operandBytes]
  | blk mk =>
    obtain ⟨he, hw⟩ := h
    match bs, hl with
    | dd :: ss :: tail, _ => exact ⟨mk dd ss, tail, rfl, hw dd ss m x, by rw [he]; rfl, by rw [he]; rfl⟩

/-- Each row of a part of the table stands at its own opcode, where the part begins at opcode `n`. -/
def StandFrom (n : Nat) (rs : List Shape) : Prop := ∀ p ∈ rs.zipIdx n, p.1.StandsAt (BitVec.ofNat 8 p.2)

theorem standFrom_append {n : Nat} {rs qs : List Shape} :
    StandFrom n (rs ++ qs) ↔ StandFrom n rs ∧ StandFrom (n + rs.length) qs := by
  rw [StandFrom, List.zipIdx_append, List.forall_mem_append]
  rfl

theorem standFrom_cons {n : Nat} {r : Shape} {rs : List Shape} :
    StandFrom n (r :: rs) ↔ r.StandsAt (BitVec.ofNat 8 n) ∧ StandFrom (n + 1) rs := by
  rw [StandFrom, List.zipIdx_cons, List.forall_mem_cons]
  rfl

theorem standFrom_nil (n : Nat) : StandFrom n [] := nofun

/-- Each of the 256 rows stands at its own opcode: the grid line by line, and each line row by row. -/
theorem opcodeTable_standFrom : StandFrom 0 opcodeTable := by
  simp only [opcodeTable, standFrom_append]
  and_intros <;>
    simp only [opcodeRow0, opcodeRow1, opcodeRow2, opcodeRow3, opcodeRow4, opcodeRow5, opcodeRow6,
      opcodeRow7, opcodeRow8, opcodeRow9, opcodeRowA, opcodeRowB, opcodeRowC, opcodeRowD, opcodeRowE,
      opcodeRowF, standFrom_cons, standFrom_nil, and_true,
      List.length_append, List.length_cons, List.length_nil, Nat.reduceAdd, Shape.StandsAt] <;>
    and_intros <;> intros <;> rfl

theorem opcodeTable_length : opcodeTable.length = 2 ^ 8 := by
  simp only [opcodeTable, List.length_append]
  rfl

/-- Every opcode byte has a row, which stands at it. -/
theorem shapeOf_standsAt (op : Byte) : ∃ r, shapeOf op = some r ∧ r.StandsAt op := by
  have hr := List.getElem?_eq_getElem (opcodeTable_length ▸ op.isLt)
  refine ⟨_, hr, ?_⟩
  have hat := opcodeTable_standFrom _ (List.mk_mem_zipIdx_iff_getElem?.2 hr)
  rwa [BitVec.ofNat_toNat, BitVec.setWidth_eq] at hat

theorem decode_of_read {m x : Bool} {op : Byte} {bs : List Byte} {r : Shape} {p : Instr × List Byte}
    (hr : shapeOf op = some r) (h : r.read m x bs = some p) : decode m x (op :: bs) = .ok p := by
  simp only [decode, hr, h]

theorem operandCount_of_shapeOf {op : Byte} {r : Shape} (m x : Bool) (hr : shapeOf op = some r) :
    operandCount m x op = r.operandBytes m x := by
  rw [operandCount, hr]

/-- Settles O21: the opcode's row stands at it and reads the operand bytes it asks for. -/
theorem encodeDecode : Obligations.EncodeDecode := by
  intro m x op rest hl
  obtain ⟨r, hr, hat⟩ := shapeOf_standsAt op
  rw [operandCount_of_shapeOf m x hr] at hl ⊢
  obtain ⟨i, tail, hread, hw, he, hlen⟩ := hat.read m x hl
  exact ⟨i, tail, decode_of_read hr hread, (List.cons.inj he).1, hw, he, hlen⟩

end Sys2Proof

namespace Sys2Proof.Machine

/-! ### The step where no interrupt is due (40_engine_addressing.md R150, R152) -/

variable {s : State} {op : Byte}

theorem sampleInputs_of_nil (h : s.inputs = []) : sampleInputs s = .ok s := by
  rw [sampleInputs, h]

/-- A quiet boundary leads straight to an instruction. -/
theorem step_of_quiet (h : s.Quiet) : step s = stepInstr s := by
  obtain ⟨hrun, hin, hnmi, hirq⟩ := h
  have hmasked : (s.irqLine && !s.flag .i) = false := by rcases hirq with h | h <;> simp [h]
  have hrunning : stepRunning s = stepInstr s := by simp [stepRunning, hnmi, hmasked]
  simp only [step, hrun, sampleInputs_of_nil hin, stepRun, hrunning]

theorem fetchByte_zero_of_peek (h : peek s s.codeAddr = some op) : fetchByte 0 s = .ok (op, s) := by
  rw [fetchByte, BitVec.add_zero]
  exact read8_of_peek h

theorem fetchInstr_of_unimplemented (h : peek s s.codeAddr = some op) (hu : op ∈ s.params.unimplemented) :
    fetchInstr s = .error (Fault.unimplementedOpcode op s.pbr s.pc s.remains) := by
  rw [fetchInstr, fetchByte_zero_of_peek h, Except.ok_bind]
  exact if_pos hu

/-- Settles O24: the fetch raises the error, and `stepInstr` gives it the address of the opcode byte. -/
theorem unimplementedOpcode : Obligations.UnimplementedOpcode := by
  intro s op hq hp hu
  rw [step_of_quiet hq, stepInstr, fetchInstr_of_unimplemented hp hu]
  rfl

end Sys2Proof.Machine
end

