-- ==== Sys2Proof/Proofs/Engine.lean ====
section
/-! The statements of 40_engine_addressing.md: the stores along every step, the step that runs the
instruction at `PBR:PC`, the flags and the program counter an instruction leaves, and the effective address
of every format that names data. -/

namespace Sys2Proof

/-! ### The row of an instruction (30_encoding.md R126) -/

/-- A row of the opcode table makes an instruction of some operand field. -/
inductive Shape.Makes : Shape → Instr → Prop
  | fixed (i : Instr) : Makes (.fixed i) i
  | byte (mk : Byte → Instr) (v : Byte) : Makes (.byte mk) (mk v)
  | word (mk : Word → Instr) (v : Word) : Makes (.word mk) (mk v)
  | long (mk : Addr → Instr) (v : Addr) : Makes (.long mk) (mk v)
  | immM (mk : Imm → Instr) (v : Imm) : Makes (.immM mk) (mk v)
  | immX (mk : Imm → Instr) (v : Imm) : Makes (.immX mk) (mk v)
  | blk (mk : Byte → Byte → Instr) (dd ss : Byte) : Makes (.blk mk) (mk dd ss)

/-- Every instruction is made by the row of its opcode. -/
theorem shapeOf_opcode_makes (i : Instr) : ∃ r, shapeOf i.opcode = some r ∧ r.Makes i := by
  cases i <;> exact ⟨_, rfl, by constructor⟩

theorem takeImm_operandBytes {n : Bool} {v : Imm} (h : v.fits n = true) (rest : List Byte) :
    takeImm n ((Form.immM v).operandBytes ++ rest) = some (v, rest) := by
  cases v <;> cases n
  case byte.true => rfl
  case word.false => simp [takeImm, takeWord, Form.operandBytes]
  all_goals cases h

/-- A row that stands at an opcode encodes what it makes as that opcode and an operand field of the size it
asks for, and reads the instruction back from that field. -/
theorem Shape.Makes.encode_eq {op : Byte} {r : Shape} {i : Instr} {m x : Bool} (h : r.Makes i)
    (hat : r.StandsAt op) (hw : i.wellFormed m x = true) :
    ∃ bs, encode i = op :: bs ∧ bs.length = r.operandBytes m x ∧
      ∀ rest, r.read m x (bs ++ rest) = some (i, rest) := by
  cases h with
  | fixed => exact ⟨[], hat.1, rfl, fun _ => rfl⟩
  | byte mk v => exact ⟨_, hat.1 v, rfl, fun _ => rfl⟩
  | word mk v => exact ⟨_, hat.1 v, rfl, fun _ => by simp [Shape.read, takeWord]⟩
  | long mk v => exact ⟨_, hat.1 v, rfl, fun _ => by simp [Shape.read, takeAddr]⟩
  | immM mk v =>
    have hf : v.fits m = true := (hat.2 v m x).symm.trans hw
    exact ⟨_, hat.1 v, (Laws.EncodedLength.imm_length m v hf).1, fun rest => by
      rw [Shape.read, takeImm_operandBytes hf, Option.map_some]⟩
  | immX mk v =>
    have hf : v.fits x = true := (hat.2 v m x).symm.trans hw
    exact ⟨_, hat.1 v, (Laws.EncodedLength.imm_length x v hf).2, fun rest => by
      rw [Shape.read, operandBytes_immX, takeImm_operandBytes hf, Option.map_some]⟩
  | blk mk dd ss => exact ⟨_, hat.1 dd ss, rfl, fun _ => rfl⟩

/-- The row of a well-formed instruction asks for its operand bytes and reads it back from them. -/
theorem shapeOf_opcode_reads {i : Instr} {m x : Bool} (hw : i.wellFormed m x = true) :
    ∃ r, shapeOf i.opcode = some r ∧ i.form.operandBytes.length = r.operandBytes m x ∧
      ∀ rest, r.read m x (i.form.operandBytes ++ rest) = some (i, rest) := by
  obtain ⟨r, hr, hmakes⟩ := shapeOf_opcode_makes i
  obtain ⟨q, hq, hat⟩ := shapeOf_standsAt i.opcode
  obtain rfl : r = q := Option.some.inj (hr.symm.trans hq)
  obtain ⟨bs, he, hlen, hread⟩ := hmakes.encode_eq hat hw
  obtain rfl : i.form.operandBytes = bs := (List.cons.inj he).2
  exact ⟨r, hr, hlen, hread⟩

/-- The length rule of 30_encoding.md R125 gives a well-formed instruction its own operand bytes. -/
theorem operandCount_opcode {i : Instr} {m x : Bool} (hw : i.wellFormed m x = true) :
    operandCount m x i.opcode = i.form.operandBytes.length := by
  obtain ⟨r, hr, hlen, -⟩ := shapeOf_opcode_reads hw
  rw [operandCount_of_shapeOf m x hr, hlen]

/-- Decoding what was encoded gives the instruction back (30_encoding.md R120 to R126). -/
theorem decode_encode {i : Instr} {m x : Bool} (hw : i.wellFormed m x = true) (rest : List Byte) :
    decode m x (encode i ++ rest) = .ok (i, rest) := by
  obtain ⟨r, hr, -, hread⟩ := shapeOf_opcode_reads hw
  exact decode_of_read hr (hread rest)

theorem encode_length (i : Instr) : (encode i).length = i.form.length := Nat.add_comm _ _

end Sys2Proof

namespace Sys2Proof.Machine

variable {s t : State} {i : Instr}

/-! ### The stores along a step (10_state.md R45, 40_engine_addressing.md R155) -/

/-- The fault state has the stores that the error left and the session's parameters, so what the step kept
up to its error carries the form of the stores to it. -/
theorem Kept.faultedWith_storesWf {f : Fault} (h : Kept s t) (hl : f.left = t.remains)
    (w : s.StoresWf) : (s.faultedWith f).StoresWf := by
  have ht := h.wf w
  rw [State.StoresWf, h.params] at ht
  rw [State.StoresWf, State.faultedWith_wram, State.faultedWith_sram, State.faultedWith_params, hl]
  exact ht

/-- Settles O5: a step of a machine that is not faulted keeps the form of the stores, in the state it goes on
in and in what its fault leaves; a faulted machine has no next state. -/
theorem stepKeepsStores : Obligations.StepKeepsStores := by
  refine fun s w => ⟨fun t ht => ?_, fun hn f hf => ?_⟩
  · have hn : ∀ g, s.run ≠ .faulted g := fun g hg => by rw [step_of_faulted hg] at ht; cases ht
    exact ((step_steps hn).next t ht).wf w
  · obtain ⟨t, ht, hl⟩ := (step_steps hn).fault f hf
    exact ht.faultedWith_storesWf hl w

/-! ### The flags an instruction leaves (40_engine_addressing.md R153) -/

/-- `Normalize` sets the width flags in emulation mode and leaves them in native mode. -/
theorem normalize_flag_width (s : State) {f : Flag} (hf : f = .m ∨ f = .x) :
    s.normalize.flag f = (s.e || s.flag f) := by
  simp only [State.flag, normalize_p_eq]
  rcases hf with rfl | rfl <;> cases s.e <;> simp [getFlag, Flag.bit]

theorem ne_xce_of_not_mem_flagSet {f : Flag} (hf : f = .m ∨ f = .x) (h : f ∉ Instr.flagSet i) :
    i.mnemonic ≠ .xce := fun hm => by
  rw [Instr.flagSet, hm] at h
  rcases hf with rfl | rfl <;> exact h (of_decide_eq_true rfl)

/-- Settles O28: a handler keeps the flags outside its row's set; `Normalize` writes `M` and `X` only, and in
emulation mode, where it sets them, I1 has them set before an instruction that keeps `E`. -/
theorem flagFrame : Obligations.FlagFrame := by
  intro i s t hs h f hf
  obtain ⟨u, hu, rfl⟩ := exec_effect h
  have hkept : u.flag f = s.flag f := hu.flag f hf
  by_cases hwidth : f = .m ∨ f = .x
  · have he : u.e = s.e := hu.e (beq_false_of_ne (ne_xce_of_not_mem_flagSet hwidth hf))
    have hset : s.e = true → s.flag f = true := fun hmode => by
      obtain ⟨hm, hx, -⟩ := hs.1 hmode
      rcases hwidth with rfl | rfl <;> assumption
    rw [normalize_flag_width u hwidth, he, hkept]
    exact Bool.or_eq_right_iff_imp.2 hset
  · obtain ⟨hm, hx⟩ := not_or.1 hwidth
    rw [normalize_flag u hm hx, hkept]

/-! ### The program counter after an instruction (40_engine_addressing.md R154) -/

theorem zextByte_injective {a b : Byte} (h : zextByte a = zextByte b) : a = b := by
  simpa [zextByte] using congrArg (BitVec.setWidth 8) h

/-- The rules that write the program bank are transfers. -/
theorem Mnemonic.transfers_of_writes_pbr {onA : Bool} {m : Mnemonic}
    (h : .pbr ∈ Mnemonic.writes onA m) : Mnemonic.transfers m = true := by
  cases m
  case jml | jsl | rtl | brk | cop | rti => rfl
  case inc | dec | asl | lsr | rol | ror => cases onA <;> exact absurd h (by decide)
  all_goals exact absurd h (of_decide_eq_true rfl)

/-- Settles O32: the bound of a row that is no transfer keeps the `PC` that the operand fetch left and the
program bank. -/
theorem sequentialPc : Obligations.SequentialPc := by
  intro i s t h htransfers
  obtain ⟨u, hu, rfl⟩ := exec_effect h
  have hpbr : .pbr ∉ Instr.writes i := fun hw =>
    Bool.eq_false_iff.1 htransfers (Mnemonic.transfers_of_writes_pbr hw)
  rw [State.normalize_pc, State.normalize_pbr, hu.pc htransfers, State.begin_pc, encode_length]
  exact ⟨rfl, zextByte_injective (hu.reg .pbr hpbr)⟩

/-! ### Effective addresses (40_engine_addressing.md R160 to R169) -/

theorem zextByte_eq_mkWord (d : Byte) : zextByte d = mkWord d 0 := by
  apply BitVec.eq_of_toNat_eq
  simp [zextByte]
  omega

theorem directAddr_eq (s : State) (d : Byte) :
    directAddr s d = mkAddr 0 (BitVec.ofNat 16 (s.d.toNat + d.toNat)) :=
  congrArg (mkAddr 0) (BitVec.eq_of_toNat_eq (by simp [zextByte]))

theorem directIndexed_eq (s : State) (d : Byte) (i : Word) :
    directIndexed s d i = mkAddr 0 (BitVec.ofNat 16 (s.d.toNat + d.toNat + i.toNat)) :=
  congrArg (mkAddr 0) (BitVec.eq_of_toNat_eq (by simp [zextByte]))

theorem stackAddr_eq (s : State) (d : Byte) :
    stackAddr s d = mkAddr 0 (BitVec.ofNat 16 (s.sp.toNat + d.toNat)) :=
  congrArg (mkAddr 0) (BitVec.eq_of_toNat_eq (by simp [zextByte]))

theorem indexed_eq (a : Addr) (i : Word) : indexed a i = BitVec.ofNat 24 (a.toNat + i.toNat) := by
  apply BitVec.eq_of_toNat_eq
  simp [indexed]

/-- The high half of a word, in place. -/
theorem and_high (v : Word) : v &&& 0xFF00 = mkWord 0 (hiByte v) := by
  apply word_ext
  · rw [loByte_mkWord]
    ext i hi
    simp only [loByte, ← BitVec.getLsbD_eq_getElem]
    interval_cases i <;> simp
  · rw [hiByte_mkWord]
    ext i hi
    simp only [hiByte, ← BitVec.getLsbD_eq_getElem]
    interval_cases i <;> simp

/-- Two offsets lie in one page where their high bytes agree. -/
theorem and_high_eq_iff {v w : Word} : v &&& 0xFF00 = w &&& 0xFF00 ↔ v.toNat / 0x100 = w.toNat / 0x100 := by
  rw [and_high, and_high, ← toNat_hiByte, ← toNat_hiByte]
  refine ⟨fun h => ?_, fun h => by rw [BitVec.eq_of_toNat_eq h]⟩
  rw [← hiByte_mkWord 0 (hiByte v), h, hiByte_mkWord]

theorem otherPage_add (a i : Word) :
    otherPage a (a + i) = decide (a.toNat / 0x100 ≠ (a.toNat + i.toNat) % 0x10000 / 0x100) := by
  rw [Bool.eq_iff_iff, otherPage, bne_iff_ne, decide_eq_true_iff, ← BitVec.toNat_add, Ne, and_high_eq_iff]

/-- Settles O17, by the arithmetic of each address. -/
theorem directAddresses : Obligations.DirectAddresses := by
  intro s d a l bank0 long other
  have hbyte : Operand.imm (zextByte d) = .imm (mkWord d 0) := congrArg _ (zextByte_eq_mkWord d)
  have habs : ∀ i, indexed (mkAddr s.dbr a) i = long (s.dbr.toNat * 0x10000 + a.toNat + i.toNat) :=
    fun i => by rw [indexed_eq, toNat_mkAddr]
  refine ⟨?_, rfl, ?_, rfl, ?_, rfl, rfl, ?_, ?_, ?_, ?_, rfl, ?_, ?_, rfl, ?_⟩
  · rw [resolve, hbyte]
  · rw [resolve, immValue, hbyte]
  · rw [resolve, immValue, hbyte]
  · rw [resolve, directAddr_eq]
  · rw [resolve, directIndexed_eq]
  · rw [resolve, directIndexed_eq]
  · rw [resolve, stackAddr_eq]
  · rw [resolve, habs, otherPage_add]
  · rw [resolve, habs, otherPage_add]
  · rw [resolve, indexed_eq]

/-! ### Pointers (40_engine_addressing.md R165, R166, R169) -/

/-- The bytes of a pointer stand at consecutive offsets of bank 0, wrapping within it. -/
theorem byteAddr_bank0 (base : Word) (k : Nat) :
    byteAddr .bank (mkAddr 0 base) k = mkAddr 0 (BitVec.ofNat 16 (base.toNat + k)) := by
  rw [byteAddr, bankOf_mkAddr, offsetOf_mkAddr, BitVec.ofNat_add, BitVec.ofNat_toNat, BitVec.setWidth_eq]

/-- Settles O18: the pointer that `peek` sees is read without effect, and the address follows from it. -/
theorem indirectAddresses : Obligations.IndirectAddresses := by
  intro s d l h b base at0 ptr plusY other h0 h1
  have hword : readWord .bank (mkAddr 0 base) s = .ok (mkWord l h, s) :=
    readWord_of_peek (by rwa [byteAddr_bank0]) (by rwa [byteAddr_bank0])
  have hlong (h2 : at0 2 = some b) :
      readLong .bank (mkAddr 0 base) s = .ok (mkAddr b (mkWord l h), s) :=
    readLong_of_peek (by rwa [byteAddr_bank0]) (by rwa [byteAddr_bank0]) (by rwa [byteAddr_bank0])
  refine ⟨fun hbase => ⟨?_, ?_, fun h2 => ⟨?_, ?_⟩⟩, fun hbase => ?_, fun hbase => ?_⟩
  · rw [resolve, directAddr_eq, ← hbase, hword]
    rfl
  · rw [resolve, directAddr_eq, ← hbase, hword, Except.ok_bind]
    dsimp only
    rw [indexed_eq, otherPage_add]
    rfl
  · rw [resolve, directAddr_eq, ← hbase, hlong h2]
    rfl
  · rw [resolve, directAddr_eq, ← hbase, hlong h2, Except.ok_bind]
    dsimp only
    rw [indexed_eq]
    rfl
  · rw [resolve, directIndexed_eq, ← hbase, hword]
    rfl
  · rw [resolve, stackAddr_eq, ← hbase, hword, Except.ok_bind]
    dsimp only
    rw [indexed_eq]
    rfl

/-! ### The step that runs an instruction (40_engine_addressing.md R150, R151) -/

/-- Bytes of the instruction stream that `peek` sees are fetched without effect. -/
theorem fetchBytes_of_peek {bs : List Byte} {k : Nat}
    (h : ∀ j b, bs[j]? = some b → peek s (mkAddr s.pbr (s.pc + BitVec.ofNat 16 (k + j))) = some b) :
    fetchBytes k bs.length s = .ok (bs, s) := by
  induction bs generalizing k with
  | nil => rfl
  | cons b bs ih =>
    have hhead : fetchByte k s = .ok (b, s) := read8_of_peek (h 0 b rfl)
    have htail : fetchBytes (k + 1) bs.length s = .ok (bs, s) :=
      ih fun j c hc => by rw [Nat.add_assoc, Nat.add_comm 1 j]; exact h (j + 1) c hc
    rw [List.length_cons, fetchBytes, hhead, Except.ok_bind]
    dsimp only
    rw [htail]
    rfl

/-- The fetch reads the bytes of a well-formed implemented instruction that stands at `PBR:PC`, as many as its
encoding has, and nothing changes. -/
theorem fetchInstr_of_holds (h : s.Holds i) (hw : i.wellFormed (s.flag .m) (s.flag .x) = true)
    (hi : i.opcode ∉ s.params.unimplemented) : fetchInstr s = .ok (encode i, s) := by
  have hop : fetchByte 0 s = .ok (i.opcode, s) := read8_of_peek (h 0 i.opcode rfl)
  have hoperand : fetchBytes 1 i.form.operandBytes.length s = .ok (i.form.operandBytes, s) :=
    fetchBytes_of_peek fun j b hb => by rw [Nat.add_comm]; exact h (j + 1) b hb
  rw [fetchInstr, hop, Except.ok_bind]
  dsimp only
  rw [if_neg hi, operandCount_opcode hw, hoperand]
  rfl

/-- Settles O23: a quiet boundary leads to the fetch, the fetch gives the instruction's encoding, and decoding
that gives the instruction. -/
theorem stepRunsInstruction : Obligations.StepRunsInstruction := by
  intro s i hq hheld hw hi
  have hdecode : decode (s.flag .m) (s.flag .x) (encode i) = .ok (i, []) := by
    simpa using decode_encode hw []
  rw [step_of_quiet hq, stepInstr, fetchInstr_of_holds hheld hw hi]
  dsimp only
  rw [hdecode]

end Sys2Proof.Machine
end

