-- ==== Sys2Proof/Proofs/Transfer.lean ====
section
/-! The statements of 41_load_store_transfer.md: what the loads, the stores and the register transfers leave.
Each handler's result is said in the statements' own terms before `Normalize`, and `Normalize` keeps it. -/

namespace Sys2Proof.Machine

variable {s t u r : State} {i : Instr}

/-! ### The end of an instruction -/

/-- A handler that raises ends the instruction in that error, at the opcode's address. -/
theorem exec_of_handler_error {e : Raise} (h : handler i.form (s.begin i) i.mnemonic = .error e) :
    exec i s = .fault (e s.codeAddr) := by
  rw [exec_eq, perform, h]

theorem peek_normalize (s : State) (a : Addr) : peek s.normalize a = peek s a :=
  peek_congr s.normalize_wram s.normalize_sram s.normalize_params a

/-- An instruction that writes `N` and `Z` from the value it gives an index register, and whose row leaves
`P.X`: its `Normalize` cuts the register to the width that flag had before. -/
theorem exec_sets_index {q : Reg} {v : Word} (hq : q = .x ∨ q = .y) (hs : s.ModeInv)
    (h : handler i.form (s.begin i) i.mnemonic = .ok u) (hf : .x ∉ Instr.flagSet i)
    (hv : low (s.flag .x) (u.reg q) = low (s.flag .x) v) (hnz : u.HasNZ (s.flag .x) v) :
    ∃ t, exec i s = .next t ∧ t.reg q = low (s.flag .x) v ∧ t.HasNZ (s.flag .x) v := by
  have hflag : u.normalize.flag .x = s.flag .x := flagFrame i s _ hs (exec_of_handler h) .x hf
  refine ⟨_, exec_of_handler h, ?_, normalize_hasNZ.2 hnz⟩
  rw [← hv, ← hflag]
  rcases hq with rfl | rfl
  · exact normalize_x_low u
  · exact normalize_y_low u

/-- An instruction that writes `N` and `Z` from the value it gives `A`. -/
theorem exec_sets_a {b : Bool} {v w : Word} (h : handler i.form (s.begin i) i.mnemonic = .ok u)
    (hv : u.a = v) (hnz : u.HasNZ b w) : ∃ t, exec i s = .next t ∧ t.a = v ∧ t.HasNZ b w :=
  ⟨_, exec_of_handler h, u.normalize_a.trans hv, normalize_hasNZ.2 hnz⟩

/-! ### Loads (41_load_store_transfer.md R201 to R203) -/

section
variable {f : Form} {o : Operand} {v : Word}

theorem lda_of (h1 : resolve f s = .ok (o, u)) (h2 : load o s.wM u = .ok (v, r)) :
    ∃ t, lda f s = .ok t ∧ t.a = dual (s.flag .m) s.a v ∧ t.HasNZ (s.flag .m) v := by
  obtain ⟨l, k, rfl⟩ := (resolve_reads h1).trans (load_reads h2)
  exact ⟨_, by rw [lda, readOperand_of h1 h2]; rfl, mergeLow_widthOf _ _ _, hasNZ_setNZ _ _ _⟩

theorem ldx_of (h1 : resolve f s = .ok (o, u)) (h2 : load o s.wX u = .ok (v, r)) :
    ∃ t, ldx f s = .ok t ∧ t.x = v ∧ t.HasNZ (s.flag .x) v := by
  obtain ⟨l, k, rfl⟩ := (resolve_reads h1).trans (load_reads h2)
  exact ⟨_, by rw [ldx, readOperand_of h1 h2]; rfl, rfl, hasNZ_setNZ _ _ _⟩

theorem ldy_of (h1 : resolve f s = .ok (o, u)) (h2 : load o s.wX u = .ok (v, r)) :
    ∃ t, ldy f s = .ok t ∧ t.y = v ∧ t.HasNZ (s.flag .x) v := by
  obtain ⟨l, k, rfl⟩ := (resolve_reads h1).trans (load_reads h2)
  exact ⟨_, by rw [ldy, readOperand_of h1 h2]; rfl, rfl, hasNZ_setNZ _ _ _⟩

end

/-- Settles O34: what LDA's handler leaves in `A`, `N` and `Z`, which `Normalize` keeps. -/
theorem loadAccumulator : Obligations.LoadAccumulator := by
  intro i s o u r v hm hresolve hload
  obtain ⟨t, ht, ha, hnz⟩ := lda_of hresolve hload
  exact exec_sets_a (by rw [hm]; exact ht) ha hnz

/-- Settles O35: the handlers put the value in the index register, and `Normalize` cuts it to the width of
`P.X`, which both rows leave. -/
theorem loadIndex : Obligations.LoadIndex := by
  intro i s o u r v hs hresolve hload
  refine ⟨fun hm => ?_, fun hm => ?_⟩
  · obtain ⟨t, ht, hx, hnz⟩ := ldx_of hresolve hload
    have hf : .x ∉ Instr.flagSet i := by rw [Instr.flagSet, hm]; exact of_decide_eq_true rfl
    exact exec_sets_index (.inl rfl) hs (by rw [hm]; exact ht) hf (congrArg _ hx) hnz
  · obtain ⟨t, ht, hy, hnz⟩ := ldy_of hresolve hload
    have hf : .x ∉ Instr.flagSet i := by rw [Instr.flagSet, hm]; exact of_decide_eq_true rfl
    exact exec_sets_index (.inr rfl) hs (by rw [hm]; exact ht) hf (congrArg _ hy) hnz

/-! ### Stores (41_load_store_transfer.md R204 to R207) -/

theorem datumBytes_length (b : Bool) (v : Word) : (datumBytes b v).length = (widthOf b).bytes := by
  cases b <;> rfl

/-- The bytes written do not depend on what lies above the width. -/
theorem writeData_truncate (b : Bool) (c : Wrap) (ea : Addr) (v : Word) (s : State) :
    writeData (widthOf b) c ea (truncate (widthOf b) v) s = writeData (widthOf b) c ea v s := by
  cases b
  · rfl
  · exact congrArg (write8 (byteAddr c ea 0) · s) (loByte_and_low v)

/-- The bytes of a datum written to RAM stand there afterwards: the second write leaves the first byte. -/
theorem writeData_peek {b : Bool} {c : Wrap} {ea : Addr} {v : Word} {k : Nat} {x : Byte}
    (h : writeData (widthOf b) c ea v s = .ok t) (hs : s.StoresWf) (hk : (datumBytes b v)[k]? = some x)
    (hr : isRam s.params (byteAddr c ea k) = true) : peek t (byteAddr c ea k) = some x := by
  cases b with
  | true =>
    match k with
    | 0 => cases hk; exact write8_peek_ram h hs hr
    | k + 1 => cases hk
  | false =>
    obtain ⟨u, h0, h1⟩ := Except.bind_ok.1 h
    have hp : u.params = s.params := (write8_bus h0).params
    match k with
    | 0 =>
      cases hk
      rw [write8_peek_ne h1 (by rw [hp]; exact byteAddr_cell_ne hs.2.2.2 (.inl hr))]
      exact write8_peek_ram h0 hs hr
    | 1 =>
      cases hk
      exact write8_peek_ram h1 (write8_storesWf h0 hs) (by rw [hp]; exact hr)
    | k + 2 => cases hk

theorem writeRoute_left {q : Route} {b o : Nat} {v : Byte} {e : Raise}
    (h : writeRoute q b o v s = .error e) (loc : Addr) : (e loc).left = s.remains := by
  cases q <;> simp only [writeRoute, writeFacade, writeIntReg] at h
  all_goals
    repeat' split at h
    all_goals cases h
    all_goals rfl

/-- A write that raises leaves what the mapper held before it (40_engine_addressing.md R155). -/
theorem write8_left {a : Addr} {v : Byte} {e : Raise} (h : write8 a v s = .error e) (loc : Addr) :
    (e loc).left = s.remains := by
  rw [write8, accessWrite, locate_addr] at h
  split at h
  · next hr => cases h; exact route_left hr _ loc
  · exact writeRoute_left h loc

/-- An instruction whose handler resolves its operand, stores a value there at a width, and then leaves memory
alone, stores the bytes of that value. -/
theorem storesDatum_of_handler {b : Bool} {v : Word} {g : State → State} (hs : s.StoresWf)
    (h : handler i.form (s.begin i) i.mnemonic =
      storeOperand i.form (widthOf b) (truncate (widthOf b) v) (s.begin i) >>= fun t => .ok (g t))
    (hg : ∀ t a, peek (g t) a = peek t a) : s.StoresDatum i b v := by
  intro ea c crossed u hu
  have hwrite : handler i.form (s.begin i) i.mnemonic =
      writeData (widthOf b) c ea v u >>= fun t => .ok (g t) := by
    rw [h, storeOperand, hu, ← writeData_truncate]; rfl
  have hr := resolve_reads hu
  have hp : u.params = s.params := hr.bus.params
  refine ⟨fun t e hb h0 h1 => ?_, fun hw => ?_⟩
  · subst hb
    have hraise : writeData (widthOf false) c ea v u = .error e := by
      rw [widthOf, if_neg Bool.false_ne_true, writeData, h0]; exact h1
    exact ⟨exec_of_handler_error (by rw [hwrite, hraise]; rfl), write8_left h1 _⟩
  · rw [datumBytes_length] at hw ⊢
    rw [← hp] at hw ⊢
    obtain ⟨t, ht⟩ := writeData_of_writable v hw
    have hpeek : ∀ a, peek (g t).normalize a = peek t a := fun a => (peek_normalize _ a).trans (hg t a)
    have hrun : exec i s = .next (g t).normalize := exec_of_handler (by rw [hwrite, ht]; rfl)
    refine ⟨_, hrun, fun k w hk hram => ?_, fun a ha => ?_⟩
    · rw [hpeek]
      exact writeData_peek ht (hr.storesWf hs) hk hram
    · rw [hpeek, (writeData_stored ht).frame a (outside_iff.1 ha)]
      exact hr.peek a

/-- Settles O36: each handler is a store of its register at its width, and then a charge. -/
theorem storeRegister : Obligations.StoreRegister := by
  refine fun i s hs => ⟨fun hm => ?_, fun hm => ?_, fun hm => ?_, fun hm => ?_⟩
  · exact storesDatum_of_handler (g := (·.chargeM 1)) hs (by rw [hm]; rfl) fun _ _ => rfl
  · exact storesDatum_of_handler (g := State.chargeX) hs (by rw [hm]; rfl) fun _ _ => rfl
  · exact storesDatum_of_handler (g := State.chargeX) hs (by rw [hm]; rfl) fun _ _ => rfl
  · have hzero : truncate (widthOf (s.flag .m)) 0 = 0 := by cases s.flag .m <;> rfl
    exact storesDatum_of_handler (g := (·.chargeM 1)) hs (by rw [hm, hzero]; rfl) fun _ _ => rfl

/-! ### Register transfers (41_load_store_transfer.md R208 to R220) -/

/-- From a state with I2, the index registers fit the width of `P.X`. -/
theorem low_index (hs : s.I2) : low (s.flag .x) s.x = s.x ∧ low (s.flag .x) s.y = s.y := by
  cases hx : s.flag .x with
  | false => exact ⟨rfl, rfl⟩
  | true =>
    obtain ⟨hX, hY⟩ := hs hx
    exact ⟨(and_low s.x).symm.trans (hiByte_eq_zero.1 hX), (and_low s.y).symm.trans (hiByte_eq_zero.1 hY)⟩

theorem low_truncate (b : Bool) (v : Word) : low b (truncate (widthOf b) v) = low b v := by
  rw [truncate_widthOf, low_low]

theorem mergeLow_truncate (b : Bool) (old v : Word) :
    mergeLow (widthOf b) old (truncate (widthOf b) v) = dual b old v := by
  rw [mergeLow_widthOf, truncate_widthOf, dual_low]

/-- XBA takes `N` and `Z` from the new low byte alone. -/
theorem xba_hasNZ (s : State) : (xba s).HasNZ true (xba s).a := by
  have hlow : low true (xba s).a = zextByte (hiByte s.a) := by
    rw [zextByte_eq_mkWord]; exact congrArg (mkWord · 0) (loByte_mkWord _ _)
  rw [← hasNZ_low, hlow]
  exact hasNZ_setNZ _ true _

/-- Settles O37: each handler gives the destination the source at its width; `Normalize` keeps that in `A` and
`D`, cuts an index register to the width it has, and keeps `SH` at 1 in emulation mode. -/
theorem transferRegister : Obligations.TransferRegister := by
  intro s hs m x
  obtain ⟨hX, hY⟩ := low_index hs.2
  refine ⟨?tax, ?tay, ?txa, ?tya, ?tsx, ?txs, ?tdc, ?tcd, ?tsc, ?tcs, ?xba, ?txy, ?tyx⟩
  case tax => exact exec_sets_index (.inl rfl) hs rfl (by decide) (low_truncate x s.a) (hasNZ_setNZ _ x _)
  case tay => exact exec_sets_index (.inr rfl) hs rfl (by decide) (low_truncate x s.a) (hasNZ_setNZ _ x _)
  case tsx => exact exec_sets_index (.inl rfl) hs rfl (by decide) (low_truncate x s.sp) (hasNZ_setNZ _ x _)
  case txy =>
    obtain ⟨t, ht, hy, hnz⟩ :=
      exec_sets_index (q := .y) (i := .txy) (v := s.x) (.inr rfl) hs rfl (by decide) rfl (hasNZ_setNZ _ x _)
    exact ⟨t, ht, hy.trans hX, hnz⟩
  case tyx =>
    obtain ⟨t, ht, hx, hnz⟩ :=
      exec_sets_index (q := .x) (i := .tyx) (v := s.y) (.inl rfl) hs rfl (by decide) rfl (hasNZ_setNZ _ x _)
    exact ⟨t, ht, hx.trans hY, hnz⟩
  case txa => exact exec_sets_a rfl (mergeLow_truncate m s.a s.x) (hasNZ_setNZ _ m _)
  case tya => exact exec_sets_a rfl (mergeLow_truncate m s.a s.y) (hasNZ_setNZ _ m _)
  case tdc => exact exec_sets_a rfl rfl (hasNZ_setNZ _ false _)
  case tsc => exact exec_sets_a rfl rfl (hasNZ_setNZ _ false _)
  case xba =>
    obtain ⟨t, ht, ha, hnz⟩ := exec_sets_a (i := .xba) (s := s) rfl rfl (xba_hasNZ _)
    exact ⟨t, ht, ha, ha ▸ hnz⟩
  case tcd => exact ⟨_, exec_of_handler rfl, State.normalize_d _, normalize_hasNZ.2 (hasNZ_setNZ _ false _)⟩
  case txs => exact ⟨_, exec_of_handler rfl, normalize_sp_eq _⟩
  case tcs => exact ⟨_, exec_of_handler rfl, normalize_sp_eq _⟩

end Sys2Proof.Machine
end

