-- ==== Sys2Proof/Proofs/Arith.lean ====
section
/-! The statements of 42_arith_logic_shift.md. First what a handler that combines `A` with its operand, or
modifies its operand, leaves; then each computation of a result and its flags in the statements' own terms. -/

namespace Sys2Proof.Machine

variable {s t u r : State} {i : Instr} {m : Bool}

/-! ### The flags at the end of an instruction -/

/-- The flags of a state are those of a status byte, but for `M` and `X`, which `Normalize` writes. -/
def State.FlagsOf (t : State) (q : Byte) : Prop := ∀ f, f ≠ .m → f ≠ .x → t.flag f = getFlag q f

theorem State.FlagsOf.hasNZ {v : Word} {q : Byte} (h : t.FlagsOf (Machine.setNZ (widthOf m) v q)) :
    t.HasNZ m v := by
  rw [State.HasNZ, h .n (by decide) (by decide), h .z (by decide) (by decide), setNZ_n, setNZ_z,
    msb_widthOf, truncate_widthOf, Bool.beq_eq_decide_eq]
  exact ⟨rfl, rfl⟩

/-- The carry of a computation that writes `N` and `Z` last. -/
theorem State.FlagsOf.carry {w : Width} {v : Word} {q : Byte} (h : t.FlagsOf (Machine.setNZ w v q)) :
    t.flag .c = getFlag q .c :=
  (h .c (by decide) (by decide)).trans (setNZ_other w v q (by decide) (by decide))

/-- The carry and the overflow of an addition or a subtraction. -/
theorem getFlag_setNZ_carry_overflow (w : Width) (v : Word) (p : Byte) (c o : Bool) :
    getFlag (setNZ w v (putFlag (putFlag p .c c) .v o)) .c = c ∧
      getFlag (setNZ w v (putFlag (putFlag p .c c) .v o)) .v = o := by
  rw [setNZ_other w v _ (by decide) (by decide), setNZ_other w v _ (by decide) (by decide),
    getFlag_putFlag_of_ne _ _ (by decide), getFlag_putFlag_same, getFlag_putFlag_same]
  exact ⟨rfl, rfl⟩

theorem State.FlagsOf.carry_overflow {w : Width} {v : Word} {p : Byte} {c o : Bool}
    (h : t.FlagsOf (Machine.setNZ w v (putFlag (putFlag p .c c) .v o))) : t.flag .c = c ∧ t.flag .v = o := by
  rw [h .c (by decide) (by decide), h .v (by decide) (by decide)]
  exact getFlag_setNZ_carry_overflow w v p c o

/-- What an instruction whose handler answers leaves of `A`, of the status byte and of memory. -/
theorem exec_leaves (h : handler i.form (s.begin i) i.mnemonic = .ok u) :
    ∃ t, exec i s = .next t ∧ t.a = u.a ∧ t.FlagsOf u.p ∧ ∀ a, peek t a = peek u a :=
  ⟨_, exec_of_handler h, u.normalize_a, fun _ hm hx => normalize_flag u hm hx, peek_normalize u⟩

/-! ### Equality up to a width -/

theorem hasNZ_congr {v w : Word} (h : low m v = low m w) : t.HasNZ m v ↔ t.HasNZ m w := by
  rw [← hasNZ_low, h, hasNZ_low]

theorem dual_congr {v w : Word} (o : Word) (h : low m v = low m w) : dual m o v = dual m o w := by
  rw [← dual_low, h, dual_low]

theorem sign_congr {v w : Word} (h : low m v = low m w) : sign m v = sign m w := by
  rw [← sign_low, h, sign_low]

theorem low_eq_iff {v w : Word} : low m v = low m w ↔ v.toNat % modulus m = w.toNat % modulus m := by
  rw [← toNat_low, ← toNat_low, BitVec.toNat_inj]

/-! ### `A` combined with the operand -/

/-- What a combination of `A` with its operand leaves in `A` and `P`. -/
theorem combineA_of {f : Form} {o : Operand} {b : Word} {op : Width → Word → Word → Byte → Word × Byte}
    (h1 : resolve f s = .ok (o, u)) (h2 : load o s.wM u = .ok (b, r)) :
    ∃ t, combineA f op s = .ok t ∧
      t.a = dual (s.flag .m) s.a (op s.wM (low (s.flag .m) s.a) b s.p).1 ∧
      t.p = (op s.wM (low (s.flag .m) s.a) b s.p).2 := by
  obtain ⟨l, k, rfl⟩ := (resolve_reads h1).trans (load_reads h2)
  rw [← truncate_widthOf]
  exact ⟨_, by rw [combineA, readOperand_of h1 h2]; rfl, mergeLow_widthOf _ _ _, rfl⟩

/-- An instruction that combines `A` with its operand, and may charge cycles for it. -/
theorem exec_combineA {op : Width → Word → Word → Byte → Word × Byte} {n : Nat} {o : Operand} {b : Word}
    (h : handler i.form (s.begin i) i.mnemonic =
      combineA i.form op (s.begin i) >>= fun t => .ok (t.charge n))
    (h1 : resolve i.form (s.begin i) = .ok (o, u)) (h2 : load o s.wM u = .ok (b, r)) :
    ∃ t, exec i s = .next t ∧
      t.a = dual (s.flag .m) s.a (op s.wM (low (s.flag .m) s.a) b s.p).1 ∧
      t.FlagsOf (op s.wM (low (s.flag .m) s.a) b s.p).2 := by
  obtain ⟨t, ht, ha, hp⟩ := combineA_of (op := op) h1 h2
  obtain ⟨t', ht', ha', hp', -⟩ := exec_leaves (i := i) (h.trans (by rw [ht]; rfl))
  exact ⟨t', ht', ha'.trans ha, hp ▸ hp'⟩

/-- ADC (42_arith_logic_shift.md R233). -/
theorem exec_adc {o : Operand} {b : Word} (hm : i.mnemonic = .adc)
    (h1 : resolve i.form (s.begin i) = .ok (o, u)) (h2 : load o s.wM u = .ok (b, r)) :
    ∃ t, exec i s = .next t ∧
      t.a = dual (s.flag .m) s.a (addWithCarry s.wM (low (s.flag .m) s.a) b s.p).1 ∧
      t.FlagsOf (addWithCarry s.wM (low (s.flag .m) s.a) b s.p).2 :=
  exec_combineA (by rw [hm]; rfl) h1 h2

/-- SBC (42_arith_logic_shift.md R234). -/
theorem exec_sbc {o : Operand} {b : Word} (hm : i.mnemonic = .sbc)
    (h1 : resolve i.form (s.begin i) = .ok (o, u)) (h2 : load o s.wM u = .ok (b, r)) :
    ∃ t, exec i s = .next t ∧
      t.a = dual (s.flag .m) s.a (subWithBorrow s.wM (low (s.flag .m) s.a) b s.p).1 ∧
      t.FlagsOf (subWithBorrow s.wM (low (s.flag .m) s.a) b s.p).2 :=
  exec_combineA (n := 0) (by rw [hm]; exact (bind_pure _).symm) h1 h2

/-! ### Binary addition and subtraction (42_arith_logic_shift.md R230) -/

theorem mask_widthOf (m : Bool) (n : Nat) : (widthOf m).mask < n ↔ modulus m ≤ n := by
  cases m <;> exact Iff.rfl

/-- Signed overflow of an addition: the operands agree in sign and the sum does not. -/
theorem sign_overflow (m : Bool) (a b v : Word) :
    sign m (~~~(a ^^^ b) &&& (a ^^^ v)) = decide (sign m a = sign m b ∧ sign m v ≠ sign m a) := by
  cases m <;> simp only [sign, if_true, Bool.false_eq_true, if_false, BitVec.getLsbD_and, BitVec.getLsbD_not,
    BitVec.getLsbD_xor]
  · cases a.getLsbD 15 <;> cases b.getLsbD 15 <;> cases v.getLsbD 15 <;> rfl
  · cases a.getLsbD 7 <;> cases b.getLsbD 7 <;> cases v.getLsbD 7 <;> rfl

/-- `AddBin` on `A` cut to the width: the sum, its carry out and its signed overflow. -/
theorem addBin_low (m : Bool) (a b : Word) (p : Byte) :
    addBin (widthOf m) (low m a) b p =
      let sum := a.toNat % modulus m + b.toNat + (if getFlag p .c then 1 else 0)
      let res := BitVec.ofNat 16 sum
      (low m res, setNZ (widthOf m) (low m res) (putFlag (putFlag p .c (decide (modulus m ≤ sum))) .v
        (decide (sign m a = sign m b ∧ sign m res ≠ sign m a)))) := by
  simp only [addBin, toNat_low, bitNat, mask_widthOf, msb_widthOf, truncate_widthOf, sign_overflow, sign_low]

theorem toNat_low_not (m : Bool) (b : Word) : (low m (~~~b)).toNat + b.toNat % modulus m + 1 = modulus m := by
  have hb := b.isLt
  rw [toNat_low, BitVec.toNat_not]
  cases m <;> simp only [modulus, Bool.false_eq_true, if_true, if_false] <;> omega

theorem sign_not (m : Bool) (b : Word) : sign m (~~~b) = !sign m b := by
  cases m <;> simp [sign]

/-- A sum that exceeds a difference by the modulus is that difference at the width. -/
theorem low_ofNat_of_add_modulus {n a k : Nat} (h : n + k = a + modulus m) :
    low m (BitVec.ofNat 16 n) = low m (BitVec.ofInt 16 ((a : Int) - (k : Int))) := by
  rw [low_eq_iff, BitVec.toNat_ofNat, BitVec.toNat_ofInt]
  cases m <;> simp only [modulus, Bool.false_eq_true, if_true, if_false] at h ⊢ <;> omega

/-- `SubBin` on `A` cut to the width: the difference, the inverted borrow and the signed overflow. -/
theorem subBin_low (m : Bool) (a b : Word) (p : Byte) :
    subBin (widthOf m) (low m a) b p =
      let taken := b.toNat % modulus m + (if getFlag p .c then 0 else 1)
      let res := BitVec.ofInt 16 (((a.toNat % modulus m : Nat) : Int) - (taken : Int))
      (low m res, setNZ (widthOf m) (low m res) (putFlag (putFlag p .c (decide (taken ≤ a.toNat % modulus m))) .v
        (decide (sign m a ≠ sign m b ∧ sign m res ≠ sign m a)))) := by
  have hnot := toNat_low_not m b
  have hsum : a.toNat % modulus m + (low m (~~~b)).toNat + (if getFlag p .c then 1 else 0) +
      (b.toNat % modulus m + (if getFlag p .c then 0 else 1)) = a.toNat % modulus m + modulus m := by
    split <;> omega
  have hcarry : modulus m ≤ a.toNat % modulus m + (low m (~~~b)).toNat + (if getFlag p .c then 1 else 0) ↔
      b.toNat % modulus m + (if getFlag p .c then 0 else 1) ≤ a.toNat % modulus m := by omega
  have hsign : sign m a = !sign m b ↔ sign m a ≠ sign m b := Bool.eq_not
  simp only [subBin, truncate_widthOf, addBin_low, low_ofNat_of_add_modulus hsum,
    sign_congr (low_ofNat_of_add_modulus hsum), hcarry, sign_low, sign_not, hsign]

/-- Where `P.D = 0` ADC adds in binary. -/
theorem addWithCarry_binary {w : Width} {a b : Word} {p : Byte} (h : getFlag p .d = false) :
    addWithCarry w a b p = addBin w a b p := if_neg (Bool.eq_false_iff.1 h)

/-- Where `P.D = 0` SBC subtracts in binary. -/
theorem subWithBorrow_binary {w : Width} {a b : Word} {p : Byte} (h : getFlag p .d = false) :
    subWithBorrow w a b p = subBin w a b p := if_neg (Bool.eq_false_iff.1 h)

/-- Settles O38: `AddBin` is the sum the statement gives. -/
theorem addBinary : Obligations.AddBinary := by
  intro i s o u r b hm hd h1 h2 m sum res
  obtain ⟨t, ht, ha, hp⟩ := exec_adc hm h1 h2
  rw [addWithCarry_binary hd, State.wM, addBin_low] at ha hp
  obtain ⟨hc, hv⟩ := hp.carry_overflow
  exact ⟨t, ht, ha.trans (dual_low _ _ _), hasNZ_low.1 hp.hasNZ, hc, hv⟩

/-- Settles O40: `SubBin` is the difference the statement gives. -/
theorem subtractBinary : Obligations.SubtractBinary := by
  intro i s o u r b hm hd h1 h2 m a taken res
  obtain ⟨t, ht, ha, hp⟩ := exec_sbc hm h1 h2
  rw [subWithBorrow_binary hd, State.wM, subBin_low] at ha hp
  obtain ⟨hc, hv⟩ := hp.carry_overflow
  exact ⟨t, ht, ha.trans (dual_low _ _ _), hasNZ_low.1 hp.hasNZ, hc, hv⟩

/-! ### Decimal addition and subtraction (42_arith_logic_shift.md R231, R232) -/

/-- One nibble of `AddDec`: the sum and its carry, corrected by 6 above 9. -/
def addDigit (x y c : Nat) : Nat × Nat :=
  (if 9 < x + y + c then (x + y + c + 6) % 16 else x + y + c, if 9 < x + y + c then 1 else 0)

/-- One nibble of `SubDec`: the difference and its borrow, corrected by 6 below 0. -/
def subDigit (x y c : Nat) : Nat × Nat :=
  let t : Int := (x : Int) - (y : Int) - (c : Int)
  (if t < 0 then ((t - 6) % 16).toNat else t.toNat, if t < 0 then 1 else 0)

/-- A loop over `n` nibbles, low nibble first, that carries from each to the next. -/
def digitLoop (step : Nat → Nat → Nat → Nat × Nat) : Nat → Nat → Nat → Nat → Nat × Nat
  | 0, _, _, c => (0, c)
  | n + 1, a, b, c =>
    let d := step (a % 16) (b % 16) c
    let rest := digitLoop step n (a / 16) (b / 16) d.2
    (d.1 + 16 * rest.1, rest.2)

theorem addDigits_eq (n a b c : Nat) : addDigits n a b c = digitLoop addDigit n a b c := by
  induction n generalizing a b c with
  | zero => rfl
  | succ n ih => simp only [addDigits, digitLoop, addDigit, ih]

theorem subDigits_eq (n a b c : Nat) : subDigits n a b c = digitLoop subDigit n a b c := by
  induction n generalizing a b c with
  | zero => rfl
  | succ n ih => simp only [subDigits, digitLoop, subDigit, ih]

theorem addDigit_lt (x y c : Nat) : (addDigit x y c).1 < 16 := by
  unfold addDigit
  split <;> dsimp only <;> omega

theorem subDigit_lt {x : Nat} (hx : x < 16) (y c : Nat) : (subDigit x y c).1 < 16 := by
  unfold subDigit
  dsimp only
  split <;> omega

theorem nibble_zero (v : Nat) : nibble v 0 = v % 16 := by
  rw [nibble, pow_zero, Nat.div_one]

theorem nibble_succ (v j : Nat) : nibble v (j + 1) = nibble (v / 16) j := by
  rw [nibble, nibble, Nat.div_div_eq_div_mul, pow_succ']

theorem nibble_mod {n j : Nat} (h : j < n) (v : Nat) : nibble (v % 16 ^ n) j = nibble v j := by
  obtain ⟨k, rfl⟩ := Nat.exists_eq_add_of_lt h
  rw [nibble, nibble, show 16 ^ (j + k + 1) = 16 ^ j * (16 ^ k * 16) by ring, Nat.mod_mul_right_div_self,
    Nat.mod_mul_left_mod]

/-- The carries of a loop, one before its first nibble. -/
def carriesFrom (c : Nat) (k : Nat → Nat) : Nat → Nat
  | 0 => c
  | j + 1 => k j

section
variable {step : Nat → Nat → Nat → Nat × Nat}

theorem digitLoop_lt (hstep : ∀ {x}, x < 16 → ∀ y c, (step x y c).1 < 16) (n a b c : Nat) :
    (digitLoop step n a b c).1 < 16 ^ n := by
  induction n generalizing a b c with
  | zero => exact Nat.one_pos
  | succ n ih =>
    have hd := hstep (Nat.mod_lt a (by decide : 0 < 16)) (b % 16) c
    have hrest := ih (a / 16) (b / 16) (step (a % 16) (b % 16) c).2
    rw [digitLoop, pow_succ]
    dsimp only
    omega

/-- Each nibble of the result, and the carry after it, is the step on the operands' nibbles and the carry
before it; the loop answers the last carry. -/
theorem digitLoop_nibbles (hstep : ∀ {x}, x < 16 → ∀ y c, (step x y c).1 < 16) (n a b c : Nat) :
    ∃ k : Nat → Nat, k 0 = c ∧ (digitLoop step n a b c).2 = k n ∧ ∀ j, j < n →
      step (nibble a j) (nibble b j) (k j) = (nibble (digitLoop step n a b c).1 j, k (j + 1)) := by
  induction n generalizing a b c with
  | zero => exact ⟨fun _ => c, rfl, rfl, fun j hj => absurd hj (Nat.not_lt_zero j)⟩
  | succ n ih =>
    obtain ⟨k, hzero, hlast, hk⟩ := ih (a / 16) (b / 16) (step (a % 16) (b % 16) c).2
    have hd := hstep (Nat.mod_lt a (by decide : 0 < 16)) (b % 16) c
    refine ⟨carriesFrom c k, rfl, hlast, fun j hj => ?_⟩
    rw [digitLoop]
    cases j with
    | zero =>
      simp only [nibble_zero, carriesFrom, hzero, Nat.add_mul_mod_self_left, Nat.mod_eq_of_lt hd]
    | succ j =>
      rw [nibble_succ, nibble_succ, nibble_succ, Nat.add_mul_div_left _ _ (by decide : 0 < 16),
        Nat.div_eq_of_lt hd, Nat.zero_add]
      exact hk j (Nat.lt_of_succ_lt_succ hj)

/-- Where each step is exact on decimal digits (`e` is 1 for a sum and -1 for a difference), the loop is exact
on the numbers that its digits stand for. -/
theorem digitLoop_bcd {e : Int} (hstep : ∀ {x y c}, x ≤ 9 → y ≤ 9 → c ≤ 1 → (step x y c).1 ≤ 9 ∧
      (step x y c).2 ≤ 1 ∧ ((step x y c).1 : Int) + e * (10 * (step x y c).2) = x + e * (y + c))
    {n a b c : Nat} (ha : isBcd n a) (hb : isBcd n b) (hc : c ≤ 1) :
    isBcd n (digitLoop step n a b c).1 ∧ (digitLoop step n a b c).2 ≤ 1 ∧
      (bcdValue n (digitLoop step n a b c).1 : Int) + e * (10 ^ n * (digitLoop step n a b c).2) =
        bcdValue n a + e * (bcdValue n b + c) := by
  induction n generalizing a b c with
  | zero => exact ⟨fun j hj => absurd hj (Nat.not_lt_zero j), hc, by simp [digitLoop, bcdValue]⟩
  | succ n ih =>
    obtain ⟨hd, hcarry, hexact⟩ := hstep (nibble_zero a ▸ ha 0 n.succ_pos) (nibble_zero b ▸ hb 0 n.succ_pos) hc
    obtain ⟨hdigits, hlast, hrest⟩ :=
      ih (fun j hj => nibble_succ a j ▸ ha (j + 1) (Nat.succ_lt_succ hj))
        (fun j hj => nibble_succ b j ▸ hb (j + 1) (Nat.succ_lt_succ hj)) hcarry
    have hd16 : (step (a % 16) (b % 16) c).1 < 16 := by omega
    rw [digitLoop]
    refine ⟨fun j hj => ?_, hlast, ?_⟩
    · cases j with
      | zero => rwa [nibble_zero, Nat.add_mul_mod_self_left, Nat.mod_eq_of_lt hd16]
      | succ j =>
        rw [nibble_succ, Nat.add_mul_div_left _ _ (by decide : 0 < 16), Nat.div_eq_of_lt hd16, Nat.zero_add]
        exact hdigits j (Nat.lt_of_succ_lt_succ hj)
    · rw [bcdValue, bcdValue, bcdValue, Nat.add_mul_mod_self_left, Nat.mod_eq_of_lt hd16,
        Nat.add_mul_div_left _ _ (by decide : 0 < 16), Nat.div_eq_of_lt hd16, Nat.zero_add]
      push_cast at hexact ⊢
      linear_combination hexact + 10 * hrest

end

theorem addDigit_bcd {x y c : Nat} (hx : x ≤ 9) (hy : y ≤ 9) (hc : c ≤ 1) :
    (addDigit x y c).1 ≤ 9 ∧ (addDigit x y c).2 ≤ 1 ∧
      ((addDigit x y c).1 : Int) + 1 * (10 * (addDigit x y c).2) = x + 1 * (y + c) := by
  unfold addDigit
  split <;> dsimp only <;> omega

theorem subDigit_bcd {x y c : Nat} (hx : x ≤ 9) (hy : y ≤ 9) (hc : c ≤ 1) :
    (subDigit x y c).1 ≤ 9 ∧ (subDigit x y c).2 ≤ 1 ∧
      ((subDigit x y c).1 : Int) + -1 * (10 * (subDigit x y c).2) = x + -1 * (y + c) := by
  unfold subDigit
  dsimp only
  split <;> omega

/-- The nibble of `SubDec` as an integer. -/
theorem subDigit_eq (x y c : Nat) :
    ((subDigit x y c).1 : Int) =
      if (x : Int) - y - c < 0 then ((x : Int) - y - c - 6) % 16 else (x : Int) - y - c := by
  unfold subDigit
  dsimp only
  split <;> omega

theorem addDec_eq (w : Width) (a b : Word) (p : Byte) :
    addDec w a b p =
      let r := digitLoop addDigit (2 * w.bytes) a.toNat b.toNat (if getFlag p .c then 1 else 0)
      (BitVec.ofNat 16 r.1,
        setNZ w (BitVec.ofNat 16 r.1) (putFlag (putFlag p .c (decide (r.2 = 1))) .v false)) := by
  simp only [addDec, addDigits_eq, bitNat, Bool.beq_eq_decide_eq]

theorem subDec_eq (w : Width) (a b : Word) (p : Byte) :
    subDec w a b p =
      let r := digitLoop subDigit (2 * w.bytes) a.toNat b.toNat (if getFlag p .c then 0 else 1)
      (BitVec.ofNat 16 r.1,
        setNZ w (BitVec.ofNat 16 r.1) (putFlag (putFlag p .c (decide (r.2 = 0))) .v false)) := by
  have hborrow : 1 - bitNat (getFlag p .c) = if getFlag p .c then 0 else 1 := by
    cases getFlag p .c <;> rfl
  simp only [subDec, subDigits_eq, hborrow, Bool.beq_eq_decide_eq]

section
variable {step : Nat → Nat → Nat → Nat × Nat} (hstep : ∀ {x}, x < 16 → ∀ y c, (step x y c).1 < 16)
include hstep

/-- The result of a loop over a width fits a word. -/
theorem toNat_ofNat_digitLoop (w : Width) (a b c : Nat) :
    (BitVec.ofNat 16 (digitLoop step (2 * w.bytes) a b c).1).toNat = (digitLoop step (2 * w.bytes) a b c).1 := by
  have hfit : 16 ^ (2 * w.bytes) ≤ 2 ^ 16 := by cases w <;> decide
  rw [BitVec.toNat_ofNat, Nat.mod_eq_of_lt ((digitLoop_lt hstep _ a b c).trans_le hfit)]

/-- The nibbles of a loop over a width, from words, the first of them cut to the width. -/
theorem digitLoop_word_nibbles (m : Bool) (a b : Word) (c : Nat) :
    ∃ k : Nat → Nat, k 0 = c ∧
      (digitLoop step (2 * (widthOf m).bytes) (low m a).toNat b.toNat c).2 = k (2 * (widthOf m).bytes) ∧
      ∀ j, j < 2 * (widthOf m).bytes → step (nibble a.toNat j) (nibble b.toNat j) (k j) =
        (nibble (BitVec.ofNat 16 (digitLoop step (2 * (widthOf m).bytes) (low m a).toNat b.toNat c).1).toNat j,
          k (j + 1)) := by
  have hmod : modulus m = 16 ^ (2 * (widthOf m).bytes) := by cases m <;> rfl
  obtain ⟨k, hzero, hlast, hk⟩ :=
    digitLoop_nibbles hstep (2 * (widthOf m).bytes) (low m a).toNat b.toNat c
  refine ⟨k, hzero, hlast, fun j hj => ?_⟩
  rw [toNat_ofNat_digitLoop hstep, ← hk j hj, toNat_low, hmod, nibble_mod hj]

end

/-- Settles O39: the nibble loop of `AddDec`, whose carries the loop's steps give. -/
theorem addDecimal : Obligations.AddDecimal := by
  intro i s o u r b hm hd h1 h2 m
  obtain ⟨t, ht, ha, hp⟩ := exec_adc hm h1 h2
  rw [addWithCarry, if_pos (show getFlag s.p .d = true from hd), State.wM, addDec_eq] at ha hp
  obtain ⟨hc, hv⟩ := hp.carry_overflow
  obtain ⟨k, hzero, hlast, hk⟩ :=
    digitLoop_word_nibbles (fun _ => addDigit_lt _) m s.a b (if s.flag .c then 1 else 0)
  refine ⟨t, _, k, ht, ha, hp.hasNZ, hv, hzero, hc.trans (congrArg (fun n => decide (n = 1)) hlast),
    fun j hj => ?_⟩
  obtain ⟨hdigit, hcarry⟩ := Prod.mk.inj (hk j hj)
  exact ⟨hdigit.symm, hcarry.symm⟩

/-- Settles O41: the nibble loop of `SubDec`, whose borrows the loop's steps give. -/
theorem subtractDecimal : Obligations.SubtractDecimal := by
  intro i s o u r b hm hd h1 h2 m
  obtain ⟨t, ht, ha, hp⟩ := exec_sbc hm h1 h2
  rw [subWithBorrow, if_pos (show getFlag s.p .d = true from hd), State.wM, subDec_eq] at ha hp
  obtain ⟨hc, hv⟩ := hp.carry_overflow
  obtain ⟨k, hzero, hlast, hk⟩ :=
    digitLoop_word_nibbles (fun hx => subDigit_lt hx) m s.a b (if s.flag .c then 0 else 1)
  refine ⟨t, _, k, ht, ha, hp.hasNZ, hv, hzero, hc.trans (congrArg (fun n => decide (n = 0)) hlast),
    fun j hj => ?_⟩
  obtain ⟨hdigit, hborrow⟩ := Prod.mk.inj (hk j hj)
  exact ⟨hdigit ▸ subDigit_eq _ _ _, hborrow.symm⟩

theorem ite_eq_one_of_le_one {c : Nat} (h : c ≤ 1) : (if c = 1 then 1 else 0) = c := by
  split <;> omega

theorem ite_eq_zero_add_of_le_one {c : Nat} (h : c ≤ 1) : (if c = 0 then 1 else 0) + c = 1 := by
  split <;> omega

/-- Settles O42: both loops are exact on decimal digits, the last carry or borrow having the weight above the
last digit. -/
theorem decimalIsBcd : Obligations.DecimalIsBcd := by
  intro w a b p n carry _ _ ha hb
  rw [addDec_eq, subDec_eq]
  simp only [toNat_ofNat_digitLoop (fun _ => addDigit_lt _), toNat_ofNat_digitLoop (fun hx => subDigit_lt hx),
    carry, (getFlag_setNZ_carry_overflow _ _ _ _ _).1, decide_eq_true_eq]
  obtain ⟨haddBcd, haddLast, hadd⟩ := digitLoop_bcd (c := if getFlag p .c then 1 else 0)
    addDigit_bcd ha hb (by split <;> decide)
  obtain ⟨hsubBcd, hsubLast, hsub⟩ := digitLoop_bcd (c := if getFlag p .c then 0 else 1)
    subDigit_bcd ha hb (by split <;> decide)
  refine ⟨haddBcd, hsubBcd, ?_, ?_⟩
  · rw [ite_eq_one_of_le_one haddLast]
    zify
    push_cast at hadd
    linear_combination hadd
  · have hcarry := ite_eq_zero_add_of_le_one hsubLast
    have hborrow : (if getFlag p .c then 0 else 1) + (if getFlag p .c then 1 else 0) = 1 := by split <;> rfl
    zify at hcarry hborrow ⊢
    push_cast at hsub
    linear_combination hsub + 10 ^ n * hcarry - hborrow

/-! ### Comparison (42_arith_logic_shift.md R235 to R237) -/

theorem low_low_sub (m : Bool) (a b : Word) : low m (low m a - b) = low m (a - b) := by
  rw [low_eq_iff, BitVec.toNat_sub, BitVec.toNat_sub, toNat_low]
  cases m <;> simp only [modulus, Bool.false_eq_true, if_true, if_false] <;> omega

section
variable {f : Form} {o : Operand} {b : Word}

theorem cmp_of (h1 : resolve f s = .ok (o, u)) (h2 : load o s.wM u = .ok (b, r)) :
    ∃ t, cmp f s = .ok t ∧ t.p = compareFlags s.wM (truncate s.wM s.a) b s.p := by
  obtain ⟨l, k, rfl⟩ := (resolve_reads h1).trans (load_reads h2)
  exact ⟨_, by rw [cmp, readOperand_of h1 h2]; rfl, rfl⟩

theorem cpx_of (h1 : resolve f s = .ok (o, u)) (h2 : load o s.wX u = .ok (b, r)) :
    ∃ t, cpx f s = .ok t ∧ t.p = compareFlags s.wX (truncate s.wX s.x) b s.p := by
  obtain ⟨l, k, rfl⟩ := (resolve_reads h1).trans (load_reads h2)
  exact ⟨_, by rw [cpx, readOperand_of h1 h2]; rfl, rfl⟩

theorem cpy_of (h1 : resolve f s = .ok (o, u)) (h2 : load o s.wX u = .ok (b, r)) :
    ∃ t, cpy f s = .ok t ∧ t.p = compareFlags s.wX (truncate s.wX s.y) b s.p := by
  obtain ⟨l, k, rfl⟩ := (resolve_reads h1).trans (load_reads h2)
  exact ⟨_, by rw [cpy, readOperand_of h1 h2]; rfl, rfl⟩

theorem bitTest_of {imm : Bool} (h1 : resolve f s = .ok (o, u)) (h2 : load o s.wM u = .ok (b, r)) :
    ∃ t, bitTest imm f s = .ok t ∧ t.p = bitFlags imm s.wM s.a b s.p := by
  obtain ⟨l, k, rfl⟩ := (resolve_reads h1).trans (load_reads h2)
  exact ⟨_, by rw [bitTest, readOperand_of h1 h2]; rfl, rfl⟩

end

/-- A comparison of a register with a value, as an instruction. -/
theorem exec_compares {a b : Word} {p : Byte} (h : handler i.form (s.begin i) i.mnemonic = .ok u)
    (hp : u.p = compareFlags (widthOf m) (truncate (widthOf m) a) b p) :
    ∃ t, exec i s = .next t ∧ t.HasNZ m (a - b) ∧ t.flag .c = decide (b.toNat ≤ (low m a).toNat) := by
  obtain ⟨t, ht, -, hflags, -⟩ := exec_leaves h
  rw [hp, compareFlags, truncate_widthOf, truncate_widthOf, low_low_sub] at hflags
  exact ⟨t, ht, hasNZ_low.1 hflags.hasNZ, hflags.carry.trans (getFlag_putFlag_same _ _ _)⟩

/-- Settles O43: the three handlers are one comparison, each of its register at its width. -/
theorem compare : Obligations.Compare := by
  refine fun i s o u r b h1 => ⟨fun hm h2 => ?_, fun hm h2 => ?_, fun hm h2 => ?_⟩
  · obtain ⟨t, ht, hp⟩ := cmp_of h1 h2
    exact exec_compares (by rw [hm]; exact ht) hp
  · obtain ⟨t, ht, hp⟩ := cpx_of h1 h2
    exact exec_compares (by rw [hm]; exact ht) hp
  · obtain ⟨t, ht, hp⟩ := cpy_of h1 h2
    exact exec_compares (by rw [hm]; exact ht) hp

/-! ### Logic and bit tests (42_arith_logic_shift.md R244 to R247) -/

/-- Cutting to a width commutes with an operation bit by bit that gives 0 on zeros. -/
theorem low_bitwise {op : Word → Word → Word} {g : Bool → Bool → Bool}
    (hop : ∀ v w j, (op v w).getLsbD j = g (v.getLsbD j) (w.getLsbD j)) (hg : g false false = false)
    (m : Bool) (v w : Word) : low m (op v w) = op (low m v) (low m w) := by
  simp only [← truncate_widthOf]
  cases m
  · rfl
  · ext j hj
    simp only [widthOf, truncate, if_true, ← BitVec.getLsbD_eq_getElem, BitVec.getLsbD_and, hop]
    cases (0x00FF : Word).getLsbD j
    · simp only [Bool.and_false, hg]
    · simp only [Bool.and_true]

theorem low_and (m : Bool) (v w : Word) : low m (v &&& w) = low m v &&& low m w :=
  low_bitwise (g := and) (fun _ _ _ => BitVec.getLsbD_and) rfl m v w

theorem low_or (m : Bool) (v w : Word) : low m (v ||| w) = low m v ||| low m w :=
  low_bitwise (g := or) (fun _ _ _ => BitVec.getLsbD_or) rfl m v w

theorem low_xor (m : Bool) (v w : Word) : low m (v ^^^ w) = low m v ^^^ low m w :=
  low_bitwise (g := xor) (fun _ _ _ => BitVec.getLsbD_xor) rfl m v w

/-- A combination of `A` with the operand bit by bit, as an instruction. -/
theorem exec_bitwise {op : Word → Word → Word} {o : Operand} {v : Word}
    (h : handler i.form (s.begin i) i.mnemonic =
      combineA i.form (fun w a v p => withNZ w (op a v) p) (s.begin i))
    (hop : ∀ m a v, low m (op a v) = op (low m a) (low m v))
    (h1 : resolve i.form (s.begin i) = .ok (o, u)) (h2 : load o s.wM u = .ok (v, r)) :
    ∃ t, exec i s = .next t ∧ t.a = dual (s.flag .m) s.a (op s.a v) ∧ t.HasNZ (s.flag .m) (op s.a v) := by
  have hlow : low (s.flag .m) (op (low (s.flag .m) s.a) v) = low (s.flag .m) (op s.a v) := by
    rw [hop, hop, low_low]
  obtain ⟨t, ht, ha, hp⟩ := exec_combineA (n := 0) (h.trans (bind_pure _).symm) h1 h2
  rw [withNZ, State.wM, truncate_widthOf, hlow] at ha hp
  exact ⟨t, ht, ha.trans (dual_low _ _ _), hasNZ_low.1 hp.hasNZ⟩

/-- Settles O47: the three handlers are one combination, with AND, OR and exclusive OR of each bit. -/
theorem logic : Obligations.Logic := by
  refine fun i s o u r v h1 h2 => ⟨fun hm => ?_, fun hm => ?_, fun hm => ?_⟩
  · exact exec_bitwise (by rw [hm]; rfl) low_and h1 h2
  · exact exec_bitwise (by rw [hm]; rfl) low_or h1 h2
  · exact exec_bitwise (by rw [hm]; rfl) low_xor h1 h2

/-- `Z` of a bit test. -/
theorem testZ_widthOf (m : Bool) (a v : Word) (p : Byte) :
    testZ (widthOf m) a v p = putFlag p .z (decide (low m (a &&& v) = 0)) := by
  rw [testZ, truncate_widthOf, Bool.beq_eq_decide_eq]

/-- `Z`, `N` and `V` of BIT (42_arith_logic_shift.md R247). -/
theorem bitFlags_widthOf (imm m : Bool) (a v : Word) (p : Byte) :
    getFlag (bitFlags imm (widthOf m) a v p) .z = decide (low m (a &&& v) = 0) ∧
      getFlag (bitFlags imm (widthOf m) a v p) .n = (if imm then getFlag p .n else sign m v) ∧
      getFlag (bitFlags imm (widthOf m) a v p) .v =
        (if imm then getFlag p .v else if m then v.getLsbD 6 else v.getLsbD 14) := by
  rw [bitFlags, testZ_widthOf, msb_widthOf]
  cases imm
  · refine ⟨by simp [getFlag_putFlag], by simp [getFlag_putFlag], ?_⟩
    cases m <;> exact getFlag_putFlag_same _ _ _
  · simp [getFlag_putFlag]

/-! ### Index steps (42_arith_logic_shift.md R239, R240, R242, R243) -/

/-- Settles O46: each handler gives the stepped index at its width, which `Normalize` keeps. -/
theorem indexStep : Obligations.IndexStep := by
  intro s hs x
  refine ⟨?inx, ?iny, ?dex, ?dey⟩
  case inx => exact exec_sets_index (.inl rfl) hs rfl (by decide) (low_truncate x _) (hasNZ_setNZ _ x _)
  case iny => exact exec_sets_index (.inr rfl) hs rfl (by decide) (low_truncate x _) (hasNZ_setNZ _ x _)
  case dex => exact exec_sets_index (.inl rfl) hs rfl (by decide) (low_truncate x _) (hasNZ_setNZ _ x _)
  case dey => exact exec_sets_index (.inr rfl) hs rfl (by decide) (low_truncate x _) (hasNZ_setNZ _ x _)

/-! ### Read-modify-write (42_arith_logic_shift.md R238, R241, R248 to R253) -/

/-- The computation of a mnemonic that modifies its operand; `a` is the accumulator. -/
def rmwOp (a : Word) : Mnemonic → Width → Word → Byte → Word × Byte
  | .inc => incValue
  | .dec => decValue
  | .asl => aslValue
  | .lsr => lsrValue
  | .rol => rolValue
  | .ror => rorValue
  | .tsb => tsbValue a
  | .trb => trbValue a
  | _ => fun _ v p => (v, p)

/-- The mnemonics that also modify the accumulator; TSB and TRB modify memory only. -/
abbrev accMnemonics : List Mnemonic := [.inc, .dec, .asl, .lsr, .rol, .ror]

/-- The mnemonics of `rmwOp`. -/
abbrev rmwMnemonics : List Mnemonic := [.inc, .dec, .asl, .lsr, .rol, .ror, .tsb, .trb]

theorem handler_rmw {mn : Mnemonic} (h : mn ∈ rmwMnemonics) (f : Form) :
    handler f s mn = modify f (rmwOp s.a mn) s := by
  cases mn
  case inc | dec | asl | lsr | rol | ror | tsb | trb => rfl
  all_goals exact absurd h (of_decide_eq_true rfl)

theorem carryWord_eq (p : Byte) : carryWord p = if getFlag p .c then 1 else 0 := by
  rw [carryWord]; cases getFlag p .c <;> rfl

theorem carryWord_shift (m : Bool) (p : Byte) : carryWord p <<< ((widthOf m).bits - 1) =
    if getFlag p .c then (if m then 0x0080 else 0x8000) else 0 := by
  rw [carryWord_eq]; cases getFlag p .c <;> cases m <;> rfl

/-- INC, DEC, the shifts and the rotates: the new value at the width, its `N` and `Z`, and the bit moved out
in `C`. -/
theorem rmwOp_eq {mn : Mnemonic} (h : mn ∈ accMnemonics) (a old : Word) (p : Byte) :
    rmwOp a mn (widthOf m) old p =
      (low m (rmwResult m a old (getFlag p .c) mn),
        setNZ (widthOf m) (low m (rmwResult m a old (getFlag p .c) mn))
          ((rmwCarry m old mn).elim p (putFlag p .c))) := by
  cases mn
  case inc | dec =>
    simp only [rmwOp, incValue, decValue, withNZ, truncate_widthOf, rmwResult, rmwCarry, Option.elim]
  case asl | rol =>
    simp only [rmwOp, aslValue, rolValue, withNZ, truncate_widthOf, msb_widthOf, carryWord_eq, rmwResult,
      rmwCarry, Option.elim]
  case lsr | ror =>
    simp only [rmwOp, lsrValue, rorValue, withNZ, truncate_widthOf, carryWord_shift, rmwResult, rmwCarry,
      Option.elim]
  all_goals exact absurd h (of_decide_eq_true rfl)

/-- TSB and TRB: the new value at the width, and `Z` of the bits in common. -/
theorem rmwOp_test {mn : Mnemonic} (h : mn = .tsb ∨ mn = .trb) (a old : Word) (c : Bool) (p : Byte) :
    rmwOp a mn (widthOf m) old p =
      (low m (rmwResult m a old c mn), putFlag p .z (decide (low m (a &&& old) = 0))) := by
  rcases h with rfl | rfl <;>
    simp only [rmwOp, tsbValue, trbValue, truncate_widthOf, testZ_widthOf, rmwResult]

/-- What INC, DEC, a shift or a rotate leaves in the flags. -/
theorem State.FlagsOf.rmw {mn : Mnemonic} {a old : Word} {p : Byte}
    (h : mn ∈ accMnemonics) (ht : t.FlagsOf (rmwOp a mn (widthOf m) old p).2) :
    t.HasNZ m (rmwResult m a old (getFlag p .c) mn) ∧ ∀ b, rmwCarry m old mn = some b → t.flag .c = b := by
  rw [rmwOp_eq h] at ht
  refine ⟨hasNZ_low.1 ht.hasNZ, fun b hb => ?_⟩
  rw [ht.carry, hb]
  exact getFlag_putFlag_same _ _ _

/-! ### On the accumulator (40_engine_addressing.md R177) -/

theorem mnemonic_of_acc (h : i.form = .acc) : i.mnemonic ∈ accMnemonics := by
  cases i
  case incAcc | decAcc | aslAcc | lsrAcc | rolAcc | rorAcc => exact of_decide_eq_true rfl
  all_goals cases h

theorem low_low_add (m : Bool) (v w : Word) : low m (low m v + w) = low m (v + w) := by
  rw [low_eq_iff, BitVec.toNat_add, BitVec.toNat_add, toNat_low]
  cases m <;> simp only [modulus, Bool.false_eq_true, if_true, if_false] <;> omega

theorem low_low_shiftLeft (m : Bool) (v : Word) : low m (low m v <<< 1) = low m (v <<< 1) := by
  rw [low_eq_iff, BitVec.toNat_shiftLeft, BitVec.toNat_shiftLeft, toNat_low, Nat.shiftLeft_eq, Nat.shiftLeft_eq]
  cases m <;> simp only [modulus, Bool.false_eq_true, if_true, if_false] <;> omega

theorem getLsbD_zero_low (m : Bool) (v : Word) : (low m v).getLsbD 0 = v.getLsbD 0 := by
  cases m
  · rfl
  · rw [← truncate_widthOf, widthOf, if_pos rfl, truncate, BitVec.getLsbD_and]
    exact Bool.and_true _

/-- The accumulator forms see the low bits of `A` only. -/
theorem rmwResult_low {mn : Mnemonic} (h : mn ∈ accMnemonics) (a old : Word) (c : Bool) :
    low m (rmwResult m a (low m old) c mn) = low m (rmwResult m a old c mn) ∧
      rmwCarry m (low m old) mn = rmwCarry m old mn := by
  cases mn
  case inc => exact ⟨low_low_add m old 1, rfl⟩
  case dec => exact ⟨low_low_sub m old 1, rfl⟩
  case asl => exact ⟨low_low_shiftLeft m old, congrArg some (sign_low m old)⟩
  case rol =>
    refine ⟨?_, congrArg some (sign_low m old)⟩
    simp only [rmwResult, low_or, low_low_shiftLeft]
  case lsr | ror => exact ⟨by simp only [rmwResult, low_low], congrArg some (getLsbD_zero_low m old)⟩
  all_goals exact absurd h (of_decide_eq_true rfl)

theorem modify_acc_of (op : Width → Word → Byte → Word × Byte) (s : State) :
    ∃ t, modify .acc op s = .ok t ∧
      t.a = dual (s.flag .m) s.a (op s.wM (low (s.flag .m) s.a) s.p).1 ∧
      t.p = (op s.wM (low (s.flag .m) s.a) s.p).2 := by
  rw [← truncate_widthOf, ← mergeLow_widthOf]
  exact ⟨_, rfl, rfl, rfl⟩

/-- Settles O44: the handler modifies `A` at its width, which the computation sees the low bits of. -/
theorem modifyAccumulator : Obligations.ModifyAccumulator := by
  intro i s hform m res
  have hm := mnemonic_of_acc hform
  have hrun : handler i.form (s.begin i) i.mnemonic = modify .acc (rmwOp s.a i.mnemonic) (s.begin i) := by
    rw [handler_rmw (List.mem_append_left [.tsb, .trb] hm), hform]; rfl
  obtain ⟨u, hu, ha, hp⟩ := modify_acc_of (rmwOp s.a i.mnemonic) (s.begin i)
  obtain ⟨t, ht, ha', hflags, -⟩ := exec_leaves (hrun.trans hu)
  obtain ⟨hres, hcarry⟩ := rmwResult_low (m := m) hm s.a s.a (s.flag .c)
  obtain ⟨hnz, hc⟩ := (hp ▸ hflags : t.FlagsOf _).rmw (m := m) hm
  refine ⟨t, ht, ?_, (hasNZ_congr hres).1 hnz, hcarry ▸ hc⟩
  calc t.a = dual m s.a (rmwOp s.a i.mnemonic (widthOf m) (low m s.a) s.p).1 := ha'.trans ha
    _ = dual m s.a (rmwResult m s.a (low m s.a) (s.flag .c) i.mnemonic) := by rw [rmwOp_eq hm, dual_low]; rfl
    _ = dual m s.a res := dual_congr _ hres

/-! ### On memory, with every other byte unchanged -/

/-- As `writeData_peek`, highest address first. -/
theorem writeBack_peek {b : Bool} {c : Wrap} {ea : Addr} {v : Word} {k : Nat} {x : Byte}
    (h : writeBack (widthOf b) c ea v s = .ok t) (hs : s.StoresWf) (hk : (datumBytes b v)[k]? = some x)
    (hr : isRam s.params (byteAddr c ea k) = true) : peek t (byteAddr c ea k) = some x := by
  cases b with
  | true =>
    match k with
    | 0 => cases hk; exact write8_peek_ram h hs hr
    | k + 1 => cases hk
  | false =>
    obtain ⟨u, h1, h0⟩ := Except.bind_ok.1 h
    have hp : u.params = s.params := (write8_bus h1).params
    match k with
    | 0 =>
      cases hk
      exact write8_peek_ram h0 (write8_storesWf h1 hs) (by rw [hp]; exact hr)
    | 1 =>
      cases hk
      rw [write8_peek_ne h0 (by rw [hp]; exact (byteAddr_cell_ne hs.2.2.2 (.inr hr)).symm)]
      exact write8_peek_ram h1 hs hr
    | k + 2 => cases hk

theorem datumBytes_low (b : Bool) (v : Word) : datumBytes b (low b v) = datumBytes b v := by
  cases b
  · rfl
  · exact congrArg ([·]) (loByte_mkWord _ _)

theorem Reads.p (h : Reads s t) : t.p = s.p := by
  obtain ⟨_, _, rfl⟩ := h; rfl

theorem Reads.wM (h : Reads s t) : t.wM = s.wM := by
  obtain ⟨_, _, rfl⟩ := h; rfl

section
variable {op : Width → Word → Byte → Word × Byte} {ea : Addr} {c : Wrap} {b : Bool} {old : Word}

theorem modifyAt_of_writable (h : readData s.wM c ea s = .ok (old, r))
    (hw : ∀ k, k < s.wM.bytes → writable s.params (byteAddr c ea k) = true) :
    ∃ w, writeBack s.wM c ea (op s.wM old s.p).1 r = .ok w ∧
      modifyAt (.mem ea c b) op s = .ok { w with p := (op s.wM old s.p).2 } := by
  have hr := readData_reads h
  rw [← hr.bus.params] at hw
  obtain ⟨w, hback⟩ := writeBack_of_writable (op s.wM old s.p).1 hw
  refine ⟨w, hback, ?_⟩
  rw [modifyAt, h, Except.ok_bind]
  dsimp only
  rw [hr.wM, hr.p, hback]
  rfl

/-- A read-modify-write at an address whose bytes accept a write: the new value is written back there, and
`P` is the computation's. -/
theorem modify_of_writable {f : Form} (h1 : resolve f s = .ok (.mem ea c b, u))
    (h2 : readData s.wM c ea u = .ok (old, r))
    (hw : ∀ k, k < s.wM.bytes → writable s.params (byteAddr c ea k) = true) :
    ∃ w t, writeBack s.wM c ea (op s.wM old s.p).1 r = .ok w ∧ modify f op s = .ok t ∧
      t.p = (op s.wM old s.p).2 ∧ ∀ a, peek t a = peek w a := by
  have hu := resolve_reads h1
  rw [← hu.wM] at h2 hw
  rw [← hu.bus.params] at hw
  obtain ⟨w, hback, hmod⟩ := modifyAt_of_writable (op := op) (b := b) h2 hw
  rw [hu.wM, hu.p] at hback hmod
  refine ⟨w, { w with p := (op s.wM old s.p).2 }.charge (if u.flag .m then 0 else modifyPenalty (.mem ea c b)),
    hback, ?_, rfl, peek_congr rfl rfl rfl⟩
  rw [modify, h1, Except.ok_bind]
  dsimp only
  rw [hmod]
  rfl

end

theorem rmw_cases {mn : Mnemonic} (h : mn ∈ rmwMnemonics) :
    mn ∈ accMnemonics ∨ mn = .tsb ∨ mn = .trb := by
  simpa [or_assoc] using h

/-- The value every read-modify-write gives. -/
theorem rmwOp_value {mn : Mnemonic} (h : mn ∈ rmwMnemonics) (a old : Word)
    (p : Byte) : (rmwOp a mn (widthOf m) old p).1 = low m (rmwResult m a old (getFlag p .c) mn) := by
  rcases rmw_cases h with hm | hm
  · rw [rmwOp_eq hm]
  · rw [rmwOp_test hm]

/-- Settles O45: the handler reads, writes the new value back, and then writes `P`. -/
theorem modifyMemory : Obligations.ModifyMemory := by
  intro i s ea c crossed u r old hs hm h1 h2 hw m res
  obtain ⟨w, v, hback, hmod, hp, hv⟩ := modify_of_writable (op := rmwOp s.a i.mnemonic) h1 h2 hw
  obtain ⟨t, ht, -, hflags, hpeek⟩ := exec_leaves ((handler_rmw hm i.form).trans hmod)
  rw [hp] at hflags
  have hreads : Reads (s.begin i) r := (resolve_reads h1).trans (readData_reads h2)
  have hparams : r.params = s.params := hreads.bus.params
  have hvalue : writeBack (widthOf m) c ea (low m res) r = .ok w := rmwOp_value hm s.a old s.p ▸ hback
  refine ⟨t, ht, fun k x hk hram => ?bytes, fun a ha => ?frame, fun htest => ?test, fun htsb htrb => ?nz,
    fun b hb => ?carry⟩
  case bytes =>
    rw [hpeek, hv]
    exact writeBack_peek hvalue (hreads.storesWf hs) (by rwa [datumBytes_low]) (by rwa [hparams])
  case frame =>
    rw [hpeek, hv, (writeBack_stored hback).frame a (by rw [hparams]; exact outside_iff.1 ha)]
    exact hreads.peek a
  case test =>
    rw [hflags .z (by decide) (by decide), begin_wM, State.wM, rmwOp_test htest _ _ (s.flag .c)]
    exact getFlag_putFlag_same _ _ _
  case nz =>
    have hm := (rmw_cases hm).resolve_right (not_or.2 ⟨htsb, htrb⟩)
    exact (hflags.rmw (m := m) hm).1
  case carry =>
    rcases rmw_cases hm with hm | hm | hm
    · exact (hflags.rmw (m := m) hm).2 b hb
    · rw [hm] at hb; cases hb
    · rw [hm] at hb; cases hb

end Sys2Proof.Machine

namespace Sys2Proof

open Machine

/-- Settles O48: what `bitFlags` writes and leaves, of which `Normalize` touches no flag. -/
theorem bitTest : Obligations.BitTest := by
  intro i s o u r v hm h1 h2 m
  obtain ⟨w, hw, hp⟩ := bitTest_of (imm := Form.isImmM i.form) h1 h2
  obtain ⟨t, ht, -, hflags, -⟩ := exec_leaves (i := i) (by rw [hm]; exact hw)
  rw [hp] at hflags
  obtain ⟨hz, hn, hv⟩ := bitFlags_widthOf (Form.isImmM i.form) m s.a v s.p
  exact ⟨t, ht, (hflags .z (by decide) (by decide)).trans hz, (hflags .n (by decide) (by decide)).trans hn,
    (hflags .v (by decide) (by decide)).trans hv⟩

end Sys2Proof
end

/-! The statements of 43_control_transfer.md: where the branches, the jumps, the calls and the returns go, and
what the last two leave on the stack. `Normalize` changes neither `PC` nor `PBR`, and a stack pointer that a
push or a pull has moved already stands where it would put it. -/

namespace Sys2Proof.Machine

variable {s t u w : State} {i : Instr}

/-- Where an instruction whose handler answers goes. -/
theorem exec_goes (h : handler i.form (s.begin i) i.mnemonic = .ok u) :
    ∃ t, exec i s = .next t ∧ t.pc = u.pc ∧ t.pbr = u.pbr :=
  ⟨_, exec_of_handler h, u.normalize_pc, u.normalize_pbr⟩

/-! ### Branches (43_control_transfer.md R270 to R280) -/

theorem branchOn_pbr (f : Flag) (b : Bool) (r : Byte) (s : State) : (branchOn f b r s).pbr = s.pbr := by
  unfold branchOn; split <;> rfl

theorem branchOn_pc (f : Flag) (b : Bool) (r : Byte) (s : State) :
    (branchOn f b r s).pc = if s.flag f = b then s.pc + sextByte r else s.pc := by
  unfold branchOn; split <;> rfl

/-- A conditional branch, two bytes long, whose condition is `taken`. -/
theorem exec_branchOn {f : Flag} {b taken : Bool} {r : Byte}
    (h : handler i.form (s.begin i) i.mnemonic = .ok (branchOn f b r (s.begin i)))
    (hl : i.form.length = 2) (hc : s.flag f = b ↔ taken = true) :
    ∃ t, exec i s = .next t ∧ t.pbr = s.pbr ∧
      t.pc = (if taken then s.pc + 2 + r.signExtend 16 else s.pc + 2) := by
  obtain ⟨t, ht, hpc, hpbr⟩ := exec_goes h
  have hnext : (s.begin i).pc = s.pc + 2 := by rw [State.begin, hl]; rfl
  refine ⟨t, ht, hpbr.trans (branchOn_pbr f b r _), ?_⟩
  rw [hpc, branchOn_pc, hnext]
  exact if_congr hc rfl rfl

/-- Settles O49: eight conditional branches on a flag that is clear or set, and the two that always go. -/
theorem branches : Obligations.Branches := by
  intro s r rl goes
  have isSet (b : Bool) : b = true ↔ b = true := Iff.rfl
  have isClear (b : Bool) : b = false ↔ (!b) = true := by simp
  refine ⟨?bpl, ?bmi, ?bvc, ?bvs, ?bcc, ?bcs, ?bne, ?beq, ?bra, ?brl⟩
  case bpl | bvc | bcc | bne => exact exec_branchOn rfl rfl (isClear _)
  case bmi | bvs | bcs | beq => exact exec_branchOn rfl rfl (isSet _)
  case bra =>
    obtain ⟨t, ht, hpc, hpbr⟩ := exec_goes (i := .bra r) (s := s) rfl
    exact ⟨t, ht, hpbr, hpc⟩
  case brl =>
    obtain ⟨t, ht, hpc, hpbr⟩ := exec_goes (i := .brl rl) (s := s) rfl
    exact ⟨t, ht, hpbr, hpc⟩

/-! ### Jumps (43_control_transfer.md R281, R282) -/

section
variable {a p v : Word} {l : Addr} {b : Byte}

theorem Reads.pbr (h : Reads s t) : t.pbr = s.pbr := by
  obtain ⟨_, _, rfl⟩ := h; rfl

theorem jmpInd_of (h : readWord .bank (mkAddr 0 a) s = .ok (p, u)) :
    jmpInd a s = .ok { u with pc := p } := by
  rw [jmpInd, readAbsInd, h]; rfl

theorem jmpIndX_of (h : readWord .bank (mkAddr s.pbr (a + s.x)) s = .ok (p, u)) :
    jmpIndX a s = .ok { u with pc := p } := by
  rw [jmpIndX, readAbsIndX, h]; rfl

theorem jmlInd_of (h : readLong .bank (mkAddr 0 a) s = .ok (l, u)) : jmlInd a s = .ok (u.goto l) := by
  rw [jmlInd, readAbsIndLong, h]; rfl

end

/-- Settles O50: a jump goes to its operand or to the pointer read; the reads leave `PBR`. -/
theorem jumps : Obligations.Jumps := by
  intro s u a p l
  refine ⟨exec_goes (i := .jmpAbs a) rfl, fun h => ?ind, fun h => ?indX, exec_goes (i := .jmlLong l) rfl,
    fun h => exec_goes (i := .jmlAbsIndLong a) (jmlInd_of h)⟩
  case ind =>
    obtain ⟨t, ht, hpc, hpbr⟩ := exec_goes (i := .jmpAbsInd a) (jmpInd_of h)
    exact ⟨t, ht, hpc, hpbr.trans (readWord_reads h).pbr⟩
  case indX =>
    obtain ⟨t, ht, hpc, hpbr⟩ := exec_goes (i := .jmpAbsIndX a) (jmpIndX_of h)
    exact ⟨t, ht, hpc, hpbr.trans (readWord_reads h).pbr⟩

/-! ### The stack pointer at the end of an instruction (44_stack.md R303) -/

theorem stackWrap_stackWrap (e : Bool) (sp : Word) : stackWrap e (stackWrap e sp) = stackWrap e sp := by
  cases e
  · rfl
  · exact pageOne_of_hiByte (hiByte_pageOne sp)

/-- A stack pointer that a push has moved is in the mode's page. -/
theorem stackWrap_stackDown (e : Bool) (n : Nat) (sp : Word) :
    stackWrap e (stackDown e (n + 1) sp) = stackDown e (n + 1) sp := by
  rw [← stackDown_add e n 1]
  exact stackWrap_stackWrap e _

/-- A stack pointer that a pull has moved is in the mode's page. -/
theorem stackWrap_stackUp (e : Bool) (n : Nat) (sp : Word) :
    stackWrap e (stackUp e (n + 1) sp) = stackUp e (n + 1) sp := by
  rw [← stackUp_add e n 1]
  exact stackWrap_stackWrap e _

/-- `Normalize` keeps a stack pointer that is in the page of the mode before the instruction. -/
theorem normalize_sp_of_stackWrap {sp : Word} (he : u.e = s.e) (hu : u.sp = sp) (h : stackWrap s.e sp = sp) :
    u.normalize.sp = sp := by
  rw [State.normalize_sp, he, hu]
  exact h

/-! ### Calls (43_control_transfer.md R283, R284) -/

/-- What bytes pushed one after the other leave of the stack and of memory. -/
theorem pushAll_statePushed {bs : List Byte} (h : pushAll bs s = .ok t) (hs : s.StoresWf)
    (hl : bs.length ≤ 256) : s.Pushed bs t :=
  ⟨(pushAll_pushed h).sp, fun _ _ hk hr => pushAll_peek h hs hl hk hr, (pushAll_pushed h).frame⟩

theorem State.Pushed.congr {bs : List Byte} (h : s.Pushed bs t) (hsp : u.sp = t.sp)
    (hpeek : ∀ a, peek u a = peek t a) : s.Pushed bs u := by
  obtain ⟨h1, h2, h3⟩ := h
  exact ⟨hsp.trans h1, fun k b hk hr => (hpeek _).trans (h2 k b hk hr), fun a ha => (hpeek a).trans (h3 a ha)⟩

/-- An instruction that has pushed bytes, and then read at most before it went elsewhere. -/
theorem exec_pushes {b : Byte} {bs : List Byte} (hs : s.StoresWf)
    (h : handler i.form (s.begin i) i.mnemonic = .ok w) (hpush : pushAll (b :: bs) (s.begin i) = .ok u)
    (hl : (b :: bs).length ≤ 256) (hw : Reads { u with pc := w.pc, pbr := w.pbr } w) :
    ∃ t, exec i s = .next t ∧ s.Pushed (b :: bs) t ∧ t.pc = w.pc ∧ t.pbr = w.pbr := by
  have hu := pushAll_pushed hpush
  have hpushed : s.Pushed (b :: bs) u := pushAll_statePushed (s := s.begin i) hpush hs hl
  obtain ⟨he, hsp⟩ : w.e = u.e ∧ w.sp = u.sp := by
    obtain ⟨_, _, hw⟩ := hw; rw [hw]; exact ⟨rfl, rfl⟩
  refine ⟨_, exec_of_handler h, hpushed.congr ?sp fun a => ?mem, w.normalize_pc, w.normalize_pbr⟩
  case sp =>
    rw [hpushed.1]
    exact normalize_sp_of_stackWrap (he.trans hu.e) (hsp.trans hpushed.1) (stackWrap_stackDown _ _ _)
  case mem =>
    rw [peek_normalize, hw.peek]
    exact peek_congr rfl rfl rfl a

theorem Pushed.pbr {n : Nat} (h : Pushed n s t) : t.pbr = s.pbr := by
  obtain ⟨_, _, _, _, _, rfl⟩ := h.bus; rfl

theorem Pushed.x {n : Nat} (h : Pushed n s t) : t.x = s.x := by
  obtain ⟨_, _, _, _, _, rfl⟩ := h.bus; rfl

/-- The address of the last byte of an instruction is the return address its handler pushes. -/
theorem begin_pc_sub_one {n : Nat} (hl : i.form.length = n + 1) :
    (s.begin i).pc - 1 = s.pc + BitVec.ofNat 16 n := by
  rw [State.begin, hl, BitVec.ofNat_add, ← BitVec.add_assoc]
  exact BitVec.add_sub_cancel _ _

section
variable {a p ret : Word} {l : Addr}

theorem jsrAbs_of (h : push16 (s.pc - 1) s = .ok u) : jsrAbs a s = .ok { u with pc := a } := by
  rw [jsrAbs, h]; rfl

theorem jsrIndX_of (h : push16 (s.pc - 1) s = .ok u)
    (hp : readWord .bank (mkAddr u.pbr (a + u.x)) u = .ok (p, w)) : jsrIndX a s = .ok { w with pc := p } := by
  rw [jsrIndX, h, Except.ok_bind, readAbsIndX, hp]; rfl

theorem jslLong_of (h : pushAll (s.pbr :: pushOrder (s.pc - 1)) s = .ok u) :
    jslLong l s = .ok (u.goto l) := by
  obtain ⟨v, hv, h⟩ := Except.bind_ok.1 h
  rw [← push16_eq] at h
  rw [jslLong, hv, Except.ok_bind, h]; rfl

end

/-- Settles O51: a call pushes and then goes to its operand, or to the pointer it reads after the push. -/
theorem calls : Obligations.Calls := by
  intro s u w a p l hs
  refine ⟨fun h => ?jsr, fun h hp => ?jsrIndX, fun h => ?jsl⟩
  case jsr =>
    obtain ⟨u, hu⟩ := pushAll_of_writable (s := s.begin (.jsrAbs a)) (pushOrder (s.pc + 2)) h
    have hret : (s.begin (.jsrAbs a)).pc - 1 = s.pc + 2 := begin_pc_sub_one rfl
    obtain ⟨t, ht, hst, hpc, hpbr⟩ := exec_pushes (i := .jsrAbs a) hs
      (jsrAbs_of (by rw [hret, push16_eq, hu])) hu (by simp) (.refl _)
    exact ⟨t, ht, hst, hpc, hpbr.trans (pushAll_pushed hu).pbr⟩
  case jsrIndX =>
    have hret : (s.begin (.jsrAbsIndX a)).pc - 1 = s.pc + 2 := begin_pc_sub_one rfl
    have hu := push16_pushed h
    obtain ⟨n, k, hw⟩ := readWord_reads hp
    obtain ⟨t, ht, hst, hpc, hpbr⟩ := exec_pushes (i := .jsrAbsIndX a) hs
      (jsrIndX_of (by rw [hret, h]) (by rw [hu.pbr, hu.x]; exact hp)) (push16_eq _ _ ▸ h) (by simp)
      ⟨n, k, by rw [hw]⟩
    exact ⟨t, ht, hst, hpc, hpbr.trans ((readWord_reads hp).pbr.trans hu.pbr)⟩
  case jsl =>
    obtain ⟨u, hu⟩ := pushAll_of_writable (s := s.begin (.jsl l)) (s.pbr :: pushOrder (s.pc + 3)) h
    have hret : (s.begin (.jsl l)).pc - 1 = s.pc + 3 := begin_pc_sub_one rfl
    exact exec_pushes (i := .jsl l) hs (jslLong_of (by rw [hret]; exact hu)) hu (by simp [pushOrder]) (.refl _)

/-! ### Returns (43_control_transfer.md R285, R286) -/

theorem PulledN.e {n : Nat} (h : PulledN n s t) : t.e = s.e := by
  obtain ⟨_, _, rfl⟩ := h; rfl

theorem PulledN.sp {n : Nat} (h : PulledN n s t) : t.sp = stackUp s.e n s.sp := by
  obtain ⟨_, _, rfl⟩ := h; rfl

theorem PulledN.pbr {n : Nat} (h : PulledN n s t) : t.pbr = s.pbr := by
  obtain ⟨_, _, rfl⟩ := h; rfl

/-- The stack pointer of an instruction that has pulled, whatever it wrote since beside `E` and `S`. -/
theorem PulledN.normalize_sp {n : Nat} (h : PulledN (n + 1) s t) (he : u.e = t.e) (hsp : u.sp = t.sp) :
    u.normalize.sp = stackUp s.e (n + 1) s.sp :=
  normalize_sp_of_stackWrap (he.trans h.e) (hsp.trans h.sp) (stackWrap_stackUp _ _ _)

theorem rts_of {v : Word} (h : pull16 s = .ok (v, u)) : Machine.rts s = .ok { u with pc := v + 1 } := by
  rw [Machine.rts, h]; rfl

theorem rtl_of {v : Word} {b : Byte} (h : pull16 s = .ok (v, u)) (hb : pull8 u = .ok (b, w)) :
    Machine.rtl s = .ok { w with pc := v + 1, pbr := b } := by
  rw [Machine.rtl, h, Except.ok_bind]
  dsimp only
  rw [hb]; rfl

/-- Settles O52: the handlers add 1 to the pulled word alone; the pulls leave `PBR`. -/
theorem returns : Obligations.Returns := by
  intro s u w v b
  refine ⟨fun h => ?rts, fun h hb => ?rtl⟩
  case rts =>
    have hu := pull16_pulled h
    have hrun := rts_of h
    exact ⟨_, exec_of_handler (i := .rts) hrun, State.normalize_pc _, (State.normalize_pbr _).trans hu.pbr,
      hu.normalize_sp rfl rfl⟩
  case rtl =>
    have hrun := rtl_of h hb
    exact ⟨_, exec_of_handler (i := .rtl) hrun, State.normalize_pc _, State.normalize_pbr _,
      ((pull16_pulled h).trans (pull8_pulled hb)).normalize_sp rfl rfl⟩

end Sys2Proof.Machine

/-! The statements of 44_stack.md: a pull after a push, and what each push and each pull instruction does. A
push of any width is bytes pushed one after the other, so one lemma about those serves every row, and
`Normalize` keeps a stack pointer that a push or a pull has moved. -/

namespace Sys2Proof.Machine

variable {s t u w : State} {i : Instr}

/-! ### A pull after a push (44_stack.md R300 to R303) -/

theorem stackWrap_of_I1 (h : s.I1) : stackWrap s.e s.sp = s.sp := by
  unfold stackWrap
  split
  · next he => exact pageOne_of_hiByte (h he).2.2
  · rfl

/-- From a stack pointer in the mode's page, one up takes back one down, across the end of the page too. -/
theorem stackWrap_up_down {e : Bool} {sp : Word} (h : stackWrap e sp = sp) :
    stackWrap e (stackWrap e (sp - 1) + 1) = sp := by
  cases e with
  | false => exact BitVec.sub_add_cancel sp 1
  | true =>
    have hlow (v : Word) : loByte (v + 1) = loByte v + 1 := BitVec.setWidth_add v 1 (by decide)
    have hback : loByte (pageOne (sp - 1) + 1) = loByte sp := by
      rw [hlow, loByte_pageOne, ← hlow, BitVec.sub_add_cancel]
    calc pageOne (pageOne (sp - 1) + 1) = pageOne sp := by rw [pageOne_eq, hback, ← pageOne_eq]
      _ = sp := h

/-- From a stack pointer in the mode's page, `k` pulls take back the last `k` of the pushes. -/
theorem stackUp_stackDown {e : Bool} {sp : Word} (h : stackWrap e sp = sp) (m k : Nat) :
    stackUp e k (stackDown e (m + k) sp) = stackDown e m sp := by
  induction k with
  | zero => rfl
  | succ k ih =>
    have hpage : stackWrap e (stackDown e (m + k) sp) = stackDown e (m + k) sp := by
      cases hn : m + k with
      | zero => exact h
      | succ n => exact stackWrap_stackDown e n sp
    rw [← Nat.add_assoc, ← stackDown_add e (m + k) 1]
    show stackUp e k (stackWrap e (stackWrap e (stackDown e (m + k) sp - 1) + 1)) = _
    rw [stackWrap_up_down hpage, ih]

/-- The slots of the pulls are those of the pushes, last first. -/
theorem Pushed.pullSlot {m k : Nat} (h : Pushed (m + (k + 1)) s t) (hs : s.I1) :
    t.pullSlot k = s.pushSlot m := by
  rw [State.pullSlot, h.e, h.sp, stackUp_stackDown (stackWrap_of_I1 hs), State.pushSlot]

theorem Pushed.stackUp_sp {n : Nat} (h : Pushed n s t) (hs : s.I1) : stackUp t.e n t.sp = s.sp := by
  have hback := stackUp_stackDown (stackWrap_of_I1 hs) 0 n
  rwa [Nat.zero_add, ← h.sp, ← h.e] at hback

theorem pushAll_singleton (v : Byte) (s : State) : pushAll [v] s = push8 v s := by
  rw [pushAll]
  cases push8 v s <;> rfl

/-- Settles O16: the bytes pushed stand in their slots, and the slots of the pulls are those of the pushes. -/
theorem stackIdentity : Obligations.StackIdentity := by
  intro s hs hI1
  refine ⟨fun v h0 => ?byte, fun v h0 h1 => ?word⟩
  case byte =>
    obtain ⟨t, ht⟩ := push8_of_writable v (writable_of_isRam h0)
    have hp := push8_pushed ht
    obtain ⟨hsp, hslot, -⟩ := pushAll_statePushed (pushAll_singleton v s ▸ ht) hs (by simp)
    have hpeek : peek t (mkAddr 0 s.sp) = some v := hslot 0 v rfl h0
    have hat : t.pullSlot 0 = mkAddr 0 s.sp := Pushed.pullSlot (m := 0) hp hI1
    refine ⟨t, ht, hpeek, hsp, ?_⟩
    rw [pull8_of_peek (hat ▸ hpeek), hp.stackUp_sp hI1]
  case word =>
    have hcan : s.CanPush 2 := fun k hk => writable_of_isRam (by interval_cases k <;> assumption)
    obtain ⟨t, ht⟩ := push16_of_writable v hcan
    have hp := push16_pushed ht
    obtain ⟨hsp, hslot, -⟩ := pushAll_statePushed (push16_eq v s ▸ ht) hs (by simp [pushOrder])
    have hhigh : peek t (s.pushSlot 0) = some (hiByte v) := hslot 0 _ rfl h0
    have hlow : peek t (s.pushSlot 1) = some (loByte v) := hslot 1 _ rfl h1
    have hfirst : t.pullSlot 0 = s.pushSlot 1 := Pushed.pullSlot (m := 1) hp hI1
    have hsecond : t.pullSlot 1 = s.pushSlot 0 := Pushed.pullSlot (m := 0) hp hI1
    refine ⟨t, ht, hhigh, hlow, hsp, ?_⟩
    rw [pull16_of_peek (hfirst ▸ hlow) (hsecond ▸ hhigh), mkWord_bytes, hp.stackUp_sp hI1]

/-! ### Push instructions (44_stack.md R304 to R310, R317 to R319) -/

theorem pushW_eq (b : Bool) (v : Word) (s : State) :
    pushW (widthOf b) v s = pushAll (if b then [loByte v] else pushOrder v) s := by
  cases b
  · exact push16_eq v s
  · exact (pushAll_singleton (loByte v) s).symm

/-- Reads before a push change neither where it goes nor what it leaves. -/
theorem State.Pushed.of_reads {bs : List Byte} (hr : Reads s u) (h : u.Pushed bs t) : s.Pushed bs t := by
  have hpeek := hr.peek
  obtain ⟨hsp, hslot, hframe⟩ := h
  obtain ⟨_, _, rfl⟩ := hr
  exact ⟨hsp, hslot, fun a ha => (hframe a ha).trans (hpeek a)⟩

/-- An instruction that reads at most, pushes one byte or two, and then only charges cycles. -/
theorem exec_pushes_charging {bs : List Byte} {c : State → Nat} (hs : s.StoresWf) (hu : Reads (s.begin i) u)
    (h : handler i.form (s.begin i) i.mnemonic = pushAll bs u >>= fun t => .ok (t.charge (c t)))
    (hl : bs.length = 1 ∨ bs.length = 2) (hw : s.CanPush bs.length) :
    ∃ t, exec i s = .next t ∧ s.Pushed bs t := by
  obtain ⟨hcan, hE⟩ : u.CanPush bs.length ∧ u.e = s.e := by
    obtain ⟨_, _, rfl⟩ := hu; exact ⟨hw, rfl⟩
  obtain ⟨t, ht⟩ := pushAll_of_writable bs hcan
  have hpushed : s.Pushed bs t :=
    State.Pushed.of_reads (s := s.begin i) hu (pushAll_statePushed ht (hu.storesWf hs) (by omega))
  have he : t.e = s.e := (pushAll_pushed ht).e.trans hE
  have hrun : handler i.form (s.begin i) i.mnemonic = .ok (t.charge (c t)) := by rw [h, ht]; rfl
  have hpage : stackWrap s.e (stackDown s.e bs.length s.sp) = stackDown s.e bs.length s.sp := by
    rcases hl with hl | hl <;> rw [hl] <;> exact stackWrap_stackDown _ _ _
  refine ⟨_, exec_of_handler hrun, hpushed.congr ?sp fun a => peek_normalize _ a⟩
  rw [hpushed.1]
  exact normalize_sp_of_stackWrap (u := t.charge (c t)) he hpushed.1 hpage

/-- An instruction that only pushes, after reads at most. -/
theorem exec_pushes_only {bs : List Byte} (hs : s.StoresWf) (hu : Reads (s.begin i) u)
    (h : handler i.form (s.begin i) i.mnemonic = pushAll bs u)
    (hl : bs.length = 1 ∨ bs.length = 2) (hw : s.CanPush bs.length) :
    ∃ t, exec i s = .next t ∧ s.Pushed bs t :=
  exec_pushes_charging (c := fun _ => 0) hs hu (h.trans (bind_pure _).symm) hl hw

theorem pei_of {d : Byte} {p : Word}
    (h : readWord .bank (mkAddr 0 (BitVec.ofNat 16 (s.d.toNat + d.toNat))) s = .ok (p, u)) :
    Machine.pei d s = pushAll (pushOrder p) u := by
  rw [Machine.pei, directAddr_eq, h, ← push16_eq]
  rfl

/-- Settles O53: the handler of each row is a push of its value, charged at most, and for PEI after its pointer
is read. -/
theorem pushes : Obligations.Pushes := by
  intro s u v p d hs row
  have width (b : Bool) (v : Word) : (if b then [loByte v] else pushOrder v).length = 1 ∨
      (if b then [loByte v] else pushOrder v).length = 2 := by
    cases b
    · exact .inr rfl
    · exact .inl rfl
  refine ⟨?pha, ?phx, ?phy, ?phb, ?phd, ?phk, ?php, ?pea, ?per, fun h => ?pei⟩
  case pha =>
    exact exec_pushes_charging hs (.refl _) (congrArg (· >>= _) (pushW_eq (s.flag .m) s.a _)) (width _ _)
  case phx =>
    exact exec_pushes_charging hs (.refl _) (congrArg (· >>= _) (pushW_eq (s.flag .x) s.x _)) (width _ _)
  case phy =>
    exact exec_pushes_charging hs (.refl _) (congrArg (· >>= _) (pushW_eq (s.flag .x) s.y _)) (width _ _)
  case phb | phk | php => exact exec_pushes_only hs (.refl _) (pushAll_singleton _ _).symm (.inl rfl)
  case phd | pea | per => exact exec_pushes_only hs (.refl _) (push16_eq _ _) (.inr rfl)
  case pei => exact exec_pushes_only hs (readWord_reads h) (pei_of h) (.inr rfl)

/-! ### Pull instructions (44_stack.md R311 to R316) -/

section
variable {v : Word} {b : Byte}

/-- A value pulled at a width fits that width. -/
theorem low_pullW {m : Bool} (h : pullW (widthOf m) s = .ok (v, u)) : low m v = v := by
  cases m with
  | false => rfl
  | true =>
    obtain ⟨⟨l, r⟩, -, h⟩ := Except.bind_ok.1 h
    cases h
    exact congrArg (mkWord · 0) (loByte_mkWord l 0)

theorem pullW_normalize_sp {m : Width} (h : pullW m s = .ok (v, u)) (he : w.e = u.e) (hsp : w.sp = u.sp) :
    w.normalize.sp = stackUp s.e m.bytes s.sp := by
  have hu := pullW_pulled h
  cases m with
  | w8 => exact PulledN.normalize_sp (n := 0) hu he hsp
  | w16 => exact PulledN.normalize_sp (n := 1) hu he hsp

theorem pla_of (h : pullW s.wM s = .ok (v, u)) :
    Machine.pla s = .ok (((u.chargeM 1).putA s.wM v).setNZ s.wM v) := by
  obtain ⟨_, _, rfl⟩ := pullW_pulled h
  rw [Machine.pla, h]
  rfl

theorem plx_of (h : pullW s.wX s = .ok (v, u)) :
    Machine.plx s = .ok ({ u.chargeX with x := v }.setNZ s.wX v) := by
  obtain ⟨_, _, rfl⟩ := pullW_pulled h
  rw [Machine.plx, h]
  rfl

theorem ply_of (h : pullW s.wX s = .ok (v, u)) :
    Machine.ply s = .ok ({ u.chargeX with y := v }.setNZ s.wX v) := by
  obtain ⟨_, _, rfl⟩ := pullW_pulled h
  rw [Machine.ply, h]
  rfl

theorem plb_of (h : pull8 s = .ok (b, u)) :
    Machine.plb s = .ok ({ u with dbr := b }.setNZ .w8 (mkWord b 0)) := by
  rw [Machine.plb, h, ← zextByte_eq_mkWord]
  rfl

theorem pld_of (h : pull16 s = .ok (v, u)) : Machine.pld s = .ok ({ u with d := v }.setNZ .w16 v) := by
  rw [Machine.pld, h]
  rfl

theorem plp_of (h : pull8 s = .ok (b, u)) : Machine.plp s = .ok { u with p := b } := by
  rw [Machine.plp, h]
  rfl

/-- A pull into an index register, whose row leaves `P.X`: `Normalize` leaves the pulled value, which fits. -/
theorem exec_pulls_index {q : Reg} (hq : q = .x ∨ q = .y) (hs : s.ModeInv)
    (hp : pullW s.wX (s.begin i) = .ok (v, u)) (h : handler i.form (s.begin i) i.mnemonic = .ok w)
    (hf : .x ∉ Instr.flagSet i) (hv : w.reg q = v) (hnz : w.HasNZ (s.flag .x) v)
    (he : w.e = u.e) (hsp : w.sp = u.sp) :
    ∃ t, exec i s = .next t ∧ t.reg q = v ∧ t.HasNZ (s.flag .x) v ∧ t.sp = stackUp s.e s.wX.bytes s.sp := by
  obtain ⟨t, ht, hreg, hflags⟩ := exec_sets_index hq hs h hf (congrArg _ hv) hnz
  cases (exec_of_handler h).symm.trans ht
  exact ⟨_, ht, hreg.trans (low_pullW hp), hflags, pullW_normalize_sp (s := s.begin i) hp he hsp⟩

end

/-- Settles O54: each handler puts the pulled value in its register; `Normalize` keeps it there, keeps `M` and
`X` at 1 in emulation mode, and cuts the index registers to the width of the new `P.X`. -/
theorem pulls : Obligations.Pulls := by
  intro s u v b hs m x
  refine ⟨fun h => ?pla, fun h => ?plx, fun h => ?ply, fun h => ?plb, fun h => ?pld, fun h => ?plp⟩
  case pla =>
    have hA : u.a = s.a := by obtain ⟨_, _, rfl⟩ := pullW_pulled h; rfl
    refine ⟨_, exec_of_handler (i := .pla) (pla_of h), ?_, normalize_hasNZ.2 (hasNZ_setNZ _ m v),
      pullW_normalize_sp (s := s.begin .pla) h rfl rfl⟩
    rw [State.normalize_a, ← hA]
    exact mergeLow_widthOf m u.a v
  case plx =>
    exact exec_pulls_index (i := .plx) (q := .x) (.inl rfl) hs h (plx_of h) (by decide) rfl (hasNZ_setNZ _ x v)
      rfl rfl
  case ply =>
    exact exec_pulls_index (i := .ply) (q := .y) (.inr rfl) hs h (ply_of h) (by decide) rfl (hasNZ_setNZ _ x v)
      rfl rfl
  case plb =>
    exact ⟨_, exec_of_handler (i := .plb) (plb_of h), State.normalize_dbr _,
      normalize_hasNZ.2 (hasNZ_setNZ _ true _), (pull8_pulled h).normalize_sp rfl rfl⟩
  case pld =>
    exact ⟨_, exec_of_handler (i := .pld) (pld_of h), State.normalize_d _,
      normalize_hasNZ.2 (hasNZ_setNZ _ false v), (pull16_pulled h).normalize_sp rfl rfl⟩
  case plp =>
    have hu := pull8_pulled h
    obtain ⟨hE, hX, hY⟩ : u.e = s.e ∧ u.x = s.x ∧ u.y = s.y := by
      obtain ⟨_, _, rfl⟩ := hu; exact ⟨rfl, rfl, rfl⟩
    refine ⟨_, exec_of_handler (i := .plp) (plp_of h), ?_, ?_, ?_, hu.normalize_sp rfl rfl⟩
    · rw [normalize_p_eq, ← hE]
    · rw [normalize_x_low, ← hX]
    · rw [normalize_y_low, ← hY]

end Sys2Proof.Machine

/-! The statements of 45_flags_mode_system.md: the flag instructions and the mode switch, the instructions that
only pass, wait or stop, entry by BRK and COP, return by RTI, and one byte of a block move. A handler that leaves a
state with I1 and I2 has nothing left for `Normalize`, so most of them are their handler's result. -/

namespace Sys2Proof.Machine

variable {s t u v w : State} {i : Instr}

/-- An instruction whose handler leaves a state with the mode invariants ends in that state. -/
theorem exec_of_handler_modeInv (h : handler i.form (s.begin i) i.mnemonic = .ok u) (hu : u.ModeInv) :
    exec i s = .next u := by
  rw [exec_of_handler h, normalize_of_modeInv hu]

/-! ### Flag instructions (45_flags_mode_system.md R330 to R338) -/

/-- An instruction that writes `P` alone: `Normalize` keeps `M` and `X` at 1 in emulation mode and cuts the index
registers to the width of the new `P.X`. -/
theorem exec_writes_p {q : Byte} (hs : s.ModeInv)
    (h : handler i.form (s.begin i) i.mnemonic = .ok { s.begin i with p := q }) :
    ∃ t, exec i s = .next t ∧ t.p = (if s.e then q ||| 0x30 else q) ∧ t.sp = s.sp ∧
      t.x = low (t.flag .x) s.x ∧ t.y = low (t.flag .x) s.y :=
  ⟨_, exec_of_handler h, normalize_p_eq _, normalize_sp_kept hs.1 rfl rfl, normalize_x_low _, normalize_y_low _⟩

/-- Settles O55: each handler writes `P` alone, a flag by its mask as REP and SEP do. -/
theorem statusInstructions : Obligations.StatusInstructions := by
  intro s v hs gives
  refine ⟨?clc, ?cld, ?cli, ?clv, ?sec, ?sed, ?sei, ?rep, ?sep⟩
  all_goals exact exec_writes_p hs rfl

/-! ### The mode switch (45_flags_mode_system.md R340) -/

/-- Where `C` is clear, XCE enters native mode, or stays there, in a state that needs no `Normalize`. -/
theorem xce_modeInv (hs : s.ModeInv) (hc : s.flag .c = false) : (Machine.xce s).ModeInv := by
  have hX : (Machine.xce s).flag .x = s.flag .x := getFlag_putFlag_of_ne s.p s.e (by decide)
  refine ⟨fun he => absurd (hc.symm.trans he) (by decide), fun hx => hs.2 (hX.symm.trans hx)⟩

/-- Settles O56: `C` and `E` are exchanged by the handler; `Normalize` forces the state of emulation mode where
`C` was set, and does nothing where it was clear. -/
theorem exchangeCarry : Obligations.ExchangeCarry := by
  intro s hs
  have hrun : exec .xce s = .next (Machine.xce (s.begin .xce)).normalize := exec_of_handler (i := .xce) rfl
  have hflags : ∀ f, f ∉ Instr.flagSet .xce → (Machine.xce (s.begin .xce)).normalize.flag f = s.flag f :=
    flagFrame .xce s _ hs hrun
  refine ⟨_, hrun, State.normalize_e _, ?carry, fun hc => ?emulation, fun hc => ?native,
    fun f hC hM hX => hflags f (by simp [Instr.flagSet, Instr.mnemonic, Mnemonic.flagSet, *]),
    exec_reg (r := .a) hs hrun (by decide)⟩
  case carry =>
    rw [normalize_flag _ (by decide) (by decide)]
    exact getFlag_putFlag_same s.p .c s.e
  case emulation =>
    have he : (Machine.xce (s.begin .xce)).e = true := hc
    have hX : (Machine.xce (s.begin .xce)).normalize.flag .x = true := by
      rw [normalize_flag_width _ (.inr rfl), he, Bool.true_or]
    refine ⟨by rw [normalize_flag_width _ (.inl rfl), he, Bool.true_or], hX, ?_, ?_, ?_⟩
    · rw [normalize_x_low, hX]; rfl
    · rw [normalize_y_low, hX]; rfl
    · rw [normalize_sp_eq, if_pos he]; rfl
  case native =>
    rw [normalize_of_modeInv (xce_modeInv (s := s.begin .xce) hs hc)]
    exact ⟨getFlag_putFlag_of_ne s.p s.e (by decide), getFlag_putFlag_of_ne s.p s.e (by decide), rfl, rfl, rfl⟩

/-! ### NOP, WDM, WAI and STP (45_flags_mode_system.md R339, R341, R345, R346) -/

/-- Settles O57: nothing these handlers write concerns the mode invariants. -/
theorem noOperationWaitStop : Obligations.NoOperationWaitStop := by
  intro s v hs
  refine ⟨?nop, ?wdm, ?wai, ?stp⟩
  case nop => exact exec_of_handler_modeInv (i := .nop) rfl hs
  case wdm => exact exec_of_handler_modeInv (i := .wdm v) rfl hs
  case wai => exact exec_of_handler_modeInv (i := .wai) rfl hs
  case stp => exact exec_of_handler_modeInv (i := .stp) rfl hs

/-! ### The mode invariants after pushes and pulls -/

/-- A state keeps the mode invariants where, of what they speak of, only its stack pointer has moved, within the
mode's page. -/
theorem modeInv_of_stackWrap (hs : s.ModeInv) (he : t.e = s.e) (hM : t.flag .m = s.flag .m)
    (hX : t.flag .x = s.flag .x) (hx : t.x = s.x) (hy : t.y = s.y) (hsp : stackWrap s.e t.sp = t.sp) :
    t.ModeInv := by
  simp only [State.ModeInv, State.I1, State.I2, he, hM, hX, hx, hy]
  refine ⟨fun hmode => ?_, hs.2⟩
  obtain ⟨hmSet, hxSet, -⟩ := hs.1 hmode
  rw [hmode] at hsp
  exact ⟨hmSet, hxSet, hsp ▸ hiByte_pageOne t.sp⟩

/-! ### Software interrupts (45_flags_mode_system.md R342, R343) -/

/-- The status byte an entry pushes: bit 4 says in emulation mode what kind it is (60_exceptions.md R386). -/
def State.entryStatus (s : State) (k : IntKind) : Byte := if s.e then pushedStatus k s.p else s.p

/-- The vector of an event in the mode of the machine (60_exceptions.md R384). -/
def State.entryVector (s : State) (k : IntKind) : Word :=
  if s.e then s.params.vecE.entry k else s.params.vecN.entry k

theorem Pushed.p {n : Nat} (h : Pushed n s t) : t.p = s.p := by
  obtain ⟨_, _, _, _, _, rfl⟩ := h.bus; rfl

/-- An entry is the push of its frame, and then the vector (60_exceptions.md R385, R386). -/
theorem enter_of {k : IntKind} {ret : Word} (h : pushAll (s.entryFrame ret (s.entryStatus k)) s = .ok u) :
    enter k ret s = .ok (u.atVector (s.entryVector k)) := by
  have hparams := (pushAll_pushed h).params
  cases he : s.e with
  | true =>
    simp only [State.entryFrame, State.entryStatus, he, if_true] at h
    rw [pushAll_append, ← push16_eq] at h
    obtain ⟨r, hr, h⟩ := Except.bind_ok.1 h
    rw [pushAll_singleton, ← (push16_pushed hr).p] at h
    rw [enter, if_pos he, enterEmulation, hr, Except.ok_bind, h, Except.ok_bind, hparams, State.entryVector,
      if_pos he]
    rfl
  | false =>
    simp only [State.entryFrame, State.entryStatus, he, Bool.false_eq_true, if_false] at h
    obtain ⟨q, hq, h⟩ := Except.bind_ok.1 h
    rw [pushAll_append, ← push16_eq] at h
    obtain ⟨r, hr, h⟩ := Except.bind_ok.1 h
    rw [pushAll_singleton, ← (push8_pushed hq).p, ← (push16_pushed hr).p] at h
    rw [enter, if_neg (by simp [he]), enterNative, hq, Except.ok_bind, hr, Except.ok_bind, h, Except.ok_bind,
      hparams, State.entryVector, if_neg (by simp [he])]
    rfl

theorem State.entryFrame_length (s : State) (ret : Word) (status : Byte) :
    (s.entryFrame ret status).length = if s.e then 3 else 4 := by
  unfold State.entryFrame
  split <;> rfl

/-- The state an entry ends in. -/
theorem atVector_entered {ret x : Word} {status : Byte} (hs : s.StoresWf)
    (h : pushAll (s.entryFrame ret status) s = .ok u) : s.Entered x ret status (u.atVector x) := by
  have hl : (s.entryFrame ret status).length ≤ 256 := by
    rw [State.entryFrame_length]; split <;> decide
  have hpushed : s.Pushed (s.entryFrame ret status) (u.atVector x) :=
    (pushAll_statePushed h hs hl).congr rfl fun _ => rfl
  obtain ⟨_, _, _, _, _, rfl⟩ := (pushAll_pushed h).bus
  refine ⟨hpushed, rfl, rfl, rfl, rfl, ?_, getFlag_putFlag_same _ _ _, fun f hi hd => ?_, rfl, rfl, rfl, rfl, rfl⟩
  · exact (getFlag_putFlag_of_ne _ _ (by decide)).trans (getFlag_putFlag_same _ _ _)
  · exact (getFlag_putFlag_of_ne _ _ (Ne.symm hd)).trans (getFlag_putFlag_of_ne _ _ (Ne.symm hi))

/-- An entry leaves `Normalize` nothing to do. -/
theorem State.Entered.modeInv {x ret : Word} {status : Byte} (h : s.Entered x ret status t) (hs : s.ModeInv) :
    t.ModeInv := by
  obtain ⟨⟨hsp, -⟩, -, -, -, he, -, -, hf, -, hx, hy, -, -⟩ := h
  have hpage : stackWrap s.e t.sp = t.sp := by
    rw [hsp, State.entryFrame_length]
    split <;> exact stackWrap_stackDown _ _ _
  exact modeInv_of_stackWrap hs he (hf .m (by decide) (by decide)) (hf .x (by decide) (by decide)) hx hy hpage

/-- From a stack that accepts the frame, an entry is made. -/
theorem enter_entered (k : IntKind) (ret : Word) (hs : s.StoresWf) (hw : s.CanPush (if s.e then 3 else 4)) :
    ∃ t, enter k ret s = .ok t ∧ s.Entered (s.entryVector k) ret (s.entryStatus k) t := by
  rw [← State.entryFrame_length s ret (s.entryStatus k)] at hw
  obtain ⟨u, hu⟩ := pushAll_of_writable _ hw
  exact ⟨_, enter_of hu, atVector_entered hs hu⟩

/-- An instruction that enters at the address after its signature byte. -/
theorem exec_softInterrupt {k : IntKind} (hm : s.ModeInv) (hs : s.StoresWf) (hw : s.CanPush (if s.e then 3 else 4))
    (h : handler i.form (s.begin i) i.mnemonic = softInterrupt k (s.begin i)) (hl : i.form.length = 2) :
    ∃ t, exec i s = .next t ∧ s.Entered (s.entryVector k) (s.pc + 2) (s.entryStatus k) t := by
  have hret : (s.begin i).pc = s.pc + 2 := by rw [State.begin, hl]; rfl
  obtain ⟨t, ht, hentered⟩ := enter_entered (s := s.begin i) k (s.begin i).pc hs hw
  have hinv : t.ModeInv := hentered.modeInv hm
  refine ⟨t.chargeNative, exec_of_handler_modeInv (by rw [h, softInterrupt, ht]; rfl) hinv, ?_⟩
  rw [hret] at hentered
  exact hentered

/-- Settles O58: an entry by BRK or COP is the entry of an interrupt, whose return address is `PC_next`. -/
theorem softwareInterrupt : Obligations.SoftwareInterrupt := by
  intro s v hm hs hw
  exact ⟨exec_softInterrupt (k := .brk) (i := .brk v) hm hs hw rfl rfl,
    exec_softInterrupt (k := .cop) (i := .cop v) hm hs hw rfl rfl⟩

/-! ### RTI (45_flags_mode_system.md R344) -/

theorem PulledN.params {n : Nat} (h : PulledN n s t) : t.params = s.params := by
  obtain ⟨_, _, rfl⟩ := h; rfl

theorem PulledN.slot {n : Nat} (h : PulledN n s t) (k : Nat) : t.pullSlot k = s.pullSlot (n + k) := by
  rw [State.pullSlot, State.pullSlot, h.e, h.sp, stackUp_add, Nat.add_assoc]

theorem PulledN.peek_slot {n : Nat} (h : PulledN n s t) (k : Nat) :
    peek t (t.pullSlot k) = peek s (s.pullSlot (n + k)) := by
  rw [h.slot, Reads.peek h]
  exact peek_congr rfl rfl rfl _

theorem PulledN.readable_slot {n : Nat} (h : PulledN n s t) (k : Nat) :
    readable t.params (t.pullSlot k) = readable s.params (s.pullSlot (n + k)) := by
  rw [h.slot, h.params]

theorem pull8_of_readable (h : readable s.params (s.pullSlot 0) = true) : ∃ b t, pull8 s = .ok (b, t) :=
  read8_of_readable (s := { s with sp := stackUp s.e 1 s.sp }) h

theorem pull16_of_readable (h0 : readable s.params (s.pullSlot 0) = true)
    (h1 : readable s.params (s.pullSlot 1) = true) : ∃ x t, pull16 s = .ok (x, t) := by
  obtain ⟨l, u, hl⟩ := pull8_of_readable h0
  obtain ⟨b, t, hb⟩ := pull8_of_readable (((pull8_pulled hl).readable_slot 0).trans h1)
  exact ⟨mkWord l b, t, by rw [pull16, hl, Except.ok_bind]; dsimp only; rw [hb]; rfl⟩

/-- A byte pulled is the one that `peek` sees. -/
theorem pull8_eq_peek {b c : Byte} (h : pull8 s = .ok (b, t)) (hc : peek s (s.pullSlot 0) = some c) : b = c := by
  cases h.symm.trans (pull8_of_peek hc)
  rfl

theorem pull16_eq_peek {x : Word} {l b : Byte} (h : pull16 s = .ok (x, t)) (hl : peek s (s.pullSlot 0) = some l)
    (hb : peek s (s.pullSlot 1) = some b) : x = mkWord l b := by
  cases h.symm.trans (pull16_of_peek hl hb)
  rfl

/-- The state with the status byte that RTI's first pull gives, and what `Normalize` makes of it. -/
def State.restored (s : State) (p : Byte) : State :=
  { s with
    p := if s.e then p ||| 0x30 else p
    x := low (s.e || getFlag p .x) s.x
    y := low (s.e || getFlag p .x) s.y }

/-- `Normalize` completes a status byte where it leaves the stack pointer. -/
theorem normalize_eq_restored {p : Byte} (hsp : { s with p := p }.normalize.sp = s.sp) :
    { s with p := p }.normalize = s.restored p := by
  rw [normalize_eq, normalize_p_eq, hsp, normalize_x_low, normalize_y_low, normalize_flag_x]
  rfl

theorem restored_index (hs : s.I1) (p : Byte) :
    (s.restored p).x = low ((s.restored p).flag .x) s.x ∧ (s.restored p).y = low ((s.restored p).flag .x) s.y := by
  rw [← normalize_eq_restored (p := p) (normalize_sp_kept hs rfl rfl)]
  exact ⟨normalize_x_low _, normalize_y_low _⟩

/-- The first pull of a return, with the `Normalize` after it, is a pull from the state restored. -/
theorem pull8_restored {p : Byte} (h : pull8 s = .ok (p, u)) :
    PulledN 1 (s.restored p) { u with p := p }.normalize := by
  have hu := pull8_pulled h
  have hsp : { u with p := p }.normalize.sp = u.sp :=
    (hu.normalize_sp (u := { u with p := p }) rfl rfl).trans hu.sp.symm
  rw [normalize_eq_restored hsp]
  obtain ⟨l, k, rfl⟩ := hu
  exact ⟨l, k, rfl⟩

/-- A return whose bytes can be read answers. -/
theorem leave_of_readable (h : ∀ k, k < (if s.e then 3 else 4) → readable s.params (s.pullSlot k) = true) :
    ∃ t, leave s = .ok t := by
  have h3 : ∀ k, k < 3 → readable s.params (s.pullSlot k) = true := fun k hk => h k (by split <;> omega)
  obtain ⟨p, u, hp⟩ := pull8_of_readable (h3 0 (by decide))
  have hr := pull8_restored hp
  obtain ⟨pc, v, hpc⟩ := pull16_of_readable ((hr.readable_slot 0).trans (h3 1 (by decide)))
    ((hr.readable_slot 1).trans (h3 2 (by decide)))
  have hv := hr.trans (pull16_pulled hpc)
  rw [leave, hp, Except.ok_bind]
  dsimp only
  rw [hpc, Except.ok_bind]
  dsimp only
  split
  · exact ⟨_, rfl⟩
  · next he =>
    have hnative : s.e = false := hv.e.symm.trans (Bool.eq_false_iff.2 he)
    have h4 : readable s.params (s.pullSlot 3) = true := h 3 (by rw [hnative]; decide)
    obtain ⟨b, w, hb⟩ := pull8_of_readable (s := { v with pc := pc }) ((hv.readable_slot 0).trans h4)
    rw [hb]
    exact ⟨_, rfl⟩

/-- The state that RTI's pulls of `p`, `pc` and, in native mode, `b` lead to, but for the events of their reads. -/
def State.returned (s : State) (p : Byte) (pc : Word) (b : Byte) : State :=
  { s.restored p with
    sp := stackUp s.e (if s.e then 3 else 4) s.sp
    pc := pc
    pbr := if s.e then s.pbr else b }

theorem returned_modeInv (hs : s.ModeInv) (p : Byte) (pc : Word) (b : Byte) : (s.returned p pc b).ModeInv := by
  have hr : (s.restored p).ModeInv :=
    normalize_eq_restored (p := p) (normalize_sp_kept hs.1 rfl rfl) ▸ normalize_modeInv _
  refine modeInv_of_stackWrap hr rfl rfl rfl rfl rfl ?_
  unfold State.returned
  split <;> exact stackWrap_stackUp _ _ _

/-- What the pulls of a return that answers lead to: each value pulled is the one that `peek` sees. -/
theorem leave_returned (h : leave s = .ok t) : ∃ p pc b, Reads (s.returned p pc b) t ∧
    (∀ q, peek s (s.pullSlot 0) = some q → p = q) ∧
    (∀ l q, peek s (s.pullSlot 1) = some l → peek s (s.pullSlot 2) = some q → pc = mkWord l q) ∧
    ∀ q, s.e = false → peek s (s.pullSlot 3) = some q → b = q := by
  obtain ⟨p, u, pc, v, hp, hpc, hlast⟩ := leave_ok h
  have hr := pull8_restored hp
  have hv := hr.trans (pull16_pulled hpc)
  have hstatus : ∀ q, peek s (s.pullSlot 0) = some q → p = q := fun q => pull8_eq_peek hp
  have hword : ∀ l q, peek s (s.pullSlot 1) = some l → peek s (s.pullSlot 2) = some q → pc = mkWord l q :=
    fun l q hl hq => pull16_eq_peek hpc ((hr.peek_slot 0).trans hl) ((hr.peek_slot 1).trans hq)
  obtain ⟨hE, rfl⟩ | ⟨hE, b, w, hb, rfl⟩ := hlast
  · have he : s.e = true := hv.e.symm.trans hE
    refine ⟨p, pc, 0, ?_, hstatus, hword, fun q hn => absurd (hn.symm.trans he) (by decide)⟩
    obtain ⟨l, k, rfl⟩ := hv
    exact ⟨l, k, by rw [State.returned, if_pos he, if_pos he]; rfl⟩
  · have he : s.e = false := hv.e.symm.trans hE
    have hbank : ∀ q, s.e = false → peek s (s.pullSlot 3) = some q → b = q :=
      fun q _ hq => pull8_eq_peek hb ((hv.peek_slot 0).trans hq)
    have hw : Reads { v with pc := pc, sp := stackUp v.e 1 v.sp, pbr := b } { w with pbr := b } := by
      obtain ⟨l, k, rfl⟩ := pull8_pulled hb
      exact ⟨l, k, rfl⟩
    refine ⟨p, pc, b, Reads.trans ?_ hw, hstatus, hword, hbank⟩
    have hn : ¬s.e = true := Bool.eq_false_iff.1 he
    obtain ⟨l, k, rfl⟩ := hv
    exact ⟨l, k, by rw [State.returned, if_neg hn, if_neg hn]; rfl⟩

/-- Settles O59: the pulls give `P`, which `Normalize` completes, then `PC`, then `PBR` in native mode. -/
theorem returnFromInterrupt : Obligations.ReturnFromInterrupt := by
  intro s hs hread
  obtain ⟨t, ht⟩ := leave_of_readable (s := s.begin .rti) hread
  obtain ⟨p, pc, b, hreturned, hP, hPC, hB⟩ := leave_returned ht
  have hrun : handler .stk (s.begin .rti) .rti = .ok t.chargeNative := by
    rw [handler, Machine.rti, ht]; rfl
  have hinv := returned_modeInv (s := s.begin .rti) hs p pc b
  obtain ⟨l, k, rfl⟩ := hreturned
  refine ⟨_, exec_of_handler_modeInv (i := .rti) hrun hinv, rfl, fun p' l h b' hp hl hh hb => ?_⟩
  obtain rfl := hP p' hp
  obtain ⟨hx, hy⟩ := restored_index hs.1 p
  refine ⟨rfl, hPC l h hl hh, ?pbr, hx, hy⟩
  case pbr =>
    cases he : s.e with
    | true => exact if_pos he
    | false => exact (if_neg (Bool.eq_false_iff.1 he)).trans (hB b' he (hb he))

/-! ### Block moves (45_flags_mode_system.md R347, R348) -/

section
variable {dd ss b : Byte} {step : Word}

/-- The registers of a state after one byte of a block move. -/
def State.moved (s : State) (step : Word) (dd : Byte) : State :=
  { s with
    dbr := dd
    x := low (s.flag .x) (s.x + step)
    y := low (s.flag .x) (s.y + step)
    a := s.a - 1
    pc := if s.a = 0 then s.pc else s.pc - 3 }

/-- The count has passed 0 where it was 0. -/
theorem sub_one_eq_max {n : Word} : n - 1 = 0xFFFF ↔ n = 0 := sub_eq_iff_eq_add

/-- A block move moves the byte it reads, and then the registers. -/
theorem blockMove_of (hr : read8 (mkAddr ss s.x) s = .ok (b, u)) (hw : write8 (mkAddr dd s.y) b u = .ok w) :
    blockMove step dd ss s = .ok (w.moved step dd) := by
  have hy : u.y = s.y := by obtain ⟨_, _, rfl⟩ := read8_reads hr; rfl
  rw [blockMove, hr, Except.ok_bind]
  dsimp only
  rw [hy, hw, Except.ok_bind]
  simp only [State.wX, truncate_widthOf, sub_one_eq_max]
  rfl

/-- One byte moved by an instruction of three bytes that is a block move. -/
theorem exec_moves (hm : s.ModeInv) (hs : s.StoresWf) (hd : writable s.params (mkAddr dd s.y) = true)
    (h : handler i.form (s.begin i) i.mnemonic = blockMove step dd ss (s.begin i)) (hl : i.form.length = 3)
    (hf : .x ∉ Instr.flagSet i) (hr : read8 (mkAddr ss s.x) (s.begin i) = .ok (b, u)) :
    ∃ t, exec i s = .next t ∧ t.x = low (s.flag .x) (s.x + step) ∧ t.y = low (s.flag .x) (s.y + step) ∧
      t.a = s.a - 1 ∧ t.dbr = dd ∧ t.pc = (if s.a = 0 then s.pc + 3 else s.pc) ∧
      (isRam s.params (mkAddr dd s.y) = true → peek t (mkAddr dd s.y) = some b) ∧
      ∀ a, cellAt s.params a ≠ cellAt s.params (mkAddr dd s.y) → peek t a = peek s a := by
  have hreads := read8_reads hr
  have hparams : u.params = s.params := hreads.bus.params
  obtain ⟨w, hw⟩ := write8_of_writable (s := u) b (hparams ▸ hd)
  have hrun : exec i s = .next (w.moved step dd).normalize := exec_of_handler (h.trans (blockMove_of hr hw))
  have hflag := flagFrame i s _ hm hrun .x hf
  have hpeek : ∀ a, peek (w.moved step dd).normalize a = peek w a := peek_normalize _
  have hself : isRam s.params (mkAddr dd s.y) = true → peek w (mkAddr dd s.y) = some b :=
    fun hram => write8_peek_ram hw (hreads.storesWf hs) (hparams ▸ hram)
  have hframe : ∀ a, cellAt s.params a ≠ cellAt s.params (mkAddr dd s.y) → peek w a = peek s a :=
    fun a ha => (write8_peek_ne hw (hparams ▸ ha)).trans (hreads.peek a)
  have hnext : (s.begin i).pc = s.pc + 3 := by rw [State.begin, hl]; rfl
  refine ⟨_, hrun, ?x, ?y, ?a, State.normalize_dbr _, ?pc, fun hram => (hpeek _).trans (hself hram),
    fun a ha => (hpeek a).trans (hframe a ha)⟩
  all_goals obtain ⟨_, _, _, _, _, rfl⟩ := hreads.bus.trans (write8_bus hw)
  case x => rw [normalize_x_low, hflag]; exact low_low _ _
  case y => rw [normalize_y_low, hflag]; exact low_low _ _
  case a => exact State.normalize_a _
  case pc =>
    rw [State.normalize_pc, State.moved, hnext, BitVec.add_sub_cancel]
    rfl

end

end Sys2Proof.Machine

namespace Sys2Proof

open Machine

/-- Settles O60: MVN steps the indexes by 1, MVP by -1. -/
theorem blockMove : Obligations.BlockMove := by
  intro s u dd ss v hm hs hd moves
  refine ⟨exec_moves hm hs hd rfl rfl (of_decide_eq_true rfl), ?_⟩
  have hstep (x : Word) : x - 1 = x + (-1) := BitVec.sub_eq_add_neg x 1
  rw [hstep, hstep]
  exact exec_moves hm hs hd rfl rfl (of_decide_eq_true rfl)

end Sys2Proof

/-! The statements of 60_exceptions.md: the entry of a hardware interrupt as a whole step, and what a step does at
its boundary and in each run state. Equations for `step` by the boundary, for `stepRun` by the run state and for
`stepRunning` by what is due lead to each clause. -/

namespace Sys2Proof.Machine

variable {s t : State} {k : IntKind}

/-! ### The entry of a hardware interrupt (60_exceptions.md R384 to R387) -/

/-- The state an entry starts from: NMI has cleared its latch, and the cycles of the entry are counted
(60_exceptions.md R381, R387, 70_reset_and_hazards.md R440). -/
def State.accepting (s : State) (k : IntKind) : State :=
  { s with
    nmiPending := (match k with | .nmi => false | _ => s.nmiPending)
    cycles := entryCycles s.e }

/-- An entry that is made, and needs no `Normalize`, is the whole step. -/
theorem takeInterrupt_of_enter (h : enter k s.pc (s.accepting k) = .ok t) (ht : t.ModeInv) :
    takeInterrupt k s = .next t := by
  have h' : takeInterrupt k s = match enter k s.pc (s.accepting k) with
    | .ok u => .next u.normalize
    | .error e => .fault (e s.codeAddr) := rfl
  rw [h', h]
  exact congrArg Host.Outcome.next (normalize_of_modeInv ht)

/-- From a stack that accepts the frame, an interrupt is taken; but for the latch of NMI, its inputs stay. -/
theorem takeInterrupt_entered (k : IntKind) (hm : s.ModeInv) (hs : s.StoresWf)
    (hw : s.CanPush (if s.e then 3 else 4)) :
    ∃ t, takeInterrupt k s = .next t ∧ s.Entered (s.entryVector k) s.pc (s.entryStatus k) t ∧
      t.nmiPending = (s.accepting k).nmiPending ∧ t.irqLine = s.irqLine ∧ t.cycles = entryCycles s.e := by
  obtain ⟨t, ht, hentered⟩ := enter_entered (s := s.accepting k) k s.pc hs hw
  refine ⟨t, takeInterrupt_of_enter ht (hentered.modeInv hm), hentered, ?_⟩
  obtain ⟨u, hu, rfl⟩ := enter_ok ht
  obtain ⟨_, _, _, _, _, rfl⟩ := hu.bus
  exact ⟨rfl, rfl, rfl⟩

/-! ### The boundary (20_memory.md R108, 60_exceptions.md R370, R378) -/

/-- An access from outside that answers gives the state for the next. -/
theorem serveAll_of_ok {r : BusRequest} {more : List BusRequest} (h : serve r s = .ok t) :
    serveAll (r :: more) s = serveAll more t := by
  rw [serveAll, h, Except.ok_bind]

/-- An access from outside that raises ends the accesses. -/
theorem serveAll_of_error {r : BusRequest} {more : List BusRequest} {e : Raise} (h : serve r s = .error e) :
    serveAll (r :: more) s = .error e := by
  rw [serveAll, h]
  rfl

/-- The inputs of a boundary that has no RESET. -/
theorem sampleInputs_of_serveAll {b : Boundary} {rest : List Boundary} (hin : s.inputs = b :: rest)
    (h : serveAll b.accesses { s with inputs := rest } = .ok t) (hb : b.reset = false) :
    sampleInputs s = .ok { t with irqLine := b.irqLine, nmiPending := t.nmiPending || b.nmiEdge } := by
  rw [sampleInputs, hin]
  dsimp only
  rw [h, Except.ok_bind, State.sampleLines, hb]
  rfl

theorem sampleInputs_of_error {b : Boundary} {rest : List Boundary} {e : Raise} (hin : s.inputs = b :: rest)
    (h : serveAll b.accesses { s with inputs := rest } = .error e) : sampleInputs s = .error e := by
  rw [sampleInputs, hin]
  dsimp only
  rw [h]
  rfl

/-- A machine that is not faulted goes on from its boundary by the run state. -/
theorem step_of_sampled (hn : ∀ f, s.run ≠ .faulted f) (h : sampleInputs s = .ok t) : step s = stepRun t := by
  unfold step
  split
  · next f hf => exact absurd hf (hn f)
  all_goals rw [h]

/-- An error of the boundary ends the step at `PBR:PC`. -/
theorem step_of_boundary_error {e : Raise} (hn : ∀ f, s.run ≠ .faulted f) (h : sampleInputs s = .error e) :
    step s = .fault (e s.codeAddr) := by
  unfold step
  split
  · next f hf => exact absurd hf (hn f)
  all_goals rw [h]

/-- Past the end of the inputs a step is by the run state alone. -/
theorem step_of_no_inputs (hin : s.inputs = []) : step s = stepRun s := by
  unfold step
  split
  · next f hf => rw [stepRun, hf]
  all_goals rw [sampleInputs_of_nil hin]

/-! ### The run states (60_exceptions.md R379 to R383, R397, R398) -/

/-- The state in which `step` goes on where an input concerns the machine: `Waiting` has ended. -/
def State.woken (s : State) : State := { s with run := .running }

theorem woken_of_running (h : s.run = .running) : s.woken = s := by
  rw [State.woken, ← h]

theorem stepRun_of_stopped (h : s.run = .stopped) : stepRun s = stepIdle s := by
  rw [stepRun, h]

theorem stepRun_of_waiting_idle (h : s.run = .waiting) (hnmi : s.nmiPending = false) (hirq : s.irqLine = false) :
    stepRun s = stepIdle s := by
  simp [stepRun, h, hnmi, hirq]

/-- A pending NMI or an asserted IRQ line ends `Waiting`, and leaves a running machine running. -/
theorem stepRun_of_input (h : s.run = .running ∨ s.run = .waiting)
    (hdue : (s.nmiPending || s.irqLine) = true) : stepRun s = stepRunning s.woken := by
  rcases h with h | h
  · rw [stepRun, h, woken_of_running h]
  · rw [stepRun, h]
    exact if_pos hdue

theorem stepRunning_of_nmi (h : s.nmiPending = true) : stepRunning s = takeInterrupt .nmi s := if_pos h

theorem stepRunning_of_irq (hnmi : s.nmiPending = false) (hirq : s.irqLine = true) (hi : s.flag .i = false) :
    stepRunning s = takeInterrupt .irq s := by
  simp [stepRunning, hnmi, hirq, hi]

theorem stepRunning_of_masked (hnmi : s.nmiPending = false) (hi : s.flag .i = true) :
    stepRunning s = stepInstr s := by
  simp [stepRunning, hnmi, hi]

/-- A step of a machine that an input concerns, past the end of the inputs to come. -/
theorem step_of_input (h : s.run = .running ∨ s.run = .waiting) (hin : s.inputs = [])
    (hdue : (s.nmiPending || s.irqLine) = true) : step s = stepRunning s.woken := by
  rw [step_of_no_inputs hin, stepRun_of_input h hdue]

/-! ### The statements -/

/-- Settles O25: the step is the entry of NMI, whatever the run state was. -/
theorem nmiEntry : Obligations.NmiEntry := by
  intro s hm hs hrun hin hnmi hw
  rw [step_of_input hrun hin (by rw [hnmi, Bool.true_or]), stepRunning_of_nmi (s := s.woken) hnmi]
  exact takeInterrupt_entered (s := s.woken) .nmi hm hs hw

/-- Settles O26: the step is the entry of IRQ where `I` is clear, and where it is set the boundary is quiet. -/
theorem irqEntry : Obligations.IrqEntry := by
  intro s hin hnmi hirq
  refine ⟨fun hm hs hrun hi hw => ?enters, fun hrun hi => step_of_quiet ⟨hrun, hin, hnmi, .inr hi⟩⟩
  case enters =>
    rw [step_of_input hrun hin (by rw [hirq, Bool.or_true]), stepRunning_of_irq (s := s.woken) hnmi hirq hi]
    obtain ⟨t, ht, hentered, hlatch, hline, hcycles⟩ :=
      takeInterrupt_entered (s := s.woken) .irq hm hs hw
    exact ⟨t, ht, hentered, hlatch.trans hnmi, hline.trans hirq, hcycles⟩

/-- Settles O27: the boundary by its accesses, the accesses one by one, and the step by the run state. -/
theorem runStates : Obligations.RunStates := by
  intro s
  refine ⟨fun f hf => step_of_faulted hf, fun b rest hn hin => ⟨fun e he => ?error, fun t ht hb => ?lines⟩,
    ⟨rfl, fun bank offset more v t h => ?read, fun bank offset more e h => ?readError,
      fun bank offset v more t h => serveAll_of_ok h, fun bank offset v more e h => serveAll_of_error h⟩,
    fun hin => ⟨fun hrun => ?stopped, fun hrun hnmi hirq => ?idle, fun hrun hnmi hirq hi => ?masked,
      fun hrun hnmi hirq => step_of_quiet ⟨hrun, hin, hnmi, .inl hirq⟩⟩⟩
  case error => exact step_of_boundary_error hn (sampleInputs_of_error hin he)
  case lines => exact step_of_sampled hn (sampleInputs_of_serveAll hin ht hb)
  case read => exact serveAll_of_ok (by rw [serve, h]; rfl)
  case readError => exact serveAll_of_error (by rw [serve, h]; rfl)
  case stopped => exact (step_of_no_inputs hin).trans (stepRun_of_stopped hrun)
  case idle =>
    exact (step_of_no_inputs hin).trans (stepRun_of_waiting_idle hrun hnmi hirq)
  case masked =>
    exact (step_of_input (.inr hrun) hin (by rw [hirq, Bool.or_true])).trans
      (stepRunning_of_masked (s := s.woken) hnmi hi)

end Sys2Proof.Machine

/-! The statements of 30_encoding.md sections 1 to 3 that speak of encoded words: decoding gives every instruction
back, in general and on one word of each family. -/

namespace Sys2Proof

/-- Settles O20: the row of the opcode reads back the operand field that it encodes. -/
theorem decodeEncode : Obligations.DecodeEncode := fun _ _ _ rest hw => decode_encode hw rest

/-- Settles O22: each word is the encoding of its instruction, with the bytes after it. -/
theorem sampleWords : Obligations.SampleWords :=
  ⟨decode_encode (i := .ldaImm (.byte 0x42)) rfl [],
    decode_encode (i := .ldaImm (.word 0x0042)) rfl [],
    decode_encode (i := .staAbs 0x2000) rfl [],
    decode_encode (i := .tax) rfl [],
    decode_encode (i := .adcLongX 0x123456) rfl [],
    decode_encode (i := .aslDp 0x10) rfl [],
    decode_encode (i := .bne 0xFE) rfl [],
    decode_encode (i := .jsrAbsIndX 0x1234) rfl [],
    decode_encode (i := .per 0xFFFD) rfl [],
    decode_encode (i := .mvn 0x7F 0x7E) rfl [],
    decode_encode (i := .cpxImm (.word 0x1234)) rfl [0xEA]⟩

end Sys2Proof

/-! The statements of 70_reset_and_hazards.md section 1: what RESET writes and keeps and where it stands at a step
boundary, and the state that power-on and RESET give. -/

namespace Sys2Proof.Machine

variable {s t : State}

/-! ### The RESET input (70_reset_and_hazards.md R410, R413, R414) -/

/-- The fields of `P` after RESET: four are written, and the others kept. -/
theorem resetSignal_flag (s : State) (f : Flag) : s.resetSignal.flag f =
    match f with
    | .m | .x | .i => true
    | .d => false
    | _ => s.flag f := by
  cases f <;> simp [State.flag, getFlag_putFlag]

theorem resetSignal_flag_kept (s : State) {f : Flag} (h : f = .n ∨ f = .v ∨ f = .z ∨ f = .c) :
    s.resetSignal.flag f = s.flag f := by
  rcases h with rfl | rfl | rfl | rfl <;> exact resetSignal_flag s _

/-- RESET clears the latch of NMI and overrides what the boundary's edge would latch (60_exceptions.md R383). -/
theorem sampleLines_of_reset {b : Boundary} (hb : b.reset = true) (s : State) :
    s.sampleLines b = { s with irqLine := b.irqLine }.resetSignal := by
  rw [State.sampleLines, hb]
  rfl

/-- The inputs of a boundary that has RESET. -/
theorem sampleInputs_of_reset {b : Boundary} {rest : List Boundary} (hin : s.inputs = b :: rest)
    (h : serveAll b.accesses { s with inputs := rest } = .ok t) (hb : b.reset = true) :
    sampleInputs s = .ok { t with irqLine := b.irqLine }.resetSignal := by
  rw [sampleInputs, hin]
  dsimp only
  rw [h, Except.ok_bind, sampleLines_of_reset hb]
  rfl

/-- After RESET the machine runs with no NMI latched and IRQ masked, so an instruction is next. -/
theorem stepRun_resetSignal (s : State) : stepRun s.resetSignal = stepInstr s.resetSignal := by
  rw [stepRun, State.resetSignal_run]
  exact stepRunning_of_masked rfl (resetSignal_flag s .i)

/-- Settles O2: RESET field by field, and the boundary it comes at. -/
theorem resetSignal : Obligations.ResetSignal := by
  refine ⟨fun s => ?writes, fun s t b rest hn hin hb ht => ?boundary⟩
  case writes =>
    exact ⟨rfl, resetSignal_flag s .m, resetSignal_flag s .x, resetSignal_flag s .d, resetSignal_flag s .i,
      fun _ => resetSignal_flag_kept s, rfl, rfl, rfl, pageOne_eq _, and_low _, and_low _, rfl, rfl, rfl, rfl, rfl,
      rfl, rfl, rfl, rfl, rfl⟩
  case boundary =>
    rw [step_of_sampled hn (sampleInputs_of_reset hin ht hb), stepRun_resetSignal]

/-! ### Power-on (70_reset_and_hazards.md R411, R412) -/

/-- The state that `PowerOn()` draws, before RESET (70_reset_and_hazards.md R411). -/
def PowerOnDraws.state (w : PowerOnDraws) (params : Params) (sramInit : List Byte) (irq : Bool) : State :=
  { a := w.a, x := w.x, y := w.y, sp := w.sp, d := w.d, pc := w.pc, pbr := w.pbr, dbr := w.dbr,
    p := w.p, e := w.e, cycles := 0, run := .running, nmiPending := false, irqLine := irq,
    inputs := [], wram := w.wram, sram := Memory.ofBytes 0 sramInit, intRegs := w.intRegs,
    ioLog := [], params := params, draws := 0 }

variable {params : Params} {sramInit : List Byte}

theorem powerOn_of_accepted (h : sramInit.length = params.sramSize ∧ params.geometryWf = true) (w : PowerOnDraws)
    (irq : Bool) : powerOn params sramInit w irq = .ok (w.state params sramInit irq).resetSignal :=
  if_pos h

theorem powerOn_of_refused (h : ¬(sramInit.length = params.sramSize ∧ params.geometryWf = true))
    (w : PowerOnDraws) (irq : Bool) : powerOn params sramInit w irq = .error .badParameters :=
  if_neg h

/-- A store made of a list of bytes holds each of them at its place, and is blank past the end. -/
theorem Memory.read_ofBytes (vs : List Byte) (i k : Nat) :
    Memory.read (Memory.ofBytes i vs) (i + k) = vs.getD k blankByte := by
  induction vs generalizing i k with
  | nil => rfl
  | cons v vs ih =>
    have htail : Memory.wfFrom (i + 1 + vs.length) (i + 1) (Memory.ofBytes (i + 1) vs) = true :=
      Memory.ofBytes_wfFrom vs (i + 1) _ (Nat.le_refl _)
    cases k with
    | zero => exact Memory.read_cons_self v htail
    | succ k =>
      rw [Memory.ofBytes, Memory.read_cons_ne v (by omega), show i + (k + 1) = i + 1 + k by omega, ih,
        List.getD_cons_succ]

theorem Memory.read_ofBytes_zero (vs : List Byte) (k : Nat) :
    Memory.read (Memory.ofBytes 0 vs) k = vs.getD k blankByte := by
  rw [← Memory.read_ofBytes vs 0 k, Nat.zero_add]

/-- Blank bytes are not listed. -/
theorem Memory.ofBytes_replicate_blank (n i : Nat) : Memory.ofBytes i (List.replicate n blankByte) = [] := by
  induction n generalizing i with
  | zero => rfl
  | succ n ih => rw [List.replicate_succ, Memory.ofBytes, ih, Memory.cons, if_pos rfl]

/-- Settles O1: the parameters accepted are those of `powerOn`'s check, and RESET of the state drawn gives the
registers. -/
theorem powerOnState : Obligations.PowerOnState := by
  intro params sramInit w irq apart accepted
  have haccepted : accepted ↔ sramInit.length = params.sramSize ∧ params.geometryWf = true := by
    rw [geometryWf_iff, disjoint_iff, disjoint_iff]
  rw [haccepted]
  refine ⟨fun h => powerOn_of_refused h w irq, fun h => ⟨_, powerOn_of_accepted h w irq, ?_⟩⟩
  have hflag := resetSignal_flag (w.state params sramInit irq)
  exact ⟨rfl, hflag .m, hflag .x, hflag .d, hflag .i, fun _ => resetSignal_flag_kept _, rfl, and_low _, and_low _,
    pageOne_eq _, rfl, rfl, rfl, rfl, rfl, rfl, rfl, rfl,
    fun k _ => Memory.read_ofBytes_zero sramInit k, rfl, rfl, rfl⟩

/-- The draws whose power-on state is `State.reset` (notes/assumptions/4.md); RESET writes the others. -/
def PowerOnDraws.zero : PowerOnDraws where
  a := 0
  x := 0
  y := 0
  sp := 0x01FF
  d := 0
  pc := 0
  pbr := 0
  dbr := 0
  p := 0
  e := true
  wram := []
  intRegs := .blank

theorem standard_geometryWf : Params.standard.geometryWf = true := by decide

/-- `State.reset` is what RESET makes of its draws. -/
theorem reset_eq_resetSignal :
    State.reset = (PowerOnDraws.zero.state Params.standard (List.replicate 0x10000 0) false).resetSignal := by
  rw [PowerOnDraws.state, show (0 : Byte) = blankByte from rfl, Memory.ofBytes_replicate_blank]
  rfl

/-- Settles O3: `State.reset` is a RESET, which meets the mode invariants, and no store of it lists a byte. -/
theorem resetMeetsInvariants : Obligations.ResetMeetsInvariants := by
  refine ⟨?_, ⟨rfl, rfl, rfl, standard_geometryWf⟩, PowerOnDraws.zero, ?_⟩
  · rw [reset_eq_resetSignal]
    exact resetSignal_modeInv _
  · rw [reset_eq_resetSignal]
    exact powerOn_of_accepted ⟨List.length_replicate, standard_geometryWf⟩ _ _

end Sys2Proof.Machine

/-! The statement of 70_reset_and_hazards.md section 3: the cycles of an instruction. `State.begin` counts what is
known from the instruction and its place; each handler then charges its own penalties, and every operation a handler
is made of keeps the count. -/

namespace Sys2Proof.Machine

variable {s t u : State} {f : Form} {m : Mnemonic} {i : Instr}

/-! ### What a handler has to charge (70_reset_and_hazards.md R433 to R436, R438, R439) -/

/-- One cycle where `P.M = 0`. -/
def mPenalty (p : Byte) : Nat := if getFlag p .m then 0 else 1

/-- One cycle where `P.X = 0`. -/
def xPenalty (p : Byte) : Nat := if getFlag p .x then 0 else 1

theorem mPenalty_p (s : State) : mPenalty s.p = if s.flag .m then 0 else 1 := rfl

theorem xPenalty_p (s : State) : xPenalty s.p = if s.flag .x then 0 else 1 := rfl

/-- What the handler of a mnemonic on a format has to charge, from the state `s` in which it starts, where its index
moved its address to another page or not (`crossed`) and it goes on at `target`. -/
def handlerCycles (f : Form) (s : State) (target : Word) (crossed : Bool) (m : Mnemonic) : Nat :=
  match m with
  | .lda | .sbc | .cmp | .and | .ora | .eor | .bit => indexPenalty f (s.flag .x) crossed + mPenalty s.p
  | .ldx | .ldy => indexPenalty f (s.flag .x) crossed + xPenalty s.p
  | .adc => indexPenalty f (s.flag .x) crossed + mPenalty s.p + if s.flag .d then 1 else 0
  | .sta | .stz | .pha | .pla => mPenalty s.p
  | .cpx | .cpy | .stx | .sty | .phx | .phy | .plx | .ply => xPenalty s.p
  | .inc | .dec | .asl | .lsr | .rol | .ror | .tsb | .trb =>
    if s.flag .m then 0 else if f == .acc then 0 else 2
  | .bpl | .bmi | .bvc | .bvs | .bcc | .bcs | .bne | .beq | .bra => branchCycles s m s.pc target
  | .brk | .cop | .rti => if s.e = false then 1 else 0
  | _ => 0

/-- Mnemonic by mnemonic, these are the penalties that `instrCycles` adds up. -/
theorem handlerCycles_eq (f : Form) (s : State) (target : Word) (crossed : Bool) (m : Mnemonic) :
    handlerCycles f s target crossed m =
      (if s.flag .m then 0 else Mnemonic.mCycles (f == .acc) m)
        + (if s.flag .x then 0 else Mnemonic.xCycles m)
        + branchCycles s m s.pc target
        + (if Mnemonic.reads m then indexPenalty f (s.flag .x) crossed else 0)
        + (if m = .adc ∧ s.flag .d = true then 1 else 0)
        + (if (m = .brk ∨ m = .cop ∨ m = .rti) ∧ s.e = false then 1 else 0) := by
  cases m <;> simp [handlerCycles, branchCycles, Mnemonic.mCycles, Mnemonic.xCycles, Mnemonic.reads, Mnemonic.taken,
    mPenalty_p, xPenalty_p, Nat.add_comm]

theorem branchCycles_begin (i : Instr) (s : State) (target : Word) :
    branchCycles (s.begin i) m (s.begin i).pc target =
      branchCycles s m (s.pc + BitVec.ofNat 16 i.form.length) target := rfl

/-- The cycles of an instruction are those `State.begin` counts and those its handler charges. -/
theorem instrCycles_eq (i : Instr) (s t : State) (crossed : Bool) : instrCycles i s t crossed =
    (s.begin i).cycles + handlerCycles i.form (s.begin i) t.pc crossed i.mnemonic := by
  have hflag (g : Flag) : (s.begin i).flag g = s.flag g := rfl
  rw [instrCycles, handlerCycles_eq, branchCycles_begin, hflag, hflag, hflag, State.begin_cycles, State.begin_e]
  omega

/-- The operand resolves, and from `s` to `t` the handler has charged what it has to. -/
def Costs (f : Form) (m : Mnemonic) (s t : State) : Prop :=
  ∃ o u, resolve f s = .ok (o, u) ∧ t.cycles = s.cycles + handlerCycles f s t.pc o.crossed m

/-! ### The operations that charge nothing -/

theorem Bus.cycles (h : Bus s t) : t.cycles = s.cycles := by
  obtain ⟨_, _, _, _, _, rfl⟩ := h; rfl

theorem Reads.cycles (h : Reads s t) : t.cycles = s.cycles := h.bus.cycles

theorem Pushed.cycles {n : Nat} (h : Pushed n s t) : t.cycles = s.cycles := h.bus.cycles

theorem PulledN.cycles {n : Nat} (h : PulledN n s t) : t.cycles = s.cycles := by
  obtain ⟨_, _, rfl⟩ := h; rfl

/-- An operation from `s` that, where it answers, has charged nothing; `st` is the state after it. -/
def Uncharged {α : Type} (s : State) (x : Except Raise α) (st : α → State) : Prop :=
  ∀ a, x = .ok a → (st a).cycles = s.cycles

section
variable {α β : Type} {st : α → State} {st' : β → State}

theorem Uncharged.ok {a : α} (h : (st a).cycles = s.cycles) : Uncharged s (.ok a) st :=
  fun _ hb => by cases hb; exact h

theorem Uncharged.bind {x : Except Raise α} {g : α → Except Raise β} (h : Uncharged s x st)
    (hg : ∀ a, Uncharged (st a) (g a) st') : Uncharged s (x >>= g) st' := fun b hb => by
  obtain ⟨a, ha, hb⟩ := Except.bind_ok.1 hb
  exact (hg a b hb).trans (h a ha)

end

theorem read8_uncharged (a : Addr) (s : State) : Uncharged s (read8 a s) (·.2) :=
  fun _ h => (read8_reads h).cycles

theorem write8_uncharged (a : Addr) (v : Byte) (s : State) : Uncharged s (write8 a v s) id :=
  fun _ h => (write8_bus h).cycles

theorem readWord_uncharged (c : Wrap) (ea : Addr) (s : State) : Uncharged s (readWord c ea s) (·.2) :=
  fun _ h => (readWord_reads h).cycles

theorem readLong_uncharged (c : Wrap) (ea : Addr) (s : State) : Uncharged s (readLong c ea s) (·.2) :=
  fun _ h => (readLong_reads h).cycles

theorem push8_uncharged (v : Byte) (s : State) : Uncharged s (push8 v s) id :=
  fun _ h => (push8_pushed h).cycles

theorem push16_uncharged (v : Word) (s : State) : Uncharged s (push16 v s) id :=
  fun _ h => (push16_pushed h).cycles

theorem pull8_uncharged (s : State) : Uncharged s (pull8 s) (·.2) := fun _ h => (pull8_pulled h).cycles

theorem pull16_uncharged (s : State) : Uncharged s (pull16 s) (·.2) := fun _ h => (pull16_pulled h).cycles

/-! ### The mnemonics that charge nothing -/

/-- The mnemonics whose handler charges a penalty, or may. -/
abbrev chargedMnemonics : List Mnemonic :=
  [.lda, .ldx, .ldy, .sta, .stx, .sty, .stz, .adc, .sbc, .cmp, .cpx, .cpy, .and, .ora, .eor, .bit,
   .inc, .dec, .asl, .lsr, .rol, .ror, .tsb, .trb, .bpl, .bmi, .bvc, .bvs, .bcc, .bcs, .bne, .beq, .bra,
   .pha, .phx, .phy, .pla, .plx, .ply, .brk, .cop, .rti]

theorem handlerCycles_of_not_charged (h : m ∉ chargedMnemonics) (f : Form) (s : State) (target : Word)
    (crossed : Bool) : handlerCycles f s target crossed m = 0 := by
  cases m
  case lda | ldx | ldy | sta | stx | sty | stz | adc | sbc | cmp | cpx | cpy | and | ora | eor | bit
    | inc | dec | asl | lsr | rol | ror | tsb | trb | bpl | bmi | bvc | bvs | bcc | bcs | bne | beq | bra
    | pha | phx | phy | pla | plx | ply | brk | cop | rti => exact absurd (of_decide_eq_true rfl) h
  all_goals rfl

theorem handler_uncharged (h : m ∉ chargedMnemonics) (f : Form) (s : State) : Uncharged s (handler f s m) id := by
  cases m
  case lda | ldx | ldy | sta | stx | sty | stz | adc | sbc | cmp | cpx | cpy | and | ora | eor | bit
    | inc | dec | asl | lsr | rol | ror | tsb | trb | bpl | bmi | bvc | bvs | bcc | bcs | bne | beq | bra
    | pha | phx | phy | pla | plx | ply | brk | cop | rti => exact absurd (of_decide_eq_true rfl) h
  case jmp =>
    simp only [handler, jmpForm]
    split
    · exact .ok rfl
    · exact (readWord_uncharged _ _ s).bind fun _ => .ok rfl
    · exact (readWord_uncharged _ _ s).bind fun _ => .ok rfl
    · exact .ok rfl
  case jml =>
    simp only [handler, jmlForm]
    split
    · exact .ok rfl
    · exact (readLong_uncharged _ _ s).bind fun _ => .ok rfl
    · exact .ok rfl
  case jsr =>
    simp only [handler, jsrForm]
    split
    · exact (push16_uncharged _ s).bind fun _ => .ok rfl
    · exact (push16_uncharged _ s).bind fun t => (readWord_uncharged _ _ t).bind fun _ => .ok rfl
    · exact .ok rfl
  case jsl => exact (push8_uncharged _ s).bind fun t => (push16_uncharged _ t).bind fun _ => .ok rfl
  case rts | pld => exact (pull16_uncharged s).bind fun _ => .ok rfl
  case rtl => exact (pull16_uncharged s).bind fun p => (pull8_uncharged p.2).bind fun _ => .ok rfl
  case plb | plp => exact (pull8_uncharged s).bind fun _ => .ok rfl
  case pea | per | phd => exact push16_uncharged _ s
  case pei => exact (readWord_uncharged _ _ s).bind fun p => push16_uncharged _ p.2
  case phb | phk | php => exact push8_uncharged _ s
  case mvn | mvp => exact (read8_uncharged _ s).bind fun p => (write8_uncharged _ _ p.2).bind fun _ => .ok rfl
  all_goals exact .ok rfl

/-! ### Formats that resolve without an access (40_engine_addressing.md R161 to R172) -/

/-- The formats whose address comes from a pointer in memory. -/
def Form.readsPointer : Form → Bool
  | .dpInd _ | .dpIndX _ | .dpIndY _ | .dpIndLong _ | .dpIndLongY _ | .srIndY _ => true
  | _ => false

/-- The mnemonics with a row in such a format. -/
abbrev pointerMnemonics : List Mnemonic := [.lda, .sta, .adc, .sbc, .cmp, .and, .ora, .eor, .pei]

theorem mnemonic_of_readsPointer (i : Instr) :
    Form.readsPointer i.form = true → i.mnemonic ∈ pointerMnemonics := by
  cases i <;> exact of_decide_eq_true rfl

theorem resolve_of_not_readsPointer (h : Form.readsPointer f = false) (s : State) :
    ∃ o u, resolve f s = .ok (o, u) := by
  cases f
  case dpInd | dpIndX | dpIndY | dpIndLong | dpIndLongY | srIndY => cases h
  all_goals exact ⟨_, _, rfl⟩

theorem resolve_of_not_pointer (h : i.mnemonic ∉ pointerMnemonics) (s : State) :
    ∃ o u, resolve i.form s = .ok (o, u) :=
  resolve_of_not_readsPointer (Bool.eq_false_iff.2 fun hf => h (mnemonic_of_readsPointer i hf)) s

theorem form_of_pei (h : i.mnemonic = .pei) : ∃ d, i.form = .dpInd d := by
  cases i
  case pei d => exact ⟨d, rfl⟩
  all_goals cases h

/-- The pointer that PEI pushes is the one its format resolves through. -/
theorem resolve_of_pei {d : Byte} (h : handler (.dpInd d) s .pei = .ok t) :
    ∃ o u, resolve (.dpInd d) s = .ok (o, u) := by
  obtain ⟨⟨p, u⟩, hp, -⟩ := Except.bind_ok.1 h
  exact ⟨_, _, Except.bind_ok.2 ⟨(p, u), hp, rfl⟩⟩

theorem handler_costs_of_not_charged (hm : i.mnemonic ∉ chargedMnemonics)
    (h : handler i.form s i.mnemonic = .ok t) : Costs i.form i.mnemonic s t := by
  have hcycles : t.cycles = s.cycles := handler_uncharged hm i.form s t h
  obtain ⟨o, u, hr⟩ : ∃ o u, resolve i.form s = .ok (o, u) := by
    by_cases hp : i.mnemonic = .pei
    · obtain ⟨d, hd⟩ := form_of_pei hp
      rw [hp, hd] at h
      exact hd ▸ resolve_of_pei h
    · have hcharged : ∀ m ∈ pointerMnemonics, m ∈ chargedMnemonics ∨ m = .pei := by decide
      exact resolve_of_not_pointer (fun hmem => (hcharged _ hmem).elim hm hp) s
  exact ⟨o, u, hr, by rw [handlerCycles_of_not_charged hm, hcycles, Nat.add_zero]⟩

/-! ### Loads, stores and read-modify-writes (70_reset_and_hazards.md R433, R434, R436, R438) -/

/-- A source operand and then a charge `n` that the flags tell: the index penalty comes on top. -/
theorem operand_cycles {w : Width} {g : Word × State → State} (n : Byte → Nat)
    (hg : ∀ p, (g p).cycles = p.2.cycles + n p.2.p) (h : (readOperand f w s >>= fun p => .ok (g p)) = .ok t) :
    ∃ o u, resolve f s = .ok (o, u) ∧ t.cycles = s.cycles + indexPenalty f (s.flag .x) o.crossed + n s.p := by
  obtain ⟨⟨v, q⟩, hq, h⟩ := Except.bind_ok.1 h
  obtain ⟨o, u, r, hresolve, hload, rfl⟩ := readOperand_ok hq
  cases h
  refine ⟨o, u, hresolve, (hg _).trans ?_⟩
  obtain ⟨_, _, rfl⟩ := (resolve_reads hresolve).trans (load_reads hload)
  rfl

/-- A store and then a charge `n` that the flags tell. -/
theorem store_cycles {w : Width} {v : Word} {g : State → State} (n : Byte → Nat)
    (hg : ∀ r, (g r).cycles = r.cycles + n r.p) (h : (storeOperand f w v s >>= fun r => .ok (g r)) = .ok t) :
    ∃ o u, resolve f s = .ok (o, u) ∧ t.cycles = s.cycles + n s.p := by
  obtain ⟨r, hr, h⟩ := Except.bind_ok.1 h
  obtain ⟨o, u, hresolve, hstore⟩ := storeOperand_ok hr
  obtain ⟨_, hstored⟩ := store_stored hstore
  cases h
  refine ⟨o, u, hresolve, (hg r).trans ?_⟩
  obtain ⟨_, _, _, _, _, rfl⟩ := (resolve_reads hresolve).bus.trans hstored.bus
  rfl

theorem not_indexPenalised_of_compareIndex (i : Instr) :
    i.mnemonic ∈ [Mnemonic.cpx, .cpy] → Form.indexPenalised i.form = false := by
  cases i <;> exact of_decide_eq_true rfl

/-- CPX and CPY have no row in a format that pays the index penalty. -/
theorem indexPenalty_of_compareIndex (h : i.mnemonic ∈ [Mnemonic.cpx, .cpy]) (x crossed : Bool) :
    indexPenalty i.form x crossed = 0 := by
  rw [indexPenalty, not_indexPenalised_of_compareIndex i h, Bool.false_and]
  rfl

theorem modifyAt_cycles {o : Operand} {op : Width → Word → Byte → Word × Byte} (h : modifyAt o op s = .ok t) :
    t.cycles = s.cycles := by
  obtain ⟨_, _, _, _, _, _, rfl, hread, hback, rfl⟩ | ⟨rfl, rfl⟩ | ⟨-, rfl⟩ := modifyAt_ok h
  · exact ((readData_reads hread).bus.trans (writeBack_stored hback).bus).cycles
  · rfl
  · rfl

theorem modify_cycles {op : Width → Word → Byte → Word × Byte} (h : modify f op s = .ok t) :
    ∃ o u, resolve f s = .ok (o, u) ∧ t.cycles = s.cycles + if s.flag .m then 0 else modifyPenalty o := by
  obtain ⟨o, u, r, hresolve, hmod, rfl⟩ := modify_ok h
  refine ⟨o, u, hresolve, ?_⟩
  rw [State.charge_cycles, modifyAt_cycles hmod]
  obtain ⟨_, _, rfl⟩ := resolve_reads hresolve
  rfl

/-- The formats of the rows that modify their operand. -/
def Form.modifiable : Form → Bool
  | .acc | .abs _ | .absX _ | .dp _ | .dpX _ => true
  | _ => false

theorem modifiable_of_rmw (i : Instr) : i.mnemonic ∈ rmwMnemonics → Form.modifiable i.form = true := by
  cases i <;> exact of_decide_eq_true rfl

theorem modifyPenalty_of_modifiable {o : Operand} (hf : Form.modifiable f = true) (h : resolve f s = .ok (o, u)) :
    modifyPenalty o = if f == .acc then 0 else 2 := by
  cases f
  case acc | abs | absX | dp | dpX => cases h; rfl
  all_goals cases hf

theorem handler_costs_of_rmw (hm : i.mnemonic ∈ rmwMnemonics) (h : handler i.form s i.mnemonic = .ok t) :
    Costs i.form i.mnemonic s t := by
  rw [handler_rmw hm] at h
  obtain ⟨o, u, hresolve, ht⟩ := modify_cycles h
  refine ⟨o, u, hresolve, ht.trans ?_⟩
  rw [modifyPenalty_of_modifiable (modifiable_of_rmw i hm) hresolve]
  generalize i.mnemonic = m at hm
  cases m
  case inc | dec | asl | lsr | rol | ror | tsb | trb => rfl
  all_goals exact absurd hm (of_decide_eq_true rfl)

/-! ### Branches (70_reset_and_hazards.md R435) -/

theorem otherPage_eq (a b : Word) : otherPage a b = decide (hiByte a ≠ hiByte b) := by
  rw [Bool.eq_iff_iff, otherPage, bne_iff_ne, decide_eq_true_iff, Ne, Ne, and_high_eq_iff, ← toNat_hiByte,
    ← toNat_hiByte, BitVec.toNat_inj]

theorem branchCycles_eq (s : State) (m : Mnemonic) (next target : Word) :
    branchCycles s m next target = if Mnemonic.taken s m then branchPenalty s.e next target else 0 := by
  rw [branchCycles, branchPenalty, otherPage_eq]
  congr 1
  cases s.e <;> by_cases h : hiByte target = hiByte next <;> simp [h]

theorem branchTo_cycles (r : Byte) (s : State) :
    (branchTo r s).cycles = s.cycles + branchPenalty s.e s.pc (branchTo r s).pc := rfl

/-- A conditional branch on the condition `taken` charges the penalty of a branch. -/
theorem branchOn_cycles {g : Flag} {b : Bool} (hc : s.flag g = b ↔ Mnemonic.taken s m = true) (r : Byte) :
    (branchOn g b r s).cycles = s.cycles + branchCycles s m s.pc (branchOn g b r s).pc := by
  rw [branchCycles_eq, branchOn]
  by_cases h : s.flag g = b
  · rw [if_pos h, if_pos (hc.1 h), branchTo_cycles]
  · rw [if_neg h, if_neg (mt hc.2 h), Nat.add_zero]

/-! ### The stack and the interrupts (70_reset_and_hazards.md R433, R434, R439) -/

/-- A push and then a charge `n` that the flags tell. -/
theorem pushW_cycles {w : Width} {v : Word} {g : State → State} (n : Byte → Nat)
    (hg : ∀ r, (g r).cycles = r.cycles + n r.p) (h : (pushW w v s >>= fun r => .ok (g r)) = .ok t) :
    t.cycles = s.cycles + n s.p := by
  obtain ⟨r, hr, h⟩ := Except.bind_ok.1 h
  cases h
  rw [hg, (pushW_pushed hr).cycles, (pushW_pushed hr).p]

/-- A pull and then a charge `n` that the flags tell. -/
theorem pullW_cycles {w : Width} {g : Word × State → State} (n : Byte → Nat)
    (hg : ∀ p, (g p).cycles = p.2.cycles + n p.2.p) (h : (pullW w s >>= fun p => .ok (g p)) = .ok t) :
    t.cycles = s.cycles + n s.p := by
  obtain ⟨⟨v, r⟩, hr, h⟩ := Except.bind_ok.1 h
  cases h
  rw [hg]
  obtain ⟨_, _, rfl⟩ := pullW_pulled hr
  rfl

theorem chargeNative_cycles (s : State) : s.chargeNative.cycles = s.cycles + if s.e = false then 1 else 0 := by
  rw [State.chargeNative_cycles]
  cases s.e <;> rfl

theorem softInterrupt_cycles {k : IntKind} (h : softInterrupt k s = .ok t) :
    t.cycles = s.cycles + if s.e = false then 1 else 0 := by
  obtain ⟨r, hr, h⟩ := Except.bind_ok.1 h
  obtain ⟨u, hu, rfl⟩ := enter_ok hr
  cases h
  rw [chargeNative_cycles, State.atVector_cycles, State.atVector_e, hu.cycles, hu.e]

theorem rti_cycles (h : Machine.rti s = .ok t) : t.cycles = s.cycles + if s.e = false then 1 else 0 := by
  obtain ⟨r, hr, h⟩ := Except.bind_ok.1 h
  obtain ⟨p, pc, b, hreads, -⟩ := leave_returned hr
  cases h
  rw [chargeNative_cycles]
  obtain ⟨_, _, rfl⟩ := hreads
  rfl

/-! ### Every instruction -/

/-- A handler that resolves without an access costs what it has to charge. -/
theorem Costs.of_cycles {n : Nat} (hm : i.mnemonic = m) (hp : m ∉ pointerMnemonics) (ht : t.cycles = s.cycles + n)
    (hn : ∀ crossed, handlerCycles i.form s t.pc crossed m = n) : Costs i.form m s t := by
  obtain ⟨o, u, hr⟩ := resolve_of_not_pointer (hm ▸ hp) s
  exact ⟨o, u, hr, by rw [ht, hn]⟩

/-- A handler that reads its operand and then charges `n` pays the index penalty with it. -/
theorem Costs.of_operand {n : Byte → Nat} {w : Width} {g : Word × State → State}
    (h : (readOperand f w s >>= fun p => .ok (g p)) = .ok t) (hg : ∀ p, (g p).cycles = p.2.cycles + n p.2.p)
    (hn : ∀ crossed, handlerCycles f s t.pc crossed m = indexPenalty f (s.flag .x) crossed + n s.p) :
    Costs f m s t := by
  obtain ⟨o, u, hr, ht⟩ := operand_cycles n hg h
  exact ⟨o, u, hr, by rw [ht, hn, Nat.add_assoc]⟩

/-- A handler that stores its operand and then charges `n`. -/
theorem Costs.of_store {n : Byte → Nat} {w : Width} {v : Word} {g : State → State}
    (h : (storeOperand f w v s >>= fun r => .ok (g r)) = .ok t) (hg : ∀ r, (g r).cycles = r.cycles + n r.p)
    (hn : ∀ crossed, handlerCycles f s t.pc crossed m = n s.p) : Costs f m s t := by
  obtain ⟨o, u, hr, ht⟩ := store_cycles n hg h
  exact ⟨o, u, hr, by rw [ht, hn]⟩

/-- Every handler that answers charges its own penalties: the operand forms, the stack, the branches and the
interrupts by what each charges, and the others nothing. -/
theorem handler_costs (h : handler i.form s i.mnemonic = .ok t) : Costs i.form i.mnemonic s t := by
  by_cases hrmw : i.mnemonic ∈ rmwMnemonics
  · exact handler_costs_of_rmw hrmw h
  by_cases hc : i.mnemonic ∉ chargedMnemonics
  · exact handler_costs_of_not_charged hc h
  have isSet (b : Bool) : b = true ↔ b = true := Iff.rfl
  have isClear (b : Bool) : b = false ↔ (!b) = true := by simp
  cases hm : i.mnemonic <;> rw [hm] at h hrmw hc
  case lda | sbc | cmp | and | ora | eor | bit =>
    exact .of_operand (n := mPenalty) h (fun _ => rfl) fun _ => rfl
  case ldx | ldy => exact .of_operand (n := xPenalty) h (fun _ => rfl) fun _ => rfl
  case cpx | cpy =>
    refine .of_operand (n := xPenalty) h (fun _ => rfl) fun _ => ?_
    rw [indexPenalty_of_compareIndex (by rw [hm]; exact of_decide_eq_true rfl), Nat.zero_add]
    rfl
  case adc =>
    obtain ⟨r, hr, h⟩ := Except.bind_ok.1 h
    cases h
    obtain ⟨o, u, hresolve, ht⟩ := operand_cycles mPenalty (fun _ => rfl) hr
    exact ⟨o, u, hresolve, by rw [State.charge_cycles, ht, handlerCycles]; omega⟩
  case sta | stz => exact .of_store (n := mPenalty) h (fun _ => rfl) fun _ => rfl
  case stx | sty => exact .of_store (n := xPenalty) h (fun _ => rfl) fun _ => rfl
  case pha => exact .of_cycles hm (of_decide_eq_true rfl) (pushW_cycles mPenalty (fun _ => rfl) h) fun _ => rfl
  case phx | phy => exact .of_cycles hm (of_decide_eq_true rfl) (pushW_cycles xPenalty (fun _ => rfl) h) fun _ => rfl
  case pla => exact .of_cycles hm (of_decide_eq_true rfl) (pullW_cycles mPenalty (fun _ => rfl) h) fun _ => rfl
  case plx | ply => exact .of_cycles hm (of_decide_eq_true rfl) (pullW_cycles xPenalty (fun _ => rfl) h) fun _ => rfl
  case bpl | bvc | bcc | bne =>
    cases h
    exact .of_cycles hm (of_decide_eq_true rfl) (branchOn_cycles (isClear _) _) fun _ => rfl
  case bmi | bvs | bcs | beq =>
    cases h
    exact .of_cycles hm (of_decide_eq_true rfl) (branchOn_cycles (isSet _) _) fun _ => rfl
  case bra =>
    cases h
    exact .of_cycles hm (of_decide_eq_true rfl) (branchTo_cycles _ s) fun _ => branchCycles_eq ..
  case brk | cop => exact .of_cycles hm (of_decide_eq_true rfl) (softInterrupt_cycles h) fun _ => rfl
  case rti => exact .of_cycles hm (of_decide_eq_true rfl) (rti_cycles h) fun _ => rfl
  case inc | dec | asl | lsr | rol | ror | tsb | trb => exact absurd (of_decide_eq_true rfl) hrmw
  all_goals exact absurd (of_decide_eq_true rfl) hc

/-- Settles O33: `State.begin` counts what is known before the handler, the handler charges the rest, and `Normalize`
nothing. -/
theorem stepCycles : Obligations.StepCycles := by
  intro i s t h
  obtain ⟨u, hu, rfl⟩ := exec_next h
  obtain ⟨o, r, hr, ht⟩ := handler_costs hu
  exact ⟨o, r, hr, by rw [instrCycles_eq, State.normalize_cycles, State.normalize_pc, ht]⟩

end Sys2Proof.Machine
